-- ==== Sys2Proof/Word.lean ====
section
/-! DEFINITION. The three word widths of the device bus: bytes of logs, packets and memory, the 32-bit device
registers (R110) and the 64-bit tick counter (R101). -/

namespace Sys2Proof

/-- One byte of a log, a packet, an image file or physical memory. -/
abbrev Byte := BitVec 8

/-- One device register, one DMA word, one physical address (R110, R200). -/
abbrev Word := BitVec 32

/-- A value of the tick counter, or the fire time of an event (R101, R103). -/
abbrev Time := BitVec 64

end Sys2Proof
end

