-- ==== Sys2Proof/Syntax.lean ====
section
/-! DEFINITION. The whole syntax: interrupt lines, slots, device types, command ports, and the 24 device commands of
spec/opcode_table.json, one constructor per row. A command carries the slot it is written to and every bit of its word
that is not the op field, the ignored bits too, because an accepted word is stored whole (R506). -/

namespace Sys2Proof

/-- The five device interrupt lines, 3 to 7 (R100, R1200). -/
inductive Line where
  | l3 | l4 | l5 | l6 | l7
  deriving DecidableEq, Repr

/-- The position of a line among the five. -/
def Line.idx : Line → Fin 5
  | .l3 => 0 | .l4 => 1 | .l5 => 2 | .l6 => 3 | .l7 => 4

/-- A device address `(line, dev)` (R12). -/
structure Slot where
  line : Line
  dev : Fin 8
  deriving DecidableEq, Repr

/-- The position of a slot among the 40, in increasing `(line, dev)` order (R106, R1306). -/
def Slot.idx (sl : Slot) : Fin 40 :=
  ⟨sl.line.idx.val * 8 + sl.dev.val, by have := sl.line.idx.isLt; have := sl.dev.isLt; omega⟩

/-- The five device types; a slot with none of them is the NULL placeholder (R2, R106). -/
inductive DevKind where
  | printer | terminal | disk | flash | eth
  deriving DecidableEq, Repr

/-- The sub-device a register belongs to: a terminal has a receive and a transmit half, every other device a
single one (R505, T2). -/
inductive Sub where
  | single | rx | tx
  deriving DecidableEq, Repr

/-- The command register a word is written to: the decoding table is chosen by the type of the slot and, on a
terminal, by the register index (R300). -/
inductive Port where
  | printer | termRx | termTx | disk | flash | eth
  deriving DecidableEq, Repr

/-- The device commands. `ign` is the ignored part of the word (R302). -/
inductive Instr where
  | printerReset (sl : Slot) (ign : BitVec 24)
  | printerAck (sl : Slot) (ign : BitVec 24)
  | printerPrntchr (sl : Slot) (ign : BitVec 24)
  | termRxReset (sl : Slot) (ign : BitVec 24)
  | termRxAck (sl : Slot) (ign : BitVec 24)
  | termRxRecvchr (sl : Slot) (ign : BitVec 24)
  | termTxReset (sl : Slot) (ign : BitVec 24)
  | termTxAck (sl : Slot) (ign : BitVec 24)
  | termTxTranchr (sl : Slot) (char : BitVec 8) (ign : BitVec 16)
  | diskReset (sl : Slot) (ign : BitVec 24)
  | diskAck (sl : Slot) (ign : BitVec 24)
  | diskSeekcyl (sl : Slot) (cyl : BitVec 16) (ign : BitVec 8)
  | diskReadblk (sl : Slot) (head sect : BitVec 8) (ign : BitVec 8)
  | diskWriteblk (sl : Slot) (head sect : BitVec 8) (ign : BitVec 8)
  | flashReset (sl : Slot) (ign : BitVec 24)
  | flashAck (sl : Slot) (ign : BitVec 24)
  | flashReadblk (sl : Slot) (blk : BitVec 24)
  | flashWriteblk (sl : Slot) (blk : BitVec 24)
  | ethReset (sl : Slot) (ign : BitVec 24)
  | ethAck (sl : Slot) (ign : BitVec 24)
  | ethReadconf (sl : Slot) (ign : BitVec 24)
  | ethReadnet (sl : Slot) (ign : BitVec 24)
  | ethWritenet (sl : Slot) (ign : BitVec 24)
  | ethConfigure (sl : Slot) (ign : BitVec 24)
  deriving DecidableEq, Repr

/-- The slot a command is written to. -/
def Instr.slot : Instr → Slot
  | .printerReset sl _ | .printerAck sl _ | .printerPrntchr sl _ => sl
  | .termRxReset sl _ | .termRxAck sl _ | .termRxRecvchr sl _ => sl
  | .termTxReset sl _ | .termTxAck sl _ | .termTxTranchr sl _ _ => sl
  | .diskReset sl _ | .diskAck sl _ | .diskSeekcyl sl _ _ => sl
  | .diskReadblk sl _ _ _ | .diskWriteblk sl _ _ _ => sl
  | .flashReset sl _ | .flashAck sl _ | .flashReadblk sl _ | .flashWriteblk sl _ => sl
  | .ethReset sl _ | .ethAck sl _ | .ethReadconf sl _ => sl
  | .ethReadnet sl _ | .ethWritenet sl _ | .ethConfigure sl _ => sl

/-- The command register a command is written to (the table's "device" and "register" columns). -/
def Instr.port : Instr → Port
  | .printerReset .. | .printerAck .. | .printerPrntchr .. => .printer
  | .termRxReset .. | .termRxAck .. | .termRxRecvchr .. => .termRx
  | .termTxReset .. | .termTxAck .. | .termTxTranchr .. => .termTx
  | .diskReset .. | .diskAck .. | .diskSeekcyl .. | .diskReadblk .. | .diskWriteblk .. => .disk
  | .flashReset .. | .flashAck .. | .flashReadblk .. | .flashWriteblk .. => .flash
  | .ethReset .. | .ethAck .. | .ethReadconf .. | .ethReadnet .. | .ethWritenet .. | .ethConfigure .. => .eth

/-- The device type that hosts a command register. -/
def Port.kind : Port → DevKind
  | .printer => .printer
  | .termRx => .terminal
  | .termTx => .terminal
  | .disk => .disk
  | .flash => .flash
  | .eth => .eth

/-- The sub-device a command register drives (R505). -/
def Port.sub : Port → Sub
  | .termRx => .rx
  | .termTx => .tx
  | _ => .single

end Sys2Proof
end

