-- ==== Sys2Proof/Config.lean ====
section
/-! DEFINITION. The implementation parameters of table T1 (R8) as plain data, the test configuration TC of
spec/95_test_vectors.md, and the free values: the host answers and undefined bytes no rule fixes, as constants without
a body. -/

namespace Sys2Proof

/-- `IMAGE_BYTE_ORDER` (R205); also used for the fixed little-endian order of registers and DMA (R203, R204). -/
inductive ByteOrder where
  | big | little
  deriving DecidableEq, Repr

/-- `ZERO_DELAY_POLICY`: when an event due at the current TOD is dispatched (R406, R414). -/
inductive ZeroDelayPolicy where
  | sameStep | nextTick
  deriving DecidableEq, Repr

/-- A range of physical addresses `lo ≤ a < hi`. -/
structure AddrRange where
  lo : Nat
  hi : Nat
  deriving DecidableEq, Repr

/-- How `MemPort.decodeFails` is answered (R604): by a predicate (a transfer succeeds iff it lies inside one of the
ranges), or by one draw per transfer. -/
inductive MemPort where
  | ranges (rs : List AddrRange)
  | oracle
  deriving DecidableEq, Repr

/-- Whether the host's file and log operations can fail (R706, R819, R919): never, but for a transfer outside the file,
or by one draw per operation. -/
inductive HostIo where
  | reliable
  | oracle
  deriving DecidableEq, Repr

/-- `LINE_TYPE(line)`: the device type each line may host (R8, R1301). -/
structure LineTypes where
  l3 : DevKind
  l4 : DevKind
  l5 : DevKind
  l6 : DevKind
  l7 : DevKind
  deriving DecidableEq, Repr

/-- The device type of one line. -/
def LineTypes.of (t : LineTypes) : Line → DevKind
  | .l3 => t.l3 | .l4 => t.l4 | .l5 => t.l5 | .l6 => t.l6 | .l7 => t.l7

/-- The OPEN parameters of table T1 (R8). Every step leaves them unchanged (R9). -/
structure Config where
  /-- `CLOCK_RATE`, ticks per microsecond -/
  clockRate : Nat
  /-- `DMATICKS` -/
  dmaTicks : Nat
  /-- `READRATIO_NUM` -/
  readRatioNum : Nat
  /-- `READRATIO_DEN` -/
  readRatioDen : Nat
  /-- `POLLNETTIME`, microseconds -/
  pollNetTime : Nat
  /-- `DISKFILEID` -/
  diskFileId : Word
  /-- `FLASHFILEID` -/
  flashFileId : Word
  /-- `COREFILEID` -/
  coreFileId : Word
  maxCyl : Nat
  maxHead : Nat
  maxSect : Nat
  /-- `MINRPM`, `MAXRPM`: bounds on the image producer's input; no rule of the block reads them (R1305) -/
  minRpm : Nat
  maxRpm : Nat
  minDataS : Nat
  maxDataS : Nat
  maxBlocks : Nat
  /-- `ETH_RESET_TIME`, microseconds -/
  ethResetTime : Nat
  /-- `ETH_CMD_TIME(READCONF)` -/
  ethReadConfTime : Nat
  /-- `ETH_CMD_TIME(READNET)` -/
  ethReadNetTime : Nat
  /-- `ETH_CMD_TIME(WRITENET)` -/
  ethWriteNetTime : Nat
  /-- `ETH_CMD_TIME(CONFIGURE)` -/
  ethConfigureTime : Nat
  /-- `ETH_MODE_INTERRUPT`, a bit of 0x7F -/
  ethModeInterrupt : Byte
  ethMaxPacket : Nat
  imageByteOrder : ByteOrder
  lineTypes : LineTypes
  /-- `DEV_REG_ADDR(line, dev)` by slot number, the base addresses of the external decoder (R201) -/
  devRegAddr : Vector Word 40
  /-- `BUS_TODLO_ADDR` (R206) -/
  todLoAddr : Word
  /-- `BUS_BITMAP_ADDR(line)` by line number (R206) -/
  bitmapAddr : Vector Word 5
  zeroDelay : ZeroDelayPolicy
  memPort : MemPort
  hostIo : HostIo
  deriving DecidableEq, Repr

/-- `FLASH_RESET_BASE`, microseconds (T1, D32). -/
def Config.flashResetBase : Nat := 400

/-- `FLASH_SKIP_COREFILEID` (T1, D33). -/
def Config.flashSkipCoreFileId : Bool := true

/-- `TOD_INIT` (T1, D3). -/
def Config.todInit : Time := 0#64

/-- The test configuration TC of spec/95_test_vectors.md, the one assignment of OPEN parameters the spec writes down.
DESIGN CHOICE (log 2): the reset state uses it; no rule reads a particular value. The addresses, which TC does not
give, are PRESUMED (log 13): the conventional ones of spec/93_implementation_defined.md G2. -/
def Config.tc : Config where
  clockRate := 1
  dmaTicks := 2
  readRatioNum := 1
  readRatioDen := 2
  pollNetTime := 100
  diskFileId := 0xD15C0001#32
  flashFileId := 0xF1A50001#32
  coreFileId := 0xC02E0001#32
  maxCyl := 32767
  maxHead := 255
  maxSect := 255
  minRpm := 0
  maxRpm := 0
  minDataS := 1
  maxDataS := 100
  maxBlocks := 0xFFFFFF
  ethResetTime := 400
  ethReadConfTime := 10
  ethReadNetTime := 10
  ethWriteNetTime := 10
  ethConfigureTime := 10
  ethModeInterrupt := 0x01#8
  ethMaxPacket := 1514
  imageByteOrder := .big
  lineTypes := { l3 := .disk, l4 := .flash, l5 := .eth, l6 := .printer, l7 := .terminal }
  devRegAddr := Vector.ofFn fun k => 0x10000054#32 + BitVec.ofNat 32 (16 * k.val)
  todLoAddr := 0x1000001C#32
  bitmapAddr := Vector.ofFn fun k => 0x10000040#32 + BitVec.ofNat 32 (4 * k.val)
  zeroDelay := .sameStep
  memPort := .ranges [{ lo := 0x20000000, hi := 0x20010000 }]
  hostIo := .reliable

/-- One answer of `NI.recv()` (R1101): the length, 0 for none and negative for an error, and the bytes. Nothing ties the
one to the other. -/
structure Recv where
  len : Int
  bytes : List Byte
  deriving DecidableEq, Repr, Inhabited

/-! Free values (log 5, log 6). The first argument is the state's draw counter, so each draw is a fresh value. -/

/-- The answer of `MemPort.decodeFails(addr, n)` under the oracle reading (R604). -/
opaque Config.freeDecodeFails : Nat → Word → Nat → Bool

/-- Whether a host file or log operation fails (R706, R819, R919). -/
opaque Config.freeIoFails : Nat → Bool

/-- The answer of `NI.waiting()` (R1101). -/
opaque Config.freeWaiting : Nat → Bool

/-- The answer of `NI.recv()` (R1101). -/
opaque Config.freeRecv : Nat → Recv

/-- The answer of `NI.send(bytes, n)` (R1101). -/
opaque Config.freeSent : Nat → Nat

/-- Byte `j` of a memory range a failed DMA leaves unspecified (R601), of the gap before a block written past the end of
an image (log 8), or of a transfer longer than its buffer (log 9). -/
opaque Config.freeByte : Nat → Nat → Byte

/-- Word `i` of a device buffer a failed DMA leaves unspecified (R602). -/
opaque Config.freeWord : Nat → Nat → Word

end Sys2Proof
end

