-- ==== Sys2Proof/WellFormed.lean ====
section
/-! DEFINITION. Well-formedness: of a command (the one line whose device type the spec fixes, T1) and of a
configuration (the bounds table T1 gives its OPEN parameters). -/

namespace Sys2Proof

/-- T1: `LINE_TYPE` is OPEN except that line 6 hosts printers, so a command to a slot of line 6 is a printer
command. -/
def Instr.wellFormed (i : Instr) : Bool :=
  i.slot.line != .l6 || i.port == .printer

/-- `CLOCK_RATE ≥ 1` -/
def Config.clockOk (c : Config) : Bool := 1 ≤ c.clockRate

/-- `READRATIO_DEN ≥ 1` -/
def Config.ratioOk (c : Config) : Bool := 1 ≤ c.readRatioDen

/-- `POLLNETTIME ≥ 1` -/
def Config.pollOk (c : Config) : Bool := 1 ≤ c.pollNetTime

/-- `MAXCYL ≤ 65535`, `MAXHEAD ≤ 255`, `MAXSECT ≤ 255` -/
def Config.geometryOk (c : Config) : Bool :=
  c.maxCyl ≤ 65535 && c.maxHead ≤ 255 && c.maxSect ≤ 255

/-- `MINDATAS`, `MAXDATAS` within 0..100 -/
def Config.percentOk (c : Config) : Bool := c.minDataS ≤ 100 && c.maxDataS ≤ 100

/-- `MAXBLOCKS ≤ 2^24` -/
def Config.blocksOk (c : Config) : Bool := c.maxBlocks ≤ 2 ^ 24

/-- `ETH_MODE_INTERRUPT` is one bit of 0x7F -/
def Config.modeBitOk (c : Config) : Bool :=
  (List.range 7).any fun k => c.ethModeInterrupt == 1#8 <<< k

/-- line 6 hosts printers -/
def Config.linesOk (c : Config) : Bool := c.lineTypes.l6 == .printer

/-- The bounds of table T1 (R8). -/
def Config.wf (c : Config) : Bool :=
  c.clockOk && c.ratioOk && c.pollOk && c.geometryOk && c.percentOk && c.blocksOk && c.modeBitOk && c.linesOk

end Sys2Proof
end

