-- ==== Sys2Proof/Decode.lean ====
section
/-! DEFINITION. Decoding a command word (R300 to R315), total, rejecting by name; then the encoder, written from the
same formats; then the reading of a bare table word. -/

namespace Sys2Proof

/-- Why a command word is no instruction. -/
inductive DecodeError where
  /-- the op code is not in the port's table (R315) -/
  | illegalOp (p : Port) (op : Byte)
  /-- fewer than the four bytes of a command word -/
  | truncated
  deriving DecidableEq, Repr

/-- `op = COMMAND[7:0]` (R301). -/
def opField (w : Word) : BitVec 8 := w.extractLsb' 0 8

/-- Bits [31:8]: the ignored part of format P (R303), or the block index of format FRW (R307). -/
def restField (w : Word) : BitVec 24 := w.extractLsb' 8 24

/-- Bits [15:8]: `char` (R304), `sect` (R306), ignored in DS (R305). -/
def byte1Field (w : Word) : BitVec 8 := w.extractLsb' 8 8

/-- Bits [23:16]: `head` (R306). -/
def byte2Field (w : Word) : BitVec 8 := w.extractLsb' 16 8

/-- Bits [31:24]: ignored in DRW (R306). -/
def byte3Field (w : Word) : BitVec 8 := w.extractLsb' 24 8

/-- Bits [31:16]: `cyl` (R305), ignored in TX (R304). -/
def highField (w : Word) : BitVec 16 := w.extractLsb' 16 16

/-- Printer commands (R309). -/
def decodePrinter (sl : Slot) (w : Word) : Except DecodeError Instr :=
  if opField w = 0#8 then .ok (.printerReset sl (restField w))
  else if opField w = 1#8 then .ok (.printerAck sl (restField w))
  else if opField w = 2#8 then .ok (.printerPrntchr sl (restField w))
  else .error (.illegalOp .printer (opField w))

/-- Terminal receive commands (R310). -/
def decodeTermRx (sl : Slot) (w : Word) : Except DecodeError Instr :=
  if opField w = 0#8 then .ok (.termRxReset sl (restField w))
  else if opField w = 1#8 then .ok (.termRxAck sl (restField w))
  else if opField w = 2#8 then .ok (.termRxRecvchr sl (restField w))
  else .error (.illegalOp .termRx (opField w))

/-- Terminal transmit commands (R310). -/
def decodeTermTx (sl : Slot) (w : Word) : Except DecodeError Instr :=
  if opField w = 0#8 then .ok (.termTxReset sl (restField w))
  else if opField w = 1#8 then .ok (.termTxAck sl (restField w))
  else if opField w = 2#8 then .ok (.termTxTranchr sl (byte1Field w) (highField w))
  else .error (.illegalOp .termTx (opField w))

/-- Disk commands (R311). -/
def decodeDisk (sl : Slot) (w : Word) : Except DecodeError Instr :=
  if opField w = 0#8 then .ok (.diskReset sl (restField w))
  else if opField w = 1#8 then .ok (.diskAck sl (restField w))
  else if opField w = 2#8 then .ok (.diskSeekcyl sl (highField w) (byte1Field w))
  else if opField w = 3#8 then .ok (.diskReadblk sl (byte2Field w) (byte1Field w) (byte3Field w))
  else if opField w = 4#8 then .ok (.diskWriteblk sl (byte2Field w) (byte1Field w) (byte3Field w))
  else .error (.illegalOp .disk (opField w))

/-- Flash commands (R312). -/
def decodeFlash (sl : Slot) (w : Word) : Except DecodeError Instr :=
  if opField w = 0#8 then .ok (.flashReset sl (restField w))
  else if opField w = 1#8 then .ok (.flashAck sl (restField w))
  else if opField w = 2#8 then .ok (.flashReadblk sl (restField w))
  else if opField w = 3#8 then .ok (.flashWriteblk sl (restField w))
  else .error (.illegalOp .flash (opField w))

/-- Ethernet commands (R313). -/
def decodeEth (sl : Slot) (w : Word) : Except DecodeError Instr :=
  if opField w = 0#8 then .ok (.ethReset sl (restField w))
  else if opField w = 1#8 then .ok (.ethAck sl (restField w))
  else if opField w = 2#8 then .ok (.ethReadconf sl (restField w))
  else if opField w = 3#8 then .ok (.ethReadnet sl (restField w))
  else if opField w = 4#8 then .ok (.ethWritenet sl (restField w))
  else if opField w = 5#8 then .ok (.ethConfigure sl (restField w))
  else .error (.illegalOp .eth (opField w))

/-- The instruction a word written to a command register is (R300, R506). -/
def decode (p : Port) (sl : Slot) (w : Word) : Except DecodeError Instr :=
  match p with
  | .printer => decodePrinter sl w
  | .termRx => decodeTermRx sl w
  | .termTx => decodeTermTx sl w
  | .disk => decodeDisk sl w
  | .flash => decodeFlash sl w
  | .eth => decodeEth sl w

/-- The bytes of a command word as they lie in the register window, least significant first (R203). -/
def commandBytes (w : Word) : List Byte :=
  [w.extractLsb' 0 8, w.extractLsb' 8 8, w.extractLsb' 16 8, w.extractLsb' 24 8]

/-- Decoding from bytes in window order; the bytes after the word are handed back. -/
def decodeBytes (p : Port) (sl : Slot) : List Byte → Except DecodeError (Instr × List Byte)
  | b0 :: b1 :: b2 :: b3 :: rest =>
    match decode p sl (b3 ++ b2 ++ b1 ++ b0 : BitVec 32) with
    | .ok i => .ok (i, rest)
    | .error e => .error e
  | _ => .error .truncated

/-! The encoder. -/

/-- Format P (R303); with the block index in place of the ignored bits, format FRW (R307). -/
def wordP (op : BitVec 8) (rest : BitVec 24) : Word := (rest.setWidth 32 <<< 8) ||| op.setWidth 32

/-- Format TX (R304). -/
def wordTX (op char : BitVec 8) (ign : BitVec 16) : Word :=
  (ign.setWidth 32 <<< 16) ||| (char.setWidth 32 <<< 8) ||| op.setWidth 32

/-- Format DS (R305). -/
def wordDS (op : BitVec 8) (cyl : BitVec 16) (ign : BitVec 8) : Word :=
  (cyl.setWidth 32 <<< 16) ||| (ign.setWidth 32 <<< 8) ||| op.setWidth 32

/-- Format DRW (R306). -/
def wordDRW (op head sect ign : BitVec 8) : Word :=
  (ign.setWidth 32 <<< 24) ||| (head.setWidth 32 <<< 16) ||| (sect.setWidth 32 <<< 8) ||| op.setWidth 32

/-- The word of a command (R303 to R313). -/
def encode : Instr → Word
  | .printerReset _ ign => wordP 0#8 ign
  | .printerAck _ ign => wordP 1#8 ign
  | .printerPrntchr _ ign => wordP 2#8 ign
  | .termRxReset _ ign => wordP 0#8 ign
  | .termRxAck _ ign => wordP 1#8 ign
  | .termRxRecvchr _ ign => wordP 2#8 ign
  | .termTxReset _ ign => wordP 0#8 ign
  | .termTxAck _ ign => wordP 1#8 ign
  | .termTxTranchr _ char ign => wordTX 2#8 char ign
  | .diskReset _ ign => wordP 0#8 ign
  | .diskAck _ ign => wordP 1#8 ign
  | .diskSeekcyl _ cyl ign => wordDS 2#8 cyl ign
  | .diskReadblk _ head sect ign => wordDRW 3#8 head sect ign
  | .diskWriteblk _ head sect ign => wordDRW 4#8 head sect ign
  | .flashReset _ ign => wordP 0#8 ign
  | .flashAck _ ign => wordP 1#8 ign
  | .flashReadblk _ blk => wordP 2#8 blk
  | .flashWriteblk _ blk => wordP 3#8 blk
  | .ethReset _ ign => wordP 0#8 ign
  | .ethAck _ ign => wordP 1#8 ign
  | .ethReadconf _ ign => wordP 2#8 ign
  | .ethReadnet _ ign => wordP 3#8 ign
  | .ethWritenet _ ign => wordP 4#8 ign
  | .ethConfigure _ ign => wordP 5#8 ign

/-- The op code of a command's row in spec/opcode_table.json. -/
def Instr.opcode : Instr → BitVec 8
  | .printerReset .. | .termRxReset .. | .termTxReset .. | .diskReset .. | .flashReset .. | .ethReset .. => 0#8
  | .printerAck .. | .termRxAck .. | .termTxAck .. | .diskAck .. | .flashAck .. | .ethAck .. => 1#8
  | .printerPrntchr .. | .termRxRecvchr .. | .termTxTranchr .. | .diskSeekcyl .. => 2#8
  | .flashReadblk .. | .ethReadconf .. => 2#8
  | .diskReadblk .. | .flashWriteblk .. | .ethReadnet .. => 3#8
  | .diskWriteblk .. | .ethWritenet .. => 4#8
  | .ethConfigure .. => 5#8

/-- How many op codes a port's table lists; they are 0 up to this number, exclusive (R309 to R313). -/
def Port.opCount : Port → Nat
  | .printer | .termRx | .termTx => 3
  | .disk => 5
  | .flash => 4
  | .eth => 6

/-- The slot of a bare table word: the table's words name no device, so they are read at an ethernet slot, the one
device type whose table lists every op code the opcode table uses. DESIGN CHOICE (log 4). -/
def tableSlot : Slot := { line := .l5, dev := 0 }

/-- The instruction read from a bare table word of `nbits` bits (every bit above is 0), at `tableSlot`. -/
def decodeTableWord (nbits w : Nat) : Option Instr :=
  match decodeBytes .eth tableSlot (commandBytes (BitVec.ofNat 32 (w % 2 ^ nbits))) with
  | .ok (i, _) => some i
  | .error _ => none

end Sys2Proof
end

