-- ==== Sys2Proof/Machine/State.lean ====
section
/-! DEFINITION. The state of the device-bus block as plain data (R100 to R127): the clock, the event queue, the pending
bitmaps, the 40 device slots, the fatal flag and the trace; with the physical memory DMA reaches, the configuration
(R9), and the model's own fields for the environment (the request script, the host's answers, the reply). Then the
reasons a step stops, and the state after reset. -/

namespace Sys2Proof.Machine

/-- Why the simulation was aborted (R1221). -/
inductive FatalReason where
  | imageOpenFailed | badMagic | badParams | imageReadFailed | imageWriteFailed | logWriteFailed
  | inputToNonTerminal | timeOverflow | zeroSectorTicks | invariant
  deriving DecidableEq, Repr

/-- The two kinds of event (R103). -/
inductive EventKind where
  | complete | poll
  deriving DecidableEq, Repr

/-- A scheduled event (R103). -/
structure Event where
  fire : Time
  seq : Nat
  target : Slot
  kind : EventKind
  deriving DecidableEq, Repr

/-- An observer signal (R107, R520); the text of a status description is not modelled (R4 (g)). -/
inductive Signal where
  | statusChanged (sl : Slot)
  | transmitted (b : Byte)
  | conditionChanged (b : Bool)
  deriving DecidableEq, Repr

/-- Bytes by address: addresses strictly rising, no entry equal to `unlisted`. -/
abbrev Memory := List Host.Cell

/-- What an address with no entry reads as. DESIGN CHOICE (log 7). -/
def unlisted : Byte := 0#8

/-- A backing image file: its size in bytes, and its bytes by offset (R123, R200). -/
structure File where
  size : Nat
  cells : Memory
  deriving DecidableEq, Repr

/-- A block of 1024 words (R127). -/
abbrev Block := List Word

/-- The operation a printer has in progress (R121). -/
inductive PrinterOp where
  | reset | print
  deriving DecidableEq, Repr

/-- A printer slot (R121). -/
structure Printer where
  op : Option PrinterOp
  log : List Byte
  deriving DecidableEq, Repr

/-- The operation a terminal half has in progress (R122). -/
inductive HalfOp where
  | reset | char
  deriving DecidableEq, Repr

/-- One half of a terminal (R122). -/
structure Half where
  op : Option HalfOp
  ctime : Time
  ipend : Bool
  deriving DecidableEq, Repr

/-- A terminal slot (R122). -/
structure Terminal where
  rx : Half
  tx : Half
  rxbuf : List Byte
  log : List Byte
  deriving DecidableEq, Repr

/-- The operation a disk has in progress (R123). -/
inductive DiskOp where
  | reset
  | seek (c : BitVec 16)
  | read (head sect : BitVec 8) (hit : Bool)
  | write (head sect : BitVec 8)
  deriving DecidableEq, Repr

/-- The key of the disk's one-sector cache (R123, R124). -/
structure DiskCache where
  cyl : Word
  head : Word
  sect : Word
  deriving DecidableEq, Repr

/-- A disk slot (R123). -/
structure Disk where
  cyls : Nat
  heads : Nat
  sects : Nat
  rotTime : Nat
  seekTime : Nat
  dataPct : Nat
  dataOff : Nat
  curCyl : Word
  cache : DiskCache
  buf : Block
  op : Option DiskOp
  image : File
  deriving DecidableEq, Repr

/-- The operation a flash has in progress (R125). -/
inductive FlashOp where
  | reset
  | read (b : BitVec 24) (hit : Bool)
  | write (b : BitVec 24)
  deriving DecidableEq, Repr

/-- A flash slot (R125). -/
structure Flash where
  blocks : Nat
  writeTime : Nat
  dataOff : Nat
  cacheBlk : Word
  buf : Block
  op : Option FlashOp
  image : File
  deriving DecidableEq, Repr

/-- The operation an ethernet device has in progress (R126). -/
inductive EthOp where
  | reset | readConf | readNet | writeNet | configure
  deriving DecidableEq, Repr

/-- A MAC address, six bytes (R126). -/
structure Mac where
  m0 : Byte
  m1 : Byte
  m2 : Byte
  m3 : Byte
  m4 : Byte
  m5 : Byte
  deriving DecidableEq, Repr

/-- An ethernet slot (R126). -/
structure Eth where
  mode : Byte
  mac : Mac
  op : Option EthOp
  pktbuf : List Byte
  pollArmed : Bool
  deriving DecidableEq, Repr

/-- What a slot holds beyond its registers: a typed device, or nothing (R106, R120 to R126). -/
inductive DeviceBody where
  | null
  | printer (p : Printer)
  | terminal (t : Terminal)
  | disk (d : Disk)
  | flash (f : Flash)
  | eth (e : Eth)
  deriving DecidableEq, Repr

/-- One slot: its four registers (R110), its working flag (R114) and its body. -/
structure Device where
  regs : Vector Word 4
  working : Bool
  body : DeviceBody
  deriving DecidableEq, Repr

/-- The width of an access on the bus (R202). -/
inductive Width where
  | byte | half | word
  deriving DecidableEq, Repr

/-- One environment step (R5, R7, R319): what a bus master, the clock source or the host asks of the block. A register
access is already decoded to a slot and a byte offset in its 16-byte window (R201). -/
inductive Request where
  | load (sl : Slot) (off : BitVec 4) (w : Width)
  | store (sl : Slot) (off : BitVec 4) (w : Width) (v : Word)
  | tick
  | input (sl : Slot) (text : List Byte)
  | work (sl : Slot) (b : Bool)
  | readTodLo
  | writeTodLo (v : Word)
  | readBitmap (l : Line)
  | writeBitmap (l : Line) (v : Word)
  | nextFireTime
  | memLoad (a : Word) (n : Nat)
  | memStore (a : Word) (bytes : List Byte)
  deriving DecidableEq, Repr

/-- What the last request was answered (the model's own output field). -/
inductive Reply where
  | none
  | word (v : Word)
  | time (t : Option Time)
  | bytes (bs : List Byte)
  deriving DecidableEq, Repr

/-- A call the block made to a network interface (R1101). -/
inductive NetCall where
  | send (sl : Slot) (bytes : List Byte)
  | configure (sl : Slot) (mode : Byte) (mac : Mac)
  deriving DecidableEq, Repr

/-- The host's answers still to be drawn, one list per question, and the count of draws answered by a free value
because their list was empty (log 5). -/
structure HostTape where
  decodeFails : List Bool
  ioFails : List Bool
  waiting : List Bool
  recv : List Recv
  sent : List Nat
  drawn : Nat
  deriving DecidableEq, Repr

/-- The state (R100), with physical memory and the model's own environment fields. -/
structure State where
  /-- the configuration, which no step changes (R9) -/
  cfg : Config
  /-- the tick counter (R101) -/
  tod : Time
  /-- the next event insertion number (R102) -/
  seq : Nat
  /-- the pending events, in key order (R103, R402) -/
  queue : List Event
  /-- the pending bitmap of each line (R104) -/
  pend : Vector Byte 5
  /-- the 40 device slots (R106) -/
  slots : Vector Device 40
  /-- why the simulation was aborted, if it was (R105) -/
  fatal : Option FatalReason
  /-- the observer signals, oldest first (R107) -/
  trace : List Signal
  /-- physical memory, external to the block (R200) -/
  mem : Memory
  /-- the calls made to network interfaces, oldest first (R1101) -/
  net : List NetCall
  /-- the environment's requests still to come (model's own, log 1) -/
  script : List Request
  /-- the host's answers still to come (model's own, log 5) -/
  tape : HostTape
  /-- the answer to the last request (model's own, log 1) -/
  reply : Reply
  /-- the register index the last completion handler reported (R519) -/
  returned : Option (Fin 4)
  deriving DecidableEq, Repr

/-- The machine stops with a fault. -/
inductive Fault where
  /-- raised by the dispatch loop when events due now keep scheduling events due now, so that the spec's loop (R406)
  has no end; possible only for a configuration outside table T1's bounds. Safe. -/
  | endlessDrain
  deriving DecidableEq, Repr

/-- A request the block has no step for. -/
inductive Refusal where
  /-- raised by no arm once every instruction has its meaning. Safe. -/
  | notModelled (mnemonic : String)
  /-- raised by every step after a fatal error: "every port is refused" (R1220). Safe. -/
  | fatalState (r : FatalReason)
  /-- raised by a command's meaning when the slot hosts another device type: its word is then another command, or none
  (R300). Unreachable through `step`. Safe. -/
  | wrongDevice
  /-- raised by a byte or halfword register access (R202). Safe. -/
  | narrowAccess
  /-- raised by a register access whose offset is not a multiple of 4 (R202). Safe. -/
  | unalignedAccess
  /-- raised by a write to `TOD_LO` or to a pending bitmap (R206). Safe. -/
  | readOnlyWord
  /-- raised by the working toggle of a NULL slot (R516, spec/93 item 25). Safe. -/
  | workOnNull
  deriving DecidableEq, Repr

/-- `MAX_U32`, the cache-invalid sentinel (T1, R124). -/
def maxU32 : Word := 0xFFFFFFFF#32

/-- The invalid disk cache key (R124). -/
def DiskCache.invalid : DiskCache := { cyl := maxU32, head := maxU32, sect := maxU32 }

/-- The value the buffers hold at reset, which no rule reads before writing it (R123, R125). DESIGN CHOICE (log 3). -/
def Block.zero : Block := List.replicate 1024 0#32

/-- A freshly constructed NULL slot (R111). -/
def Device.null : Device := { regs := Vector.replicate 4 0#32, working := true, body := .null }

/-- A freshly constructed printer with the contents of its log file (R111, R121). -/
def Device.freshPrinter (log : List Byte) : Device :=
  { regs := #v[1#32, 0#32, 0#32, 0#32], working := true, body := .printer { op := none, log := log } }

/-- A freshly constructed terminal with the contents of its log file (R111, R122). -/
def Device.freshTerminal (log : List Byte) : Device :=
  { regs := #v[1#32, 0#32, 1#32, 0#32], working := true,
    body := .terminal
      { rx := { op := none, ctime := 0#64, ipend := false }, tx := { op := none, ctime := 0#64, ipend := false },
        rxbuf := [], log := log } }

/-- The geometry word of a disk, `(cyls<<16) | (heads<<8) | sects` (R317). -/
def geometryWord (cyls heads sects : Nat) : Word :=
  (BitVec.ofNat 32 cyls <<< 16) ||| (BitVec.ofNat 32 heads <<< 8) ||| BitVec.ofNat 32 sects

/-- A freshly constructed disk (R111, R123). -/
def Device.freshDisk (cyls heads sects rotTime seekTime dataPct dataOff : Nat) (image : File) : Device :=
  { regs := #v[1#32, 0#32, 0#32, geometryWord cyls heads sects], working := true,
    body := .disk
      { cyls, heads, sects, rotTime, seekTime, dataPct, dataOff, curCyl := 0#32, cache := .invalid,
        buf := Block.zero, op := none, image } }

/-- A freshly constructed flash (R111, R125). -/
def Device.freshFlash (blocks writeTime dataOff : Nat) (image : File) : Device :=
  { regs := #v[1#32, 0#32, 0#32, BitVec.ofNat 32 blocks], working := true,
    body := .flash { blocks, writeTime, dataOff, cacheBlk := maxU32, buf := Block.zero, op := none, image } }

/-- A freshly constructed ethernet device with its interface's mode and MAC (R111, R126); `mode` holds no SETMAC
bit. -/
def Device.freshEth (mode : Byte) (mac : Mac) : Device :=
  { regs := #v[1#32, 0#32, 0#32, 0#32], working := true,
    body := .eth { mode := mode &&& 0x7F#8, mac, op := none, pktbuf := [], pollArmed := false } }

/-- The disk image of TC: its header, big-endian, then blocks of zeros. -/
def tcDiskImage : File where
  size := 6553628
  cells := [(0, 0xD1#8), (1, 0x5C#8), (3, 0x01#8), (7, 100#8), (11, 2#8), (15, 8#8), (18, 0x3E#8), (19, 0x80#8),
    (23, 100#8), (27, 80#8)]

/-- The flash image of TC: its header, big-endian, then blocks of zeros. -/
def tcFlashImage : File where
  size := 262156
  cells := [(0, 0xF1#8), (1, 0xA5#8), (3, 0x01#8), (7, 64#8), (10, 0x03#8), (11, 0xE8#8)]

/-- The MAC of TC. -/
def tcMac : Mac := { m0 := 0x00#8, m1 := 0x11#8, m2 := 0x22#8, m3 := 0x33#8, m4 := 0x44#8, m5 := 0x55#8 }

/-- The 40 slots of TC right after construction: (3,0) disk, (4,0) flash, (5,0) ethernet, (6,0) and (6,1) printers,
(7,0) terminal, NULL elsewhere. -/
def tcSlots : Vector Device 40 :=
  (((((Vector.replicate 40 Device.null).set 0 (Device.freshDisk 100 2 8 16000 100 80 7 tcDiskImage)).set 8
    (Device.freshFlash 64 1000 3 tcFlashImage)).set 16 (Device.freshEth 0#8 tcMac)).set 24
    (Device.freshPrinter [])).set 25 (Device.freshPrinter []) |>.set 32 (Device.freshTerminal [])

/-- The machine right after its reset, which is its construction (R1300), under the configuration TC (log 2):
every field at the value R100 to R126 give it, nothing listed in memory, no request and no host answer yet. -/
def State.reset : State where
  cfg := Config.tc
  tod := Config.todInit
  seq := 0
  queue := []
  pend := Vector.replicate 5 0#8
  slots := tcSlots
  fatal := none
  trace := []
  mem := []
  net := []
  script := []
  tape := { decodeFails := [], ioFails := [], waiting := [], recv := [], sent := [], drawn := 0 }
  reply := .none
  returned := none

end Sys2Proof.Machine
end

