-- ==== Sys2Proof/Machine/Memory.lean ====
section
/-! DEFINITION. Sparse byte storage, used for physical memory (by 32-bit address, R200, R204) and for image files (by
byte offset, R911), and the byte orders of words and blocks (R203 to R205). -/

namespace Sys2Proof.Machine

/-- The byte at a key; a key with no entry reads as `unlisted`. -/
def readCell (a : Nat) : Memory → Byte
  | [] => unlisted
  | (k, v) :: rest => if k = a then v else readCell a rest

/-- Writing one byte, keeping the canonical form: an entry equal to `unlisted` is never kept. -/
def writeCell (a : Nat) (b : Byte) : Memory → Memory
  | [] => if b = unlisted then [] else [(a, b)]
  | (k, v) :: rest =>
    if a < k then (if b = unlisted then (k, v) :: rest else (a, b) :: (k, v) :: rest)
    else if a = k then (if b = unlisted then rest else (a, b) :: rest)
    else (k, v) :: writeCell a b rest

/-- The canonical form: keys strictly rising and below `bound`, no entry equal to `unlisted`. -/
abbrev cellsWf (bound : Nat) (m : Memory) : Prop :=
  m.Pairwise (fun c d => c.1 < d.1) ∧ ∀ c ∈ m, c.1 < bound ∧ c.2 ≠ unlisted

/-- The canonical form of physical memory, whose addresses are 32 bits wide (R200). -/
abbrev Memory.wf (m : Memory) : Prop := cellsWf (2 ^ 32) m

/-- The canonical form of an image file. -/
abbrev File.wf (f : File) : Prop := cellsWf f.size f.cells

/-- The byte of physical memory at an address. -/
def Memory.read (m : Memory) (a : Word) : Byte := readCell a.toNat m

/-- Writing one byte of physical memory. -/
def Memory.write (m : Memory) (a : Word) (b : Byte) : Memory := writeCell a.toNat b m

/-- Byte `j` of the list goes to address `k + j`, modulo 2^32. R601 states the modulus for the address of each word of a
block; that every byte wraps, of a straddling word and of a variable-length transfer too, is a DESIGN CHOICE (log 22),
and so is that of two bytes meeting at one address the earlier one stands. -/
def writeFrom (m : Memory) (k : Nat) : List Byte → Memory
  | [] => m
  | b :: bs => writeCell (k % 2 ^ 32) b (writeFrom m (k + 1) bs)

/-- Writing bytes at `a`, `a + 1`, … modulo 2^32 (R601, R603, log 22). -/
def Memory.writeBytes (m : Memory) (a : Word) (bytes : List Byte) : Memory := writeFrom m a.toNat bytes

/-- The byte at address `k` modulo 2^32. That every byte wraps, of a straddling word and of a variable-length transfer
too, is a DESIGN CHOICE (log 22). -/
def readAt (m : Memory) (k : Nat) : Byte := readCell (k % 2 ^ 32) m

/-- The bytes at `a`, `a + 1`, … modulo 2^32 (R602, R603, log 22). -/
def Memory.readBytes (m : Memory) (a : Word) (n : Nat) : List Byte :=
  (List.range n).map fun j => readAt m (a.toNat + j)

/-- Byte `j` of the list goes to offset `off + j` of a file. -/
def writeFileBytes (m : Memory) (off : Nat) : List Byte → Memory
  | [] => m
  | b :: bs => writeCell off b (writeFileBytes m (off + 1) bs)

/-- The four bytes of a word in increasing address order (R203, R205). -/
def wordBytes (o : ByteOrder) (w : Word) : List Byte :=
  match o with
  | .little => [w.extractLsb' 0 8, w.extractLsb' 8 8, w.extractLsb' 16 8, w.extractLsb' 24 8]
  | .big => [w.extractLsb' 24 8, w.extractLsb' 16 8, w.extractLsb' 8 8, w.extractLsb' 0 8]

/-- The word four bytes in increasing address order make (R203, R205). -/
def wordOfBytes (o : ByteOrder) (b0 b1 b2 b3 : Byte) : Word :=
  match o with
  | .little => (b3 ++ b2 ++ b1 ++ b0 : BitVec 32)
  | .big => (b0 ++ b1 ++ b2 ++ b3 : BitVec 32)

/-- The first `n` words of a block; a word out of range reads as `0xFFFFFFFF` (R127). -/
def Block.words : Nat → Block → List Word
  | 0, _ => []
  | n + 1, [] => 0xFFFFFFFF#32 :: Block.words n []
  | n + 1, w :: ws => w :: Block.words n ws

/-- The 4096 bytes of a block in one byte order. -/
def Block.bytes (o : ByteOrder) (b : Block) : List Byte := (Block.words 1024 b).flatMap (wordBytes o)

/-- The word at physical addresses `k .. k + 3` modulo 2^32, little-endian (R204, log 22). -/
def Memory.wordAt (m : Memory) (k : Nat) : Word :=
  wordOfBytes .little (readAt m k) (readAt m (k + 1)) (readAt m (k + 2)) (readAt m (k + 3))

/-- The block at physical address `a` (R602). -/
def Memory.block (m : Memory) (a : Word) : Block :=
  (List.range 1024).map fun i => m.wordAt (a.toNat + 4 * i)

/-- The word at byte offset `off` of an image (R205). -/
def File.wordAt (f : File) (o : ByteOrder) (off : Nat) : Word :=
  wordOfBytes o (readCell off f.cells) (readCell (off + 1) f.cells) (readCell (off + 2) f.cells)
    (readCell (off + 3) f.cells)

/-- The block at byte offset `off` of an image (R911). -/
def File.blockAt (f : File) (o : ByteOrder) (off : Nat) : Block :=
  (List.range 1024).map fun i => f.wordAt o (off + 4 * i)

/-- Storing a block at byte offset `off` of an image (R911). A block past the end makes the file longer, with the
given bytes before it (log 8). -/
def File.putBlock (f : File) (o : ByteOrder) (off : Nat) (b : Block) (gap : Nat → Byte) : File where
  size := max f.size (off + 4096)
  cells := writeFileBytes (writeFileBytes f.cells f.size ((List.range (off - f.size)).map gap)) off (Block.bytes o b)

end Sys2Proof.Machine
end

