-- ==== Sys2Proof/Machine/Flags.lean ====
section
/-! DEFINITION. Status codes, status words and the flags computed from them: the code field and the busy test (R510),
READPENDING (R1102), cache hits and validity (R124, R902, R1002), the interrupt line bit (R1203). -/

namespace Sys2Proof.Machine

/-! The status codes (R1210). -/

def codeUninstalled : Word := 0#32
def codeReady : Word := 1#32
def codeIllegalOp : Word := 2#32
def codeBusy : Word := 3#32
def codePrntErr : Word := 4#32
def codeRecvErr : Word := 4#32
def codeTranErr : Word := 4#32
def codeSeekErr : Word := 4#32
def codeFReadErr : Word := 4#32
def codeReceived : Word := 5#32
def codeTransmitted : Word := 5#32
def codeDReadErr : Word := 5#32
def codeFWritErr : Word := 5#32
def codeDWritErr : Word := 6#32
def codeDmaErr : Word := 7#32

/-- A terminal status word with a character, `(byte<<8) | code` (R113, R316). -/
def charStatus (b : Byte) (code : Word) : Word := (b.setWidth 32 <<< 8) ||| code

/-- The type of a body, none for NULL (R106). -/
def DeviceBody.kind : DeviceBody → Option DevKind
  | .null => none
  | .printer _ => some .printer
  | .terminal _ => some .terminal
  | .disk _ => some .disk
  | .flash _ => some .flash
  | .eth _ => some .eth

/-- The status code field of a status word: bits [6:0] on the ethernet device, bits [7:0] elsewhere (R510). -/
def codeField (k : Option DevKind) (w : Word) : Word :=
  if k = some .eth then w &&& 0x7F#32 else w &&& 0xFF#32

/-- READPENDING, bit 7 of the ethernet status word (R1102). -/
def readPending (w : Word) : Bool := w.getLsbD 7

/-- The status register after a status write: on the ethernet device bit 7 of the old word is kept (R514). -/
def mergeStatus (k : Option DevKind) (old w : Word) : Word :=
  if k = some .eth then (old &&& 0x80#32) ||| w else w

/-- The index of a sub-device's status register (R13, R519). -/
def statusIdx : Sub → Fin 4
  | .tx => 2
  | _ => 0

/-- The index of a sub-device's command register (R13). -/
def cmdIdx : Sub → Fin 4
  | .tx => 3
  | _ => 1

/-- The sub-device register `i` belongs to (R505). -/
def subOfIndex (k : Option DevKind) (i : Fin 4) : Sub :=
  if k = some .terminal then (if i.val < 2 then .rx else .tx) else .single

/-- The sub-devices of a slot (R505). -/
def DeviceBody.subs : DeviceBody → List Sub
  | .null => []
  | .terminal _ => [.rx, .tx]
  | _ => [.single]

/-- A half of a terminal. -/
def Terminal.half (t : Terminal) : Sub → Half
  | .tx => t.tx
  | _ => t.rx

/-- The other half of a terminal. -/
def Terminal.other (t : Terminal) : Sub → Half
  | .tx => t.rx
  | _ => t.tx

/-- Replacing a half of a terminal. -/
def Terminal.setHalf (t : Terminal) (h : Sub) (x : Half) : Terminal :=
  match h with
  | .tx => { t with tx := x }
  | _ => { t with rx := x }

/-- The disk cache is valid iff no field is the sentinel (R124). -/
def DiskCache.valid (c : DiskCache) : Bool := c.cyl != maxU32 && c.head != maxU32 && c.sect != maxU32

/-- The key of sector `(cyl, head, sect)`. -/
def DiskCache.key (cyl : Word) (head sect : BitVec 8) : DiskCache :=
  { cyl := cyl, head := head.setWidth 32, sect := sect.setWidth 32 }

/-- Disk cache hit (R902). -/
def Disk.hit (d : Disk) (head sect : BitVec 8) : Bool := d.cache == DiskCache.key d.curCyl head sect

/-- The flash cache is valid iff its key is not the sentinel (R1002). -/
def Flash.cacheValid (f : Flash) : Bool := f.cacheBlk != maxU32

/-- Flash cache hit (R1002). -/
def Flash.hit (f : Flash) (b : BitVec 24) : Bool := f.cacheBlk == b.setWidth 32

/-- The ethernet device is in interrupt (polled) mode (R1118, R1120). -/
def Eth.polls (c : Config) (e : Eth) : Bool := e.mode &&& c.ethModeInterrupt != 0#8

/-- Whether a sub-device of a body has an operation in progress (R131). -/
def DeviceBody.opActive : DeviceBody → Sub → Bool
  | .null, _ => false
  | .printer p, _ => p.op.isSome
  | .terminal t, h => (t.half h).op.isSome
  | .disk d, _ => d.op.isSome
  | .flash f, _ => f.op.isSome
  | .eth e, _ => e.op.isSome

end Sys2Proof.Machine
end

