-- ==== Sys2Proof/Machine/Operands.lean ====
section
/-! DEFINITION. The operand forms: what a command takes from its word's fields (R308), from its slot's data registers
(R308, R318) and from the geometry (R901 to R905, R911, R1007, R1011). -/

namespace Sys2Proof.Machine

/-- The printer's character, `DATA0[7:0]` (R308, R705). -/
def printChar (data0 : Word) : Byte := data0.extractLsb' 0 8

/-- The transmitted character, `TRANS_COMMAND[15:8]` (R304, R811). -/
def transChar (cmd : Word) : Byte := cmd.extractLsb' 8 8

/-- A read or write command is in bounds iff `head < heads` and `sect < sects` (R903). -/
def Disk.inBounds (d : Disk) (head sect : BitVec 8) : Bool := head.toNat < d.heads && sect.toNat < d.sects

/-- The seek distance `|c - cur_cyl|` in cylinders (R908). -/
def Disk.distance (d : Disk) (c : BitVec 16) : Nat :=
  if d.curCyl.toNat ≤ c.toNat then c.toNat - d.curCyl.toNat else d.curCyl.toNat - c.toNat

/-- Sector ticks (R901). -/
def Disk.sectTicks (c : Config) (d : Disk) : Nat := d.rotTime * c.clockRate / d.sects

/-- Rotational latency of a transfer to sector `t` from `L = TOD_LO` (R905). -/
def Disk.rot (c : Config) (d : Disk) (t : Nat) (L : Nat) : Nat :=
  let st := d.sectTicks c
  let cur := L / st % d.sects
  let rem := L % st
  let off := (t + d.sects - cur - 1) % d.sects
  rem + st * off + st * d.dataPct / 100

/-- Byte offset of sector `(c, h, sc)` in the image (R911). -/
def Disk.offBytes (d : Disk) (c h sc : Nat) : Nat :=
  (d.dataOff + (c * d.heads * d.sects + h * d.sects + sc) * 1024) * 4

/-- Latency of the disk RESET (R904). -/
def Disk.resetTicks (c : Config) (d : Disk) : Nat := (400 + d.seekTime * d.curCyl.toNat) * c.clockRate

/-- Latency of a seek (R908). -/
def Disk.seekTicks (c : Config) (d : Disk) (cyl : BitVec 16) : Nat := d.seekTime * d.distance cyl * c.clockRate

/-- Byte offset of block `b` in the image (R1011). -/
def Flash.offBytes (f : Flash) (b : BitVec 24) : Nat := (f.dataOff + b.toNat * 1024) * 4

/-- Read-miss time of the flash (R1007). -/
def Flash.readTicks (c : Config) (f : Flash) : Nat :=
  f.writeTime * c.readRatioNum * c.clockRate / c.readRatioDen

/-- Latency of a flash write (R1009). -/
def Flash.writeTicks (c : Config) (f : Flash) : Nat := f.writeTime * c.clockRate + c.dmaTicks

/-- The mode byte of CONFIGURE, `DATA0[23:16]` (R318). -/
def configMode (data0 : Word) : Byte := data0.extractLsb' 16 8

/-- SETMAC, bit 7 of the mode byte (R318, R1109). -/
def setsMac (m : Byte) : Bool := m.getLsbD 7

/-- The MAC of CONFIGURE (R318, R1109). -/
def configMac (data0 data1 : Word) : Mac where
  m0 := data0.extractLsb' 8 8
  m1 := data0.extractLsb' 0 8
  m2 := data1.extractLsb' 24 8
  m3 := data1.extractLsb' 16 8
  m4 := data1.extractLsb' 8 8
  m5 := data1.extractLsb' 0 8

/-- DATA0 of READCONF (R1107). -/
def confData0 (mode : Byte) (mac : Mac) : Word :=
  (mode.setWidth 32 <<< 16) ||| (mac.m0.setWidth 32 <<< 8) ||| mac.m1.setWidth 32

/-- DATA1 of READCONF (R1107). -/
def confData1 (mac : Mac) : Word :=
  (mac.m2.setWidth 32 <<< 24) ||| (mac.m3.setWidth 32 <<< 16) ||| (mac.m4.setWidth 32 <<< 8) ||| mac.m5.setWidth 32

end Sys2Proof.Machine
end

