-- ==== Sys2Proof/Machine/Ops.lean ====
section
/-! DEFINITION. The named operations every device uses: slot and register access, the fatal abort (R1220), interrupt
raise and acknowledge (R1201, R1202, R814), status writes (R514), the scheduler's insertion (R403), the start and the
end of a timed operation (R512, R513), host draws, DMA (R601 to R604) and file access (R911). What stands for taking an
exception is `State.finish` and `State.failNow`, status word and pending bit in one step (R1212); what stands for the
return is `State.ackCmd` (R1213). -/

namespace Sys2Proof.Machine

/-! Slots and registers. -/

/-- The device state of a slot (R106). -/
def State.dev (s : State) (sl : Slot) : Device := s.slots[sl.idx]

/-- Replacing the device state of a slot. -/
def State.setDev (s : State) (sl : Slot) (d : Device) : State :=
  { s with slots := s.slots.set sl.idx.val d sl.idx.isLt }

/-- The type of a slot, none for NULL. -/
def State.kind (s : State) (sl : Slot) : Option DevKind := (s.dev sl).body.kind

/-- `reg[s][i]` (R12, R110). -/
def State.reg (s : State) (sl : Slot) (i : Fin 4) : Word := (s.dev sl).regs[i]

/-- `reg[s][i] <- v` (R12). -/
def State.setReg (s : State) (sl : Slot) (i : Fin 4) (v : Word) : State :=
  s.setDev sl { s.dev sl with regs := (s.dev sl).regs.set i.val v i.isLt }

/-- `working[s]` (R114). -/
def State.working (s : State) (sl : Slot) : Bool := (s.dev sl).working

/-- `working[s] <- b` (R516). -/
def State.setWorking (s : State) (sl : Slot) (b : Bool) : State :=
  s.setDev sl { s.dev sl with working := b }

/-- The body of a slot. -/
def State.body (s : State) (sl : Slot) : DeviceBody := (s.dev sl).body

/-- Changing the body of a slot. -/
def State.mapBody (s : State) (sl : Slot) (f : DeviceBody → DeviceBody) : State :=
  s.setDev sl { s.dev sl with body := f (s.dev sl).body }

/-- A change of a printer's own fields. -/
def onPrinter (f : Printer → Printer) : DeviceBody → DeviceBody
  | .printer p => .printer (f p)
  | b => b

/-- A change of a terminal's own fields. -/
def onTerminal (f : Terminal → Terminal) : DeviceBody → DeviceBody
  | .terminal t => .terminal (f t)
  | b => b

/-- A change of a disk's own fields. -/
def onDisk (f : Disk → Disk) : DeviceBody → DeviceBody
  | .disk d => .disk (f d)
  | b => b

/-- A change of a flash's own fields. -/
def onFlash (f : Flash → Flash) : DeviceBody → DeviceBody
  | .flash d => .flash (f d)
  | b => b

/-- A change of an ethernet device's own fields. -/
def onEth (f : Eth → Eth) : DeviceBody → DeviceBody
  | .eth e => .eth (f e)
  | b => b

/-! Fatal aborts and signals. -/

/-- `fatal(reason)` (R1220). -/
def State.stop (r : FatalReason) (s : State) : State := { s with fatal := some r }

/-- Going on with the rest of a step, unless a fatal error has ended the simulation (R1220). -/
def State.andThen (s : State) (f : State → State) : State :=
  match s.fatal with
  | none => f s
  | some _ => s

/-- `emit(signal)` (R520). -/
def State.emit (s : State) (g : Signal) : State := { s with trace := s.trace ++ [g] }

/-- A completion handler reports the register index it mutated (R519). -/
def State.report (s : State) (i : Fin 4) : State := { s with returned := some i }

/-! Interrupts. -/

/-- Whether the pending bit of a slot is set (R104). -/
def State.pendBit (s : State) (sl : Slot) : Bool := (s.pend[sl.line.idx]).getLsbD sl.dev.val

/-- Replacing the bitmap of a line. -/
def State.setPend (s : State) (l : Line) (b : Byte) : State :=
  { s with pend := s.pend.set l.idx.val b l.idx.isLt }

/-- `irq_raise(line, dev)` (R1201). -/
def State.irqRaise (s : State) (sl : Slot) : State :=
  s.setPend sl.line (s.pend[sl.line.idx] ||| (1#8 <<< sl.dev.val))

/-- `irq_ack(line, dev)` (R1202). -/
def State.irqAck (s : State) (sl : Slot) : State :=
  s.setPend sl.line (s.pend[sl.line.idx] &&& ~~~(1#8 <<< sl.dev.val))

/-- The CPU-facing bit of a line (R1203). -/
def State.lineBit (s : State) (l : Line) : Bool := s.pend[l.idx] != 0#8

/-- Setting the pending-interrupt flag of a terminal half (R122). -/
def setIpend (h : Sub) (b : Bool) : DeviceBody → DeviceBody :=
  onTerminal fun t => t.setHalf h { t.half h with ipend := b }

/-- Whether the other half of a terminal has a pending request; false on every other type (R814). -/
def otherPending (h : Sub) : DeviceBody → Bool
  | .terminal t => (t.other h).ipend
  | _ => false

/-- `raise_irq(s, h)` (R515, R814). -/
def State.raiseIrq (s : State) (sl : Slot) (h : Sub) : State :=
  (s.mapBody sl (setIpend h true)).irqRaise sl

/-- `ack_irq(s, h)` (R515); on a terminal the line is kept while the other half is pending (R814). -/
def State.ackIrq (s : State) (sl : Slot) (h : Sub) : State :=
  let s' := s.mapBody sl (setIpend h false)
  if otherPending h (s'.body sl) then s' else s'.irqAck sl

/-! Status words. -/

/-- The status code of a sub-device (R510). -/
def State.code (s : State) (sl : Slot) (h : Sub) : Word := codeField (s.kind sl) (s.reg sl (statusIdx h))

/-- `busy(s, h)` (R510). -/
def State.busy (s : State) (sl : Slot) (h : Sub) : Bool := s.code sl h == codeBusy

/-- `is_busy(s)`: some sub-device of the slot is busy; never true of a NULL slot (R510, R508). -/
def State.isBusy (s : State) (sl : Slot) : Bool := (s.body sl).subs.any fun h => s.busy sl h

/-- Writing a whole status register, which emits `status_changed` (R514, R520). -/
def State.putStatus (s : State) (sl : Slot) (h : Sub) (w : Word) : State :=
  (s.setReg sl (statusIdx h) w).emit (.statusChanged sl)

/-- `set_code(s, h, c)` and `set_status(s, h, w)`: the ethernet device keeps READPENDING (R514). -/
def State.setStatus (s : State) (sl : Slot) (h : Sub) (w : Word) : State :=
  s.putStatus sl h (mergeStatus (s.kind sl) (s.reg sl (statusIdx h)) w)

/-- `ack_cmd(s, h)` (R515). -/
def State.ackCmd (s : State) (sl : Slot) (h : Sub) : State :=
  (s.ackIrq sl h).setStatus sl h codeReady

/-! The scheduler. -/

/-- The order of events: by fire time, then by insertion (R402). -/
def Event.before (a b : Event) : Bool := a.fire < b.fire || (a.fire == b.fire && a.seq < b.seq)

/-- The queue with one more event, in key order. -/
def insertEvent (e : Event) : List Event → List Event
  | [] => [e]
  | x :: xs => if e.before x then e :: x :: xs else x :: insertEvent e xs

/-- The time `Δ` ticks from now (R403). -/
def State.fireTime (s : State) (delta : Nat) : Time := BitVec.ofNat 64 (s.tod.toNat + delta)

/-- `schedule(s, kind, Δ)` (R403). -/
def State.schedule (s : State) (sl : Slot) (k : EventKind) (delta : Nat) : State :=
  if 2 ^ 64 ≤ s.tod.toNat + delta then s.stop .timeOverflow
  else { s with
    queue := insertEvent { fire := s.fireTime delta, seq := s.seq, target := sl, kind := k } s.queue
    seq := s.seq + 1 }

/-- Recording the completion time of a terminal half (R512). -/
def setCtime (h : Sub) (t : Time) : DeviceBody → DeviceBody :=
  onTerminal fun x => x.setHalf h { x.half h with ctime := t }

/-- `begin(s, h, opval, Δ)`; `record` writes the operation into the body (R512). -/
def State.beginOp (s : State) (sl : Slot) (h : Sub) (record : DeviceBody → DeviceBody) (delta : Nat) : State :=
  ((((s.ackIrq sl h).setStatus sl h codeBusy).mapBody sl record).schedule sl .complete delta).andThen
    fun s' => s'.mapBody sl (setCtime h (s.fireTime delta))

/-- No operation in progress in a sub-device (R513). -/
def clearOp (h : Sub) : DeviceBody → DeviceBody
  | .null => .null
  | .printer p => .printer { p with op := none }
  | .terminal t => .terminal (t.setHalf h { t.half h with op := none })
  | .disk d => .disk { d with op := none }
  | .flash f => .flash { f with op := none }
  | .eth e => .eth { e with op := none }

/-- `finish(s, h, w)` (R513), with the register index the handler reports (R519). -/
def State.finish (s : State) (sl : Slot) (h : Sub) (w : Word) : State :=
  (((s.setStatus sl h w).mapBody sl (clearOp h)).raiseIrq sl h).report (statusIdx h)

/-- `fail_now(s, h, c)` (R513). -/
def State.failNow (s : State) (sl : Slot) (h : Sub) (c : Word) : State :=
  (s.setStatus sl h c).raiseIrq sl h

/-- Accepting a command word (R502, R504, R506): refused in the fatal state (R1220), ignored while the sub-device is
busy, else stored and then executed. -/
def State.accept (s : State) (k : DevKind) (sl : Slot) (h : Sub) (w : Word) (run : State → State) :
    Host.Outcome State Fault Refusal :=
  match s.fatal with
  | some r => .refused (.fatalState r)
  | none =>
    if s.kind sl ≠ some k then .refused .wrongDevice
    else if s.busy sl h then .next s
    else .next (run (s.setReg sl (cmdIdx h) w))

/-! Host answers: the next entry of the tape, or a free value when there is none (log 5). -/

/-- One more draw was answered by a free value. -/
def State.countDraw (s : State) : State := { s with tape := { s.tape with drawn := s.tape.drawn + 1 } }

/-- Whether the next host file operation fails (R706, R819, R919). -/
def State.drawIo (s : State) : Bool × State :=
  match s.cfg.hostIo with
  | .reliable => (false, s)
  | .oracle =>
    match s.tape.ioFails with
    | b :: rest => (b, { s with tape := { s.tape with ioFails := rest } })
    | [] => (Config.freeIoFails s.tape.drawn, s.countDraw)

/-- `MemPort.decodeFails(addr, n)` (R604). -/
def State.decodeFails (s : State) (addr : Word) (n : Nat) : Bool × State :=
  match s.cfg.memPort with
  | .ranges rs => (!rs.any fun r => decide (r.lo ≤ addr.toNat ∧ addr.toNat + n ≤ r.hi), s)
  | .oracle =>
    match s.tape.decodeFails with
    | b :: rest => (b, { s with tape := { s.tape with decodeFails := rest } })
    | [] => (Config.freeDecodeFails s.tape.drawn addr n, s.countDraw)

/-- `NI.waiting()` (R1101). -/
def State.drawWaiting (s : State) : Bool × State :=
  match s.tape.waiting with
  | b :: rest => (b, { s with tape := { s.tape with waiting := rest } })
  | [] => (Config.freeWaiting s.tape.drawn, s.countDraw)

/-- `NI.recv()` (R1101). -/
def State.drawRecv (s : State) : Recv × State :=
  match s.tape.recv with
  | r :: rest => (r, { s with tape := { s.tape with recv := rest } })
  | [] => (Config.freeRecv s.tape.drawn, s.countDraw)

/-- The number of bytes `NI.send` reports (R1101). -/
def State.drawSent (s : State) : Nat × State :=
  match s.tape.sent with
  | n :: rest => (n, { s with tape := { s.tape with sent := rest } })
  | [] => (Config.freeSent s.tape.drawn, s.countDraw)

/-- A call to a network interface (R1101). -/
def State.callNet (s : State) (c : NetCall) : State := { s with net := s.net ++ [c] }

/-! DMA. -/

/-- `n` unspecified bytes (R601, R603). -/
def freeBytes (draw n : Nat) : List Byte := (List.range n).map (Config.freeByte draw)

/-- An unspecified block (R602). -/
def freeBlock (draw : Nat) : Block := (List.range 1024).map (Config.freeWord draw)

/-- The `n` bytes a transfer takes from a buffer: a byte past the end of the buffer is free, the rule naming none.
DESIGN CHOICE (log 9). -/
def bufferBytes (draw : Nat) (bytes : List Byte) (n : Nat) : List Byte :=
  bytes.take n ++ (freeBytes draw n).drop bytes.length

/-- `DmaToMemN(addr, bytes, n)`: whether it failed, and the state after (R603). On failure the range holds unspecified
bytes. -/
def State.dmaToMemN (s : State) (addr : Word) (bytes : List Byte) (n : Nat) : Bool × State :=
  let r := s.decodeFails addr n
  let d := r.2.tape.drawn
  if r.1 then (true, { r.2.countDraw with mem := r.2.mem.writeBytes addr (freeBytes d n) })
  else
    let r' := if bytes.length < n then r.2.countDraw else r.2
    (false, { r' with mem := r'.mem.writeBytes addr (bufferBytes d bytes n) })

/-- `DmaToMem(addr, buf)` (R601). -/
def State.dmaToMem (s : State) (addr : Word) (buf : Block) : Bool × State :=
  s.dmaToMemN addr (Block.bytes .little buf) 4096

/-- `DmaFromMem(addr) -> (failed, buf)` (R602): whether it failed, the block, and the state after. -/
def State.dmaFromMem (s : State) (addr : Word) : Bool × Block × State :=
  let r := s.decodeFails addr 4096
  if r.1 then (true, freeBlock r.2.tape.drawn, r.2.countDraw) else (false, r.2.mem.block addr, r.2)

/-- `DmaFromMemN(addr, n) -> (failed, bytes)` (R603). -/
def State.dmaFromMemN (s : State) (addr : Word) (n : Nat) : Bool × List Byte × State :=
  let r := s.decodeFails addr n
  if r.1 then (true, freeBytes r.2.tape.drawn n, r.2.countDraw) else (false, r.2.mem.readBytes addr n, r.2)

/-! Files. -/

/-- `FileRead(image, off, 4096)`: none when it fails, as it does outside the file (R911). A failed or short read leaves
the block buffer as it was, though no rule says so. DESIGN CHOICE (log 23). -/
def State.fileRead (s : State) (f : File) (off : Nat) : Option Block × State :=
  let r := s.drawIo
  if r.1 || f.size < off + 4096 then (none, r.2) else (some (f.blockAt s.cfg.imageByteOrder off), r.2)

/-- `FileWrite(image, off, buf)`: none when it fails (R911). A write past the end makes the file longer. DESIGN CHOICE
(log 8). A failed or short write leaves the image and the buffer as they were, though no rule says so. DESIGN CHOICE
(log 23). -/
def State.fileWrite (s : State) (f : File) (off : Nat) (b : Block) : Option File × State :=
  let r := s.drawIo
  if r.1 then (none, r.2)
  else if f.size < off then
    (some (f.putBlock s.cfg.imageByteOrder off b (Config.freeByte r.2.tape.drawn)), r.2.countDraw)
  else (some (f.putBlock s.cfg.imageByteOrder off b fun _ => unlisted), r.2)

/-- Bytes appended to the log of a printer or terminal. -/
def appendLog (bytes : List Byte) : DeviceBody → DeviceBody
  | .printer p => .printer { p with log := p.log ++ bytes }
  | .terminal t => .terminal { t with log := t.log ++ bytes }
  | b => b

/-- Appending to a log file; a failure is fatal (R706, R819) and leaves the log as it was, though no rule says so. DESIGN
CHOICE (log 23). -/
def State.writeLog (s : State) (sl : Slot) (bytes : List Byte) : State :=
  let r := s.drawIo
  if r.1 then r.2.stop .logWriteFailed else r.2.mapBody sl (appendLog bytes)

end Sys2Proof.Machine
end

