-- ==== Sys2Proof/Machine/Disk.lean ====
section
/-! DEFINITION. The disk controller (R900 to R921): acceptance of its commands, its completions, its illegal
command. -/

namespace Sys2Proof.Machine

/-- Recording a disk operation. -/
def startDisk (o : DiskOp) : DeviceBody → DeviceBody := onDisk fun d => { d with op := some o }

/-- Setting the key of the sector cache. -/
def setDiskCache (c : DiskCache) : DeviceBody → DeviceBody := onDisk fun d => { d with cache := c }

/-- Setting the sector buffer. -/
def setDiskBuf (b : Block) : DeviceBody → DeviceBody := onDisk fun d => { d with buf := b }

/-- A timed disk operation whose latency needs the rotation: with `sect_ticks = 0` it is fatal (R901), else it starts
with `rot(sect) + DMATICKS`, `TOD_LO` taken now (R905, R912, R914). -/
def beginRotational (sl : Slot) (d : Disk) (sect : BitVec 8) (o : DiskOp) (s : State) : State :=
  if d.sectTicks s.cfg = 0 then s.stop .zeroSectorTicks
  else s.beginOp sl .single (startDisk o)
    (d.rot s.cfg sect.toNat (s.tod.setWidth 32).toNat + s.cfg.dmaTicks)

/-- DISK.RESET once accepted (R904). -/
def diskResetAccept (sl : Slot) (s : State) : State :=
  match s.body sl with
  | .disk d =>
    (s.mapBody sl (setDiskCache .invalid)).beginOp sl .single (startDisk .reset) (d.resetTicks s.cfg)
  | _ => s

/-- DISK.SEEKCYL once accepted (R908, R909). -/
def diskSeekAccept (sl : Slot) (cyl : BitVec 16) (s : State) : State :=
  match s.body sl with
  | .disk d =>
    if cyl.toNat < d.cyls then s.beginOp sl .single (startDisk (.seek cyl)) (d.seekTicks s.cfg cyl)
    else s.failNow sl .single codeSeekErr
  | _ => s

/-- DISK.READBLK once accepted (R912). -/
def diskReadAccept (sl : Slot) (head sect : BitVec 8) (s : State) : State :=
  match s.body sl with
  | .disk d =>
    if !d.inBounds head sect then (s.mapBody sl (setDiskCache .invalid)).failNow sl .single codeDReadErr
    else if d.hit head sect then s.beginOp sl .single (startDisk (.read head sect true)) s.cfg.dmaTicks
    else beginRotational sl d sect (.read head sect false) s
  | _ => s

/-- DISK.WRITEBLK once accepted (R914). -/
def diskWriteAccept (sl : Slot) (head sect : BitVec 8) (s : State) : State :=
  match s.body sl with
  | .disk d =>
    let s1 := s.mapBody sl (setDiskCache .invalid)
    if !d.inBounds head sect then s1.failNow sl .single codeDWritErr
    else
      let r := s1.dmaFromMem (s1.reg sl 2)
      let s2 := r.2.2.mapBody sl (setDiskBuf r.2.1)
      if r.1 then s2.failNow sl .single codeDmaErr
      else beginRotational sl d sect (.write head sect) s2
  | _ => s

/-- DISK.RESET (R904). -/
def execDiskReset (sl : Slot) (ign : BitVec 24) (s : State) : Host.Outcome State Fault Refusal :=
  s.accept .disk sl .single (encode (.diskReset sl ign)) (diskResetAccept sl)

/-- DISK.ACK (R907). -/
def execDiskAck (sl : Slot) (ign : BitVec 24) (s : State) : Host.Outcome State Fault Refusal :=
  s.accept .disk sl .single (encode (.diskAck sl ign)) fun s => s.ackCmd sl .single

/-- DISK.SEEKCYL (R908, R909). -/
def execDiskSeekcyl (sl : Slot) (cyl : BitVec 16) (ign : BitVec 8) (s : State) : Host.Outcome State Fault Refusal :=
  s.accept .disk sl .single (encode (.diskSeekcyl sl cyl ign)) (diskSeekAccept sl cyl)

/-- DISK.READBLK (R912). -/
def execDiskReadblk (sl : Slot) (head sect ign : BitVec 8) (s : State) : Host.Outcome State Fault Refusal :=
  s.accept .disk sl .single (encode (.diskReadblk sl head sect ign)) (diskReadAccept sl head sect)

/-- DISK.WRITEBLK (R914). -/
def execDiskWriteblk (sl : Slot) (head sect ign : BitVec 8) (s : State) : Host.Outcome State Fault Refusal :=
  s.accept .disk sl .single (encode (.diskWriteblk sl head sect ign)) (diskWriteAccept sl head sect)

/-- An op code the disk's table does not list (R917). -/
def execDiskIllegal (sl : Slot) (w : Word) (s : State) : Host.Outcome State Fault Refusal :=
  s.accept .disk sl .single w fun s => s.failNow sl .single codeIllegalOp

/-- The block buffer of a disk slot. -/
def diskBuf : DeviceBody → Block
  | .disk d => d.buf
  | _ => []

/-- The READBLK miss reads the sector into the buffer (R913). -/
def diskLoad (sl : Slot) (d : Disk) (head sect : BitVec 8) (s : State) : State :=
  let r := s.fileRead d.image (d.offBytes d.curCyl.toNat head.toNat sect.toNat)
  match r.1 with
  | none => r.2.stop .imageReadFailed
  | some b => r.2.mapBody sl (setDiskBuf b)

/-- The end of READBLK: the DMA and the cache (R913). -/
def diskDeliver (sl : Slot) (d : Disk) (head sect : BitVec 8) (s : State) : State :=
  let r := s.dmaToMem (s.reg sl 2) (diskBuf (s.body sl))
  if r.1 then (r.2.mapBody sl (setDiskCache .invalid)).finish sl .single codeDmaErr
  else (r.2.mapBody sl (setDiskCache (DiskCache.key d.curCyl head sect))).finish sl .single codeReady

/-- The READBLK completion (R913). -/
def completeDiskRead (sl : Slot) (d : Disk) (head sect : BitVec 8) (hit : Bool) (s : State) : State :=
  if s.working sl then
    (if hit then s else diskLoad sl d head sect s).andThen (diskDeliver sl d head sect)
  else (s.mapBody sl (setDiskCache .invalid)).finish sl .single codeDReadErr

/-- The WRITEBLK completion (R915). -/
def completeDiskWrite (sl : Slot) (d : Disk) (head sect : BitVec 8) (s : State) : State :=
  if s.working sl then
    let r := s.fileWrite d.image (d.offBytes d.curCyl.toNat head.toNat sect.toNat) d.buf
    match r.1 with
    | none => r.2.stop .imageWriteFailed
    | some f =>
      (r.2.mapBody sl (onDisk fun d => { d with image := f, cache := DiskCache.key d.curCyl head sect })).finish
        sl .single codeReady
  else (s.mapBody sl (setDiskCache .invalid)).finish sl .single codeDWritErr

/-- The SEEKCYL completion (R910). -/
def completeDiskSeek (sl : Slot) (cyl : BitVec 16) (s : State) : State :=
  if s.working sl then
    (s.mapBody sl (onDisk fun d => { d with curCyl := cyl.setWidth 32 })).finish sl .single codeReady
  else s.finish sl .single codeSeekErr

/-- The disk's completion handlers (R906, R910, R913, R915). -/
def completeDisk (sl : Slot) (d : Disk) (s : State) : State :=
  match d.op with
  | none => s.stop .invariant
  | some .reset => (s.mapBody sl (onDisk fun d => { d with curCyl := 0#32 })).finish sl .single codeReady
  | some (.seek cyl) => completeDiskSeek sl cyl s
  | some (.read head sect hit) => completeDiskRead sl d head sect hit s
  | some (.write head sect) => completeDiskWrite sl d head sect s

end Sys2Proof.Machine
end

