-- ==== Sys2Proof/Machine/Ethernet.lean ====
section
/-! DEFINITION. The ethernet device (R1100 to R1120): acceptance of its commands, its completions, its poll, its
illegal command. -/

namespace Sys2Proof.Machine

/-- Recording an ethernet operation. -/
def startEth (o : EthOp) : DeviceBody → DeviceBody := onEth fun e => { e with op := some o }

/-- `poll_armed <- b` (R1120). -/
def setPollArmed (b : Bool) : DeviceBody → DeviceBody := onEth fun e => { e with pollArmed := b }

/-- The poll period (R1119). -/
def pollTicks (c : Config) : Nat := c.pollNetTime * c.clockRate

/-- `arm_poll(s)` (R1120). -/
def armPoll (sl : Slot) (s : State) : State :=
  match s.body sl with
  | .eth e =>
    if e.polls s.cfg && !e.pollArmed then
      (s.schedule sl .poll (pollTicks s.cfg)).andThen fun s => s.mapBody sl (setPollArmed true)
    else s
  | _ => s

/-- ETH.ACK once accepted: STATUS is written whole, so READPENDING is cleared (R1105). -/
def ethAckAccept (sl : Slot) (s : State) : State :=
  armPoll sl ((s.irqAck sl).putStatus sl .single codeReady)

/-- ETH.RESET (R1103). -/
def execEthReset (sl : Slot) (ign : BitVec 24) (s : State) : Host.Outcome State Fault Refusal :=
  s.accept .eth sl .single (encode (.ethReset sl ign)) fun s =>
    s.beginOp sl .single (startEth .reset) (s.cfg.ethResetTime * s.cfg.clockRate)

/-- ETH.ACK (R1105). -/
def execEthAck (sl : Slot) (ign : BitVec 24) (s : State) : Host.Outcome State Fault Refusal :=
  s.accept .eth sl .single (encode (.ethAck sl ign)) (ethAckAccept sl)

/-- ETH.READCONF (R1106). -/
def execEthReadconf (sl : Slot) (ign : BitVec 24) (s : State) : Host.Outcome State Fault Refusal :=
  s.accept .eth sl .single (encode (.ethReadconf sl ign)) fun s =>
    s.beginOp sl .single (startEth .readConf) (s.cfg.ethReadConfTime * s.cfg.clockRate)

/-- ETH.READNET (R1112). -/
def execEthReadnet (sl : Slot) (ign : BitVec 24) (s : State) : Host.Outcome State Fault Refusal :=
  s.accept .eth sl .single (encode (.ethReadnet sl ign)) fun s =>
    s.beginOp sl .single (startEth .readNet) (s.cfg.ethReadNetTime * s.cfg.clockRate)

/-- ETH.WRITENET (R1110). -/
def execEthWritenet (sl : Slot) (ign : BitVec 24) (s : State) : Host.Outcome State Fault Refusal :=
  s.accept .eth sl .single (encode (.ethWritenet sl ign)) fun s =>
    s.beginOp sl .single (startEth .writeNet) (s.cfg.ethWriteNetTime * s.cfg.clockRate)

/-- ETH.CONFIGURE (R1108). -/
def execEthConfigure (sl : Slot) (ign : BitVec 24) (s : State) : Host.Outcome State Fault Refusal :=
  s.accept .eth sl .single (encode (.ethConfigure sl ign)) fun s =>
    s.beginOp sl .single (startEth .configure) (s.cfg.ethConfigureTime * s.cfg.clockRate)

/-- An op code the ethernet device's table does not list (R1117). -/
def execEthIllegal (sl : Slot) (w : Word) (s : State) : Host.Outcome State Fault Refusal :=
  s.accept .eth sl .single w fun s => s.failNow sl .single codeIllegalOp

/-- The RESET completion: STATUS is written whole, so READPENDING is cleared (R1104). -/
def completeEthReset (sl : Slot) (s : State) : State :=
  let s1 := (s.mapBody sl (onEth fun e => { e with pktbuf := [] })).putStatus sl .single codeReady
  (armPoll sl ((s1.mapBody sl (clearOp .single)).irqRaise sl)).andThen fun s => s.report 0

/-- The READCONF completion (R1107). -/
def completeReadConf (sl : Slot) (e : Eth) (s : State) : State :=
  ((s.setReg sl 2 (confData0 e.mode e.mac)).setReg sl 3 (confData1 e.mac)).finish sl .single codeReady

/-- The CONFIGURE completion (R1109). -/
def completeConfigure (sl : Slot) (e : Eth) (s : State) : State :=
  let m := configMode (s.reg sl 2)
  let mac := if setsMac m then configMac (s.reg sl 2) (s.reg sl 3) else e.mac
  let mode := m &&& 0x7F#8
  let s1 := (s.mapBody sl (onEth fun e => { e with mode := mode, mac := mac })).callNet (.configure sl mode mac)
  armPoll sl (s1.finish sl .single codeReady)

/-- The WRITENET completion (R1111). -/
def completeWriteNet (sl : Slot) (s : State) : State :=
  let n := (s.reg sl 3).toNat
  if !s.working sl || s.cfg.ethMaxPacket < n then s.finish sl .single codeDWritErr
  else
    let r := s.dmaFromMemN (s.reg sl 2) n
    if r.1 then r.2.2.finish sl .single codeDmaErr
    else
      let q := (r.2.2.callNet (.send sl r.2.1)).drawSent
      if q.1 = n then q.2.finish sl .single codeReady else q.2.finish sl .single codeDWritErr

/-- The READNET completion (R1113). -/
def completeReadNet (sl : Slot) (s : State) : State :=
  if s.working sl then
    let r := s.drawRecv
    let s1 := r.2.setReg sl 3 (BitVec.ofInt 32 r.1.len)
    if r.1.len = 0 then s1.finish sl .single codeReady
    else if r.1.len < 0 then s1.finish sl .single codeDReadErr
    else
      let s2 := s1.mapBody sl (onEth fun e => { e with pktbuf := r.1.bytes })
      let q := s2.dmaToMemN (s2.reg sl 2) r.1.bytes r.1.len.toNat
      if q.1 then q.2.finish sl .single codeDmaErr else q.2.finish sl .single codeReady
  else s.finish sl .single codeDReadErr

/-- The ethernet device's completion handlers (R1104, R1107, R1109, R1111, R1113). -/
def completeEth (sl : Slot) (e : Eth) (s : State) : State :=
  match e.op with
  | none => s.stop .invariant
  | some .reset => completeEthReset sl s
  | some .readConf => completeReadConf sl e s
  | some .readNet => completeReadNet sl s
  | some .writeNet => completeWriteNet sl s
  | some .configure => completeConfigure sl e s

/-- The latch of READPENDING (R1118). -/
def latchPending (sl : Slot) (s : State) : State :=
  (s.putStatus sl .single (s.reg sl 0 ||| 0x80#32)).irqRaise sl

/-- The poll (R1118); the interface is asked only when no operation is pending and READPENDING is clear. -/
def pollEth (sl : Slot) (e : Eth) (s : State) : State :=
  let s1 := s.mapBody sl (setPollArmed false)
  if !e.polls s.cfg then s1.report 0
  else if e.op.isSome || readPending (s.reg sl 0) then (armPoll sl s1).andThen fun s => s.report 0
  else
    let r := s1.drawWaiting
    if r.1 then (latchPending sl r.2).report 0 else (armPoll sl r.2).andThen fun s => s.report 0

end Sys2Proof.Machine
end

