-- ==== Sys2Proof/Machine/Flash.lean ====
section
/-! DEFINITION. The flash controller (R1000 to R1018): acceptance of its commands, its completions, its illegal
command. -/

namespace Sys2Proof.Machine

/-- Recording a flash operation. -/
def startFlash (o : FlashOp) : DeviceBody → DeviceBody := onFlash fun f => { f with op := some o }

/-- Setting the key of the block cache. -/
def setFlashCache (k : Word) : DeviceBody → DeviceBody := onFlash fun f => { f with cacheBlk := k }

/-- Setting the block buffer. -/
def setFlashBuf (b : Block) : DeviceBody → DeviceBody := onFlash fun f => { f with buf := b }

/-- FLASH.RESET once accepted (R1003). -/
def flashResetAccept (sl : Slot) (s : State) : State :=
  (s.mapBody sl (setFlashCache maxU32)).beginOp sl .single (startFlash .reset)
    (Config.flashResetBase * s.cfg.clockRate)

/-- FLASH.READBLK once accepted (R1006). -/
def flashReadAccept (sl : Slot) (blk : BitVec 24) (s : State) : State :=
  match s.body sl with
  | .flash f =>
    if f.blocks ≤ blk.toNat then (s.mapBody sl (setFlashCache maxU32)).failNow sl .single codeFReadErr
    else if f.hit blk then s.beginOp sl .single (startFlash (.read blk true)) s.cfg.dmaTicks
    else s.beginOp sl .single (startFlash (.read blk false)) (f.readTicks s.cfg + s.cfg.dmaTicks)
  | _ => s

/-- FLASH.WRITEBLK once accepted (R1009). -/
def flashWriteAccept (sl : Slot) (blk : BitVec 24) (s : State) : State :=
  match s.body sl with
  | .flash f =>
    let s1 := s.mapBody sl (setFlashCache maxU32)
    if f.blocks ≤ blk.toNat then s1.failNow sl .single codeFWritErr
    else
      let r := s1.dmaFromMem (s1.reg sl 2)
      let s2 := r.2.2.mapBody sl (setFlashBuf r.2.1)
      if r.1 then s2.failNow sl .single codeDmaErr
      else s2.beginOp sl .single (startFlash (.write blk)) (f.writeTicks s.cfg)
  | _ => s

/-- FLASH.RESET (R1003). -/
def execFlashReset (sl : Slot) (ign : BitVec 24) (s : State) : Host.Outcome State Fault Refusal :=
  s.accept .flash sl .single (encode (.flashReset sl ign)) (flashResetAccept sl)

/-- FLASH.ACK (R1005). -/
def execFlashAck (sl : Slot) (ign : BitVec 24) (s : State) : Host.Outcome State Fault Refusal :=
  s.accept .flash sl .single (encode (.flashAck sl ign)) fun s => s.ackCmd sl .single

/-- FLASH.READBLK (R1006). -/
def execFlashReadblk (sl : Slot) (blk : BitVec 24) (s : State) : Host.Outcome State Fault Refusal :=
  s.accept .flash sl .single (encode (.flashReadblk sl blk)) (flashReadAccept sl blk)

/-- FLASH.WRITEBLK (R1009). -/
def execFlashWriteblk (sl : Slot) (blk : BitVec 24) (s : State) : Host.Outcome State Fault Refusal :=
  s.accept .flash sl .single (encode (.flashWriteblk sl blk)) (flashWriteAccept sl blk)

/-- An op code the flash's table does not list (R1015). -/
def execFlashIllegal (sl : Slot) (w : Word) (s : State) : Host.Outcome State Fault Refusal :=
  s.accept .flash sl .single w fun s => s.failNow sl .single codeIllegalOp

/-- The block buffer of a flash slot. -/
def flashBuf : DeviceBody → Block
  | .flash f => f.buf
  | _ => []

/-- The READBLK miss reads the block into the buffer (R1008). -/
def flashLoad (sl : Slot) (f : Flash) (blk : BitVec 24) (s : State) : State :=
  let r := s.fileRead f.image (f.offBytes blk)
  match r.1 with
  | none => r.2.stop .imageReadFailed
  | some b => r.2.mapBody sl (setFlashBuf b)

/-- The end of READBLK: the DMA and the cache (R1008). -/
def flashDeliver (sl : Slot) (blk : BitVec 24) (s : State) : State :=
  let r := s.dmaToMem (s.reg sl 2) (flashBuf (s.body sl))
  if r.1 then (r.2.mapBody sl (setFlashCache maxU32)).finish sl .single codeDmaErr
  else (r.2.mapBody sl (setFlashCache (blk.setWidth 32))).finish sl .single codeReady

/-- The READBLK completion (R1008). -/
def completeFlashRead (sl : Slot) (f : Flash) (blk : BitVec 24) (hit : Bool) (s : State) : State :=
  if s.working sl then
    (if hit then s else flashLoad sl f blk s).andThen (flashDeliver sl blk)
  else (s.mapBody sl (setFlashCache maxU32)).finish sl .single codeFReadErr

/-- The WRITEBLK completion (R1010). -/
def completeFlashWrite (sl : Slot) (f : Flash) (blk : BitVec 24) (s : State) : State :=
  if s.working sl then
    let r := s.fileWrite f.image (f.offBytes blk) f.buf
    match r.1 with
    | none => r.2.stop .imageWriteFailed
    | some img =>
      (r.2.mapBody sl (onFlash fun f => { f with image := img, cacheBlk := blk.setWidth 32 })).finish
        sl .single codeReady
  else (s.mapBody sl (setFlashCache maxU32)).finish sl .single codeFWritErr

/-- The flash's completion handlers (R1004, R1008, R1010). -/
def completeFlash (sl : Slot) (f : Flash) (s : State) : State :=
  match f.op with
  | none => s.stop .invariant
  | some .reset => s.finish sl .single codeReady
  | some (.read blk hit) => completeFlashRead sl f blk hit s
  | some (.write blk) => completeFlashWrite sl f blk s

end Sys2Proof.Machine
end

