-- ==== Sys2Proof/Machine/Printer.lean ====
section
/-! DEFINITION. The printer (R700 to R710): acceptance of its commands, its completion, its illegal command. -/

namespace Sys2Proof.Machine

/-- Recording a printer operation. -/
def startPrinter (o : PrinterOp) : DeviceBody → DeviceBody := onPrinter fun p => { p with op := some o }

/-- PRINTER.RESET (R701). -/
def execPrinterReset (sl : Slot) (ign : BitVec 24) (s : State) : Host.Outcome State Fault Refusal :=
  s.accept .printer sl .single (encode (.printerReset sl ign)) fun s =>
    s.beginOp sl .single (startPrinter .reset) (40 * s.cfg.clockRate)

/-- PRINTER.ACK (R703). -/
def execPrinterAck (sl : Slot) (ign : BitVec 24) (s : State) : Host.Outcome State Fault Refusal :=
  s.accept .printer sl .single (encode (.printerAck sl ign)) fun s => s.ackCmd sl .single

/-- PRINTER.PRNTCHR (R704). -/
def execPrinterPrntchr (sl : Slot) (ign : BitVec 24) (s : State) : Host.Outcome State Fault Refusal :=
  s.accept .printer sl .single (encode (.printerPrntchr sl ign)) fun s =>
    s.beginOp sl .single (startPrinter .print) (8 * s.cfg.clockRate)

/-- An op code the printer's table does not list (R708). -/
def execPrinterIllegal (sl : Slot) (w : Word) (s : State) : Host.Outcome State Fault Refusal :=
  s.accept .printer sl .single w fun s => s.failNow sl .single codeIllegalOp

/-- The printer's completion handlers (R702, R705). -/
def completePrinter (sl : Slot) (p : Printer) (s : State) : State :=
  match p.op with
  | none => s.stop .invariant
  | some .reset => s.finish sl .single codeReady
  | some .print =>
    if s.working sl then
      (s.writeLog sl [printChar (s.reg sl 2)]).andThen fun s => s.finish sl .single codeReady
    else s.finish sl .single codePrntErr

end Sys2Proof.Machine
end

