-- ==== Sys2Proof/Machine/Terminal.lean ====
section
/-! DEFINITION. The terminal (R800 to R819): acceptance of the commands of its two halves, their completions and the
choice between them (R813), illegal commands, host input. -/

namespace Sys2Proof.Machine

/-- Recording an operation of a terminal half. -/
def startHalf (h : Sub) (o : HalfOp) : DeviceBody → DeviceBody :=
  onTerminal fun t => t.setHalf h { t.half h with op := some o }

/-- TERM_RX.RESET (R802). -/
def execTermRxReset (sl : Slot) (ign : BitVec 24) (s : State) : Host.Outcome State Fault Refusal :=
  s.accept .terminal sl .rx (encode (.termRxReset sl ign)) fun s =>
    s.beginOp sl .rx (startHalf .rx .reset) (400 * s.cfg.clockRate)

/-- TERM_RX.ACK (R803). -/
def execTermRxAck (sl : Slot) (ign : BitVec 24) (s : State) : Host.Outcome State Fault Refusal :=
  s.accept .terminal sl .rx (encode (.termRxAck sl ign)) fun s => s.ackCmd sl .rx

/-- TERM_RX.RECVCHR (R804). -/
def execTermRxRecvchr (sl : Slot) (ign : BitVec 24) (s : State) : Host.Outcome State Fault Refusal :=
  s.accept .terminal sl .rx (encode (.termRxRecvchr sl ign)) fun s =>
    s.beginOp sl .rx (startHalf .rx .char) (80 * s.cfg.clockRate)

/-- TERM_TX.RESET (R808). -/
def execTermTxReset (sl : Slot) (ign : BitVec 24) (s : State) : Host.Outcome State Fault Refusal :=
  s.accept .terminal sl .tx (encode (.termTxReset sl ign)) fun s =>
    s.beginOp sl .tx (startHalf .tx .reset) (400 * s.cfg.clockRate)

/-- TERM_TX.ACK (R809). -/
def execTermTxAck (sl : Slot) (ign : BitVec 24) (s : State) : Host.Outcome State Fault Refusal :=
  s.accept .terminal sl .tx (encode (.termTxAck sl ign)) fun s => s.ackCmd sl .tx

/-- TERM_TX.TRANCHR (R810). -/
def execTermTxTranchr (sl : Slot) (char : BitVec 8) (ign : BitVec 16) (s : State) :
    Host.Outcome State Fault Refusal :=
  s.accept .terminal sl .tx (encode (.termTxTranchr sl char ign)) fun s =>
    s.beginOp sl .tx (startHalf .tx .char) (80 * s.cfg.clockRate)

/-- An op code the table of a terminal half does not list (R812). -/
def execTerminalIllegal (h : Sub) (sl : Slot) (w : Word) (s : State) : Host.Outcome State Fault Refusal :=
  s.accept .terminal sl h w fun s => s.failNow sl h codeIllegalOp

/-- The RECVCHR completion: an empty buffer reschedules (R805), a byte is received (R806), or the device does not work
(R807). -/
def completeRecv (sl : Slot) (t : Terminal) (s : State) : State :=
  match t.rxbuf with
  | [] =>
    (s.schedule sl .complete (80 * s.cfg.clockRate)).andThen fun s' =>
      (s'.mapBody sl (setCtime .rx (s.fireTime (80 * s.cfg.clockRate)))).report 0
  | b :: rest =>
    if s.working sl then
      (s.mapBody sl (onTerminal fun t => { t with rxbuf := rest })).finish sl .rx (charStatus b codeReceived)
    else s.finish sl .rx codeRecvErr

/-- The TRANCHR completion (R811). -/
def completeTran (sl : Slot) (s : State) : State :=
  let b := transChar (s.reg sl 3)
  if s.working sl then
    (s.writeLog sl [b]).andThen fun s =>
      (s.emit (.transmitted b)).finish sl .tx (charStatus b codeTransmitted)
  else s.finish sl .tx (charStatus b codeTranErr)

/-- The half the next completion of a terminal is for, none when no half is busy (R813). -/
def chooseHalf (t : Terminal) : Option Sub :=
  if t.rx.op.isSome && t.tx.op.isSome then (if t.tx.ctime < t.rx.ctime then some .tx else some .rx)
  else if t.rx.op.isSome then some .rx
  else if t.tx.op.isSome then some .tx
  else none

/-- The completion of one half for its operation (R805 to R807, R811, R817). -/
def completeHalf (sl : Slot) (t : Terminal) (h : Sub) (s : State) : State :=
  match (t.half h).op with
  | none => s.stop .invariant
  | some .reset => s.finish sl h codeReady
  | some .char => if h = .tx then completeTran sl s else completeRecv sl t s

/-- `term_complete(s)` (R813). -/
def completeTerminal (sl : Slot) (t : Terminal) (s : State) : State :=
  match chooseHalf t with
  | none => s.stop .invariant
  | some h => completeHalf sl t h s

/-- `Input(line, dev, str)` before its drain (R815, R518). -/
def hostInput (sl : Slot) (text : List Byte) (s : State) : State :=
  match s.body sl with
  | .terminal _ =>
    (s.mapBody sl (onTerminal fun t => { t with rxbuf := t.rxbuf ++ text ++ [0x0A#8] })).writeLog sl
      (text ++ [0x0A#8])
  | _ => s.stop .inputToNonTerminal

end Sys2Proof.Machine
end

