-- ==== Sys2Proof/Machine/Events.lean ====
section
/-! DEFINITION. The event engine's dispatch side: `dispatch`, `run_due`, `drain`, `next_fire_time` (R404 to R407). -/

namespace Sys2Proof.Machine

/-- `dispatch(e)` (R407). -/
def dispatch (e : Event) (s : State) : State :=
  match s.body e.target, e.kind with
  | .printer p, .complete => completePrinter e.target p s
  | .terminal t, .complete => completeTerminal e.target t s
  | .disk d, .complete => completeDisk e.target d s
  | .flash f, .complete => completeFlash e.target f s
  | .eth x, .complete => completeEth e.target x s
  | .eth x, .poll => pollEth e.target x s
  | _, _ => s.stop .invariant

/-- `run_due(tod)`: the state after dispatching the earliest event, none when it is not due (R405). -/
def runDue (s : State) : Option State :=
  match s.queue with
  | [] => none
  | e :: rest => if e.fire ≤ s.tod then some (dispatch e { s with queue := rest }) else none

/-- `drain()` with at most `fuel` dispatches: none when an event is still due after them (R406). -/
def drain : Nat → State → Option State
  | fuel, s =>
    if s.fatal.isSome then some s
    else
      match runDue s with
      | none => some s
      | some s' =>
        match fuel with
        | 0 => none
        | n + 1 => drain n s'

/-- `drain()` (R406). No event a handler schedules is due within table T1's bounds, so the length of the queue is fuel
enough; where it is not, the spec's loop has no end and the model stops. -/
def settle (s : State) : Host.Outcome State Fault Refusal :=
  match drain s.queue.length s with
  | some s' => .next s'
  | none => .fault .endlessDrain

/-- The drain at the end of a step that is not a tick: under the policy `next_tick` there is none (R406, R414). -/
def settleStep (s : State) : Host.Outcome State Fault Refusal :=
  match s.cfg.zeroDelay with
  | .sameStep => settle s
  | .nextTick => .next s

/-- `next_fire_time()` (R404). -/
def nextFireTime (s : State) : Option Time := s.queue.head?.map Event.fire

end Sys2Proof.Machine
end

