-- ==== Sys2Proof/Machine/Dispatch.lean ====
section
/-! DEFINITION. One arm per constructor of Instr, each one direct call of its meaning. -/

namespace Sys2Proof.Machine

/-- What a command word does when it is written to its command register (R502, R506). -/
def exec (i : Instr) (s : State) : Host.Outcome State Fault Refusal :=
  match i with
  | .printerReset sl ign => Sys2Proof.Machine.execPrinterReset sl ign s
  | .printerAck sl ign => Sys2Proof.Machine.execPrinterAck sl ign s
  | .printerPrntchr sl ign => Sys2Proof.Machine.execPrinterPrntchr sl ign s
  | .termRxReset sl ign => Sys2Proof.Machine.execTermRxReset sl ign s
  | .termRxAck sl ign => Sys2Proof.Machine.execTermRxAck sl ign s
  | .termRxRecvchr sl ign => Sys2Proof.Machine.execTermRxRecvchr sl ign s
  | .termTxReset sl ign => Sys2Proof.Machine.execTermTxReset sl ign s
  | .termTxAck sl ign => Sys2Proof.Machine.execTermTxAck sl ign s
  | .termTxTranchr sl char ign => Sys2Proof.Machine.execTermTxTranchr sl char ign s
  | .diskReset sl ign => Sys2Proof.Machine.execDiskReset sl ign s
  | .diskAck sl ign => Sys2Proof.Machine.execDiskAck sl ign s
  | .diskSeekcyl sl cyl ign => Sys2Proof.Machine.execDiskSeekcyl sl cyl ign s
  | .diskReadblk sl head sect ign => Sys2Proof.Machine.execDiskReadblk sl head sect ign s
  | .diskWriteblk sl head sect ign => Sys2Proof.Machine.execDiskWriteblk sl head sect ign s
  | .flashReset sl ign => Sys2Proof.Machine.execFlashReset sl ign s
  | .flashAck sl ign => Sys2Proof.Machine.execFlashAck sl ign s
  | .flashReadblk sl blk => Sys2Proof.Machine.execFlashReadblk sl blk s
  | .flashWriteblk sl blk => Sys2Proof.Machine.execFlashWriteblk sl blk s
  | .ethReset sl ign => Sys2Proof.Machine.execEthReset sl ign s
  | .ethAck sl ign => Sys2Proof.Machine.execEthAck sl ign s
  | .ethReadconf sl ign => Sys2Proof.Machine.execEthReadconf sl ign s
  | .ethReadnet sl ign => Sys2Proof.Machine.execEthReadnet sl ign s
  | .ethWritenet sl ign => Sys2Proof.Machine.execEthWritenet sl ign s
  | .ethConfigure sl ign => Sys2Proof.Machine.execEthConfigure sl ign s

end Sys2Proof.Machine
end

