-- ==== Sys2Proof/Machine/Router.lean ====
section
/-! DEFINITION. The write side of the register router (R502 to R509): the busy rule, the command registers, the data
registers, the illegal commands. -/

namespace Sys2Proof.Machine

/-- The command register at an index of a slot, if it is one (R503, R709, R816, R918, R1014, R1115). -/
def portAt (k : DevKind) (i : Fin 4) : Option Port :=
  match k with
  | .printer => if i = 1 then some .printer else none
  | .disk => if i = 1 then some .disk else none
  | .flash => if i = 1 then some .flash else none
  | .eth => if i = 1 then some .eth else none
  | .terminal => if i = 1 then some .termRx else if i = 3 then some .termTx else none

/-- Whether a data register is stored when written (R507, R509). -/
def writable (k : DevKind) (i : Fin 4) : Bool :=
  match k with
  | .printer => i == 2
  | .disk => i == 2
  | .flash => i == 2
  | .eth => i == 2 || i == 3
  | .terminal => false

/-- An op code the port's table does not list, executed as the ILLEGAL rule of its device (R315). -/
def execIllegal (p : Port) (sl : Slot) (w : Word) (s : State) : Host.Outcome State Fault Refusal :=
  match p with
  | .printer => execPrinterIllegal sl w s
  | .termRx => execTerminalIllegal .rx sl w s
  | .termTx => execTerminalIllegal .tx sl w s
  | .disk => execDiskIllegal sl w s
  | .flash => execFlashIllegal sl w s
  | .eth => execEthIllegal sl w s

/-- A word written to a command register (R506). -/
def command (p : Port) (sl : Slot) (w : Word) (s : State) : Host.Outcome State Fault Refusal :=
  match decode p sl w with
  | .ok i => exec i s
  | .error _ => execIllegal p sl w s

/-- `RegWrite(line, dev, i, v)` before its drain (R502). -/
def regWrite (sl : Slot) (i : Fin 4) (v : Word) (s : State) : Host.Outcome State Fault Refusal :=
  match s.kind sl with
  | none => .next s
  | some k =>
    if s.busy sl (subOfIndex (some k) i) then .next s
    else
      match portAt k i with
      | some p => command p sl v s
      | none => if writable k i then .next (s.setReg sl i v) else .next s

end Sys2Proof.Machine
end

