-- ==== Sys2Proof/Machine/Ports.lean ====
section
/-! DEFINITION. The ports of the block (R201, R202, R206, R404, R410, R411, R500, R502, R516, R518): what each
environment request does. -/

namespace Sys2Proof.Machine

/-- Recording the answer to a request. -/
def State.answer (s : State) (r : Reply) : State := { s with reply := r }

/-- Going on after an outcome, when it is a next state. -/
def thenDo (o : Host.Outcome State Fault Refusal) (f : State → Host.Outcome State Fault Refusal) :
    Host.Outcome State Fault Refusal :=
  match o with
  | .next s => f s
  | .fault r => .fault r
  | .refused r => .refused r

/-- The register index of a byte offset in a window (R201). -/
def regIndex (off : BitVec 4) : Fin 4 := (off.extractLsb' 2 2).toFin

/-- Only aligned word accesses are defined (R202). -/
def accessRefusal (off : BitVec 4) (w : Width) : Option Refusal :=
  if w ≠ .word then some .narrowAccess
  else if off.extractLsb' 0 2 ≠ 0#2 then some .unalignedAccess
  else none

/-- `RegRead` (R500). -/
def doLoad (sl : Slot) (off : BitVec 4) (w : Width) (s : State) : Host.Outcome State Fault Refusal :=
  match accessRefusal off w with
  | some r => .refused r
  | none => .next (s.answer (.word (s.reg sl (regIndex off))))

/-- `RegWrite` (R502). -/
def doStore (sl : Slot) (off : BitVec 4) (w : Width) (v : Word) (s : State) : Host.Outcome State Fault Refusal :=
  match accessRefusal off w with
  | some r => .refused r
  | none => thenDo (regWrite sl (regIndex off) v s) settleStep

/-- `Tick` (R410). -/
def doTick (s : State) : Host.Outcome State Fault Refusal :=
  if s.tod = BitVec.allOnes 64 then .next (s.stop .timeOverflow)
  else settle { s with tod := s.tod + 1#64 }

/-- The working toggle before its drain (R516). -/
def toggleWork (sl : Slot) (b : Bool) (s : State) : State :=
  if s.working sl = b then s else (s.setWorking sl b).emit (.conditionChanged b)

/-- `Work(line, dev, b)` (R516). -/
def doWork (sl : Slot) (b : Bool) (s : State) : Host.Outcome State Fault Refusal :=
  match s.kind sl with
  | none => .refused .workOnNull
  | some _ => settleStep (toggleWork sl b s)

/-- What a request does in a running simulation. -/
def serve (r : Request) (s : State) : Host.Outcome State Fault Refusal :=
  match r with
  | .load sl off w => doLoad sl off w s
  | .store sl off w v => doStore sl off w v s
  | .tick => doTick s
  | .input sl text => settleStep (hostInput sl text s)
  | .work sl b => doWork sl b s
  | .readTodLo => .next (s.answer (.word (s.tod.setWidth 32)))
  | .writeTodLo _ => .refused .readOnlyWord
  | .readBitmap l => .next (s.answer (.word ((s.pend[l.idx]).setWidth 32)))
  | .writeBitmap _ _ => .refused .readOnlyWord
  | .nextFireTime => .next (s.answer (.time (nextFireTime s)))
  | .memLoad a n => .next (s.answer (.bytes (s.mem.readBytes a n)))
  | .memStore a bytes => .next { s with mem := s.mem.writeBytes a bytes }

/-- The environment's next request, taken from the script, with the reply of the last one cleared; nothing happens
when there is none (R1234, log 1). -/
def fetchServe (s : State) : Host.Outcome State Fault Refusal :=
  match s.script with
  | [] => .next s
  | r :: rest => serve r { s with script := rest, reply := .none }

end Sys2Proof.Machine
end

