-- ==== Sys2Proof/Machine/Step.lean ====
section
/-! DEFINITION. One step of the machine: the next environment request, unless a fatal error has ended the simulation;
and the placing of a bare table word as that request. -/

namespace Sys2Proof.Machine

/-- One step: refused in the fatal state (R1220), else the next request of the environment's script. -/
def step (s : State) : Host.Outcome State Fault Refusal :=
  match s.fatal with
  | some r => .refused (.fatalState r)
  | none => fetchServe s

/-- The state whose next step writes the word to the COMMAND register of `tableSlot` (log 4). -/
def State.withFetchWord (s : State) (nbits w : Nat) : State :=
  { s with script := .store tableSlot 4#4 .word (BitVec.ofNat 32 (w % 2 ^ nbits)) :: s.script }

end Sys2Proof.Machine
end

