-- ==== Sys2Proof/Machine/Address.lean ====
section
/-! DEFINITION. The external address decoder, as its OPEN parameters describe it (R201, R206, T1): the request that an
access to a bus address becomes before it reaches the block. The decoder is not part of the block, so `step` takes
requests that are already decoded. -/

namespace Sys2Proof.Machine

/-- The 40 slots in increasing `(line, dev)` order (R1306). -/
def allSlots : List Slot :=
  [Line.l3, Line.l4, Line.l5, Line.l6, Line.l7].flatMap fun l => (List.finRange 8).map fun d => { line := l, dev := d }

/-- `DEV_REG_ADDR(line, dev)` (R201). -/
def devRegAddr (c : Config) (sl : Slot) : Word := c.devRegAddr[sl.idx]

/-- `BUS_BITMAP_ADDR(line)` (R206). -/
def bitmapAddr (c : Config) (l : Line) : Word := c.bitmapAddr[l.idx]

/-- The slot in whose 16-byte window an address lies (R201); of overlapping windows the first. DESIGN CHOICE
(log 13). -/
def windowAt (c : Config) (a : Word) : Option Slot := allSlots.find? fun sl => a - devRegAddr c sl < 16#32

/-- The line whose bitmap is at an address (R206). -/
def bitmapAt (c : Config) (a : Word) : Option Line :=
  [Line.l3, Line.l4, Line.l5, Line.l6, Line.l7].find? fun l => a == bitmapAddr c l

/-- The offset of an address in the window of a slot (R201). -/
def windowOffset (c : Config) (sl : Slot) (a : Word) : BitVec 4 := (a - devRegAddr c sl).setWidth 4

/-- The request a load from a bus address becomes, none where the address names nothing of the block; a status word is
read whole (R201, R206). -/
def loadRequest (c : Config) (a : Word) (w : Width) : Option Request :=
  match windowAt c a with
  | some sl => some (.load sl (windowOffset c sl a) w)
  | none =>
    if w ≠ .word then none
    else if a = c.todLoAddr then some .readTodLo
    else (bitmapAt c a).map .readBitmap

/-- The request a store to a bus address becomes, none where the address names nothing of the block (R201, R206). -/
def storeRequest (c : Config) (a : Word) (w : Width) (v : Word) : Option Request :=
  match windowAt c a with
  | some sl => some (.store sl (windowOffset c sl a) w v)
  | none =>
    if w ≠ .word then none
    else if a = c.todLoAddr then some (.writeTodLo v)
    else (bitmapAt c a).map fun l => .writeBitmap l v

end Sys2Proof.Machine
end

