-- ==== Sys2Proof/Machine/Construct.lean ====
section
/-! DEFINITION. Construction, the block's reset, for any configuration (R1300 to R1307): slot instantiation, the
opening of backing resources, image header parsing and its bounds, the initial ethernet polls. `State.reset` is its
result under TC. -/

namespace Sys2Proof.Machine

/-- The initial mode and MAC of a network interface (R126, R1101). -/
structure NetInit where
  mode : Byte
  mac : Mac
  deriving DecidableEq, Repr

/-- `SLOT_CONFIG(line, dev)` with the backing resources as the host presents them; none where one cannot be opened
(R8, R1302). -/
structure SlotConfig where
  enabled : Bool
  image : Option File
  log : Option (List Byte)
  net : Option NetInit
  deriving DecidableEq, Repr

/-- A slot that is not enabled. -/
def SlotConfig.off : SlotConfig := { enabled := false, image := none, log := none, net := none }

/-- Header word `k` of an image (R1303). -/
def headerWord (c : Config) (f : File) (k : Nat) : Word := f.wordAt c.imageByteOrder (4 * k)

/-- The disk image parser and its bounds (R1303, R1305). -/
def parseDisk (c : Config) (f : File) : Except FatalReason Device :=
  let p := fun k => (headerWord c f k).toNat
  if f.size < 28 || headerWord c f 0 != c.diskFileId then .error .badMagic
  else if 1 ≤ p 1 && p 1 ≤ c.maxCyl && 1 ≤ p 2 && p 2 ≤ c.maxHead && 1 ≤ p 3 && p 3 ≤ c.maxSect
      && c.minDataS ≤ p 6 && p 6 ≤ c.maxDataS then
    .ok (Device.freshDisk (p 1) (p 2) (p 3) (p 4) (p 5) (p 6) 7 f)
  else .error .badParams

/-- The flash image parser and its bounds; a first payload word `COREFILEID` is skipped (R1303, R1305). -/
def parseFlash (c : Config) (f : File) : Except FatalReason Device :=
  let p := fun k => (headerWord c f k).toNat
  if f.size < 12 || headerWord c f 0 != c.flashFileId then .error .badMagic
  else if 1 ≤ p 1 && p 1 ≤ c.maxBlocks then
    let off := if Config.flashSkipCoreFileId && 16 ≤ f.size && headerWord c f 3 == c.coreFileId then 4 else 3
    .ok (Device.freshFlash (p 1) (p 2) off f)
  else .error .badParams

/-- The value of a backing resource, or the failure to open it (R1302). -/
def opened {α : Type} : Option α → Except FatalReason α
  | some x => .ok x
  | none => .error .imageOpenFailed

/-- The device of an enabled slot of a given type (R1301, R1302). -/
def openDevice (c : Config) (k : DevKind) (sc : SlotConfig) : Except FatalReason Device :=
  match k with
  | .printer => (opened sc.log).map Device.freshPrinter
  | .terminal => (opened sc.log).map Device.freshTerminal
  | .disk => (opened sc.image).bind (parseDisk c)
  | .flash => (opened sc.image).bind (parseFlash c)
  | .eth => (opened sc.net).map fun n => Device.freshEth n.mode n.mac

/-- The device of one slot (R1301). -/
def buildSlot (c : Config) (sl : Slot) (sc : SlotConfig) : Except FatalReason Device :=
  if sc.enabled then openDevice c (c.lineTypes.of sl.line) sc else .ok Device.null

/-- A state with nothing constructed yet. -/
def blankState (c : Config) (tape : HostTape) : State where
  cfg := c
  tod := Config.todInit
  seq := 0
  queue := []
  pend := Vector.replicate 5 0#8
  slots := Vector.replicate 40 Device.null
  fatal := none
  trace := []
  mem := []
  net := []
  script := []
  tape := tape
  reply := .none
  returned := none

/-- Instantiating one slot, unless an earlier one failed (R1301, R1304). -/
def instantiate (scs : Vector SlotConfig 40) (s : State) (sl : Slot) : State :=
  s.andThen fun s =>
    match buildSlot s.cfg sl scs[sl.idx] with
    | .ok d => s.setDev sl d
    | .error r => s.stop r

/-- Construction (R1300): every slot in order, then the ethernet polls in the same order (R1306). A failure leaves a
state with `fatal` set (R1304). -/
def construct (c : Config) (scs : Vector SlotConfig 40) (tape : HostTape) : State :=
  (allSlots.foldl (instantiate scs) (blankState c tape)).andThen fun s =>
    allSlots.foldl (fun s sl => s.andThen (armPoll sl)) s

/-- The slot configuration of TC. -/
def tcSlotConfigs : Vector SlotConfig 40 :=
  (((((Vector.replicate 40 SlotConfig.off).set 0 { SlotConfig.off with enabled := true, image := some tcDiskImage }).set
    8 { SlotConfig.off with enabled := true, image := some tcFlashImage }).set
    16 { SlotConfig.off with enabled := true, net := some { mode := 0#8, mac := tcMac } }).set
    24 { SlotConfig.off with enabled := true, log := some [] }).set
    25 { SlotConfig.off with enabled := true, log := some [] } |>.set
    32 { SlotConfig.off with enabled := true, log := some [] }

end Sys2Proof.Machine
end

