-- ==== Sys2Proof/Safety.lean ====
section
/-! DEFINITION. The terms the statements use: what an accepted command and a completion leave changed and unchanged,
and the invariants of the machine (R131 to R133, R316, R508, R902). -/

namespace Sys2Proof

/-- The command with every ignored bit zero (R302). -/
def Instr.clearIgn : Instr → Instr
  | .printerReset sl _ => .printerReset sl 0#24
  | .printerAck sl _ => .printerAck sl 0#24
  | .printerPrntchr sl _ => .printerPrntchr sl 0#24
  | .termRxReset sl _ => .termRxReset sl 0#24
  | .termRxAck sl _ => .termRxAck sl 0#24
  | .termRxRecvchr sl _ => .termRxRecvchr sl 0#24
  | .termTxReset sl _ => .termTxReset sl 0#24
  | .termTxAck sl _ => .termTxAck sl 0#24
  | .termTxTranchr sl c _ => .termTxTranchr sl c 0#16
  | .diskReset sl _ => .diskReset sl 0#24
  | .diskAck sl _ => .diskAck sl 0#24
  | .diskSeekcyl sl c _ => .diskSeekcyl sl c 0#8
  | .diskReadblk sl h c _ => .diskReadblk sl h c 0#8
  | .diskWriteblk sl h c _ => .diskWriteblk sl h c 0#8
  | .flashReset sl _ => .flashReset sl 0#24
  | .flashAck sl _ => .flashAck sl 0#24
  | .flashReadblk sl b => .flashReadblk sl b
  | .flashWriteblk sl b => .flashWriteblk sl b
  | .ethReset sl _ => .ethReset sl 0#24
  | .ethAck sl _ => .ethAck sl 0#24
  | .ethReadconf sl _ => .ethReadconf sl 0#24
  | .ethReadnet sl _ => .ethReadnet sl 0#24
  | .ethWritenet sl _ => .ethWritenet sl 0#24
  | .ethConfigure sl _ => .ethConfigure sl 0#24

namespace Machine

/-! Frames. -/

/-- Replacing one register of a register file. -/
def putReg (r : Vector Word 4) (i : Fin 4) (v : Word) : Vector Word 4 := r.set i.val v i.isLt

/-- The block goes on with its command: no fatal error, the slot's body as given, the sub-device not busy. -/
structure Idle (s : State) (sl : Slot) (h : Sub) (body : DeviceBody) : Prop where
  running : s.fatal = none
  body : s.body sl = body
  idle : s.busy sl h = false

/-- The fire time fits the 64-bit counter (R403). -/
def InTime (s : State) (delta : Nat) : Prop := s.tod.toNat + delta < 2 ^ 64

/-- Nothing outside one slot changes, nor the clock, the configuration, the environment's script or the reply. -/
structure OnlySlot (sl : Slot) (s t : State) : Prop where
  dev : ∀ x, x ≠ sl → t.dev x = s.dev x
  pend : ∀ x, x ≠ sl → t.pendBit x = s.pendBit x
  cfg : t.cfg = s.cfg
  tod : t.tod = s.tod
  script : t.script = s.script
  reply : t.reply = s.reply

/-- No byte of physical memory changes. -/
def SameMemory (s t : State) : Prop := ∀ a, t.mem.read a = s.mem.read a

/-- No event is scheduled. -/
def NoEvent (s t : State) : Prop := t.queue = s.queue ∧ t.seq = s.seq

/-- Exactly one event is scheduled, `Δ` ticks from now, after every earlier one of the same fire time (R403). -/
def OneEvent (s t : State) (sl : Slot) (k : EventKind) (delta : Nat) : Prop :=
  t.queue = insertEvent { fire := BitVec.ofNat 64 (s.tod.toNat + delta), seq := s.seq, target := sl, kind := k } s.queue
    ∧ t.seq = s.seq + 1

/-- What an accepted command leaves: in its slot the command word, the status word, the body and the pending bit, one
`status_changed`, and nothing else but the event (said apart) and the tape of host answers. -/
structure Accepted (s t : State) (sl : Slot) (h : Sub) (w status : Word) (body : DeviceBody) (bit : Bool) : Prop where
  dev : t.dev sl =
    { regs := putReg (putReg (s.dev sl).regs (cmdIdx h) w) (statusIdx h) status, working := (s.dev sl).working,
      body := body }
  bit : t.pendBit sl = bit
  trace : t.trace = s.trace ++ [.statusChanged sl]
  running : t.fatal = none
  others : OnlySlot sl s t
  memory : SameMemory s t
  net : t.net = s.net
  returned : t.returned = s.returned

/-- An accepted command that starts a timed operation (R512). -/
structure Started (s t : State) (sl : Slot) (h : Sub) (w status : Word) (body : DeviceBody) (bit : Bool)
    (delta : Nat) : Prop where
  accepted : Accepted s t sl h w status body bit
  tape : t.tape = s.tape
  event : OneEvent s t sl .complete delta

/-- An accepted command that is over at once (R14, R513, R515). -/
structure Immediate (s t : State) (sl : Slot) (h : Sub) (w status : Word) (body : DeviceBody) (bit : Bool) :
    Prop where
  accepted : Accepted s t sl h w status body bit
  tape : t.tape = s.tape
  event : NoEvent s t

/-- What a completion leaves: in its slot the registers and the body, the pending bit set, the signals ending with one
`status_changed`, the register index reported, and nothing else but memory, the queue, the network calls and the tape
(said apart). -/
structure Completed (s t : State) (sl : Slot) (h : Sub) (regs : Vector Word 4) (body : DeviceBody)
    (signals : List Signal) : Prop where
  dev : t.dev sl = { regs := regs, working := (s.dev sl).working, body := body }
  bit : t.pendBit sl = true
  trace : t.trace = s.trace ++ signals ++ [.statusChanged sl]
  returned : t.returned = some (statusIdx h)
  running : t.fatal = none
  others : OnlySlot sl s t

/-- Nothing but a slot, its signals and the tape of host answers changes. -/
structure Quiet (s t : State) (tape : HostTape) : Prop where
  memory : SameMemory s t
  event : NoEvent s t
  net : t.net = s.net
  tape : t.tape = tape

/-- No byte of physical memory changes outside the `n` bytes from address `a`, modulo 2^32 (log 22). -/
def SameOutside (s t : State) (a : Word) (n : Nat) : Prop :=
  ∀ x, (∀ k, k < n → x ≠ a + BitVec.ofNat 32 k) → t.mem.read x = s.mem.read x

/-- Memory holds a block at address `a`, modulo 2^32 (log 22), the least significant byte of a word first (R204). -/
def HoldsBlock (m : Memory) (a : Word) (b : Block) : Prop :=
  ∀ i j, i < 1024 → j < 4 →
    m.read (a + BitVec.ofNat 32 (4 * i + j)) = (b.getD i 0xFFFFFFFF#32).extractLsb' (8 * j) 8

/-- Memory holds a list of bytes at address `a`, modulo 2^32 (log 22). -/
def HoldsBytes (m : Memory) (a : Word) (bytes : List Byte) : Prop :=
  ∀ k (h : k < bytes.length), m.read (a + BitVec.ofNat 32 k) = bytes[k]

/-- The registers of a slot with one register replaced. -/
def State.regsWith (s : State) (sl : Slot) (i : Fin 4) (v : Word) : Vector Word 4 := putReg (s.dev sl).regs i v

/-- The ethernet status word with READPENDING kept (R514). -/
def ethStatus (s : State) (sl : Slot) (code : Word) : Word := (s.reg sl 0 &&& 0x80#32) ||| code

/-- What arming the poll of an ethernet device adds to the queue: one `Poll` event in interrupt mode when none is armed,
nothing else (R1120). -/
def Armed (s t : State) (sl : Slot) (e : Eth) : Prop :=
  if e.polls s.cfg && !e.pollArmed then OneEvent s t sl .poll (s.cfg.pollNetTime * s.cfg.clockRate) else NoEvent s t

/-- A `Complete` event of a slot, already taken from the queue. -/
def completion (fire : Time) (n : Nat) (sl : Slot) : Event := { fire := fire, seq := n, target := sl, kind := .complete }

/-! Invariants. -/

/-- Memory and every image are in canonical form, and every buffer holds a whole block (R123, R125, R127). -/
structure StorageOk (s : State) : Prop where
  mem : s.mem.wf
  disk : ∀ sl d, s.body sl = .disk d → d.image.wf ∧ d.buf.length = 1024
  flash : ∀ sl f, s.body sl = .flash f → f.image.wf ∧ f.buf.length = 1024

/-- The queue is in key order with keys all different (R402), every insertion number is older than the next one
(R102), and while the simulation runs no event lies in the past (R132). -/
structure QueueOk (s : State) : Prop where
  sorted : s.queue.Pairwise fun a b => a.before b = true
  seqs : ∀ e ∈ s.queue, e.seq < s.seq
  future : s.fatal = none → ∀ e ∈ s.queue, s.tod ≤ e.fire

/-- The pending bit of a terminal is set iff a half has a pending request (R133, R814). -/
def PendOk (s : State) : Prop :=
  ∀ sl t, s.body sl = .terminal t → s.pendBit sl = (t.rx.ipend || t.tx.ipend)

/-- The number of `Complete` events of a slot. -/
def State.completions (s : State) (sl : Slot) : Nat :=
  s.queue.countP fun e => e.target == sl && e.kind == .complete

/-- The number of `Poll` events of a slot. -/
def State.polls (s : State) (sl : Slot) : Nat :=
  s.queue.countP fun e => e.target == sl && e.kind == .poll

/-- While the simulation runs, a sub-device is busy iff it has an operation in progress, and a slot has as many
`Complete` events as it has busy sub-devices (R131). -/
def BusyOk (s : State) : Prop :=
  s.fatal = none → ∀ sl,
    (∀ h ∈ (s.body sl).subs, s.busy sl h = (s.body sl).opActive h) ∧
    s.completions sl = (s.body sl).subs.countP fun h => s.busy sl h

/-- The `poll_armed` flag of a body. -/
def DeviceBody.armed : DeviceBody → Bool
  | .eth e => e.pollArmed
  | _ => false

/-- While the simulation runs, an ethernet slot has one `Poll` event if `poll_armed` is set and none otherwise, and no
other slot has one (R126, R1120). -/
def PollOk (s : State) : Prop :=
  s.fatal = none → ∀ sl, s.polls sl = if (s.body sl).armed then 1 else 0

/-- The registers of a NULL slot are 0 (R508). -/
def NullOk (s : State) : Prop := ∀ sl, s.kind sl = none → ∀ i, s.reg sl i = 0#32

/-- Every status register has the form of its type (R113, R316), with no code above 7 (R1210). -/
def StatusOk (s : State) : Prop :=
  ∀ sl,
    match s.kind sl with
    | some .terminal =>
      (s.reg sl 0 &&& 0xFF#32) ≤ 7#32 ∧ s.reg sl 0 < 0x10000#32 ∧ (s.reg sl 2 &&& 0xFF#32) ≤ 7#32 ∧
        s.reg sl 2 < 0x10000#32
    | some .eth => (s.reg sl 0 &&& 0x7F#32) ≤ 7#32 ∧ s.reg sl 0 < 0x100#32
    | _ => s.reg sl 0 ≤ 7#32

/-- The mode byte of an ethernet device holds no SETMAC bit (R126, R1107). -/
def EthOk (s : State) : Prop := ∀ sl e, s.body sl = .eth e → e.mode.getLsbD 7 = false

/-- The cylinder under the heads is one of the disk's, and so is the target of a seek in progress (R902). -/
def DiskOk (s : State) : Prop :=
  ∀ sl d, s.body sl = .disk d →
    d.curCyl.toNat < d.cyls ∧ d.cyls ≤ 65535 ∧ ∀ c, d.op = some (.seek c) → c.toNat < d.cyls

/-- A valid cache names the sector or block the buffer holds, as the image has it, and a read in progress that was
accepted as a hit is one of the cached sector or block (R123, R125, R913, R916, R1012). -/
structure CacheOk (s : State) : Prop where
  disk : ∀ sl d, s.body sl = .disk d →
    (d.cache.valid = true →
      d.buf = d.image.blockAt s.cfg.imageByteOrder
        (d.offBytes d.cache.cyl.toNat d.cache.head.toNat d.cache.sect.toNat)) ∧
    (∀ head sect, d.op = some (.read head sect true) → d.hit head sect = true)
  flash : ∀ sl f, s.body sl = .flash f →
    (f.cacheValid = true →
      f.buf = f.image.blockAt s.cfg.imageByteOrder ((f.dataOff + f.cacheBlk.toNat * 1024) * 4)) ∧
    (∀ blk, f.op = some (.read blk true) → f.hit blk = true)

/-- The whole invariant. -/
structure Inv (s : State) : Prop where
  storage : StorageOk s
  queue : QueueOk s
  pend : PendOk s
  busy : BusyOk s
  poll : PollOk s
  null : NullOk s
  status : StatusOk s
  eth : EthOk s
  disk : DiskOk s
  cache : CacheOk s

/-- The geometry of a body, which construction fixes (R123, R125). -/
def DeviceBody.geometry : DeviceBody → List Nat
  | .disk d => [d.cyls, d.heads, d.sects, d.rotTime, d.seekTime, d.dataPct, d.dataOff]
  | .flash f => [f.blocks, f.writeTime, f.dataOff]
  | _ => []

/-- A safe step ends in a next state in which the simulation still runs. -/
def SafeStep (s : State) : Prop := ∃ t, step s = .next t ∧ t.fatal = none

end Machine
end Sys2Proof
end

