-- ==== Sys2Proof/Certificates/Slice0/Obligations.lean ====
section
/-! DEFINITION. The statements for the provers, from the numbered rules of the spec. -/

open Sys2Proof Sys2Proof.Machine

/-! Encoding. -/

/-- R303 to R307: the word of every command decodes, at its own port and slot, to that command, with every operand and
every ignored bit at every value. -/
def Obligations.DecodeOfEncode : Prop := ∀ i : Instr, decode i.port i.slot (encode i) = .ok i

/-- R301 to R307: a word that decodes is the word of the command it decodes to, and that command is the port's and the
slot's: no bit of a word is dropped. -/
def Obligations.EncodeOfDecode : Prop :=
  ∀ (p : Port) (sl : Slot) (w : Word) (i : Instr), decode p sl w = .ok i → encode i = w ∧ i.port = p ∧ i.slot = sl

/-- R309 to R313, R315: a port decodes exactly the op codes its table lists, each to the row of that code, and rejects
every other by name. -/
def Obligations.IllegalExactlyOutsideTheTable : Prop :=
  ∀ (p : Port) (sl : Slot) (w : Word),
    ((opField w).toNat < p.opCount → ∃ i, decode p sl w = .ok i ∧ i.opcode = opField w) ∧
    (p.opCount ≤ (opField w).toNat → decode p sl w = .error (.illegalOp p (opField w)))

/-- R319's example words, and words of the test vectors. -/
def Obligations.ExampleWordsDecode : Prop :=
  ∀ sl : Slot,
    decode .disk sl 0x00000503#32 = .ok (.diskReadblk sl 0#8 5#8 0#8) ∧
    decode .disk sl 0x000A0002#32 = .ok (.diskSeekcyl sl 10#16 0#8) ∧
    decode .termTx sl 0x00005A02#32 = .ok (.termTxTranchr sl 0x5A#8 0#16) ∧
    decode .flash sl 0x00000702#32 = .ok (.flashReadblk sl 7#24) ∧
    decode .printer sl 0xFFFFFF02#32 = .ok (.printerPrntchr sl 0xFFFFFF#24) ∧
    decode .termRx sl 0x00000102#32 = .ok (.termRxRecvchr sl 1#24) ∧
    decode .eth sl 0x00000005#32 = .ok (.ethConfigure sl 0#24) ∧
    decode .printer sl 0x00000055#32 = .error (.illegalOp .printer 0x55#8)

/-- R302: the ignored bits of a command change nothing but the stored command word. -/
def Obligations.IgnoredBitsOnlyReachTheCommandRegister : Prop :=
  ∀ (i : Instr) (s u : State), s.fatal = none → s.kind i.slot = some i.port.kind →
    s.busy i.slot i.port.sub = false → exec i.clearIgn s = .next u →
    exec i s = .next (u.setReg i.slot (cmdIdx i.port.sub) (encode i))

/-! Ports and router. -/

/-- R502, R506: a step whose request is an aligned word store is the register write and then the drain of the step; the
request is taken from the script and the reply cleared. When the word goes to a command register of an idle sub-device
and decodes, that write is `exec` of the decoded command. -/
def Obligations.StepRunsTheDecodedCommand : Prop :=
  ∀ (s : State) (sl : Slot) (off : BitVec 4) (w : Word) (rest : List Request),
    s.fatal = none → s.script = .store sl off .word w :: rest → off.extractLsb' 0 2 = 0#2 →
    step s = thenDo (regWrite sl (regIndex off) w { s with script := rest, reply := .none }) settleStep ∧
    ∀ (k : DevKind) (p : Port) (i : Instr), s.kind sl = some k → portAt k (regIndex off) = some p →
      s.busy sl p.sub = false → decode p sl w = .ok i →
      step s = thenDo (exec i { s with script := rest, reply := .none }) settleStep

/-- R315, R708, R812, R917, R1015, R1117: an op code outside the port's table, written to an idle sub-device, stores
the word, sets ILLEGAL_OP_ERR, raises the interrupt at once, and schedules nothing. -/
def Obligations.IllegalCommandFailsAtOnce : Prop :=
  ∀ (p : Port) (sl : Slot) (w : Word) (s : State), s.fatal = none → s.kind sl = some p.kind →
    s.busy sl p.sub = false → p.opCount ≤ (opField w).toNat →
    ∃ t, regWrite sl (cmdIdx p.sub) w s = .next t ∧
      Immediate s t sl p.sub w (if p = .eth then ethStatus s sl 2#32 else 2#32) (setIpend p.sub true (s.body sl)) true

/-- R504, R507, R508, R509: which writes are ignored and which are stored, and that a command given to a busy sub-device
is not executed, not queued and not remembered. A write to a busy sub-device or a NULL slot
changes nothing, and so does a command given to a busy sub-device; on an idle sub-device a status register is not
written, DATA0 is stored on printer, disk, flash and ethernet, DATA1 on the ethernet device only. -/
def Obligations.RegisterWriteRouting : Prop :=
  ∀ (s : State) (sl : Slot) (i : Fin 4) (v : Word),
    (s.kind sl = none → regWrite sl i v s = .next s) ∧
    (∀ c : Instr, s.fatal = none → s.kind c.slot = some c.port.kind → s.busy c.slot c.port.sub = true →
      exec c s = .next s) ∧
    ∀ k, s.kind sl = some k →
      (s.busy sl (subOfIndex (some k) i) = true → regWrite sl i v s = .next s) ∧
      (s.busy sl (subOfIndex (some k) i) = false →
        (i = 0 → regWrite sl i v s = .next s) ∧
        (i = 2 → k = .terminal → regWrite sl i v s = .next s) ∧
        (i = 2 → k ≠ .terminal → regWrite sl i v s = .next (s.setReg sl i v)) ∧
        (i = 3 → k = .eth → regWrite sl i v s = .next (s.setReg sl i v)) ∧
        (i = 3 → k ≠ .eth → k ≠ .terminal → regWrite sl i v s = .next s))

/-- R500, R501, R411, R206, R1204, R404: reads answer the stored word, `TOD_LO`, the bitmap or the earliest fire time,
and change nothing of the block; a register of a NULL slot reads 0 when the registers of NULL slots are 0. -/
def Obligations.ReadsAnswerAndChangeNothing : Prop :=
  ∀ (s : State) (rest : List Request), s.fatal = none →
    (∀ sl off, s.script = .load sl off .word :: rest → off.extractLsb' 0 2 = 0#2 →
      step s = .next { s with script := rest, reply := .word (s.reg sl (regIndex off)) } ∧
      (NullOk s → s.kind sl = none → s.reg sl (regIndex off) = 0#32)) ∧
    (s.script = .readTodLo :: rest →
      step s = .next { s with script := rest, reply := .word (BitVec.ofNat 32 (s.tod.toNat % 2 ^ 32)) }) ∧
    (∀ l, s.script = .readBitmap l :: rest →
      ∃ v, step s = .next { s with script := rest, reply := .word v } ∧
        ∀ d : Fin 32, v.getLsbD d.val = if h : d.val < 8 then s.pendBit { line := l, dev := ⟨d.val, h⟩ } else false) ∧
    (s.script = .nextFireTime :: rest →
      step s = .next { s with script := rest, reply := .time (s.queue.head?.map Event.fire) })

/-- R1220, R202, R206, R516: after a fatal error every step is refused, and so is every command; in a running simulation
a narrow or unaligned register access, a write to `TOD_LO` or to a bitmap, and a toggle of a NULL slot are refused, each
by its name. -/
def Obligations.RefusedRequests : Prop :=
  ∀ (s : State) (rest : List Request),
    (∀ r, s.fatal = some r → step s = .refused (.fatalState r) ∧ ∀ i, exec i s = .refused (.fatalState r)) ∧
    (s.fatal = none →
      (∀ sl off w, s.script = .load sl off w :: rest → w ≠ .word → step s = .refused .narrowAccess) ∧
      (∀ sl off w v, s.script = .store sl off w v :: rest → w ≠ .word → step s = .refused .narrowAccess) ∧
      (∀ sl off, s.script = .load sl off .word :: rest → off.extractLsb' 0 2 ≠ 0#2 →
        step s = .refused .unalignedAccess) ∧
      (∀ sl off v, s.script = .store sl off .word v :: rest → off.extractLsb' 0 2 ≠ 0#2 →
        step s = .refused .unalignedAccess) ∧
      (∀ v, s.script = .writeTodLo v :: rest → step s = .refused .readOnlyWord) ∧
      (∀ l v, s.script = .writeBitmap l v :: rest → step s = .refused .readOnlyWord) ∧
      (∀ sl b, s.script = .work sl b :: rest → s.kind sl = none → step s = .refused .workOnNull))

/-- R410, R406, R407: a tick advances the counter and drains the queue. With no event due it changes only the counter
(and the script and reply); at the top of the counter it is fatal; a tick at which one event is due dispatches exactly
that event, at its fire time. -/
def Obligations.Tick : Prop :=
  ∀ (s : State) (rest : List Request), s.fatal = none → s.script = .tick :: rest →
    (s.tod.toNat = 2 ^ 64 - 1 →
      step s = .next { s with script := rest, reply := .none, fatal := some .timeOverflow }) ∧
    (s.tod.toNat < 2 ^ 64 - 1 →
      step s = settle { s with script := rest, reply := .none, tod := BitVec.ofNat 64 (s.tod.toNat + 1) }) ∧
    (s.tod.toNat < 2 ^ 64 - 1 → (∀ e ∈ s.queue, s.tod.toNat + 1 < e.fire.toNat) →
      step s = .next { s with script := rest, reply := .none, tod := BitVec.ofNat 64 (s.tod.toNat + 1) }) ∧
    (∀ (e : Event) (queue : List Event), 1 ≤ s.cfg.clockRate → 1 ≤ s.cfg.pollNetTime → QueueOk s →
      s.queue = e :: queue → e.fire.toNat = s.tod.toNat + 1 → (∀ x ∈ queue, e.fire.toNat < x.fire.toNat) →
      step s = .next (dispatch e { s with script := rest, reply := .none, tod := e.fire, queue := queue }))

/-- R516, R815, R819, R518: a step of either host port is its effect and then the drain. The toggle sets the flag of
its slot and nothing else of it, and signals an edge only. Input appends the text and a newline to the receive buffer
and to the log; a log failure is fatal; input to a slot of another type is fatal and changes nothing else. -/
def Obligations.HostPorts : Prop :=
  ∀ (s : State) (sl : Slot) (b : Bool) (text : List Byte),
    (∀ rest, s.fatal = none → s.script = .work sl b :: rest → s.kind sl ≠ none →
      step s = settleStep (toggleWork sl b { s with script := rest, reply := .none })) ∧
    (∀ rest, s.fatal = none → s.script = .input sl text :: rest →
      step s = settleStep (hostInput sl text { s with script := rest, reply := .none })) ∧
    (s.working sl = b → toggleWork sl b s = s) ∧
    (s.working sl ≠ b →
      (toggleWork sl b s).dev sl = { s.dev sl with working := b } ∧
      (toggleWork sl b s).trace = s.trace ++ [.conditionChanged b] ∧
      (toggleWork sl b s).fatal = s.fatal ∧ (toggleWork sl b s).pend = s.pend ∧
      OnlySlot sl s (toggleWork sl b s) ∧ Quiet s (toggleWork sl b s) s.tape) ∧
    (∀ t, s.body sl = .terminal t → s.drawIo.1 = false → s.fatal = none →
      (hostInput sl text s).dev sl =
        { s.dev sl with body := .terminal { t with
            rxbuf := t.rxbuf ++ text ++ [0x0A#8], log := t.log ++ text ++ [0x0A#8] } } ∧
      (hostInput sl text s).fatal = none ∧ (hostInput sl text s).trace = s.trace ∧
      OnlySlot sl s (hostInput sl text s) ∧ Quiet s (hostInput sl text s) s.drawIo.2.tape) ∧
    (∀ t, s.body sl = .terminal t → s.drawIo.1 = true → (hostInput sl text s).fatal = some .logWriteFailed) ∧
    (s.kind sl ≠ some .terminal → hostInput sl text s = { s with fatal := some .inputToNonTerminal })

/-! Event engine. -/

/-- R403, R402: scheduling in time adds exactly the new event, keeps key order and takes the next number; a fire time
of 2^64 or more is fatal. -/
def Obligations.ScheduleInsertsInKeyOrder : Prop :=
  ∀ (s : State) (sl : Slot) (k : EventKind) (delta : Nat),
    (InTime s delta →
      (∀ x, x ∈ (s.schedule sl k delta).queue ↔
        x = { fire := BitVec.ofNat 64 (s.tod.toNat + delta), seq := s.seq, target := sl, kind := k } ∨ x ∈ s.queue) ∧
      (s.schedule sl k delta).queue.length = s.queue.length + 1 ∧
      (QueueOk s → QueueOk (s.schedule sl k delta)) ∧
      s.schedule sl k delta =
        { s with queue := (s.schedule sl k delta).queue, seq := s.seq + 1 }) ∧
    (¬ InTime s delta → s.schedule sl k delta = { s with fatal := some .timeOverflow })

/-- R405, R402, R404: in a queue in key order, the event dispatched is the earliest, it is dispatched exactly when it is
due, and it leaves the queue first; an empty queue has no fire time and nothing due. -/
def Obligations.RunDueDispatchesTheEarliest : Prop :=
  ∀ s : State, (s.queue = [] → nextFireTime s = none ∧ runDue s = none) ∧
    ∀ (e : Event) (rest : List Event), QueueOk s → s.queue = e :: rest →
    (∀ x ∈ rest, e.fire.toNat ≤ x.fire.toNat) ∧
    nextFireTime s = some e.fire ∧
    (e.fire.toNat ≤ s.tod.toNat → runDue s = some (dispatch e { s with queue := rest })) ∧
    (s.tod.toNat < e.fire.toNat → runDue s = none)

/-- R406, R409, R414, T1: the drain of a step is the dispatch loop under `same_step` and nothing under `next_tick`. Within
the bounds `CLOCK_RATE ≥ 1` and `POLLNETTIME ≥ 1` the loop ends, so no step of the machine faults, and several events due
at once are dispatched one by one, the first of the queue first. When the loop has ended in a running simulation, every
event left lies in the future, and the clock has not moved. The fuel of the loop and the fault `endlessDrain`, which no
step meets within the bounds, are the model's (log 10). -/
def Obligations.DispatchLoop : Prop :=
  ∀ s : State,
    (s.cfg.zeroDelay = .sameStep → settleStep s = settle s) ∧
    (s.cfg.zeroDelay = .nextTick → settleStep s = .next s) ∧
    (1 ≤ s.cfg.clockRate → 1 ≤ s.cfg.pollNetTime →
      (∃ t, settle s = .next t) ∧ (∀ r, step s ≠ .fault r) ∧
      ((s.fatal ≠ none ∨ runDue s = none) → settle s = .next s) ∧
      ∀ e rest, s.fatal = none → s.queue = e :: rest → e.fire.toNat ≤ s.tod.toNat →
        settle s = settle (dispatch e { s with queue := rest })) ∧
    (s.queue.Pairwise (fun a b => a.before b = true) → (∀ e ∈ s.queue, e.seq < s.seq) → ∀ t, settle s = .next t →
      t.tod = s.tod ∧ (t.fatal = none → ∀ e ∈ t.queue, t.tod.toNat < e.fire.toNat))

/-! Printer. -/

/-- R701, R703, R704: what the printer's commands do when accepted; while it is busy no register of it can be
written, neither DATA0 nor COMMAND with a RESET. -/
def Obligations.PrinterCommandsAccepted : Prop :=
  ∀ (s : State) (sl : Slot) (ign : BitVec 24) (p : Printer),
    (s.body sl = .printer p → s.busy sl .single = true → ∀ i v, regWrite sl i v s = .next s) ∧
    (Idle s sl .single (.printer p) →
      (InTime s (40 * s.cfg.clockRate) →
        ∃ t, exec (.printerReset sl ign) s = .next t ∧
          Started s t sl .single (wordP 0#8 ign) 3#32 (.printer { p with op := some .reset }) false
            (40 * s.cfg.clockRate)) ∧
      (∃ t, exec (.printerAck sl ign) s = .next t ∧
        Immediate s t sl .single (wordP 1#8 ign) 1#32 (.printer p) false) ∧
      (InTime s (8 * s.cfg.clockRate) →
        ∃ t, exec (.printerPrntchr sl ign) s = .next t ∧
          Started s t sl .single (wordP 2#8 ign) 3#32 (.printer { p with op := some .print }) false
            (8 * s.cfg.clockRate)))

/-- R702, R705, R706, R710: the printer's completions. That a failed append leaves the log as it was is the model's choice
(log 23). -/
def Obligations.PrinterCompletions : Prop :=
  ∀ (s : State) (sl : Slot) (p : Printer) (fire : Time) (n : Nat), s.fatal = none → s.body sl = .printer p →
    let t := dispatch (completion fire n sl) s
    (p.op = some .reset →
      Completed s t sl .single (s.regsWith sl 0 1#32) (.printer { p with op := none }) [] ∧ Quiet s t s.tape) ∧
    (p.op = some .print → s.working sl = true → s.drawIo.1 = false →
      Completed s t sl .single (s.regsWith sl 0 1#32)
        (.printer { op := none, log := p.log ++ [(s.reg sl 2).extractLsb' 0 8] }) [] ∧ Quiet s t s.drawIo.2.tape) ∧
    (p.op = some .print → s.working sl = true → s.drawIo.1 = true →
      t.fatal = some .logWriteFailed ∧ t.body sl = .printer p) ∧
    (p.op = some .print → s.working sl = false →
      Completed s t sl .single (s.regsWith sl 0 4#32) (.printer { p with op := none }) [] ∧ Quiet s t s.tape)

/-! Terminal. -/

/-- R802, R803, R804, R814: what the commands of the receive half do when accepted; the line stays asserted exactly
while the transmit half has a pending request, and the transmit half is untouched. -/
def Obligations.ReceiveCommandsAccepted : Prop :=
  ∀ (s : State) (sl : Slot) (ign : BitVec 24) (x : Terminal), Idle s sl .rx (.terminal x) →
    (InTime s (400 * s.cfg.clockRate) →
      ∃ t, exec (.termRxReset sl ign) s = .next t ∧
        Started s t sl .rx (wordP 0#8 ign) 3#32
          (.terminal { x with rx := ⟨some .reset, BitVec.ofNat 64 (s.tod.toNat + 400 * s.cfg.clockRate), false⟩ })
          (x.tx.ipend && s.pendBit sl) (400 * s.cfg.clockRate)) ∧
    (∃ t, exec (.termRxAck sl ign) s = .next t ∧
      Immediate s t sl .rx (wordP 1#8 ign) 1#32 (.terminal { x with rx := { x.rx with ipend := false } })
        (x.tx.ipend && s.pendBit sl)) ∧
    (InTime s (80 * s.cfg.clockRate) →
      ∃ t, exec (.termRxRecvchr sl ign) s = .next t ∧
        Started s t sl .rx (wordP 2#8 ign) 3#32
          (.terminal { x with rx := ⟨some .char, BitVec.ofNat 64 (s.tod.toNat + 80 * s.cfg.clockRate), false⟩ })
          (x.tx.ipend && s.pendBit sl) (80 * s.cfg.clockRate))

/-- R808, R809, R810, R814: what the commands of the transmit half do when accepted; the line stays asserted exactly
while the receive half has a pending request, and the receive half is untouched. -/
def Obligations.TransmitCommandsAccepted : Prop :=
  ∀ (s : State) (sl : Slot) (ign : BitVec 24) (c : BitVec 8) (high : BitVec 16) (x : Terminal),
    Idle s sl .tx (.terminal x) →
    (InTime s (400 * s.cfg.clockRate) →
      ∃ t, exec (.termTxReset sl ign) s = .next t ∧
        Started s t sl .tx (wordP 0#8 ign) 3#32
          (.terminal { x with tx := ⟨some .reset, BitVec.ofNat 64 (s.tod.toNat + 400 * s.cfg.clockRate), false⟩ })
          (x.rx.ipend && s.pendBit sl) (400 * s.cfg.clockRate)) ∧
    (∃ t, exec (.termTxAck sl ign) s = .next t ∧
      Immediate s t sl .tx (wordP 1#8 ign) 1#32 (.terminal { x with tx := { x.tx with ipend := false } })
        (x.rx.ipend && s.pendBit sl)) ∧
    (InTime s (80 * s.cfg.clockRate) →
      ∃ t, exec (.termTxTranchr sl c high) s = .next t ∧
        Started s t sl .tx (wordTX 2#8 c high) 3#32
          (.terminal { x with tx := ⟨some .char, BitVec.ofNat 64 (s.tod.toNat + 80 * s.cfg.clockRate), false⟩ })
          (x.rx.ipend && s.pendBit sl) (80 * s.cfg.clockRate))

/-- R813, R817: a terminal's event completes the half that is due: of two busy halves the transmit half only if its
completion time is strictly earlier. Said of a RESET in progress: the half becomes READY and raises its request, the
other half is untouched. With no half busy the event is fatal. -/
def Obligations.TerminalCompletionChoice : Prop :=
  ∀ (s : State) (sl : Slot) (x : Terminal) (h : Sub) (fire : Time) (n : Nat), s.fatal = none →
    s.body sl = .terminal x →
    let t := dispatch (completion fire n sl) s
    (h ≠ .single → (x.half h).op = some .reset →
      ((x.other h).op = none ∨ (h = .rx ∧ x.rx.ctime.toNat ≤ x.tx.ctime.toNat) ∨
        (h = .tx ∧ x.tx.ctime.toNat < x.rx.ctime.toNat)) →
      Completed s t sl h (s.regsWith sl (statusIdx h) 1#32)
        (.terminal (x.setHalf h { x.half h with op := none, ipend := true })) [] ∧ Quiet s t s.tape) ∧
    (x.rx.op = none → x.tx.op = none → t.fatal = some .invariant)

/-- R805, R806, R807: the RECVCHR completion: an empty buffer waits another `80·T` with no interrupt, working or not; a
working half receives one byte; a half that does not work reports RECVERR and keeps the byte. -/
def Obligations.ReceiveCompletion : Prop :=
  ∀ (s : State) (sl : Slot) (x : Terminal) (fire : Time) (n : Nat), s.fatal = none → s.body sl = .terminal x →
    x.rx.op = some .char → (x.tx.op = none ∨ x.rx.ctime.toNat ≤ x.tx.ctime.toNat) →
    let t := dispatch (completion fire n sl) s
    (x.rxbuf = [] → InTime s (80 * s.cfg.clockRate) →
      t.dev sl = { s.dev sl with body := .terminal { x with rx := { x.rx with
        ctime := BitVec.ofNat 64 (s.tod.toNat + 80 * s.cfg.clockRate) } } } ∧
      OneEvent s t sl .complete (80 * s.cfg.clockRate) ∧ t.pend = s.pend ∧ t.trace = s.trace ∧
      t.returned = some 0 ∧ t.fatal = none ∧ OnlySlot sl s t ∧ SameMemory s t ∧ t.net = s.net ∧ t.tape = s.tape) ∧
    (∀ b rest, x.rxbuf = b :: rest → s.working sl = true →
      Completed s t sl .rx (s.regsWith sl 0 ((b.setWidth 32 <<< 8) ||| 5#32))
        (.terminal { x with rxbuf := rest, rx := { x.rx with op := none, ipend := true } }) [] ∧ Quiet s t s.tape) ∧
    (x.rxbuf ≠ [] → s.working sl = false →
      Completed s t sl .rx (s.regsWith sl 0 4#32)
        (.terminal { x with rx := { x.rx with op := none, ipend := true } }) [] ∧ Quiet s t s.tape)

/-- R811, R819: the TRANCHR completion: a working half appends the character of TRANS_COMMAND to the log and signals
it; the character stands in the status word in both branches; a log failure is fatal. -/
def Obligations.TransmitCompletion : Prop :=
  ∀ (s : State) (sl : Slot) (x : Terminal) (fire : Time) (n : Nat), s.fatal = none → s.body sl = .terminal x →
    x.tx.op = some .char → (x.rx.op = none ∨ x.tx.ctime.toNat < x.rx.ctime.toNat) →
    let t := dispatch (completion fire n sl) s
    let b : Byte := (s.reg sl 3).extractLsb' 8 8
    (s.working sl = true → s.drawIo.1 = false →
      Completed s t sl .tx (s.regsWith sl 2 ((b.setWidth 32 <<< 8) ||| 5#32))
        (.terminal { x with log := x.log ++ [b], tx := { x.tx with op := none, ipend := true } }) [.transmitted b] ∧
      Quiet s t s.drawIo.2.tape) ∧
    (s.working sl = true → s.drawIo.1 = true → t.fatal = some .logWriteFailed) ∧
    (s.working sl = false →
      Completed s t sl .tx (s.regsWith sl 2 ((b.setWidth 32 <<< 8) ||| 4#32))
        (.terminal { x with tx := { x.tx with op := none, ipend := true } }) [] ∧ Quiet s t s.tape)

/-! Disk. -/

/-- R904, R907: the disk's RESET invalidates the cache and takes `(400 + seek_time * cur_cyl) * CR` ticks; ACK makes it
READY and leaves cache and cylinder. -/
def Obligations.DiskResetAndAckAccepted : Prop :=
  ∀ (s : State) (sl : Slot) (ign : BitVec 24) (d : Disk), Idle s sl .single (.disk d) →
    (InTime s ((400 + d.seekTime * d.curCyl.toNat) * s.cfg.clockRate) →
      ∃ t, exec (.diskReset sl ign) s = .next t ∧
        Started s t sl .single (wordP 0#8 ign) 3#32 (.disk { d with cache := .invalid, op := some .reset }) false
          ((400 + d.seekTime * d.curCyl.toNat) * s.cfg.clockRate)) ∧
    (∃ t, exec (.diskAck sl ign) s = .next t ∧ Immediate s t sl .single (wordP 1#8 ign) 1#32 (.disk d) false)

/-- R908, R909: a seek to a cylinder of the disk takes `seek_time * |c - cur_cyl| * CR` ticks; any other cylinder is
SEEKERR at once, whatever `working` is. -/
def Obligations.DiskSeekAccepted : Prop :=
  ∀ (s : State) (sl : Slot) (c : BitVec 16) (ign : BitVec 8) (d : Disk), Idle s sl .single (.disk d) →
    (c.toNat < d.cyls →
      InTime s (d.seekTime * (max c.toNat d.curCyl.toNat - min c.toNat d.curCyl.toNat) * s.cfg.clockRate) →
      ∃ t, exec (.diskSeekcyl sl c ign) s = .next t ∧
        Started s t sl .single (wordDS 2#8 c ign) 3#32 (.disk { d with op := some (.seek c) }) false
          (d.seekTime * (max c.toNat d.curCyl.toNat - min c.toNat d.curCyl.toNat) * s.cfg.clockRate)) ∧
    (d.cyls ≤ c.toNat →
      ∃ t, exec (.diskSeekcyl sl c ign) s = .next t ∧
        Immediate s t sl .single (wordDS 2#8 c ign) 4#32 (.disk d) true)

/-- R901, R903, R905, R912: READBLK out of bounds is DREADERR at once and invalidates the cache; a hit takes `DMATICKS`;
a miss takes the rotational latency from `TOD_LO` and `DMATICKS`; a miss with no sector ticks is fatal. -/
def Obligations.DiskReadAccepted : Prop :=
  ∀ (s : State) (sl : Slot) (head sect ign : BitVec 8) (d : Disk), Idle s sl .single (.disk d) →
    let w := wordDRW 3#8 head sect ign
    let st := d.rotTime * s.cfg.clockRate / d.sects
    let L := s.tod.toNat % 2 ^ 32
    let off := (sect.toNat + d.sects - L / st % d.sects - 1) % d.sects
    let miss := L % st + st * off + st * d.dataPct / 100 + s.cfg.dmaTicks
    let cached := d.cache = { cyl := d.curCyl, head := head.setWidth 32, sect := sect.setWidth 32 }
    (d.heads ≤ head.toNat ∨ d.sects ≤ sect.toNat →
      ∃ t, exec (.diskReadblk sl head sect ign) s = .next t ∧
        Immediate s t sl .single w 5#32 (.disk { d with cache := .invalid }) true) ∧
    (head.toNat < d.heads → sect.toNat < d.sects → cached → InTime s s.cfg.dmaTicks →
      ∃ t, exec (.diskReadblk sl head sect ign) s = .next t ∧
        Started s t sl .single w 3#32 (.disk { d with op := some (.read head sect true) }) false s.cfg.dmaTicks) ∧
    (head.toNat < d.heads → sect.toNat < d.sects → ¬ cached → 0 < st → InTime s miss →
      ∃ t, exec (.diskReadblk sl head sect ign) s = .next t ∧
        Started s t sl .single w 3#32 (.disk { d with op := some (.read head sect false) }) false miss) ∧
    (head.toNat < d.heads → sect.toNat < d.sects → ¬ cached → st = 0 →
      ∃ t, exec (.diskReadblk sl head sect ign) s = .next t ∧ t.fatal = some .zeroSectorTicks)

/-- R903, R905, R914: WRITEBLK invalidates the cache; out of bounds it is DWRITERR at once; the DMA from memory is at
acceptance, and its failure is DMAERR at once; else the buffer holds the block memory holds now, and the latency is
always the miss formula; no sector ticks are fatal. The wrap of a word that straddles the top of memory is the model's
choice (log 22). -/
def Obligations.DiskWriteAccepted : Prop :=
  ∀ (s : State) (sl : Slot) (head sect ign : BitVec 8) (d : Disk), Idle s sl .single (.disk d) →
    let w := wordDRW 4#8 head sect ign
    let st := d.rotTime * s.cfg.clockRate / d.sects
    let L := s.tod.toNat % 2 ^ 32
    let off := (sect.toNat + d.sects - L / st % d.sects - 1) % d.sects
    let delta := L % st + st * off + st * d.dataPct / 100 + s.cfg.dmaTicks
    let failed := (s.decodeFails (s.reg sl 2) 4096).1
    (d.heads ≤ head.toNat ∨ d.sects ≤ sect.toNat →
      ∃ t, exec (.diskWriteblk sl head sect ign) s = .next t ∧
        Immediate s t sl .single w 6#32 (.disk { d with cache := .invalid }) true) ∧
    (head.toNat < d.heads → sect.toNat < d.sects → failed = true →
      ∃ t buf, exec (.diskWriteblk sl head sect ign) s = .next t ∧
        Accepted s t sl .single w 7#32 (.disk { d with cache := .invalid, buf := buf }) true ∧ NoEvent s t) ∧
    (head.toNat < d.heads → sect.toNat < d.sects → failed = false → st = 0 →
      ∃ t, exec (.diskWriteblk sl head sect ign) s = .next t ∧ t.fatal = some .zeroSectorTicks) ∧
    (head.toNat < d.heads → sect.toNat < d.sects → failed = false → 0 < st → InTime s delta →
      ∃ t buf, exec (.diskWriteblk sl head sect ign) s = .next t ∧
        Accepted s t sl .single w 3#32
          (.disk { d with cache := .invalid, buf := buf, op := some (.write head sect) }) false ∧
        OneEvent s t sl .complete delta ∧ t.tape = (s.decodeFails (s.reg sl 2) 4096).2.tape ∧
        buf.length = 1024 ∧ HoldsBlock s.mem (s.reg sl 2) buf)

/-- R906, R910, R1328: the disk's RESET returns to cylinder 0, working or not; a seek moves the heads when the disk
works at completion, and is SEEKERR with the heads where they were when it does not. -/
def Obligations.DiskResetAndSeekCompletions : Prop :=
  ∀ (s : State) (sl : Slot) (d : Disk) (fire : Time) (n : Nat), s.fatal = none → s.body sl = .disk d →
    let t := dispatch (completion fire n sl) s
    (d.op = some .reset →
      Completed s t sl .single (s.regsWith sl 0 1#32) (.disk { d with curCyl := 0#32, op := none }) [] ∧
      Quiet s t s.tape) ∧
    (∀ c, d.op = some (.seek c) → s.working sl = true →
      Completed s t sl .single (s.regsWith sl 0 1#32) (.disk { d with curCyl := c.setWidth 32, op := none }) [] ∧
      Quiet s t s.tape) ∧
    (∀ c, d.op = some (.seek c) → s.working sl = false →
      Completed s t sl .single (s.regsWith sl 0 4#32) (.disk { d with op := none }) [] ∧ Quiet s t s.tape)

/-- R601, R911, R913, R919: the READBLK completion. A disk that does not work transfers nothing; a miss reads the sector of
the image, and a failure of the host or an image too short is fatal; then the block goes to memory at DATA0 and the cache
names the sector, or the DMA fails with DMAERR and the cache is invalid. That a failed read leaves the buffer as it was
is the model's choice (log 23), and so is the wrap of a word that straddles the top of memory (log 22). -/
def Obligations.DiskReadCompletion : Prop :=
  ∀ (s : State) (sl : Slot) (d : Disk) (head sect : BitVec 8) (hit : Bool) (fire : Time) (n : Nat),
    s.fatal = none → s.body sl = .disk d → d.op = some (.read head sect hit) → s.mem.wf → d.buf.length = 1024 →
    let t := dispatch (completion fire n sl) s
    let off := (d.dataOff + (d.curCyl.toNat * d.heads * d.sects + head.toNat * d.sects + sect.toNat) * 1024) * 4
    let io := s.drawIo
    let base := if hit then s else io.2
    let buf := if hit then d.buf else d.image.blockAt s.cfg.imageByteOrder off
    let dma := base.decodeFails (s.reg sl 2) 4096
    (s.working sl = false →
      Completed s t sl .single (s.regsWith sl 0 5#32) (.disk { d with cache := .invalid, op := none }) [] ∧
      Quiet s t s.tape) ∧
    (s.working sl = true → hit = false → (io.1 = true ∨ d.image.size < off + 4096) →
      t = { io.2 with fatal := some .imageReadFailed }) ∧
    (s.working sl = true → (hit = true ∨ io.1 = false ∧ off + 4096 ≤ d.image.size) → dma.1 = true →
      Completed s t sl .single (s.regsWith sl 0 7#32)
        (.disk { d with buf := buf, cache := .invalid, op := none }) [] ∧
      SameOutside s t (s.reg sl 2) 4096 ∧ NoEvent s t ∧ t.net = s.net) ∧
    (s.working sl = true → (hit = true ∨ io.1 = false ∧ off + 4096 ≤ d.image.size) → dma.1 = false →
      Completed s t sl .single (s.regsWith sl 0 1#32)
        (.disk { d with buf := buf, op := none,
                        cache := { cyl := d.curCyl, head := head.setWidth 32, sect := sect.setWidth 32 } }) [] ∧
      HoldsBlock t.mem (s.reg sl 2) buf ∧ SameOutside s t (s.reg sl 2) 4096 ∧ NoEvent s t ∧ t.net = s.net ∧
      t.tape = dma.2.tape)

/-- R911, R915, R919: the WRITEBLK completion: a working disk stores its buffer in the image and the cache names the
sector, a failure of the file is fatal; a disk that does not work stores nothing and its cache is invalid. That a write
past the end of the image succeeds is the model's choice (log 8), and so is that a failed write leaves the image and the
buffer as they were (log 23). -/
def Obligations.DiskWriteCompletion : Prop :=
  ∀ (s : State) (sl : Slot) (d : Disk) (head sect : BitVec 8) (fire : Time) (n : Nat),
    s.fatal = none → s.body sl = .disk d → d.op = some (.write head sect) → d.image.wf → d.buf.length = 1024 →
    let t := dispatch (completion fire n sl) s
    let off := (d.dataOff + (d.curCyl.toNat * d.heads * d.sects + head.toNat * d.sects + sect.toNat) * 1024) * 4
    (s.working sl = false →
      Completed s t sl .single (s.regsWith sl 0 6#32) (.disk { d with cache := .invalid, op := none }) [] ∧
      Quiet s t s.tape) ∧
    (s.working sl = true → s.drawIo.1 = true →
      t.fatal = some .imageWriteFailed ∧ t.dev sl = s.dev sl ∧ SameMemory s t) ∧
    (s.working sl = true → s.drawIo.1 = false →
      ∃ f : File, f.blockAt s.cfg.imageByteOrder off = d.buf ∧
        (∀ k, k < d.image.size → (k < off ∨ off + 4096 ≤ k) → readCell k f.cells = readCell k d.image.cells) ∧
        (off + 4096 ≤ d.image.size → f.size = d.image.size) ∧
        Completed s t sl .single (s.regsWith sl 0 1#32)
          (.disk { d with image := f, op := none,
                          cache := { cyl := d.curCyl, head := head.setWidth 32, sect := sect.setWidth 32 } }) [] ∧
        SameMemory s t ∧ NoEvent s t ∧ t.net = s.net)

/-! Flash. -/

/-- R1003, R1005: the flash's RESET invalidates the cache and takes `400 * CR` ticks; ACK makes it READY and leaves the
cache. -/
def Obligations.FlashResetAndAckAccepted : Prop :=
  ∀ (s : State) (sl : Slot) (ign : BitVec 24) (f : Flash), Idle s sl .single (.flash f) →
    (InTime s (400 * s.cfg.clockRate) →
      ∃ t, exec (.flashReset sl ign) s = .next t ∧
        Started s t sl .single (wordP 0#8 ign) 3#32
          (.flash { f with cacheBlk := 0xFFFFFFFF#32, op := some .reset }) false (400 * s.cfg.clockRate)) ∧
    (∃ t, exec (.flashAck sl ign) s = .next t ∧ Immediate s t sl .single (wordP 1#8 ign) 1#32 (.flash f) false)

/-- R1001, R1006, R1007: READBLK out of range is FREADERR at once and invalidates the cache; a hit takes `DMATICKS`; a
miss takes the read time and `DMATICKS`. -/
def Obligations.FlashReadAccepted : Prop :=
  ∀ (s : State) (sl : Slot) (blk : BitVec 24) (f : Flash), Idle s sl .single (.flash f) →
    let miss := f.writeTime * s.cfg.readRatioNum * s.cfg.clockRate / s.cfg.readRatioDen + s.cfg.dmaTicks
    (f.blocks ≤ blk.toNat →
      ∃ t, exec (.flashReadblk sl blk) s = .next t ∧
        Immediate s t sl .single (wordP 2#8 blk) 4#32 (.flash { f with cacheBlk := 0xFFFFFFFF#32 }) true) ∧
    (blk.toNat < f.blocks → f.cacheBlk = blk.setWidth 32 → InTime s s.cfg.dmaTicks →
      ∃ t, exec (.flashReadblk sl blk) s = .next t ∧
        Started s t sl .single (wordP 2#8 blk) 3#32 (.flash { f with op := some (.read blk true) }) false
          s.cfg.dmaTicks) ∧
    (blk.toNat < f.blocks → f.cacheBlk ≠ blk.setWidth 32 → InTime s miss →
      ∃ t, exec (.flashReadblk sl blk) s = .next t ∧
        Started s t sl .single (wordP 2#8 blk) 3#32 (.flash { f with op := some (.read blk false) }) false miss)

/-- R1001, R1009: WRITEBLK invalidates the cache; out of range it is FWRITERR at once; a failed DMA is DMAERR at once;
else the buffer holds the block memory holds now and the latency is `write_time * CR + DMATICKS`. The wrap of a word that
straddles the top of memory is the model's choice (log 22). -/
def Obligations.FlashWriteAccepted : Prop :=
  ∀ (s : State) (sl : Slot) (blk : BitVec 24) (f : Flash), Idle s sl .single (.flash f) →
    let w := wordP 3#8 blk
    let delta := f.writeTime * s.cfg.clockRate + s.cfg.dmaTicks
    let failed := (s.decodeFails (s.reg sl 2) 4096).1
    (f.blocks ≤ blk.toNat →
      ∃ t, exec (.flashWriteblk sl blk) s = .next t ∧
        Immediate s t sl .single w 5#32 (.flash { f with cacheBlk := 0xFFFFFFFF#32 }) true) ∧
    (blk.toNat < f.blocks → failed = true →
      ∃ t buf, exec (.flashWriteblk sl blk) s = .next t ∧
        Accepted s t sl .single w 7#32 (.flash { f with cacheBlk := 0xFFFFFFFF#32, buf := buf }) true ∧
        NoEvent s t) ∧
    (blk.toNat < f.blocks → failed = false → InTime s delta →
      ∃ t buf, exec (.flashWriteblk sl blk) s = .next t ∧
        Accepted s t sl .single w 3#32
          (.flash { f with cacheBlk := 0xFFFFFFFF#32, buf := buf, op := some (.write blk) }) false ∧
        OneEvent s t sl .complete delta ∧ t.tape = (s.decodeFails (s.reg sl 2) 4096).2.tape ∧
        buf.length = 1024 ∧ HoldsBlock s.mem (s.reg sl 2) buf)

/-- R1004, R1008, R1011, R1016: the flash's RESET and READBLK completions, the misses of READBLK with a failure of the host
or an image too short. That a failed read leaves the buffer as it was is the model's choice (log 23), and so is the wrap
of a word that straddles the top of memory (log 22). -/
def Obligations.FlashResetAndReadCompletions : Prop :=
  ∀ (s : State) (sl : Slot) (f : Flash) (fire : Time) (n : Nat),
    s.fatal = none → s.body sl = .flash f → s.mem.wf → f.buf.length = 1024 →
    let t := dispatch (completion fire n sl) s
    (f.op = some .reset →
      Completed s t sl .single (s.regsWith sl 0 1#32) (.flash { f with op := none }) [] ∧ Quiet s t s.tape) ∧
    ∀ blk hit, f.op = some (.read blk hit) →
      let off := (f.dataOff + blk.toNat * 1024) * 4
      let io := s.drawIo
      let base := if hit then s else io.2
      let buf := if hit then f.buf else f.image.blockAt s.cfg.imageByteOrder off
      let dma := base.decodeFails (s.reg sl 2) 4096
      (s.working sl = false →
        Completed s t sl .single (s.regsWith sl 0 4#32) (.flash { f with cacheBlk := 0xFFFFFFFF#32, op := none }) [] ∧
        Quiet s t s.tape) ∧
      (s.working sl = true → hit = false → (io.1 = true ∨ f.image.size < off + 4096) →
        t = { io.2 with fatal := some .imageReadFailed }) ∧
      (s.working sl = true → (hit = true ∨ io.1 = false ∧ off + 4096 ≤ f.image.size) → dma.1 = true →
        Completed s t sl .single (s.regsWith sl 0 7#32)
          (.flash { f with buf := buf, cacheBlk := 0xFFFFFFFF#32, op := none }) [] ∧
        SameOutside s t (s.reg sl 2) 4096 ∧ NoEvent s t ∧ t.net = s.net) ∧
      (s.working sl = true → (hit = true ∨ io.1 = false ∧ off + 4096 ≤ f.image.size) → dma.1 = false →
        Completed s t sl .single (s.regsWith sl 0 1#32)
          (.flash { f with buf := buf, cacheBlk := blk.setWidth 32, op := none }) [] ∧
        HoldsBlock t.mem (s.reg sl 2) buf ∧ SameOutside s t (s.reg sl 2) 4096 ∧ NoEvent s t ∧ t.net = s.net ∧
        t.tape = dma.2.tape)

/-- R1010, R1011, R1016: the flash's WRITEBLK completion. That a write past the end of the image succeeds is the model's
choice (log 8), and so is that a failed write leaves the image and the buffer as they were (log 23). -/
def Obligations.FlashWriteCompletion : Prop :=
  ∀ (s : State) (sl : Slot) (f : Flash) (blk : BitVec 24) (fire : Time) (n : Nat),
    s.fatal = none → s.body sl = .flash f → f.op = some (.write blk) → f.image.wf → f.buf.length = 1024 →
    let t := dispatch (completion fire n sl) s
    let off := (f.dataOff + blk.toNat * 1024) * 4
    (s.working sl = false →
      Completed s t sl .single (s.regsWith sl 0 5#32) (.flash { f with cacheBlk := 0xFFFFFFFF#32, op := none }) [] ∧
      Quiet s t s.tape) ∧
    (s.working sl = true → s.drawIo.1 = true →
      t.fatal = some .imageWriteFailed ∧ t.dev sl = s.dev sl ∧ SameMemory s t) ∧
    (s.working sl = true → s.drawIo.1 = false →
      ∃ g : File, g.blockAt s.cfg.imageByteOrder off = f.buf ∧
        (∀ k, k < f.image.size → (k < off ∨ off + 4096 ≤ k) → readCell k g.cells = readCell k f.image.cells) ∧
        (off + 4096 ≤ f.image.size → g.size = f.image.size) ∧
        Completed s t sl .single (s.regsWith sl 0 1#32)
          (.flash { f with image := g, cacheBlk := blk.setWidth 32, op := none }) [] ∧
        SameMemory s t ∧ NoEvent s t ∧ t.net = s.net)

/-! Ethernet. -/

/-- R1103, R1106, R1108, R1110, R1112: the five timed ethernet commands; READPENDING is kept in the BUSY status. -/
def Obligations.EthernetTimedCommandsAccepted : Prop :=
  ∀ (s : State) (sl : Slot) (ign : BitVec 24) (e : Eth), Idle s sl .single (.eth e) →
    let busy := (s.reg sl 0 &&& 0x80#32) ||| 3#32
    let cr := s.cfg.clockRate
    (InTime s (s.cfg.ethResetTime * cr) →
      ∃ t, exec (.ethReset sl ign) s = .next t ∧
        Started s t sl .single (wordP 0#8 ign) busy (.eth { e with op := some .reset }) false
          (s.cfg.ethResetTime * cr)) ∧
    (InTime s (s.cfg.ethReadConfTime * cr) →
      ∃ t, exec (.ethReadconf sl ign) s = .next t ∧
        Started s t sl .single (wordP 2#8 ign) busy (.eth { e with op := some .readConf }) false
          (s.cfg.ethReadConfTime * cr)) ∧
    (InTime s (s.cfg.ethReadNetTime * cr) →
      ∃ t, exec (.ethReadnet sl ign) s = .next t ∧
        Started s t sl .single (wordP 3#8 ign) busy (.eth { e with op := some .readNet }) false
          (s.cfg.ethReadNetTime * cr)) ∧
    (InTime s (s.cfg.ethWriteNetTime * cr) →
      ∃ t, exec (.ethWritenet sl ign) s = .next t ∧
        Started s t sl .single (wordP 4#8 ign) busy (.eth { e with op := some .writeNet }) false
          (s.cfg.ethWriteNetTime * cr)) ∧
    (InTime s (s.cfg.ethConfigureTime * cr) →
      ∃ t, exec (.ethConfigure sl ign) s = .next t ∧
        Started s t sl .single (wordP 5#8 ign) busy (.eth { e with op := some .configure }) false
          (s.cfg.ethConfigureTime * cr))

/-- R1105, R1120: ACK clears the pending bit and READPENDING, and arms the poll. -/
def Obligations.EthernetAckAccepted : Prop :=
  ∀ (s : State) (sl : Slot) (ign : BitVec 24) (e : Eth), Idle s sl .single (.eth e) →
    InTime s (s.cfg.pollNetTime * s.cfg.clockRate) →
    ∃ t, exec (.ethAck sl ign) s = .next t ∧
      Accepted s t sl .single (wordP 1#8 ign) 1#32 (.eth { e with pollArmed := e.pollArmed || e.polls s.cfg }) false ∧
      t.tape = s.tape ∧ Armed s t sl e

/-- R1104, R1120: the RESET completion empties the packet buffer, clears READPENDING and arms the poll. -/
def Obligations.EthernetResetCompletion : Prop :=
  ∀ (s : State) (sl : Slot) (e : Eth) (fire : Time) (n : Nat), s.fatal = none → s.body sl = .eth e →
    e.op = some .reset → InTime s (s.cfg.pollNetTime * s.cfg.clockRate) →
    let t := dispatch (completion fire n sl) s
    Completed s t sl .single (s.regsWith sl 0 1#32)
      (.eth { e with op := none, pktbuf := [], pollArmed := e.pollArmed || e.polls s.cfg }) [] ∧
    SameMemory s t ∧ t.net = s.net ∧ t.tape = s.tape ∧ Armed s t sl e

/-- R1107, R318: the READCONF completion packs the mode and the MAC into DATA0 and DATA1, working or not; the
upper bits of DATA0, SETMAC among them, are 0, for a mode that holds no SETMAC. -/
def Obligations.EthernetReadConfCompletion : Prop :=
  ∀ (s : State) (sl : Slot) (e : Eth) (fire : Time) (n : Nat), s.fatal = none → s.body sl = .eth e →
    e.op = some .readConf →
    let t := dispatch (completion fire n sl) s
    let d0 : Word := (e.mode.setWidth 32 <<< 16) ||| (e.mac.m0.setWidth 32 <<< 8) ||| e.mac.m1.setWidth 32
    let d1 : Word := (e.mac.m2.setWidth 32 <<< 24) ||| (e.mac.m3.setWidth 32 <<< 16) |||
      (e.mac.m4.setWidth 32 <<< 8) ||| e.mac.m5.setWidth 32
    Completed s t sl .single
      (putReg (putReg (putReg (s.dev sl).regs 2 d0) 3 d1) 0 ((s.reg sl 0 &&& 0x80#32) ||| 1#32))
      (.eth { e with op := none }) [] ∧ Quiet s t s.tape ∧
    (e.mode.getLsbD 7 = false → d0.extractLsb' 23 9 = 0#9)

/-- R1109, R1120: the CONFIGURE completion takes the mode from DATA0, the MAC from DATA0 and DATA1 when SETMAC is set,
tells the interface, and arms the poll of the new mode. -/
def Obligations.EthernetConfigureCompletion : Prop :=
  ∀ (s : State) (sl : Slot) (e : Eth) (fire : Time) (n : Nat), s.fatal = none → s.body sl = .eth e →
    e.op = some .configure → InTime s (s.cfg.pollNetTime * s.cfg.clockRate) →
    let t := dispatch (completion fire n sl) s
    let d0 := s.reg sl 2
    let d1 := s.reg sl 3
    let mode : Byte := d0.extractLsb' 16 8 &&& 0x7F#8
    let mac : Mac := if d0.getLsbD 23
      then ⟨d0.extractLsb' 8 8, d0.extractLsb' 0 8, d1.extractLsb' 24 8, d1.extractLsb' 16 8, d1.extractLsb' 8 8,
        d1.extractLsb' 0 8⟩
      else e.mac
    let e' : Eth := { e with mode := mode, mac := mac, op := none }
    Completed s t sl .single (s.regsWith sl 0 ((s.reg sl 0 &&& 0x80#32) ||| 1#32))
      (.eth { e' with pollArmed := e'.pollArmed || e'.polls s.cfg }) [] ∧
    SameMemory s t ∧ t.net = s.net ++ [.configure sl mode mac] ∧ t.tape = s.tape ∧ Armed s t sl e'

/-- R318, R1107, R1109: what READCONF reports is what CONFIGURE, with SETMAC, loads: the mode without SETMAC and every
byte of the MAC. -/
def Obligations.EthernetConfigurationRoundTrip : Prop :=
  ∀ (mode : Byte) (mac : Mac) (high : Byte),
    configMac (confData0 mode mac ||| (high.setWidth 32 <<< 24)) (confData1 mac) = mac ∧
    configMode (confData0 mode mac ||| (high.setWidth 32 <<< 24)) = mode ∧
    (∀ d0 d1 : Word, d0.extractLsb' 24 8 = 0#8 →
      confData0 (configMode d0) (configMac d0 d1) = d0 ∧ confData1 (configMac d0 d1) = d1)

/-- R1111, R603, R1114: the WRITENET completion: the bytes memory holds at DATA0 go to the interface, DATA1 of them; not
working, too long or sent short is DWRITERR; a failed DMA is DMAERR and nothing is sent. The wrap of bytes past the top of
memory is the model's choice (log 22). -/
def Obligations.EthernetWriteNetCompletion : Prop :=
  ∀ (s : State) (sl : Slot) (e : Eth) (fire : Time) (n : Nat), s.fatal = none → s.body sl = .eth e →
    e.op = some .writeNet →
    let t := dispatch (completion fire n sl) s
    let len := (s.reg sl 3).toNat
    let dma := s.decodeFails (s.reg sl 2) len
    let ends := fun code : Word =>
      Completed s t sl .single (s.regsWith sl 0 ((s.reg sl 0 &&& 0x80#32) ||| code)) (.eth { e with op := none }) []
    (s.working sl = false ∨ s.cfg.ethMaxPacket < len → ends 6#32 ∧ Quiet s t s.tape) ∧
    (s.working sl = true → len ≤ s.cfg.ethMaxPacket → dma.1 = true →
      ends 7#32 ∧ SameMemory s t ∧ NoEvent s t ∧ t.net = s.net) ∧
    (s.working sl = true → len ≤ s.cfg.ethMaxPacket → dma.1 = false →
      ∃ bytes : List Byte, bytes.length = len ∧ HoldsBytes s.mem (s.reg sl 2) bytes ∧
        t.net = s.net ++ [.send sl bytes] ∧ (dma.2.drawSent.1 = len → ends 1#32) ∧
        (dma.2.drawSent.1 ≠ len → ends 6#32) ∧ SameMemory s t ∧ NoEvent s t ∧ t.tape = dma.2.drawSent.2.tape)

/-- R1101, R1113, R603, R1114: the READNET completion: DATA1 takes the length the interface gives, in two's complement when
it is negative; length 0 is READY with DATA1 0; a negative length is DREADERR; else the bytes go to the packet buffer, and
length of them to memory at DATA0. Nothing ties the length to the number of bytes: a byte past the end of the buffer is
free, which is the model's choice (log 9), and so is the wrap of bytes past the top of memory (log 22). -/
def Obligations.EthernetReadNetCompletion : Prop :=
  ∀ (s : State) (sl : Slot) (e : Eth) (fire : Time) (n : Nat), s.fatal = none → s.body sl = .eth e →
    e.op = some .readNet → s.mem.wf →
    let t := dispatch (completion fire n sl) s
    let got := s.drawRecv
    let len := got.1.len
    let dma := got.2.decodeFails (s.reg sl 2) len.toNat
    let ends := fun (code : Word) (buffer : List Byte) =>
      Completed s t sl .single (putReg (s.regsWith sl 3 (BitVec.ofInt 32 len)) 0 ((s.reg sl 0 &&& 0x80#32) ||| code))
        (.eth { e with op := none, pktbuf := buffer }) []
    (s.working sl = false →
      Completed s t sl .single (s.regsWith sl 0 ((s.reg sl 0 &&& 0x80#32) ||| 5#32)) (.eth { e with op := none }) [] ∧
      Quiet s t s.tape) ∧
    (s.working sl = true → len = 0 → ends 1#32 e.pktbuf ∧ Quiet s t got.2.tape) ∧
    (s.working sl = true → len < 0 → ends 5#32 e.pktbuf ∧ Quiet s t got.2.tape) ∧
    (s.working sl = true → 0 < len → dma.1 = true →
      ends 7#32 got.1.bytes ∧ SameOutside s t (s.reg sl 2) len.toNat ∧ NoEvent s t ∧ t.net = s.net) ∧
    (s.working sl = true → 0 < len → dma.1 = false →
      ends 1#32 got.1.bytes ∧ (len ≤ 2 ^ 32 → HoldsBytes t.mem (s.reg sl 2) (got.1.bytes.take len.toNat)) ∧
      SameOutside s t (s.reg sl 2) len.toNat ∧ NoEvent s t ∧ t.net = s.net ∧
      (len ≤ got.1.bytes.length → t.tape = dma.2.tape))

/-- R1118, R1120: the poll: without the mode bit the chain stops; with an operation in progress or READPENDING already
set it only reschedules; else a waiting packet latches READPENDING and raises the interrupt, and none waiting
reschedules. That the interface is not asked when the poll could not latch is the model's reading (log 18). -/
def Obligations.EthernetPoll : Prop :=
  ∀ (s : State) (sl : Slot) (e : Eth) (fire : Time) (n : Nat), s.fatal = none → s.body sl = .eth e →
    InTime s (s.cfg.pollNetTime * s.cfg.clockRate) →
    let t := dispatch { fire := fire, seq := n, target := sl, kind := .poll } s
    let again := fun tape : HostTape =>
      t.dev sl = { s.dev sl with body := .eth { e with pollArmed := true } } ∧
      OneEvent s t sl .poll (s.cfg.pollNetTime * s.cfg.clockRate) ∧ t.pend = s.pend ∧ t.trace = s.trace ∧
      t.returned = some 0 ∧ t.fatal = none ∧ OnlySlot sl s t ∧ SameMemory s t ∧ t.net = s.net ∧ t.tape = tape
    (e.mode &&& s.cfg.ethModeInterrupt = 0#8 →
      t.dev sl = { s.dev sl with body := .eth { e with pollArmed := false } } ∧ NoEvent s t ∧ t.pend = s.pend ∧
      t.trace = s.trace ∧ t.returned = some 0 ∧ t.fatal = none ∧ OnlySlot sl s t ∧ SameMemory s t ∧ t.net = s.net ∧
      t.tape = s.tape) ∧
    (e.mode &&& s.cfg.ethModeInterrupt ≠ 0#8 → (e.op ≠ none ∨ (s.reg sl 0).getLsbD 7 = true) → again s.tape) ∧
    (e.mode &&& s.cfg.ethModeInterrupt ≠ 0#8 → e.op = none → (s.reg sl 0).getLsbD 7 = false →
      (s.drawWaiting.1 = false → again s.drawWaiting.2.tape) ∧
      (s.drawWaiting.1 = true →
        Completed s t sl .single (s.regsWith sl 0 (s.reg sl 0 ||| 0x80#32)) (.eth { e with pollArmed := false }) [] ∧
        Quiet s t s.drawWaiting.2.tape))

/-! Interrupts. -/

/-- R1201, R1202, R1203, R814: a raise sets one pending bit, an acknowledge clears it, both idempotent and neither
touching another bit or anything else; a line is asserted iff a device of it is pending. On a terminal, a raise of a
half sets its flag and the line bit; an acknowledge clears its flag, and the line bit only when the other half has no
pending request; the other half's flag is untouched. -/
def Obligations.InterruptRaiseAndAcknowledge : Prop :=
  ∀ (s : State) (sl : Slot),
    (s.irqRaise sl).pendBit sl = true ∧ (s.irqAck sl).pendBit sl = false ∧
    (∀ x, x ≠ sl → (s.irqRaise sl).pendBit x = s.pendBit x ∧ (s.irqAck sl).pendBit x = s.pendBit x) ∧
    (s.irqRaise sl).irqRaise sl = s.irqRaise sl ∧ (s.irqAck sl).irqAck sl = s.irqAck sl ∧
    { s.irqRaise sl with pend := s.pend } = s ∧ { s.irqAck sl with pend := s.pend } = s ∧
    (∀ l, s.lineBit l = true ↔ ∃ d, s.pendBit { line := l, dev := d } = true) ∧
    ∀ (x : Terminal) (h : Sub), s.body sl = .terminal x → h ≠ .single →
      (s.raiseIrq sl h).body sl = .terminal (x.setHalf h { x.half h with ipend := true }) ∧
      (s.raiseIrq sl h).pendBit sl = true ∧
      (s.ackIrq sl h).body sl = .terminal (x.setHalf h { x.half h with ipend := false }) ∧
      (s.ackIrq sl h).pendBit sl = ((x.other h).ipend && s.pendBit sl) ∧
      ∀ y, y ≠ sl → (s.raiseIrq sl h).pendBit y = s.pendBit y ∧ (s.ackIrq sl h).pendBit y = s.pendBit y ∧
        (s.raiseIrq sl h).dev y = s.dev y ∧ (s.ackIrq sl h).dev y = s.dev y

/-! DMA and images. -/

/-- R204, R601, R602: a DMA to memory stores the block's words little-endian at the address, modulo 2^32, and nothing
else; a DMA from memory reads them back; on failure only the range may change. R601 gives the modulus for the address of
each word; the wrap of a word that straddles the top of memory is the model's choice (log 22). -/
def Obligations.BlockDma : Prop :=
  ∀ (s : State) (a : Word) (b : Block), s.mem.wf → b.length = 1024 →
    let t := (s.dmaToMem a b).2
    (s.dmaToMem a b).1 = (s.decodeFails a 4096).1 ∧ t.mem.wf ∧ SameOutside s t a 4096 ∧
    ((s.decodeFails a 4096).1 = false →
      HoldsBlock t.mem a b ∧ { t with mem := s.mem, tape := s.tape } = s ∧ t.tape = (s.decodeFails a 4096).2.tape) ∧
    (s.dmaFromMem a).1 = (s.decodeFails a 4096).1 ∧ (s.dmaFromMem a).2.1.length = 1024 ∧
    (s.dmaFromMem a).2.2.mem = s.mem ∧
    ((s.decodeFails a 4096).1 = false → HoldsBlock s.mem a (s.dmaFromMem a).2.1) ∧
    (HoldsBlock s.mem a b → s.mem.block a = b)

/-- R205, R911: a block stored in an image in canonical form is read back, its words in `IMAGE_BYTE_ORDER`, every byte
outside it is unchanged, and the image stays in canonical form. -/
def Obligations.ImageBlockRoundTrip : Prop :=
  ∀ (f : File) (o : ByteOrder) (off : Nat) (b : Block) (gap : Nat → Byte), f.wf → b.length = 1024 →
    let g := f.putBlock o off b gap
    g.wf ∧ g.blockAt o off = b ∧
    (∀ k, k < f.size → (k < off ∨ off + 4096 ≤ k) → readCell k g.cells = readCell k f.cells) ∧
    (∀ i j, i < 1024 → j < 4 →
      readCell (off + 4 * i + j) g.cells =
        (b.getD i 0#32).extractLsb' (match o with | .little => 8 * j | .big => 24 - 8 * j) 8)

/-- R902, R913, R1008: with a coherent cache, a READBLK that was accepted as a hit delivers the sector or block as the
image holds it. The wrap of a word that straddles the top of memory is the model's choice (log 22). -/
def Obligations.HitDeliversTheImage : Prop :=
  ∀ (s : State) (sl : Slot) (fire : Time) (n : Nat), s.fatal = none → s.working sl = true → s.mem.wf → CacheOk s →
    DiskOk s → (s.decodeFails (s.reg sl 2) 4096).1 = false →
    let t := dispatch (completion fire n sl) s
    (∀ d head sect, s.body sl = .disk d → d.op = some (.read head sect true) →
      HoldsBlock t.mem (s.reg sl 2)
        (d.image.blockAt s.cfg.imageByteOrder (d.offBytes d.curCyl.toNat head.toNat sect.toNat))) ∧
    (∀ f blk, s.body sl = .flash f → f.op = some (.read blk true) →
      HoldsBlock t.mem (s.reg sl 2) (f.image.blockAt s.cfg.imageByteOrder (f.offBytes blk)))

/-! Construction. -/

/-- R1303, R1305, R1307, R111: the image parsers: the header words are the parameters, an image with another first word
or too short is BadMagic, and parameters out of their bounds are BadParams; a first payload word `COREFILEID` of a flash
image is skipped. -/
def Obligations.ImageHeaderParsing : Prop :=
  ∀ (c : Config) (f : File), c.wf = true →
    let p := fun k => (f.wordAt c.imageByteOrder (4 * k)).toNat
    (f.size < 28 ∨ f.wordAt c.imageByteOrder 0 ≠ c.diskFileId → parseDisk c f = .error .badMagic) ∧
    (28 ≤ f.size → f.wordAt c.imageByteOrder 0 = c.diskFileId →
      (1 ≤ p 1 ∧ p 1 ≤ c.maxCyl ∧ 1 ≤ p 2 ∧ p 2 ≤ c.maxHead ∧ 1 ≤ p 3 ∧ p 3 ≤ c.maxSect ∧ c.minDataS ≤ p 6 ∧
        p 6 ≤ c.maxDataS →
        ∃ dev d, parseDisk c f = .ok dev ∧ dev.working = true ∧ dev.body = .disk d ∧
          dev.regs = #v[1#32, 0#32, 0#32, BitVec.ofNat 32 (p 1 * 2 ^ 16 + p 2 * 2 ^ 8 + p 3)] ∧
          d.cyls = p 1 ∧ d.heads = p 2 ∧ d.sects = p 3 ∧ d.rotTime = p 4 ∧ d.seekTime = p 5 ∧ d.dataPct = p 6 ∧
          d.dataOff = 7 ∧ d.curCyl = 0#32 ∧ d.cache.valid = false ∧ d.op = none ∧ d.image = f) ∧
      (¬ (1 ≤ p 1 ∧ p 1 ≤ c.maxCyl ∧ 1 ≤ p 2 ∧ p 2 ≤ c.maxHead ∧ 1 ≤ p 3 ∧ p 3 ≤ c.maxSect ∧ c.minDataS ≤ p 6 ∧
        p 6 ≤ c.maxDataS) → parseDisk c f = .error .badParams)) ∧
    (f.size < 12 ∨ f.wordAt c.imageByteOrder 0 ≠ c.flashFileId → parseFlash c f = .error .badMagic) ∧
    (12 ≤ f.size → f.wordAt c.imageByteOrder 0 = c.flashFileId →
      (1 ≤ p 1 ∧ p 1 ≤ c.maxBlocks →
        ∃ dev d, parseFlash c f = .ok dev ∧ dev.working = true ∧ dev.body = .flash d ∧
          dev.regs = #v[1#32, 0#32, 0#32, BitVec.ofNat 32 (p 1)] ∧ d.blocks = p 1 ∧ d.writeTime = p 2 ∧
          d.dataOff = (if 16 ≤ f.size ∧ f.wordAt c.imageByteOrder 12 = c.coreFileId then 4 else 3) ∧
          d.cacheValid = false ∧ d.op = none ∧ d.image = f) ∧
      (¬ (1 ≤ p 1 ∧ p 1 ≤ c.maxBlocks) → parseFlash c f = .error .badParams))

/-- R100 to R126, R1300, under the test configuration TC, whose choice for `State.reset`, with the devices of the slots,
the empty logs, the mode and the MAC, is the model's (log 2): the clock, the queue, the pending bits and the trace; the
device of every slot; the registers of every type; and in each body no operation, no request, empty buffers and logs,
the heads at cylinder 0, an invalid cache, no armed poll. -/
def Obligations.ResetValues : Prop :=
  let s := State.reset
  s.tod = 0#64 ∧ s.seq = 0 ∧ s.queue = [] ∧ s.fatal = none ∧ s.trace = [] ∧ (∀ l : Fin 5, s.pend[l] = 0#8) ∧
  (∀ i : Fin 40, s.slots[i].body.kind =
    [(0, DevKind.disk), (8, .flash), (16, .eth), (24, .printer), (25, .printer), (32, .terminal)].lookup i.val) ∧
  (∀ i : Fin 40, s.slots[i].working = true ∧ s.slots[i].regs =
    match s.slots[i].body with
    | .null => #v[0#32, 0#32, 0#32, 0#32]
    | .printer _ => #v[1#32, 0#32, 0#32, 0#32]
    | .terminal _ => #v[1#32, 0#32, 1#32, 0#32]
    | .disk d => #v[1#32, 0#32, 0#32, BitVec.ofNat 32 (d.cyls * 2 ^ 16 + d.heads * 2 ^ 8 + d.sects)]
    | .flash f => #v[1#32, 0#32, 0#32, BitVec.ofNat 32 f.blocks]
    | .eth _ => #v[1#32, 0#32, 0#32, 0#32]) ∧
  (∀ i : Fin 40,
    match s.slots[i].body with
    | .null => True
    | .printer p => p = { op := none, log := [] }
    | .terminal t => t = { rx := ⟨none, 0#64, false⟩, tx := ⟨none, 0#64, false⟩, rxbuf := [], log := [] }
    | .disk d => d.op = none ∧ d.curCyl = 0#32 ∧ d.cache = ⟨0xFFFFFFFF#32, 0xFFFFFFFF#32, 0xFFFFFFFF#32⟩ ∧
        [d.cyls, d.heads, d.sects, d.rotTime, d.seekTime, d.dataPct, d.dataOff] = [100, 2, 8, 16000, 100, 80, 7]
    | .flash f => f.op = none ∧ f.cacheBlk = 0xFFFFFFFF#32 ∧ [f.blocks, f.writeTime, f.dataOff] = [64, 1000, 3]
    | .eth e => e = { op := none, pktbuf := [], pollArmed := false, mode := 0#8,
                      mac := ⟨0x00#8, 0x11#8, 0x22#8, 0x33#8, 0x44#8, 0x55#8⟩ }) ∧
  s.reg { line := .l3, dev := 0 } 3 = 0x00640208#32 ∧ s.reg { line := .l4, dev := 0 } 3 = 0x00000040#32

/-- R1300, R1301, R1304, R1306: a construction in which every slot can be built gives every slot its device, no pending
request, no signal, and one `Poll` event for each ethernet slot in interrupt mode, in slot order; one in which some slot
cannot be built is fatal, with the reason of a slot that cannot. -/
def Obligations.ConstructedState : Prop :=
  ∀ (c : Config) (scs : Vector SlotConfig 40) (tape : HostTape),
    let s := construct c scs tape
    ((∀ sl, ∃ d, buildSlot c sl scs[sl.idx] = .ok d) → c.pollNetTime * c.clockRate < 2 ^ 64 →
      s.fatal = none ∧ s.tod = 0#64 ∧ s.trace = [] ∧ s.cfg = c ∧ (∀ sl, s.pendBit sl = false) ∧
      (∀ sl d, buildSlot c sl scs[sl.idx] = .ok d →
        (s.dev sl).regs = d.regs ∧ s.working sl = d.working ∧
        (∀ e, d.body = .eth e → s.body sl = .eth { e with pollArmed := e.polls c }) ∧
        (d.body.kind ≠ some .eth → s.body sl = d.body)) ∧
      (∀ sl, s.polls sl = if (s.body sl).armed then 1 else 0) ∧
      (∀ e ∈ s.queue, e.kind = .poll ∧ e.fire.toNat = c.pollNetTime * c.clockRate) ∧
      s.queue.Pairwise (fun a b => a.seq < b.seq ∧ a.target.idx.val < b.target.idx.val) ∧
      s.seq = s.queue.length) ∧
    (∀ sl r, buildSlot c sl scs[sl.idx] = .error r →
      ∃ x r', buildSlot c x scs[x.idx] = .error r' ∧ s.fatal = some r')

/-- R131 to R133, R1300: what construction gives satisfies the whole invariant, for every configuration within table T1's
bounds and every image in canonical form. That the mode of a constructed ethernet device holds no SETMAC, whatever the
interface gives, is the model's reading (log 19). -/
def Obligations.ConstructionEstablishesTheInvariant : Prop :=
  ∀ (c : Config) (scs : Vector SlotConfig 40) (tape : HostTape), c.wf = true →
    (∀ i : Fin 40, ∀ f, scs[i].image = some f → f.wf) → Inv (construct c scs tape)

/-- The reset state satisfies the whole invariant. -/
def Obligations.ResetSatisfiesTheInvariant : Prop := Inv State.reset

/-! Invariants every step keeps. -/

/-- R131, R510, R511, R126, R1120: a sub-device is busy iff it has an operation in progress, a slot has one `Complete`
event for each busy sub-device, so that `is_busy` of a slot is true exactly while a completion of it is pending, and an
ethernet slot has one `Poll` event exactly when `poll_armed` is set. -/
def Obligations.StepKeepsEventCounts : Prop :=
  ∀ s t : State, step s = .next t →
    (BusyOk s → BusyOk t ∧ (t.fatal = none → ∀ sl, t.isBusy sl = decide (0 < t.completions sl))) ∧
    (PollOk s → PollOk t)

/-- R508, R113, R316, R126, R902: NULL registers stay 0, every status word keeps the form of its type, the mode of an
ethernet device never holds SETMAC, and the heads stay over
a cylinder of the disk, so that a cache hit implies a valid cache. -/
def Obligations.StepKeepsRegisterForms : Prop :=
  ∀ s t : State, step s = .next t →
    (NullOk s → NullOk t) ∧ (StatusOk s → StatusOk t) ∧ (EthOk s → EthOk t) ∧
    (DiskOk s → DiskOk t ∧
      ∀ sl d head sect, t.body sl = .disk d → d.hit head sect = true → d.cache.valid = true)

/-- R102, R132, R402: the queue stays in key order with unique keys, and no event ever lies in the past. -/
def Obligations.StepKeepsQueue : Prop := ∀ s t : State, QueueOk s → step s = .next t → QueueOk t

/-- R133: the shared bit of a terminal is set iff a half has a pending request. -/
def Obligations.StepKeepsTerminalPending : Prop := ∀ s t : State, PendOk s → step s = .next t → PendOk t

/-- R913, R916, R1008, R1012: a valid cache names what the buffer holds, as the image has it. Of a state that a failed
image read has made fatal this holds because such a read leaves the buffer as it was, which is the model's choice
(log 23). -/
def Obligations.StepKeepsCache : Prop :=
  ∀ s t : State, StorageOk s → BusyOk s → CacheOk s → step s = .next t → CacheOk t

/-- Memory and images keep their canonical form, and buffers their length. -/
def Obligations.StepKeepsStorage : Prop := ∀ s t : State, StorageOk s → step s = .next t → StorageOk t

/-- R9, R101, R106, R123, R125: a step never changes the configuration, the type of a slot or its geometry, and the
clock never goes back. -/
def Obligations.StepKeepsWhatConstructionFixed : Prop :=
  ∀ s t : State, step s = .next t →
    t.cfg = s.cfg ∧ s.tod.toNat ≤ t.tod.toNat ∧ t.tod.toNat ≤ s.tod.toNat + 1 ∧
    ∀ sl, t.kind sl = s.kind sl ∧ (t.body sl).geometry = (s.body sl).geometry

/-! Addresses. -/

/-- R201, R206, T1: with windows that do not overlap, the external decoder turns a load or a store at `DEV_REG_ADDR(line,
dev)` plus 0, 4, 8 or 12 into the aligned request of that slot and register index, at any access width; and a word access
at `BUS_TODLO_ADDR` or at `BUS_BITMAP_ADDR(line)`, outside every window, into the request of that status word. The decoder
is outside the block; its form is the model's (log 13). -/
def Obligations.AddressesNameRegisters : Prop :=
  ∀ (c : Config) (v : Word),
    ((∀ x y, x ≠ y → 16 ≤ (devRegAddr c x - devRegAddr c y).toNat) →
      ∀ (sl : Slot) (i : Fin 4) (w : Width),
        let a := devRegAddr c sl + BitVec.ofNat 32 (4 * i.val)
        let off := BitVec.ofNat 4 (4 * i.val)
        loadRequest c a w = some (.load sl off w) ∧ storeRequest c a w v = some (.store sl off w v) ∧
        regIndex off = i ∧ off.extractLsb' 0 2 = 0#2) ∧
    ((∀ sl, 16 ≤ (c.todLoAddr - devRegAddr c sl).toNat) →
      loadRequest c c.todLoAddr .word = some .readTodLo ∧
      storeRequest c c.todLoAddr .word v = some (.writeTodLo v)) ∧
    (∀ l, (∀ sl, 16 ≤ (bitmapAddr c l - devRegAddr c sl).toNat) → bitmapAddr c l ≠ c.todLoAddr →
      (∀ m, m ≠ l → bitmapAddr c m ≠ bitmapAddr c l) →
      loadRequest c (bitmapAddr c l) .word = some (.readBitmap l) ∧
      storeRequest c (bitmapAddr c l) .word v = some (.writeBitmap l v))
end

