-- ==== Sys2Proof/Laws/State.lean ====
section
/-! SUPPORT. One lemma per field per update of State: what each named update leaves, and what it writes. -/

namespace Sys2Proof.Machine

variable (s : State)

/-! `State.setDev`. -/

@[simp] theorem State.setDev_cfg (sl : Slot) (d : Device) : (s.setDev sl d).cfg = s.cfg := rfl
@[simp] theorem State.setDev_tod (sl : Slot) (d : Device) : (s.setDev sl d).tod = s.tod := rfl
@[simp] theorem State.setDev_seq (sl : Slot) (d : Device) : (s.setDev sl d).seq = s.seq := rfl
@[simp] theorem State.setDev_queue (sl : Slot) (d : Device) : (s.setDev sl d).queue = s.queue := rfl
@[simp] theorem State.setDev_pend (sl : Slot) (d : Device) : (s.setDev sl d).pend = s.pend := rfl
@[simp] theorem State.setDev_slots (sl : Slot) (d : Device) : (s.setDev sl d).slots = s.slots.set sl.idx.val d sl.idx.isLt := rfl
@[simp] theorem State.setDev_fatal (sl : Slot) (d : Device) : (s.setDev sl d).fatal = s.fatal := rfl
@[simp] theorem State.setDev_trace (sl : Slot) (d : Device) : (s.setDev sl d).trace = s.trace := rfl
@[simp] theorem State.setDev_mem (sl : Slot) (d : Device) : (s.setDev sl d).mem = s.mem := rfl
@[simp] theorem State.setDev_net (sl : Slot) (d : Device) : (s.setDev sl d).net = s.net := rfl
@[simp] theorem State.setDev_script (sl : Slot) (d : Device) : (s.setDev sl d).script = s.script := rfl
@[simp] theorem State.setDev_tape (sl : Slot) (d : Device) : (s.setDev sl d).tape = s.tape := rfl
@[simp] theorem State.setDev_reply (sl : Slot) (d : Device) : (s.setDev sl d).reply = s.reply := rfl
@[simp] theorem State.setDev_returned (sl : Slot) (d : Device) : (s.setDev sl d).returned = s.returned := rfl

/-! `State.setPend`. -/

@[simp] theorem State.setPend_cfg (l : Line) (b : Byte) : (s.setPend l b).cfg = s.cfg := rfl
@[simp] theorem State.setPend_tod (l : Line) (b : Byte) : (s.setPend l b).tod = s.tod := rfl
@[simp] theorem State.setPend_seq (l : Line) (b : Byte) : (s.setPend l b).seq = s.seq := rfl
@[simp] theorem State.setPend_queue (l : Line) (b : Byte) : (s.setPend l b).queue = s.queue := rfl
@[simp] theorem State.setPend_pend (l : Line) (b : Byte) : (s.setPend l b).pend = s.pend.set l.idx.val b l.idx.isLt := rfl
@[simp] theorem State.setPend_slots (l : Line) (b : Byte) : (s.setPend l b).slots = s.slots := rfl
@[simp] theorem State.setPend_fatal (l : Line) (b : Byte) : (s.setPend l b).fatal = s.fatal := rfl
@[simp] theorem State.setPend_trace (l : Line) (b : Byte) : (s.setPend l b).trace = s.trace := rfl
@[simp] theorem State.setPend_mem (l : Line) (b : Byte) : (s.setPend l b).mem = s.mem := rfl
@[simp] theorem State.setPend_net (l : Line) (b : Byte) : (s.setPend l b).net = s.net := rfl
@[simp] theorem State.setPend_script (l : Line) (b : Byte) : (s.setPend l b).script = s.script := rfl
@[simp] theorem State.setPend_tape (l : Line) (b : Byte) : (s.setPend l b).tape = s.tape := rfl
@[simp] theorem State.setPend_reply (l : Line) (b : Byte) : (s.setPend l b).reply = s.reply := rfl
@[simp] theorem State.setPend_returned (l : Line) (b : Byte) : (s.setPend l b).returned = s.returned := rfl

/-! `State.emit`. -/

@[simp] theorem State.emit_cfg (g : Signal) : (s.emit g).cfg = s.cfg := rfl
@[simp] theorem State.emit_tod (g : Signal) : (s.emit g).tod = s.tod := rfl
@[simp] theorem State.emit_seq (g : Signal) : (s.emit g).seq = s.seq := rfl
@[simp] theorem State.emit_queue (g : Signal) : (s.emit g).queue = s.queue := rfl
@[simp] theorem State.emit_pend (g : Signal) : (s.emit g).pend = s.pend := rfl
@[simp] theorem State.emit_slots (g : Signal) : (s.emit g).slots = s.slots := rfl
@[simp] theorem State.emit_fatal (g : Signal) : (s.emit g).fatal = s.fatal := rfl
@[simp] theorem State.emit_trace (g : Signal) : (s.emit g).trace = s.trace ++ [g] := rfl
@[simp] theorem State.emit_mem (g : Signal) : (s.emit g).mem = s.mem := rfl
@[simp] theorem State.emit_net (g : Signal) : (s.emit g).net = s.net := rfl
@[simp] theorem State.emit_script (g : Signal) : (s.emit g).script = s.script := rfl
@[simp] theorem State.emit_tape (g : Signal) : (s.emit g).tape = s.tape := rfl
@[simp] theorem State.emit_reply (g : Signal) : (s.emit g).reply = s.reply := rfl
@[simp] theorem State.emit_returned (g : Signal) : (s.emit g).returned = s.returned := rfl

/-! `State.report`. -/

@[simp] theorem State.report_cfg (i : Fin 4) : (s.report i).cfg = s.cfg := rfl
@[simp] theorem State.report_tod (i : Fin 4) : (s.report i).tod = s.tod := rfl
@[simp] theorem State.report_seq (i : Fin 4) : (s.report i).seq = s.seq := rfl
@[simp] theorem State.report_queue (i : Fin 4) : (s.report i).queue = s.queue := rfl
@[simp] theorem State.report_pend (i : Fin 4) : (s.report i).pend = s.pend := rfl
@[simp] theorem State.report_slots (i : Fin 4) : (s.report i).slots = s.slots := rfl
@[simp] theorem State.report_fatal (i : Fin 4) : (s.report i).fatal = s.fatal := rfl
@[simp] theorem State.report_trace (i : Fin 4) : (s.report i).trace = s.trace := rfl
@[simp] theorem State.report_mem (i : Fin 4) : (s.report i).mem = s.mem := rfl
@[simp] theorem State.report_net (i : Fin 4) : (s.report i).net = s.net := rfl
@[simp] theorem State.report_script (i : Fin 4) : (s.report i).script = s.script := rfl
@[simp] theorem State.report_tape (i : Fin 4) : (s.report i).tape = s.tape := rfl
@[simp] theorem State.report_reply (i : Fin 4) : (s.report i).reply = s.reply := rfl
@[simp] theorem State.report_returned (i : Fin 4) : (s.report i).returned = some i := rfl

/-! `State.countDraw`. -/

@[simp] theorem State.countDraw_cfg : s.countDraw.cfg = s.cfg := rfl
@[simp] theorem State.countDraw_tod : s.countDraw.tod = s.tod := rfl
@[simp] theorem State.countDraw_seq : s.countDraw.seq = s.seq := rfl
@[simp] theorem State.countDraw_queue : s.countDraw.queue = s.queue := rfl
@[simp] theorem State.countDraw_pend : s.countDraw.pend = s.pend := rfl
@[simp] theorem State.countDraw_slots : s.countDraw.slots = s.slots := rfl
@[simp] theorem State.countDraw_fatal : s.countDraw.fatal = s.fatal := rfl
@[simp] theorem State.countDraw_trace : s.countDraw.trace = s.trace := rfl
@[simp] theorem State.countDraw_mem : s.countDraw.mem = s.mem := rfl
@[simp] theorem State.countDraw_net : s.countDraw.net = s.net := rfl
@[simp] theorem State.countDraw_script : s.countDraw.script = s.script := rfl
@[simp] theorem State.countDraw_reply : s.countDraw.reply = s.reply := rfl
@[simp] theorem State.countDraw_returned : s.countDraw.returned = s.returned := rfl

/-! `State.callNet`. -/

@[simp] theorem State.callNet_cfg (c : NetCall) : (s.callNet c).cfg = s.cfg := rfl
@[simp] theorem State.callNet_tod (c : NetCall) : (s.callNet c).tod = s.tod := rfl
@[simp] theorem State.callNet_seq (c : NetCall) : (s.callNet c).seq = s.seq := rfl
@[simp] theorem State.callNet_queue (c : NetCall) : (s.callNet c).queue = s.queue := rfl
@[simp] theorem State.callNet_pend (c : NetCall) : (s.callNet c).pend = s.pend := rfl
@[simp] theorem State.callNet_slots (c : NetCall) : (s.callNet c).slots = s.slots := rfl
@[simp] theorem State.callNet_fatal (c : NetCall) : (s.callNet c).fatal = s.fatal := rfl
@[simp] theorem State.callNet_trace (c : NetCall) : (s.callNet c).trace = s.trace := rfl
@[simp] theorem State.callNet_mem (c : NetCall) : (s.callNet c).mem = s.mem := rfl
@[simp] theorem State.callNet_net (c : NetCall) : (s.callNet c).net = s.net ++ [c] := rfl
@[simp] theorem State.callNet_script (c : NetCall) : (s.callNet c).script = s.script := rfl
@[simp] theorem State.callNet_tape (c : NetCall) : (s.callNet c).tape = s.tape := rfl
@[simp] theorem State.callNet_reply (c : NetCall) : (s.callNet c).reply = s.reply := rfl
@[simp] theorem State.callNet_returned (c : NetCall) : (s.callNet c).returned = s.returned := rfl

/-! `State.answer`. -/

@[simp] theorem State.answer_cfg (r : Reply) : (s.answer r).cfg = s.cfg := rfl
@[simp] theorem State.answer_tod (r : Reply) : (s.answer r).tod = s.tod := rfl
@[simp] theorem State.answer_seq (r : Reply) : (s.answer r).seq = s.seq := rfl
@[simp] theorem State.answer_queue (r : Reply) : (s.answer r).queue = s.queue := rfl
@[simp] theorem State.answer_pend (r : Reply) : (s.answer r).pend = s.pend := rfl
@[simp] theorem State.answer_slots (r : Reply) : (s.answer r).slots = s.slots := rfl
@[simp] theorem State.answer_fatal (r : Reply) : (s.answer r).fatal = s.fatal := rfl
@[simp] theorem State.answer_trace (r : Reply) : (s.answer r).trace = s.trace := rfl
@[simp] theorem State.answer_mem (r : Reply) : (s.answer r).mem = s.mem := rfl
@[simp] theorem State.answer_net (r : Reply) : (s.answer r).net = s.net := rfl
@[simp] theorem State.answer_script (r : Reply) : (s.answer r).script = s.script := rfl
@[simp] theorem State.answer_tape (r : Reply) : (s.answer r).tape = s.tape := rfl
@[simp] theorem State.answer_reply (r : Reply) : (s.answer r).reply = r := rfl
@[simp] theorem State.answer_returned (r : Reply) : (s.answer r).returned = s.returned := rfl

/-! `State.setReg`. -/

@[simp] theorem State.setReg_cfg (sl : Slot) (i : Fin 4) (v : Word) : (s.setReg sl i v).cfg = s.cfg := rfl
@[simp] theorem State.setReg_tod (sl : Slot) (i : Fin 4) (v : Word) : (s.setReg sl i v).tod = s.tod := rfl
@[simp] theorem State.setReg_seq (sl : Slot) (i : Fin 4) (v : Word) : (s.setReg sl i v).seq = s.seq := rfl
@[simp] theorem State.setReg_queue (sl : Slot) (i : Fin 4) (v : Word) : (s.setReg sl i v).queue = s.queue := rfl
@[simp] theorem State.setReg_pend (sl : Slot) (i : Fin 4) (v : Word) : (s.setReg sl i v).pend = s.pend := rfl
@[simp] theorem State.setReg_fatal (sl : Slot) (i : Fin 4) (v : Word) : (s.setReg sl i v).fatal = s.fatal := rfl
@[simp] theorem State.setReg_trace (sl : Slot) (i : Fin 4) (v : Word) : (s.setReg sl i v).trace = s.trace := rfl
@[simp] theorem State.setReg_mem (sl : Slot) (i : Fin 4) (v : Word) : (s.setReg sl i v).mem = s.mem := rfl
@[simp] theorem State.setReg_net (sl : Slot) (i : Fin 4) (v : Word) : (s.setReg sl i v).net = s.net := rfl
@[simp] theorem State.setReg_script (sl : Slot) (i : Fin 4) (v : Word) : (s.setReg sl i v).script = s.script := rfl
@[simp] theorem State.setReg_tape (sl : Slot) (i : Fin 4) (v : Word) : (s.setReg sl i v).tape = s.tape := rfl
@[simp] theorem State.setReg_reply (sl : Slot) (i : Fin 4) (v : Word) : (s.setReg sl i v).reply = s.reply := rfl
@[simp] theorem State.setReg_returned (sl : Slot) (i : Fin 4) (v : Word) : (s.setReg sl i v).returned = s.returned := rfl

/-! `State.setWorking`. -/

@[simp] theorem State.setWorking_cfg (sl : Slot) (b : Bool) : (s.setWorking sl b).cfg = s.cfg := rfl
@[simp] theorem State.setWorking_tod (sl : Slot) (b : Bool) : (s.setWorking sl b).tod = s.tod := rfl
@[simp] theorem State.setWorking_seq (sl : Slot) (b : Bool) : (s.setWorking sl b).seq = s.seq := rfl
@[simp] theorem State.setWorking_queue (sl : Slot) (b : Bool) : (s.setWorking sl b).queue = s.queue := rfl
@[simp] theorem State.setWorking_pend (sl : Slot) (b : Bool) : (s.setWorking sl b).pend = s.pend := rfl
@[simp] theorem State.setWorking_fatal (sl : Slot) (b : Bool) : (s.setWorking sl b).fatal = s.fatal := rfl
@[simp] theorem State.setWorking_trace (sl : Slot) (b : Bool) : (s.setWorking sl b).trace = s.trace := rfl
@[simp] theorem State.setWorking_mem (sl : Slot) (b : Bool) : (s.setWorking sl b).mem = s.mem := rfl
@[simp] theorem State.setWorking_net (sl : Slot) (b : Bool) : (s.setWorking sl b).net = s.net := rfl
@[simp] theorem State.setWorking_script (sl : Slot) (b : Bool) : (s.setWorking sl b).script = s.script := rfl
@[simp] theorem State.setWorking_tape (sl : Slot) (b : Bool) : (s.setWorking sl b).tape = s.tape := rfl
@[simp] theorem State.setWorking_reply (sl : Slot) (b : Bool) : (s.setWorking sl b).reply = s.reply := rfl
@[simp] theorem State.setWorking_returned (sl : Slot) (b : Bool) : (s.setWorking sl b).returned = s.returned := rfl

/-! `State.mapBody`. -/

@[simp] theorem State.mapBody_cfg (sl : Slot) (f : DeviceBody → DeviceBody) : (s.mapBody sl f).cfg = s.cfg := rfl
@[simp] theorem State.mapBody_tod (sl : Slot) (f : DeviceBody → DeviceBody) : (s.mapBody sl f).tod = s.tod := rfl
@[simp] theorem State.mapBody_seq (sl : Slot) (f : DeviceBody → DeviceBody) : (s.mapBody sl f).seq = s.seq := rfl
@[simp] theorem State.mapBody_queue (sl : Slot) (f : DeviceBody → DeviceBody) : (s.mapBody sl f).queue = s.queue := rfl
@[simp] theorem State.mapBody_pend (sl : Slot) (f : DeviceBody → DeviceBody) : (s.mapBody sl f).pend = s.pend := rfl
@[simp] theorem State.mapBody_fatal (sl : Slot) (f : DeviceBody → DeviceBody) : (s.mapBody sl f).fatal = s.fatal := rfl
@[simp] theorem State.mapBody_trace (sl : Slot) (f : DeviceBody → DeviceBody) : (s.mapBody sl f).trace = s.trace := rfl
@[simp] theorem State.mapBody_mem (sl : Slot) (f : DeviceBody → DeviceBody) : (s.mapBody sl f).mem = s.mem := rfl
@[simp] theorem State.mapBody_net (sl : Slot) (f : DeviceBody → DeviceBody) : (s.mapBody sl f).net = s.net := rfl
@[simp] theorem State.mapBody_script (sl : Slot) (f : DeviceBody → DeviceBody) : (s.mapBody sl f).script = s.script := rfl
@[simp] theorem State.mapBody_tape (sl : Slot) (f : DeviceBody → DeviceBody) : (s.mapBody sl f).tape = s.tape := rfl
@[simp] theorem State.mapBody_reply (sl : Slot) (f : DeviceBody → DeviceBody) : (s.mapBody sl f).reply = s.reply := rfl
@[simp] theorem State.mapBody_returned (sl : Slot) (f : DeviceBody → DeviceBody) : (s.mapBody sl f).returned = s.returned := rfl

/-! `State.irqRaise`. -/

@[simp] theorem State.irqRaise_cfg (sl : Slot) : (s.irqRaise sl).cfg = s.cfg := rfl
@[simp] theorem State.irqRaise_tod (sl : Slot) : (s.irqRaise sl).tod = s.tod := rfl
@[simp] theorem State.irqRaise_seq (sl : Slot) : (s.irqRaise sl).seq = s.seq := rfl
@[simp] theorem State.irqRaise_queue (sl : Slot) : (s.irqRaise sl).queue = s.queue := rfl
@[simp] theorem State.irqRaise_slots (sl : Slot) : (s.irqRaise sl).slots = s.slots := rfl
@[simp] theorem State.irqRaise_fatal (sl : Slot) : (s.irqRaise sl).fatal = s.fatal := rfl
@[simp] theorem State.irqRaise_trace (sl : Slot) : (s.irqRaise sl).trace = s.trace := rfl
@[simp] theorem State.irqRaise_mem (sl : Slot) : (s.irqRaise sl).mem = s.mem := rfl
@[simp] theorem State.irqRaise_net (sl : Slot) : (s.irqRaise sl).net = s.net := rfl
@[simp] theorem State.irqRaise_script (sl : Slot) : (s.irqRaise sl).script = s.script := rfl
@[simp] theorem State.irqRaise_tape (sl : Slot) : (s.irqRaise sl).tape = s.tape := rfl
@[simp] theorem State.irqRaise_reply (sl : Slot) : (s.irqRaise sl).reply = s.reply := rfl
@[simp] theorem State.irqRaise_returned (sl : Slot) : (s.irqRaise sl).returned = s.returned := rfl

/-! `State.irqAck`. -/

@[simp] theorem State.irqAck_cfg (sl : Slot) : (s.irqAck sl).cfg = s.cfg := rfl
@[simp] theorem State.irqAck_tod (sl : Slot) : (s.irqAck sl).tod = s.tod := rfl
@[simp] theorem State.irqAck_seq (sl : Slot) : (s.irqAck sl).seq = s.seq := rfl
@[simp] theorem State.irqAck_queue (sl : Slot) : (s.irqAck sl).queue = s.queue := rfl
@[simp] theorem State.irqAck_slots (sl : Slot) : (s.irqAck sl).slots = s.slots := rfl
@[simp] theorem State.irqAck_fatal (sl : Slot) : (s.irqAck sl).fatal = s.fatal := rfl
@[simp] theorem State.irqAck_trace (sl : Slot) : (s.irqAck sl).trace = s.trace := rfl
@[simp] theorem State.irqAck_mem (sl : Slot) : (s.irqAck sl).mem = s.mem := rfl
@[simp] theorem State.irqAck_net (sl : Slot) : (s.irqAck sl).net = s.net := rfl
@[simp] theorem State.irqAck_script (sl : Slot) : (s.irqAck sl).script = s.script := rfl
@[simp] theorem State.irqAck_tape (sl : Slot) : (s.irqAck sl).tape = s.tape := rfl
@[simp] theorem State.irqAck_reply (sl : Slot) : (s.irqAck sl).reply = s.reply := rfl
@[simp] theorem State.irqAck_returned (sl : Slot) : (s.irqAck sl).returned = s.returned := rfl

/-! `State.putStatus`. -/

@[simp] theorem State.putStatus_cfg (sl : Slot) (h : Sub) (w : Word) : (s.putStatus sl h w).cfg = s.cfg := rfl
@[simp] theorem State.putStatus_tod (sl : Slot) (h : Sub) (w : Word) : (s.putStatus sl h w).tod = s.tod := rfl
@[simp] theorem State.putStatus_seq (sl : Slot) (h : Sub) (w : Word) : (s.putStatus sl h w).seq = s.seq := rfl
@[simp] theorem State.putStatus_queue (sl : Slot) (h : Sub) (w : Word) : (s.putStatus sl h w).queue = s.queue := rfl
@[simp] theorem State.putStatus_pend (sl : Slot) (h : Sub) (w : Word) : (s.putStatus sl h w).pend = s.pend := rfl
@[simp] theorem State.putStatus_fatal (sl : Slot) (h : Sub) (w : Word) : (s.putStatus sl h w).fatal = s.fatal := rfl
@[simp] theorem State.putStatus_trace (sl : Slot) (h : Sub) (w : Word) : (s.putStatus sl h w).trace = s.trace ++ [.statusChanged sl] := rfl
@[simp] theorem State.putStatus_mem (sl : Slot) (h : Sub) (w : Word) : (s.putStatus sl h w).mem = s.mem := rfl
@[simp] theorem State.putStatus_net (sl : Slot) (h : Sub) (w : Word) : (s.putStatus sl h w).net = s.net := rfl
@[simp] theorem State.putStatus_script (sl : Slot) (h : Sub) (w : Word) : (s.putStatus sl h w).script = s.script := rfl
@[simp] theorem State.putStatus_tape (sl : Slot) (h : Sub) (w : Word) : (s.putStatus sl h w).tape = s.tape := rfl
@[simp] theorem State.putStatus_reply (sl : Slot) (h : Sub) (w : Word) : (s.putStatus sl h w).reply = s.reply := rfl
@[simp] theorem State.putStatus_returned (sl : Slot) (h : Sub) (w : Word) : (s.putStatus sl h w).returned = s.returned := rfl

/-! `State.setStatus`. -/

@[simp] theorem State.setStatus_cfg (sl : Slot) (h : Sub) (w : Word) : (s.setStatus sl h w).cfg = s.cfg := rfl
@[simp] theorem State.setStatus_tod (sl : Slot) (h : Sub) (w : Word) : (s.setStatus sl h w).tod = s.tod := rfl
@[simp] theorem State.setStatus_seq (sl : Slot) (h : Sub) (w : Word) : (s.setStatus sl h w).seq = s.seq := rfl
@[simp] theorem State.setStatus_queue (sl : Slot) (h : Sub) (w : Word) : (s.setStatus sl h w).queue = s.queue := rfl
@[simp] theorem State.setStatus_pend (sl : Slot) (h : Sub) (w : Word) : (s.setStatus sl h w).pend = s.pend := rfl
@[simp] theorem State.setStatus_fatal (sl : Slot) (h : Sub) (w : Word) : (s.setStatus sl h w).fatal = s.fatal := rfl
@[simp] theorem State.setStatus_trace (sl : Slot) (h : Sub) (w : Word) : (s.setStatus sl h w).trace = s.trace ++ [.statusChanged sl] := rfl
@[simp] theorem State.setStatus_mem (sl : Slot) (h : Sub) (w : Word) : (s.setStatus sl h w).mem = s.mem := rfl
@[simp] theorem State.setStatus_net (sl : Slot) (h : Sub) (w : Word) : (s.setStatus sl h w).net = s.net := rfl
@[simp] theorem State.setStatus_script (sl : Slot) (h : Sub) (w : Word) : (s.setStatus sl h w).script = s.script := rfl
@[simp] theorem State.setStatus_tape (sl : Slot) (h : Sub) (w : Word) : (s.setStatus sl h w).tape = s.tape := rfl
@[simp] theorem State.setStatus_reply (sl : Slot) (h : Sub) (w : Word) : (s.setStatus sl h w).reply = s.reply := rfl
@[simp] theorem State.setStatus_returned (sl : Slot) (h : Sub) (w : Word) : (s.setStatus sl h w).returned = s.returned := rfl

/-! `State.raiseIrq`. -/

@[simp] theorem State.raiseIrq_cfg (sl : Slot) (h : Sub) : (s.raiseIrq sl h).cfg = s.cfg := rfl
@[simp] theorem State.raiseIrq_tod (sl : Slot) (h : Sub) : (s.raiseIrq sl h).tod = s.tod := rfl
@[simp] theorem State.raiseIrq_seq (sl : Slot) (h : Sub) : (s.raiseIrq sl h).seq = s.seq := rfl
@[simp] theorem State.raiseIrq_queue (sl : Slot) (h : Sub) : (s.raiseIrq sl h).queue = s.queue := rfl
@[simp] theorem State.raiseIrq_fatal (sl : Slot) (h : Sub) : (s.raiseIrq sl h).fatal = s.fatal := rfl
@[simp] theorem State.raiseIrq_trace (sl : Slot) (h : Sub) : (s.raiseIrq sl h).trace = s.trace := rfl
@[simp] theorem State.raiseIrq_mem (sl : Slot) (h : Sub) : (s.raiseIrq sl h).mem = s.mem := rfl
@[simp] theorem State.raiseIrq_net (sl : Slot) (h : Sub) : (s.raiseIrq sl h).net = s.net := rfl
@[simp] theorem State.raiseIrq_script (sl : Slot) (h : Sub) : (s.raiseIrq sl h).script = s.script := rfl
@[simp] theorem State.raiseIrq_tape (sl : Slot) (h : Sub) : (s.raiseIrq sl h).tape = s.tape := rfl
@[simp] theorem State.raiseIrq_reply (sl : Slot) (h : Sub) : (s.raiseIrq sl h).reply = s.reply := rfl
@[simp] theorem State.raiseIrq_returned (sl : Slot) (h : Sub) : (s.raiseIrq sl h).returned = s.returned := rfl

/-! `State.failNow`. -/

@[simp] theorem State.failNow_cfg (sl : Slot) (h : Sub) (c : Word) : (s.failNow sl h c).cfg = s.cfg := rfl
@[simp] theorem State.failNow_tod (sl : Slot) (h : Sub) (c : Word) : (s.failNow sl h c).tod = s.tod := rfl
@[simp] theorem State.failNow_seq (sl : Slot) (h : Sub) (c : Word) : (s.failNow sl h c).seq = s.seq := rfl
@[simp] theorem State.failNow_queue (sl : Slot) (h : Sub) (c : Word) : (s.failNow sl h c).queue = s.queue := rfl
@[simp] theorem State.failNow_fatal (sl : Slot) (h : Sub) (c : Word) : (s.failNow sl h c).fatal = s.fatal := rfl
@[simp] theorem State.failNow_trace (sl : Slot) (h : Sub) (c : Word) : (s.failNow sl h c).trace = s.trace ++ [.statusChanged sl] := rfl
@[simp] theorem State.failNow_mem (sl : Slot) (h : Sub) (c : Word) : (s.failNow sl h c).mem = s.mem := rfl
@[simp] theorem State.failNow_net (sl : Slot) (h : Sub) (c : Word) : (s.failNow sl h c).net = s.net := rfl
@[simp] theorem State.failNow_script (sl : Slot) (h : Sub) (c : Word) : (s.failNow sl h c).script = s.script := rfl
@[simp] theorem State.failNow_tape (sl : Slot) (h : Sub) (c : Word) : (s.failNow sl h c).tape = s.tape := rfl
@[simp] theorem State.failNow_reply (sl : Slot) (h : Sub) (c : Word) : (s.failNow sl h c).reply = s.reply := rfl
@[simp] theorem State.failNow_returned (sl : Slot) (h : Sub) (c : Word) : (s.failNow sl h c).returned = s.returned := rfl

/-! `State.finish`. -/

@[simp] theorem State.finish_cfg (sl : Slot) (h : Sub) (w : Word) : (s.finish sl h w).cfg = s.cfg := rfl
@[simp] theorem State.finish_tod (sl : Slot) (h : Sub) (w : Word) : (s.finish sl h w).tod = s.tod := rfl
@[simp] theorem State.finish_seq (sl : Slot) (h : Sub) (w : Word) : (s.finish sl h w).seq = s.seq := rfl
@[simp] theorem State.finish_queue (sl : Slot) (h : Sub) (w : Word) : (s.finish sl h w).queue = s.queue := rfl
@[simp] theorem State.finish_fatal (sl : Slot) (h : Sub) (w : Word) : (s.finish sl h w).fatal = s.fatal := rfl
@[simp] theorem State.finish_trace (sl : Slot) (h : Sub) (w : Word) : (s.finish sl h w).trace = s.trace ++ [.statusChanged sl] := rfl
@[simp] theorem State.finish_mem (sl : Slot) (h : Sub) (w : Word) : (s.finish sl h w).mem = s.mem := rfl
@[simp] theorem State.finish_net (sl : Slot) (h : Sub) (w : Word) : (s.finish sl h w).net = s.net := rfl
@[simp] theorem State.finish_script (sl : Slot) (h : Sub) (w : Word) : (s.finish sl h w).script = s.script := rfl
@[simp] theorem State.finish_tape (sl : Slot) (h : Sub) (w : Word) : (s.finish sl h w).tape = s.tape := rfl
@[simp] theorem State.finish_reply (sl : Slot) (h : Sub) (w : Word) : (s.finish sl h w).reply = s.reply := rfl
@[simp] theorem State.finish_returned (sl : Slot) (h : Sub) (w : Word) : (s.finish sl h w).returned = some (statusIdx h) := rfl

/-! `State.stop`. -/

@[simp] theorem State.stop_cfg (r : FatalReason) : (s.stop r).cfg = s.cfg := rfl
@[simp] theorem State.stop_tod (r : FatalReason) : (s.stop r).tod = s.tod := rfl
@[simp] theorem State.stop_seq (r : FatalReason) : (s.stop r).seq = s.seq := rfl
@[simp] theorem State.stop_queue (r : FatalReason) : (s.stop r).queue = s.queue := rfl
@[simp] theorem State.stop_pend (r : FatalReason) : (s.stop r).pend = s.pend := rfl
@[simp] theorem State.stop_slots (r : FatalReason) : (s.stop r).slots = s.slots := rfl
@[simp] theorem State.stop_fatal (r : FatalReason) : (s.stop r).fatal = some r := rfl
@[simp] theorem State.stop_trace (r : FatalReason) : (s.stop r).trace = s.trace := rfl
@[simp] theorem State.stop_mem (r : FatalReason) : (s.stop r).mem = s.mem := rfl
@[simp] theorem State.stop_net (r : FatalReason) : (s.stop r).net = s.net := rfl
@[simp] theorem State.stop_script (r : FatalReason) : (s.stop r).script = s.script := rfl
@[simp] theorem State.stop_tape (r : FatalReason) : (s.stop r).tape = s.tape := rfl
@[simp] theorem State.stop_reply (r : FatalReason) : (s.stop r).reply = s.reply := rfl
@[simp] theorem State.stop_returned (r : FatalReason) : (s.stop r).returned = s.returned := rfl

/-! `State.andThen`. -/

theorem State.andThen_running {s : State} (h : s.fatal = none) (f : State → State) : s.andThen f = f s := by
  simp [State.andThen, h]

theorem State.andThen_stopped {s : State} {r : FatalReason} (h : s.fatal = some r) (f : State → State) :
    s.andThen f = s := by
  simp [State.andThen, h]

@[simp] theorem State.stop_andThen (r : FatalReason) (f : State → State) : (s.stop r).andThen f = s.stop r := rfl

end Sys2Proof.Machine
end

