-- ==== Sys2Proof/Laws/Slots.lean ====
section
/-! SUPPORT. Reading a slot, a register or a pending bit after an update: the slot written, and every other slot. -/

namespace Sys2Proof

theorem Line.idx_inj {l m : Line} (h : l.idx = m.idx) : l = m := by
  cases l <;> cases m <;> first | rfl | (exact absurd h (by decide))

theorem Slot.idx_inj {a b : Slot} (h : a.idx = b.idx) : a = b := by
  obtain ⟨l, d⟩ := a
  obtain ⟨m, e⟩ := b
  have hv : l.idx.val * 8 + d.val = m.idx.val * 8 + e.val := congrArg Fin.val h
  have hd := d.isLt
  have he := e.isLt
  have hl : l.idx = m.idx := Fin.ext (by omega)
  have hde : d = e := Fin.ext (by omega)
  rw [Line.idx_inj hl, hde]

namespace Machine

variable (s : State) (sl x : Slot)

/-- Every slot is among the 40. -/
theorem mem_allSlots : x ∈ allSlots := by
  obtain ⟨l, d⟩ := x
  cases l <;> simp [allSlots]

theorem State.dev_setDev (d : Device) : (s.setDev sl d).dev x = if x = sl then d else s.dev x := by
  unfold State.dev State.setDev
  by_cases h : x = sl
  · subst h
    simp
  · have hne : sl.idx.val ≠ x.idx.val := fun e => h (Slot.idx_inj (Fin.ext e)).symm
    simp only [Fin.getElem_fin, h, if_false]
    exact Vector.getElem_set_ne sl.idx.isLt x.idx.isLt hne

@[simp] theorem State.dev_setDev_same (d : Device) : (s.setDev sl d).dev sl = d := by
  simp [State.dev_setDev]

theorem State.dev_setDev_other {sl x : Slot} (h : x ≠ sl) (d : Device) : (s.setDev sl d).dev x = s.dev x := by
  simp [State.dev_setDev, h]

/-- An update that keeps `slots` keeps every slot. -/
theorem State.dev_congr {s t : State} (h : t.slots = s.slots) : t.dev x = s.dev x := by
  simp [State.dev, h]

/-- An update that keeps `pend` keeps every pending bit. -/
theorem State.pendBit_congr {s t : State} (h : t.pend = s.pend) : t.pendBit x = s.pendBit x := by
  simp [State.pendBit, h]

@[simp] theorem State.emit_dev (g : Signal) : (s.emit g).dev x = s.dev x := rfl
@[simp] theorem State.report_dev (i : Fin 4) : (s.report i).dev x = s.dev x := rfl
@[simp] theorem State.stop_dev (r : FatalReason) : (s.stop r).dev x = s.dev x := rfl
@[simp] theorem State.countDraw_dev : s.countDraw.dev x = s.dev x := rfl
@[simp] theorem State.callNet_dev (c : NetCall) : (s.callNet c).dev x = s.dev x := rfl
@[simp] theorem State.answer_dev (r : Reply) : (s.answer r).dev x = s.dev x := rfl
@[simp] theorem State.setPend_dev (l : Line) (b : Byte) : (s.setPend l b).dev x = s.dev x := rfl
@[simp] theorem State.irqRaise_dev : (s.irqRaise sl).dev x = s.dev x := rfl
@[simp] theorem State.irqAck_dev : (s.irqAck sl).dev x = s.dev x := rfl

@[simp] theorem State.emit_pendBit (g : Signal) : (s.emit g).pendBit x = s.pendBit x := rfl
@[simp] theorem State.report_pendBit (i : Fin 4) : (s.report i).pendBit x = s.pendBit x := rfl
@[simp] theorem State.stop_pendBit (r : FatalReason) : (s.stop r).pendBit x = s.pendBit x := rfl
@[simp] theorem State.countDraw_pendBit : s.countDraw.pendBit x = s.pendBit x := rfl
@[simp] theorem State.callNet_pendBit (c : NetCall) : (s.callNet c).pendBit x = s.pendBit x := rfl
@[simp] theorem State.answer_pendBit (r : Reply) : (s.answer r).pendBit x = s.pendBit x := rfl
@[simp] theorem State.setDev_pendBit (d : Device) : (s.setDev sl d).pendBit x = s.pendBit x := rfl
@[simp] theorem State.setReg_pendBit (i : Fin 4) (v : Word) : (s.setReg sl i v).pendBit x = s.pendBit x := rfl
@[simp] theorem State.setWorking_pendBit (b : Bool) : (s.setWorking sl b).pendBit x = s.pendBit x := rfl
@[simp] theorem State.mapBody_pendBit (f : DeviceBody → DeviceBody) : (s.mapBody sl f).pendBit x = s.pendBit x := rfl
@[simp] theorem State.putStatus_pendBit (h : Sub) (w : Word) : (s.putStatus sl h w).pendBit x = s.pendBit x := rfl
@[simp] theorem State.setStatus_pendBit (h : Sub) (w : Word) : (s.setStatus sl h w).pendBit x = s.pendBit x := rfl

/-- Writing a slot what it holds changes nothing. -/
@[simp] theorem State.setDev_dev : s.setDev sl (s.dev sl) = s := by
  unfold State.setDev State.dev
  cases s
  simp

@[simp] theorem State.mapBody_id : s.mapBody sl id = s := State.setDev_dev s sl

theorem State.setReg_dev (i : Fin 4) (v : Word) :
    (s.setReg sl i v).dev x =
      if x = sl then { s.dev sl with regs := (s.dev sl).regs.set i.val v i.isLt } else s.dev x :=
  State.dev_setDev ..

theorem State.setWorking_dev (b : Bool) :
    (s.setWorking sl b).dev x = if x = sl then { s.dev sl with working := b } else s.dev x :=
  State.dev_setDev ..

theorem State.mapBody_dev (f : DeviceBody → DeviceBody) :
    (s.mapBody sl f).dev x = if x = sl then { s.dev sl with body := f (s.dev sl).body } else s.dev x :=
  State.dev_setDev ..

theorem State.putStatus_dev (h : Sub) (w : Word) :
    (s.putStatus sl h w).dev x =
      if x = sl then
        { s.dev sl with regs := (s.dev sl).regs.set (statusIdx h).val w (statusIdx h).isLt }
      else s.dev x :=
  State.dev_setDev ..

theorem State.setStatus_dev (h : Sub) (w : Word) :
    (s.setStatus sl h w).dev x =
      if x = sl then
        { s.dev sl with
          regs := (s.dev sl).regs.set (statusIdx h).val (mergeStatus (s.kind sl) (s.reg sl (statusIdx h)) w)
            (statusIdx h).isLt }
      else s.dev x :=
  State.dev_setDev ..

theorem State.raiseIrq_dev (h : Sub) :
    (s.raiseIrq sl h).dev x =
      if x = sl then { s.dev sl with body := setIpend h true (s.dev sl).body } else s.dev x :=
  State.dev_setDev ..

theorem State.ackIrq_dev (h : Sub) :
    (s.ackIrq sl h).dev x =
      if x = sl then { s.dev sl with body := setIpend h false (s.dev sl).body } else s.dev x := by
  simp only [State.ackIrq]
  split
  · exact State.mapBody_dev ..
  · rw [State.irqAck_dev]
    exact State.mapBody_dev ..

/-! Pending bits. -/

theorem State.pendBit_setPend (l : Line) (b : Byte) :
    (s.setPend l b).pendBit x = if x.line = l then b.getLsbD x.dev.val else s.pendBit x := by
  unfold State.pendBit State.setPend
  by_cases h : x.line = l
  · subst h
    simp
  · have hne : l.idx.val ≠ x.line.idx.val := fun e => h (Line.idx_inj (Fin.ext e)).symm
    simp only [Fin.getElem_fin, h, if_false]
    rw [Vector.getElem_set_ne l.idx.isLt x.line.idx.isLt hne]

theorem getLsbD_one_shift (n m : Nat) (hn : n < 8) (hm : m < 8) :
    ((1#8 <<< n).getLsbD m) = decide (m = n) := by
  interval_cases n <;> interval_cases m <;> rfl

theorem Slot.eq_iff (a b : Slot) : a = b ↔ a.line = b.line ∧ a.dev = b.dev := by
  cases a
  cases b
  simp

theorem State.irqRaise_pendBit : (s.irqRaise sl).pendBit x = (decide (x = sl) || s.pendBit x) := by
  unfold State.irqRaise
  rw [State.pendBit_setPend]
  by_cases h : x.line = sl.line
  · have hp : s.pendBit x = (s.pend[sl.line.idx]).getLsbD x.dev.val := by simp [State.pendBit, h]
    have hd : decide (x.dev.val = sl.dev.val) = decide (x = sl) := by simp [Slot.eq_iff, h, Fin.ext_iff]
    rw [if_pos h, BitVec.getLsbD_or, getLsbD_one_shift _ _ sl.dev.isLt x.dev.isLt, hd, hp, Bool.or_comm]
  · rw [if_neg h]
    have : ¬ x = sl := fun e => h (by rw [e])
    simp [this]

theorem State.irqAck_pendBit : (s.irqAck sl).pendBit x = (!decide (x = sl) && s.pendBit x) := by
  unfold State.irqAck
  rw [State.pendBit_setPend]
  by_cases h : x.line = sl.line
  · have hp : s.pendBit x = (s.pend[sl.line.idx]).getLsbD x.dev.val := by simp [State.pendBit, h]
    have hd : decide (x.dev.val = sl.dev.val) = decide (x = sl) := by simp [Slot.eq_iff, h, Fin.ext_iff]
    rw [if_pos h, BitVec.getLsbD_and, BitVec.getLsbD_not, getLsbD_one_shift _ _ sl.dev.isLt x.dev.isLt, hd, hp,
      Bool.and_comm]
    simp [x.dev.isLt]
  · rw [if_neg h]
    have : ¬ x = sl := fun e => h (by rw [e])
    simp [this]

theorem State.raiseIrq_pendBit (h : Sub) : (s.raiseIrq sl h).pendBit x = (decide (x = sl) || s.pendBit x) := by
  unfold State.raiseIrq
  rw [State.irqRaise_pendBit, State.mapBody_pendBit]

/-- Acknowledging clears the slot's bit, unless the other half of a terminal has a pending request (R814). -/
theorem State.ackIrq_pendBit (h : Sub) :
    (s.ackIrq sl h).pendBit x =
      (if x = sl then otherPending h (setIpend h false (s.dev sl).body) && s.pendBit x else s.pendBit x) := by
  have hb : (s.mapBody sl (setIpend h false)).body sl = setIpend h false (s.dev sl).body := by
    simp [State.body, State.mapBody_dev]
  simp only [State.ackIrq, hb]
  split
  · next hp => simp [hp]
  · next hp =>
    rw [State.irqAck_pendBit, State.mapBody_pendBit]
    by_cases hx : x = sl
    · simp [hx, hp]
    · simp [hx]

end Machine
end Sys2Proof
end

