-- ==== Sys2Proof/Laws/Memory.lean ====
section
/-! SUPPORT. The laws of sparse byte storage: read after write, and the canonical form under every write. -/

namespace Sys2Proof.Machine

/-! One cell. -/

/-- A write leaves every other key alone, canonical form or not. -/
theorem readCell_writeCell_other {a c : Nat} (h : c ≠ a) (b : Byte) (m : Memory) :
    readCell c (writeCell a b m) = readCell c m := by
  have ha : ¬ a = c := fun e => h e.symm
  induction m with
  | nil =>
    unfold writeCell
    split <;> simp [readCell, ha]
  | cons x rest ih =>
    obtain ⟨k, v⟩ := x
    simp only [writeCell]
    split
    · split <;> simp [readCell, ha]
    · split
      · next he =>
        subst he
        split <;> simp [readCell, ha]
      · simp only [readCell, ih]

/-- A key below every listed key reads as `unlisted`. -/
theorem readCell_below {a : Nat} {m : Memory} (h : ∀ c ∈ m, a < c.1) : readCell a m = unlisted := by
  induction m with
  | nil => rfl
  | cons x rest ih =>
    obtain ⟨k, v⟩ := x
    have hk : a < k := h (k, v) (by simp)
    have : ¬ k = a := by omega
    simp only [readCell, this, if_false]
    exact ih fun c hc => h c (List.mem_cons_of_mem _ hc)

/-- A read after a write to the same key gives the value written. -/
theorem readCell_writeCell_same {a : Nat} (b : Byte) {m : Memory} (h : m.Pairwise fun c d => c.1 < d.1) :
    readCell a (writeCell a b m) = b := by
  induction m with
  | nil =>
    unfold writeCell
    split
    · next hb => rw [hb]; rfl
    · simp [readCell]
  | cons x rest ih =>
    obtain ⟨k, v⟩ := x
    have hr : ∀ c ∈ rest, k < c.1 := (List.pairwise_cons.1 h).1
    simp only [writeCell]
    split
    · next hlt =>
      split
      · next hb =>
        rw [hb]
        refine readCell_below fun c hc => ?_
        rcases List.mem_cons.1 hc with rfl | hc
        · exact hlt
        · exact Nat.lt_trans hlt (hr c hc)
      · simp [readCell]
    · split
      · next he =>
        split
        · next hb =>
          rw [hb]
          exact readCell_below fun c hc => he ▸ hr c hc
        · simp [readCell]
      · next hne =>
        have : ¬ k = a := fun e => hne e.symm
        simp only [readCell, this, if_false]
        exact ih (List.pairwise_cons.1 h).2

/-- The keys of a written memory are old keys or the one written. -/
theorem mem_writeCell {a : Nat} {b : Byte} {m : Memory} {c : Host.Cell} (h : c ∈ writeCell a b m) :
    c ∈ m ∨ (c = (a, b) ∧ b ≠ unlisted) := by
  induction m with
  | nil =>
    unfold writeCell at h
    split at h
    · simp at h
    · next hb =>
      simp only [List.mem_singleton] at h
      exact .inr ⟨h, hb⟩
  | cons x rest ih =>
    obtain ⟨k, v⟩ := x
    simp only [writeCell] at h
    split at h
    · split at h
      · exact .inl h
      · next hb =>
        rcases List.mem_cons.1 h with h | h
        · exact .inr ⟨h, hb⟩
        · exact .inl h
    · split at h
      · split at h
        · exact .inl (List.mem_cons_of_mem _ h)
        · next hb =>
          rcases List.mem_cons.1 h with h | h
          · exact .inr ⟨h, hb⟩
          · exact .inl (List.mem_cons_of_mem _ h)
      · rcases List.mem_cons.1 h with h | h
        · exact .inl (h ▸ List.mem_cons_self ..)
        · rcases ih h with h | h
          · exact .inl (List.mem_cons_of_mem _ h)
          · exact .inr h

/-- A write keeps the keys strictly rising. -/
theorem writeCell_sorted {a : Nat} {b : Byte} {m : Memory} (h : m.Pairwise fun c d => c.1 < d.1) :
    (writeCell a b m).Pairwise fun c d => c.1 < d.1 := by
  induction m with
  | nil =>
    unfold writeCell
    split <;> simp
  | cons x rest ih =>
    obtain ⟨k, v⟩ := x
    obtain ⟨hr, hs⟩ := List.pairwise_cons.1 h
    simp only [writeCell]
    split
    · next hlt =>
      split
      · exact h
      · refine List.pairwise_cons.2 ⟨fun c hc => ?_, h⟩
        rcases List.mem_cons.1 hc with rfl | hc
        · exact hlt
        · exact Nat.lt_trans hlt (hr c hc)
    · next hnlt =>
      split
      · next he =>
        split
        · exact hs
        · exact List.pairwise_cons.2 ⟨fun c hc => he ▸ hr c hc, hs⟩
      · next hne =>
        refine List.pairwise_cons.2 ⟨fun c hc => ?_, ih hs⟩
        rcases mem_writeCell hc with hc | ⟨hc, -⟩
        · exact hr c hc
        · subst hc
          show k < a
          omega

/-- A write inside the bound keeps the canonical form. -/
theorem writeCell_wf {bound a : Nat} {b : Byte} {m : Memory} (h : cellsWf bound m) (ha : a < bound) :
    cellsWf bound (writeCell a b m) := by
  refine ⟨writeCell_sorted h.1, fun c hc => ?_⟩
  rcases mem_writeCell hc with hc | ⟨rfl, hb⟩
  · exact h.2 c hc
  · exact ⟨ha, hb⟩

/-- A wider bound keeps the canonical form. -/
theorem cellsWf_mono {m n : Nat} (hmn : m ≤ n) {c : Memory} (h : cellsWf m c) : cellsWf n c :=
  ⟨h.1, fun x hx => ⟨Nat.lt_of_lt_of_le (h.2 x hx).1 hmn, (h.2 x hx).2⟩⟩

/-! Physical memory. -/

theorem Memory.write_wf {m : Memory} (h : m.wf) (a : Word) (b : Byte) : (m.write a b).wf := writeCell_wf h a.isLt

theorem Memory.read_write_same {m : Memory} (h : m.wf) (a : Word) (b : Byte) : (m.write a b).read a = b :=
  readCell_writeCell_same b h.1

theorem Memory.read_write_other (m : Memory) {a c : Word} (h : c ≠ a) (b : Byte) :
    (m.write a b).read c = m.read c :=
  readCell_writeCell_other (fun e => h (BitVec.eq_of_toNat_eq e)) b m

theorem writeFrom_wf {m : Memory} (h : m.wf) (bytes : List Byte) (k : Nat) : (writeFrom m k bytes).wf := by
  induction bytes generalizing k with
  | nil => exact h
  | cons b bs ih => exact writeCell_wf (ih (k + 1)) (Nat.mod_lt _ (by decide))

theorem Memory.writeBytes_wf {m : Memory} (h : m.wf) (a : Word) (bytes : List Byte) : (m.writeBytes a bytes).wf :=
  writeFrom_wf h bytes a.toNat

/-- A byte outside the range written reads as before. -/
theorem readCell_writeFrom_other {m : Memory} {c : Nat} (bytes : List Byte) (k : Nat)
    (h : ∀ j, j < bytes.length → c ≠ (k + j) % 2 ^ 32) : readCell c (writeFrom m k bytes) = readCell c m := by
  induction bytes generalizing k with
  | nil => rfl
  | cons b bs ih =>
    have h0 := h 0 (by simp)
    rw [writeFrom, readCell_writeCell_other (by simpa using h0)]
    refine ih (k + 1) fun j hj => ?_
    have := h (j + 1) (by simpa using hj)
    rwa [show k + (j + 1) = k + 1 + j by omega] at this

/-- Byte `j` of a written list of at most 2^32 bytes is read back at its address. -/
theorem readCell_writeFrom_same {m : Memory} (hm : m.wf) (bytes : List Byte) (k j : Nat)
    (hlen : bytes.length ≤ 2 ^ 32) (hj : j < bytes.length) :
    readCell ((k + j) % 2 ^ 32) (writeFrom m k bytes) = bytes[j] := by
  induction bytes generalizing k j with
  | nil => simp at hj
  | cons b bs ih =>
    rw [writeFrom]
    cases j with
    | zero => exact readCell_writeCell_same b (writeFrom_wf hm bs (k + 1)).1
    | succ j =>
      simp only [List.length_cons] at hlen hj
      have hne : (k + (j + 1)) % 2 ^ 32 ≠ k % 2 ^ 32 := by omega
      rw [readCell_writeCell_other hne, show k + (j + 1) = k + 1 + j by omega]
      exact ih (k + 1) j (by omega) (by omega)

/-! Image files. -/

theorem writeFileBytes_wf {bound : Nat} {m : Memory} (h : cellsWf bound m) (bytes : List Byte) (off : Nat)
    (hb : off + bytes.length ≤ bound) : cellsWf bound (writeFileBytes m off bytes) := by
  induction bytes generalizing off with
  | nil => exact h
  | cons b bs ih =>
    simp only [List.length_cons] at hb
    exact writeCell_wf (ih (off + 1) (by omega)) (by omega)

theorem readCell_writeFileBytes_other {m : Memory} {c : Nat} (bytes : List Byte) (off : Nat)
    (h : c < off ∨ off + bytes.length ≤ c) : readCell c (writeFileBytes m off bytes) = readCell c m := by
  induction bytes generalizing off with
  | nil => rfl
  | cons b bs ih =>
    simp only [List.length_cons] at h
    rw [writeFileBytes, readCell_writeCell_other (by omega)]
    exact ih (off + 1) (by omega)

theorem readCell_writeFileBytes_same {bound : Nat} {m : Memory} (hm : cellsWf bound m) (bytes : List Byte)
    (off j : Nat) (hj : j < bytes.length) : readCell (off + j) (writeFileBytes m off bytes) = bytes[j] := by
  have wf : ∀ (l : List Byte) (o : Nat), (writeFileBytes m o l).Pairwise fun c d => c.1 < d.1 := by
    intro l
    induction l with
    | nil => exact fun _ => hm.1
    | cons b bs ih => exact fun o => writeCell_sorted (ih (o + 1))
  induction bytes generalizing off j with
  | nil => simp at hj
  | cons b bs ih =>
    rw [writeFileBytes]
    cases j with
    | zero => exact readCell_writeCell_same b (wf bs (off + 1))
    | succ j =>
      simp only [List.length_cons] at hj
      rw [readCell_writeCell_other (by omega), show off + (j + 1) = off + 1 + j by omega]
      exact ih (off + 1) j (by omega)

@[simp] theorem Block.words_length (n : Nat) (b : Block) : (Block.words n b).length = n := by
  induction n generalizing b with
  | zero => cases b <;> rfl
  | succ n ih => cases b <;> simp [Block.words, ih]

/-- The words of a whole block are its own. -/
theorem Block.words_self (b : Block) : Block.words b.length b = b := by
  induction b with
  | nil => rfl
  | cons w ws ih => simp [Block.words, ih]

@[simp] theorem wordBytes_length (o : ByteOrder) (w : Word) : (wordBytes o w).length = 4 := by cases o <;> rfl

@[simp] theorem Block.bytes_length (o : ByteOrder) (b : Block) : (Block.bytes o b).length = 4096 := by
  have h : ∀ l : List Word, (l.flatMap (wordBytes o)).length = 4 * l.length := by
    intro l
    induction l with
    | nil => rfl
    | cons w ws ih => simp [List.flatMap_cons, ih]; omega
  simp [Block.bytes, h]

/-- The four bytes of a word make it again. -/
theorem wordOfBytes_wordBytes (w : Word) :
    wordOfBytes .little (w.extractLsb' 0 8) (w.extractLsb' 8 8) (w.extractLsb' 16 8) (w.extractLsb' 24 8) = w ∧
    wordOfBytes .big (w.extractLsb' 24 8) (w.extractLsb' 16 8) (w.extractLsb' 8 8) (w.extractLsb' 0 8) = w := by
  constructor <;>
  · apply BitVec.eq_of_getLsbD_eq
    intro i hi
    simp only [wordOfBytes, BitVec.getLsbD_append, BitVec.getLsbD_extractLsb']
    interval_cases i <;> simp

/-- A block written to a file leaves it canonical. -/
theorem File.putBlock_wf {f : File} (h : f.wf) (o : ByteOrder) (off : Nat) (b : Block) (gap : Nat → Byte) :
    (f.putBlock o off b gap).wf := by
  refine writeFileBytes_wf (writeFileBytes_wf (cellsWf_mono (Nat.le_max_left ..) h) _ _ ?_) _ _ ?_
  · simp only [List.length_map, List.length_range]
    omega
  · simp only [Block.bytes_length]
    exact Nat.le_max_right ..

@[simp] theorem File.blockAt_length (f : File) (o : ByteOrder) (off : Nat) : (f.blockAt o off).length = 1024 := by
  simp [File.blockAt]

@[simp] theorem Memory.block_length (m : Memory) (a : Word) : (m.block a).length = 1024 := by
  simp [Memory.block]

@[simp] theorem freeBlock_length (d : Nat) : (freeBlock d).length = 1024 := by
  simp [freeBlock]

/-- The memory of the reset state is in canonical form. -/
theorem reset_mem_wf : State.reset.mem.wf := by decide

end Sys2Proof.Machine
end

