-- ==== Sys2Proof/Laws/Ops.lean ====
section
/-! SUPPORT. One lemma for each shared operation that says once what it leaves: a started operation, an acknowledge, an
immediate error, a completion, an accepted command, a draw, a DMA, a log append. -/

namespace Sys2Proof.Machine

variable (s : State) (sl x : Slot)

/-! Pieces. -/

theorem State.kind_eq : s.kind sl = (s.dev sl).body.kind := rfl
theorem State.body_eq : s.body sl = (s.dev sl).body := rfl
theorem State.reg_eq (i : Fin 4) : s.reg sl i = (s.dev sl).regs[i.val] := rfl
theorem State.working_eq : s.working sl = (s.dev sl).working := rfl

/-- A NULL slot is never busy (R508). -/
theorem State.isBusy_null (h : s.kind sl = none) : s.isBusy sl = false := by
  unfold State.isBusy
  unfold State.kind at h
  rw [State.body_eq]
  revert h
  cases (s.dev sl).body <;> simp [DeviceBody.kind, DeviceBody.subs]

@[simp] theorem State.ackIrq_fields (h : Sub) :
    (s.ackIrq sl h).cfg = s.cfg ∧ (s.ackIrq sl h).tod = s.tod ∧ (s.ackIrq sl h).seq = s.seq ∧
    (s.ackIrq sl h).queue = s.queue ∧ (s.ackIrq sl h).fatal = s.fatal ∧ (s.ackIrq sl h).trace = s.trace ∧
    (s.ackIrq sl h).mem = s.mem ∧ (s.ackIrq sl h).net = s.net ∧ (s.ackIrq sl h).script = s.script ∧
    (s.ackIrq sl h).tape = s.tape ∧ (s.ackIrq sl h).reply = s.reply ∧ (s.ackIrq sl h).returned = s.returned := by
  simp only [State.ackIrq]
  split <;> simp

@[simp] theorem setIpend_kind (h : Sub) (b : Bool) (d : DeviceBody) : (setIpend h b d).kind = d.kind := by
  cases d <;> rfl

@[simp] theorem setCtime_kind (h : Sub) (t : Time) (d : DeviceBody) : (setCtime h t d).kind = d.kind := by
  cases d <;> rfl

@[simp] theorem clearOp_kind (h : Sub) (d : DeviceBody) : (clearOp h d).kind = d.kind := by
  cases d <;> rfl

/-- Acknowledging keeps the registers and the type of every slot. -/
theorem State.ackIrq_reg (h : Sub) (i : Fin 4) : (s.ackIrq sl h).reg x i = s.reg x i := by
  simp only [State.reg, State.ackIrq_dev]
  split
  · next e => subst e; rfl
  · rfl

theorem State.ackIrq_kind (h : Sub) : (s.ackIrq sl h).kind x = s.kind x := by
  simp only [State.kind, State.ackIrq_dev]
  split
  · next e => subst e; simp
  · rfl

/-- The status register after a status write of the code `c` (R514). -/
def State.newStatus (h : Sub) (c : Word) : Word := mergeStatus (s.kind sl) (s.reg sl (statusIdx h)) c

/-! The shared operations. -/

/-- What `ack_cmd` leaves (R515). -/
theorem State.ackCmd_spec (h : Sub) :
    (∀ x, (s.ackCmd sl h).dev x =
      if x = sl then
        { regs := putReg (s.dev sl).regs (statusIdx h) (s.newStatus sl h codeReady), working := (s.dev sl).working,
          body := setIpend h false (s.dev sl).body }
      else s.dev x) ∧
    (∀ x, (s.ackCmd sl h).pendBit x =
      if x = sl then otherPending h (setIpend h false (s.dev sl).body) && s.pendBit x else s.pendBit x) ∧
    { s.ackCmd sl h with slots := s.slots, pend := s.pend, trace := s.trace } = s ∧
    (s.ackCmd sl h).trace = s.trace ++ [.statusChanged sl] := by
  refine ⟨fun x => ?_, fun x => ?_, ?_, ?_⟩
  · simp only [State.ackCmd, State.setStatus_dev, State.ackIrq_kind, State.ackIrq_reg]
    by_cases e : x = sl
    · simp only [e, if_true, State.ackIrq_dev, putReg, State.newStatus]
    · simp only [e, if_false, State.ackIrq_dev]
  · simp only [State.ackCmd, State.setStatus_pendBit, State.ackIrq_pendBit]
  · simp [State.ackCmd, State.ackIrq]
    split <;> rfl
  · simp [State.ackCmd]

/-- What `fail_now` leaves (R513). -/
theorem State.failNow_spec (h : Sub) (c : Word) :
    (∀ x, (s.failNow sl h c).dev x =
      if x = sl then
        { regs := putReg (s.dev sl).regs (statusIdx h) (s.newStatus sl h c), working := (s.dev sl).working,
          body := setIpend h true (s.dev sl).body }
      else s.dev x) ∧
    (∀ x, (s.failNow sl h c).pendBit x = (decide (x = sl) || s.pendBit x)) ∧
    { s.failNow sl h c with slots := s.slots, pend := s.pend, trace := s.trace } = s ∧
    (s.failNow sl h c).trace = s.trace ++ [.statusChanged sl] := by
  refine ⟨fun x => ?_, fun x => ?_, rfl, rfl⟩
  · simp only [State.failNow, State.raiseIrq_dev, State.setStatus_dev]
    by_cases e : x = sl <;> simp [e, putReg, State.newStatus]
  · simp only [State.failNow, State.raiseIrq_pendBit, State.setStatus_pendBit]

/-- What `finish` leaves (R513, R519). -/
theorem State.finish_spec (h : Sub) (w : Word) :
    (∀ x, (s.finish sl h w).dev x =
      if x = sl then
        { regs := putReg (s.dev sl).regs (statusIdx h) (s.newStatus sl h w), working := (s.dev sl).working,
          body := setIpend h true (clearOp h (s.dev sl).body) }
      else s.dev x) ∧
    (∀ x, (s.finish sl h w).pendBit x = (decide (x = sl) || s.pendBit x)) ∧
    { s.finish sl h w with slots := s.slots, pend := s.pend, trace := s.trace, returned := s.returned } = s ∧
    (s.finish sl h w).trace = s.trace ++ [.statusChanged sl] ∧
    (s.finish sl h w).returned = some (statusIdx h) := by
  refine ⟨fun x => ?_, fun x => ?_, ?_, by simp, by simp⟩
  rotate_left 2
  · cases s
    simp [State.finish, State.setStatus, State.putStatus, State.raiseIrq, State.irqRaise, State.setPend, State.mapBody,
      State.setReg, State.setDev, State.emit, State.report]
  · simp only [State.finish, State.report_dev, State.raiseIrq_dev, State.mapBody_dev, State.setStatus_dev]
    by_cases e : x = sl <;> simp [e, putReg, State.newStatus]
  · simp only [State.finish, State.report_pendBit, State.raiseIrq_pendBit, State.mapBody_pendBit,
      State.setStatus_pendBit]

/-- Scheduling in time: one more event, in key order, and nothing else (R403). -/
theorem State.schedule_inTime {s : State} {delta : Nat} (k : EventKind) (h : InTime s delta) :
    s.schedule sl k delta =
      { s with
        queue := insertEvent { fire := s.fireTime delta, seq := s.seq, target := sl, kind := k } s.queue
        seq := s.seq + 1 } := by
  unfold State.schedule
  rw [if_neg (by unfold InTime at h; omega)]

/-- Scheduling beyond the counter is fatal (R403). -/
theorem State.schedule_overflow {s : State} {delta : Nat} (k : EventKind) (h : ¬ InTime s delta) :
    s.schedule sl k delta = s.stop .timeOverflow := by
  unfold State.schedule
  rw [if_pos (by unfold InTime at h; omega)]

/-- What `begin` leaves, in time (R512). -/
theorem State.beginOp_spec {s : State} {delta : Nat} (h : Sub) (record : DeviceBody → DeviceBody)
    (hs : s.fatal = none) (hd : InTime s delta) :
    let t := s.beginOp sl h record delta
    (∀ x, t.dev x =
      if x = sl then
        { regs := putReg (s.dev sl).regs (statusIdx h) (s.newStatus sl h codeBusy), working := (s.dev sl).working,
          body := setCtime h (s.fireTime delta) (record (setIpend h false (s.dev sl).body)) }
      else s.dev x) ∧
    (∀ x, t.pendBit x =
      if x = sl then otherPending h (setIpend h false (s.dev sl).body) && s.pendBit x else s.pendBit x) ∧
    { t with slots := s.slots, pend := s.pend, trace := s.trace, queue := s.queue, seq := s.seq } = s ∧
    t.trace = s.trace ++ [.statusChanged sl] ∧ OneEvent s t sl .complete delta := by
  have e : s.beginOp sl h record delta =
      ((((s.ackIrq sl h).setStatus sl h codeBusy).mapBody sl record).schedule sl .complete delta).mapBody sl
        (setCtime h (s.fireTime delta)) := by
    unfold State.beginOp
    rw [State.schedule_inTime sl .complete (by simpa [InTime] using hd)]
    simp [State.andThen, hs]
  have q := State.schedule_inTime (s := ((s.ackIrq sl h).setStatus sl h codeBusy).mapBody sl record) sl .complete
    (delta := delta) (by simpa [InTime] using hd)
  intro t
  have ht : t = _ := e.trans (by rw [q])
  refine ⟨fun x => ?_, fun x => ?_, ?_, ?_, ?_⟩
  · rw [ht]
    rw [State.mapBody_dev]
    have hdev : ∀ y, State.dev { ((s.ackIrq sl h).setStatus sl h codeBusy).mapBody sl record with
        queue := insertEvent
          { fire := (((s.ackIrq sl h).setStatus sl h codeBusy).mapBody sl record).fireTime delta,
            seq := (((s.ackIrq sl h).setStatus sl h codeBusy).mapBody sl record).seq, target := sl, kind := .complete }
          (((s.ackIrq sl h).setStatus sl h codeBusy).mapBody sl record).queue
        seq := (((s.ackIrq sl h).setStatus sl h codeBusy).mapBody sl record).seq + 1 } y =
        (((s.ackIrq sl h).setStatus sl h codeBusy).mapBody sl record).dev y := fun _ => rfl
    rw [hdev, hdev]
    simp only [State.mapBody_dev, State.setStatus_dev, State.ackIrq_dev, State.ackIrq_kind, State.ackIrq_reg]
    by_cases hx : x = sl <;> simp [hx, putReg, State.newStatus]
  · rw [ht, State.mapBody_pendBit]
    show (((s.ackIrq sl h).setStatus sl h codeBusy).mapBody sl record).pendBit x = _
    rw [State.mapBody_pendBit, State.setStatus_pendBit, State.ackIrq_pendBit]
  · rw [ht]
    simp only [State.ackIrq]
    split <;> rfl
  · rw [ht]
    simp
  · rw [ht]
    simp [OneEvent, State.fireTime]

/-- What `begin` leaves when the fire time does not fit: a fatal error (R403). -/
theorem State.beginOp_overflow {s : State} {delta : Nat} (h : Sub) (record : DeviceBody → DeviceBody)
    (hd : ¬ InTime s delta) : (s.beginOp sl h record delta).fatal = some .timeOverflow := by
  unfold State.beginOp
  rw [State.schedule_overflow sl .complete (by simpa [InTime] using hd)]
  rfl

/-! Acceptance. -/

/-- A command written to a busy sub-device does nothing (R504). -/
theorem State.accept_busy {s : State} {sl : Slot} {k : DevKind} {h : Sub} (hs : s.fatal = none)
    (hk : s.kind sl = some k) (hb : s.busy sl h = true) (w : Word) (run : State → State) :
    s.accept k sl h w run = .next s := by
  simp [State.accept, hs, hk, hb]

/-- A command written to an idle sub-device stores its word and runs (R506). -/
theorem State.accept_idle {s : State} {sl : Slot} {k : DevKind} {h : Sub} (hs : s.fatal = none)
    (hk : s.kind sl = some k) (hb : s.busy sl h = false) (w : Word) (run : State → State) :
    s.accept k sl h w run = .next (run (s.setReg sl (cmdIdx h) w)) := by
  simp [State.accept, hs, hk, hb]

/-- Every answer of an acceptance that is a next state. -/
theorem State.accept_next {s t : State} {sl : Slot} {k : DevKind} {h : Sub} {w : Word} {run : State → State}
    (e : s.accept k sl h w run = .next t) :
    s.fatal = none ∧ s.kind sl = some k ∧
      ((s.busy sl h = true ∧ t = s) ∨ (s.busy sl h = false ∧ t = run (s.setReg sl (cmdIdx h) w))) := by
  unfold State.accept at e
  split at e
  · exact absurd e (by simp)
  · next hf =>
    split at e
    · exact absurd e (by simp)
    · next hk =>
      have hk : s.kind sl = some k := not_not.1 hk
      split at e
      · next hb => exact ⟨hf, hk, .inl ⟨hb, by injection e with e; exact e.symm⟩⟩
      · next hb => exact ⟨hf, hk, .inr ⟨by simpa using hb, by injection e with e; exact e.symm⟩⟩

/-- Every command is an acceptance of its own word at its own port (R506). -/
theorem exec_accepts (i : Instr) :
    ∃ run : State → State, ∀ s, exec i s = s.accept i.port.kind i.slot i.port.sub (encode i) run := by
  cases i <;>
    exact ⟨_, fun s => by
      simp only [exec, execPrinterReset, execPrinterAck, execPrinterPrntchr, execTermRxReset, execTermRxAck,
        execTermRxRecvchr, execTermTxReset, execTermTxAck, execTermTxTranchr, execDiskReset, execDiskAck,
        execDiskSeekcyl, execDiskReadblk, execDiskWriteblk, execFlashReset, execFlashAck, execFlashReadblk,
        execFlashWriteblk, execEthReset, execEthAck, execEthReadconf, execEthReadnet, execEthWritenet,
        execEthConfigure]
      rfl⟩

/-- What a command answers: a refusal after a fatal error or in a slot of another type, else a next state, in which an
idle sub-device has stored the word and run (R504, R506, R1220). -/
theorem exec_cases (i : Instr) (s : State) :
    (∃ r, s.fatal = some r ∧ exec i s = .refused (.fatalState r)) ∨
    (s.fatal = none ∧ s.kind i.slot ≠ some i.port.kind ∧ exec i s = .refused .wrongDevice) ∨
    (s.fatal = none ∧ s.kind i.slot = some i.port.kind ∧ ∃ t, exec i s = .next t) := by
  obtain ⟨run, h⟩ := exec_accepts i
  rw [h, State.accept]
  cases hf : s.fatal with
  | some r => exact .inl ⟨r, rfl, rfl⟩
  | none =>
    by_cases hk : s.kind i.slot = some i.port.kind
    · refine .inr (.inr ⟨rfl, hk, ?_⟩)
      simp only [hk, ne_eq, not_true_eq_false, if_false]
      split <;> exact ⟨_, rfl⟩
    · exact .inr (.inl ⟨rfl, hk, by simp [hk]⟩)

/-- The command word is not a status register: storing it changes neither the status nor the type (R13, R506). -/
theorem State.setReg_cmd_status (h : Sub) (w : Word) :
    (s.setReg sl (cmdIdx h) w).reg sl (statusIdx h) = s.reg sl (statusIdx h) := by
  simp only [State.reg, State.setReg_dev, if_true]
  cases h <;> exact Vector.getElem_set_ne _ _ (by decide)

@[simp] theorem State.setReg_kind (i : Fin 4) (v : Word) : (s.setReg sl i v).kind x = s.kind x := by
  simp only [State.kind, State.setReg_dev]
  split
  · next e => subst e; rfl
  · rfl

@[simp] theorem State.setReg_body (i : Fin 4) (v : Word) : (s.setReg sl i v).body x = s.body x := by
  simp only [State.body, State.setReg_dev]
  split
  · next e => subst e; rfl
  · rfl

@[simp] theorem State.setReg_working (i : Fin 4) (v : Word) : (s.setReg sl i v).working x = s.working x := by
  simp only [State.working, State.setReg_dev]
  split
  · next e => subst e; rfl
  · rfl

/-! Draws: only the tape changes. -/

theorem State.drawIo_tape : s.drawIo.2 = { s with tape := s.drawIo.2.tape } := by
  unfold State.drawIo
  split
  · rfl
  · split <;> rfl

theorem State.decodeFails_tape (a : Word) (n : Nat) :
    (s.decodeFails a n).2 = { s with tape := (s.decodeFails a n).2.tape } := by
  unfold State.decodeFails
  split
  · rfl
  · split <;> rfl

theorem State.drawWaiting_tape : s.drawWaiting.2 = { s with tape := s.drawWaiting.2.tape } := by
  unfold State.drawWaiting
  split <;> rfl

theorem State.drawRecv_tape : s.drawRecv.2 = { s with tape := s.drawRecv.2.tape } := by
  unfold State.drawRecv
  split <;> rfl

theorem State.drawSent_tape : s.drawSent.2 = { s with tape := s.drawSent.2.tape } := by
  unfold State.drawSent
  split <;> rfl

/-! DMA: only memory and the tape change, and memory stays canonical. -/

/-- The bytes of a transfer are as many as it asks for. -/
@[simp] theorem bufferBytes_length (draw n : Nat) (bytes : List Byte) : (bufferBytes draw bytes n).length = n := by
  simp [bufferBytes, freeBytes]
  omega

/-- A transfer no longer than its buffer takes the buffer's first bytes. -/
theorem bufferBytes_of_le {n : Nat} {bytes : List Byte} (draw : Nat) (h : n ≤ bytes.length) :
    bufferBytes draw bytes n = bytes.take n := by
  simp [bufferBytes, freeBytes, List.drop_eq_nil_of_le, h]

/-- A byte of the buffer is that byte of the transfer. -/
theorem bufferBytes_getElem {n k : Nat} {bytes : List Byte} (draw : Nat) (hn : k < n) (hb : k < bytes.length) :
    (bufferBytes draw bytes n)[k]'(by simpa using hn) = bytes[k] := by
  unfold bufferBytes
  rw [List.getElem_append_left (by simp; omega), List.getElem_take]

/-- What a DMA to memory leaves (R601, R603). -/
theorem State.dmaToMemN_spec (a : Word) (bytes : List Byte) (n : Nat) :
    (s.dmaToMemN a bytes n).1 = (s.decodeFails a n).1 ∧
    (∃ stored : List Byte, stored.length = n ∧
      ((s.decodeFails a n).1 = false →
        stored = bufferBytes (s.decodeFails a n).2.tape.drawn bytes n ∧
          (n ≤ bytes.length → (s.dmaToMemN a bytes n).2.tape = (s.decodeFails a n).2.tape)) ∧
      (s.dmaToMemN a bytes n).2 =
        { s with mem := s.mem.writeBytes a stored, tape := (s.dmaToMemN a bytes n).2.tape }) := by
  have e := s.decodeFails_tape a n
  unfold State.dmaToMemN
  generalize s.decodeFails a n = r at e ⊢
  obtain ⟨failed, t⟩ := r
  simp only at e
  cases failed
  · refine ⟨rfl, bufferBytes t.tape.drawn bytes n, by simp, fun _ => ⟨rfl, fun h => ?_⟩, ?_⟩
    · simp [Nat.not_lt.2 h]
    · simp only [Bool.false_eq_true, if_false]
      split <;> rw [e]
      rfl
  · refine ⟨rfl, freeBytes t.tape.drawn n, by simp [freeBytes], fun h => absurd h (by simp), ?_⟩
    simp only [if_true]
    rw [e]
    rfl

theorem State.dmaToMemN_wf (a : Word) (bytes : List Byte) (n : Nat) (h : s.mem.wf) :
    (s.dmaToMemN a bytes n).2.mem.wf := by
  obtain ⟨-, stored, -, -, e⟩ := s.dmaToMemN_spec a bytes n
  rw [e]
  exact Memory.writeBytes_wf h a stored

/-- What a DMA of a block to memory leaves (R601): on success the block's bytes, and no draw but the memory port's. -/
theorem State.dmaToMem_spec (a : Word) (b : Block) :
    (s.dmaToMem a b).1 = (s.decodeFails a 4096).1 ∧
    (∃ stored : List Byte, stored.length = 4096 ∧
      ((s.decodeFails a 4096).1 = false →
        stored = Block.bytes .little b ∧ (s.dmaToMem a b).2.tape = (s.decodeFails a 4096).2.tape) ∧
      (s.dmaToMem a b).2 =
        { s with mem := s.mem.writeBytes a stored, tape := (s.dmaToMem a b).2.tape }) := by
  obtain ⟨h1, stored, hl, hs, he⟩ := s.dmaToMemN_spec a (Block.bytes .little b) 4096
  have hb : (Block.bytes .little b).length = 4096 := Block.bytes_length _ _
  refine ⟨h1, stored, hl, fun h => ⟨?_, (hs h).2 hb.ge⟩, he⟩
  rw [(hs h).1, bufferBytes_of_le _ hb.ge, List.take_of_length_le hb.le]

/-- What a DMA from memory leaves (R602): the tape moves on, and the block is memory's. -/
theorem State.dmaFromMem_spec (a : Word) :
    (s.dmaFromMem a).1 = (s.decodeFails a 4096).1 ∧ (s.dmaFromMem a).2.1.length = 1024 ∧
    (s.dmaFromMem a).2.2 = { s with tape := (s.dmaFromMem a).2.2.tape } ∧
    ((s.decodeFails a 4096).1 = false →
      (s.dmaFromMem a).2.1 = s.mem.block a ∧ (s.dmaFromMem a).2.2.tape = (s.decodeFails a 4096).2.tape) := by
  have e := s.decodeFails_tape a 4096
  unfold State.dmaFromMem
  generalize s.decodeFails a 4096 = r at e ⊢
  obtain ⟨failed, t⟩ := r
  simp only at e
  cases failed
  · refine ⟨rfl, by simp, by simpa using e, fun _ => ⟨?_, rfl⟩⟩
    simp only [Bool.false_eq_true, if_false]
    rw [e]
  · refine ⟨rfl, by simp, ?_, fun h => absurd h (by simp)⟩
    simp only [if_true]
    rw [e]
    rfl

theorem State.dmaFromMemN_spec (a : Word) (n : Nat) :
    (s.dmaFromMemN a n).1 = (s.decodeFails a n).1 ∧
    (s.dmaFromMemN a n).2.2 = { s with tape := (s.dmaFromMemN a n).2.2.tape } ∧
    ((s.decodeFails a n).1 = false →
      (s.dmaFromMemN a n).2.1 = s.mem.readBytes a n ∧
        (s.dmaFromMemN a n).2.2 = (s.decodeFails a n).2) := by
  have e := s.decodeFails_tape a n
  unfold State.dmaFromMemN
  generalize s.decodeFails a n = r at e ⊢
  obtain ⟨failed, t⟩ := r
  simp only at e
  cases failed
  · refine ⟨rfl, by simpa using e, fun _ => ⟨?_, rfl⟩⟩
    simp only [Bool.false_eq_true, if_false]
    rw [e]
  · refine ⟨rfl, ?_, fun h => absurd h (by simp)⟩
    simp only [if_true]
    rw [e]
    rfl

/-! Files. -/

/-- What a file read leaves (R911). -/
theorem State.fileRead_spec (f : File) (off : Nat) :
    (s.fileRead f off).2 = { s with tape := (s.fileRead f off).2.tape } ∧
    ∀ b, (s.fileRead f off).1 = some b → b = f.blockAt s.cfg.imageByteOrder off := by
  have e := s.drawIo_tape
  unfold State.fileRead
  simp only
  split
  · exact ⟨e, fun b h => absurd h (by simp)⟩
  · exact ⟨e, fun b h => by simpa using h.symm⟩

/-- When a file read answers the block, and what it draws (R911). -/
theorem State.fileRead_cases (f : File) (off : Nat) :
    (s.fileRead f off).2 = s.drawIo.2 ∧
    (s.drawIo.1 = true ∨ f.size < off + 4096 → (s.fileRead f off).1 = none) ∧
    (s.drawIo.1 = false → off + 4096 ≤ f.size →
      (s.fileRead f off).1 = some (f.blockAt s.cfg.imageByteOrder off)) := by
  unfold State.fileRead
  simp only
  refine ⟨by split <;> rfl, fun h => ?_, fun h1 h2 => ?_⟩
  · rw [if_pos (by simpa using h)]
  · rw [if_neg (by simp [h1, Nat.not_lt.2 h2])]

/-- What a file write leaves (R911). -/
theorem State.fileWrite_spec (f : File) (off : Nat) (b : Block) :
    (s.fileWrite f off b).2 = { s with tape := (s.fileWrite f off b).2.tape } ∧
    (s.drawIo.1 = true → (s.fileWrite f off b).1 = none) ∧
    (s.drawIo.1 = false → ∃ gap, (s.fileWrite f off b).1 = some (f.putBlock s.cfg.imageByteOrder off b gap)) := by
  have e := s.drawIo_tape
  unfold State.fileWrite
  simp only
  split
  · next h => exact ⟨e, fun _ => rfl, fun h' => absurd (h.symm.trans h') (by simp)⟩
  · next h =>
    split
    · exact ⟨by rw [e]; rfl, fun h' => absurd h' h, fun _ => ⟨_, rfl⟩⟩
    · exact ⟨e, fun h' => absurd h' h, fun _ => ⟨_, rfl⟩⟩

/-- What a log append leaves (R706, R819). -/
theorem State.writeLog_spec (bytes : List Byte) :
    (s.drawIo.1 = true → s.writeLog sl bytes = { s with tape := s.drawIo.2.tape, fatal := some .logWriteFailed }) ∧
    (s.drawIo.1 = false →
      s.writeLog sl bytes = { s with tape := s.drawIo.2.tape }.mapBody sl (appendLog bytes)) := by
  have e := s.drawIo_tape
  unfold State.writeLog
  simp only
  constructor
  · intro h
    rw [if_pos h, e]
    rfl
  · intro h
    rw [if_neg (by simp [h])]
    exact congrArg (fun t : State => t.mapBody sl (appendLog bytes)) e

end Sys2Proof.Machine
end

