-- ==== Sys2Proof/Laws/Blocks.lean ====
section
/-! SUPPORT. Blocks in memory and in images, byte by byte: what a DMA or an image access stores is what it reads. -/

namespace Sys2Proof.Machine

/-- Addresses wrap: the byte `k` above an address. -/
theorem readAt_offset (m : Memory) (a : Word) (k : Nat) : readAt m (a.toNat + k) = m.read (a + BitVec.ofNat 32 k) := by
  unfold readAt Memory.read
  congr 1
  simp [BitVec.toNat_add]

theorem Memory.readBytes_holds (m : Memory) (a : Word) (n : Nat) : HoldsBytes m a (m.readBytes a n) := by
  intro k h
  simp only [Memory.readBytes, List.getElem_map, List.getElem_range, readAt_offset]

@[simp] theorem Memory.readBytes_length (m : Memory) (a : Word) (n : Nat) : (m.readBytes a n).length = n := by
  simp [Memory.readBytes]

/-- Byte `j` of the word four bytes make, least significant first. -/
theorem wordOfBytes_little_byte (b0 b1 b2 b3 : Byte) (j : Nat) (hj : j < 4) :
    (wordOfBytes .little b0 b1 b2 b3).extractLsb' (8 * j) 8 = [b0, b1, b2, b3][j] := by
  interval_cases j <;>
  · apply BitVec.eq_of_getLsbD_eq
    intro i hi
    simp only [wordOfBytes, BitVec.getLsbD_append, BitVec.getLsbD_extractLsb']
    interval_cases i <;> simp

/-- Byte `j` of the word four bytes make, most significant first. -/
theorem wordOfBytes_big_byte (b0 b1 b2 b3 : Byte) (j : Nat) (hj : j < 4) :
    (wordOfBytes .big b0 b1 b2 b3).extractLsb' (24 - 8 * j) 8 = [b0, b1, b2, b3][j] := by
  interval_cases j <;>
  · apply BitVec.eq_of_getLsbD_eq
    intro i hi
    simp only [wordOfBytes, BitVec.getLsbD_append, BitVec.getLsbD_extractLsb']
    interval_cases i <;> simp

/-- A word is made of the four bytes it is written as, in either order. -/
theorem wordOfBytes_of_wordBytes (o : ByteOrder) (w : Word) (b : Nat → Byte)
    (h : ∀ j (hj : j < 4), b j = (wordBytes o w)[j]'(by simpa using hj)) :
    wordOfBytes o (b 0) (b 1) (b 2) (b 3) = w := by
  rw [h 0 (by decide), h 1 (by decide), h 2 (by decide), h 3 (by decide)]
  cases o
  · exact (wordOfBytes_wordBytes w).2
  · exact (wordOfBytes_wordBytes w).1

/-- Word `i` of a block in memory (R204, R602). -/
theorem Memory.block_getElem (m : Memory) (a : Word) (i : Nat) (hi : i < 1024) :
    (m.block a)[i]'(by simpa using hi) = m.wordAt (a.toNat + 4 * i) := by
  simp [Memory.block]

/-- What a DMA reads is what memory holds (R602). -/
theorem Memory.block_holds (m : Memory) (a : Word) : HoldsBlock m a (m.block a) := by
  intro i j hi hj
  have hl : i < (m.block a).length := by simpa using hi
  rw [List.getD_eq_getElem _ _ hl, Memory.block_getElem _ _ _ hi, Memory.wordAt, wordOfBytes_little_byte _ _ _ _ _ hj,
    ← readAt_offset]
  interval_cases j <;> simp [Nat.add_assoc]

/-- A block of memory is the block memory holds (R602). -/
theorem Memory.block_of_holds {m : Memory} {a : Word} {b : Block} (hb : b.length = 1024) (h : HoldsBlock m a b) :
    m.block a = b := by
  refine List.ext_getElem (by simp [hb]) fun i h1 h2 => ?_
  have hi : i < 1024 := by simpa using h1
  rw [Memory.block_getElem _ _ _ hi]
  have e : ∀ j (hj : j < 4), readAt m (a.toNat + 4 * i + j) = (wordBytes .little b[i])[j]'(by simpa using hj) := by
    intro j hj
    have := h i j hi hj
    rw [List.getD_eq_getElem _ _ h2] at this
    rw [show a.toNat + 4 * i + j = a.toNat + (4 * i + j) by omega, readAt_offset, this]
    interval_cases j <;> rfl
  exact wordOfBytes_of_wordBytes .little b[i] (fun j => readAt m (a.toNat + 4 * i + j)) e

/-- Word `i` of the first `n` words of a long enough block. -/
theorem Block.words_getElem (n : Nat) (b : Block) (i : Nat) (hi : i < n) :
    (Block.words n b)[i]'(by simpa using hi) = b.getD i 0xFFFFFFFF#32 := by
  induction n generalizing b i with
  | zero => exact absurd hi (by omega)
  | succ n ih =>
    cases b with
    | nil =>
      cases i with
      | zero => rfl
      | succ i => simpa [Block.words] using ih [] i (by omega)
    | cons w ws =>
      cases i with
      | zero => rfl
      | succ i => simpa [Block.words] using ih ws i (by omega)

/-- Byte `j` of word `i` in the bytes of a list of words. -/
theorem wordsBytes_getElem (o : ByteOrder) (l : List Word) (i j : Nat) (hi : i < l.length) (hj : j < 4)
    (h : 4 * i + j < (l.flatMap (wordBytes o)).length) :
    (l.flatMap (wordBytes o))[4 * i + j] = (wordBytes o l[i])[j]'(by simpa using hj) := by
  induction l generalizing i with
  | nil => exact absurd hi (by simp)
  | cons w ws ih =>
    simp only [List.flatMap_cons]
    cases i with
    | zero =>
      rw [List.getElem_append_left (by simpa using hj)]
      simp
    | succ i =>
      rw [List.getElem_append_right (by simp; omega)]
      simp only [wordBytes_length, List.getElem_cons_succ]
      have h' : 4 * i + j < (ws.flatMap (wordBytes o)).length := by
        simp only [List.flatMap_cons, List.length_append, wordBytes_length] at h
        omega
      have := ih i (by simpa using hi) h'
      rw [← this]
      congr 1
      omega

/-- Byte `j` of word `i` of a block (R204, R205). -/
theorem Block.bytes_getElem (o : ByteOrder) (b : Block) (i j : Nat) (hi : i < 1024) (hj : j < 4) :
    (Block.bytes o b)[4 * i + j]'(by simp; omega) =
      (wordBytes o (b.getD i 0xFFFFFFFF#32))[j]'(by simpa using hj) := by
  have := wordsBytes_getElem o (Block.words 1024 b) i j (by simpa using hi) hj
    (by have := Block.bytes_length o b; simp only [Block.bytes] at this; omega)
  rw [Block.words_getElem _ _ _ hi] at this
  exact this

theorem wordBytes_little_getElem (w : Word) (j : Nat) (hj : j < 4) :
    (wordBytes .little w)[j]'(by simpa using hj) = w.extractLsb' (8 * j) 8 := by
  interval_cases j <;> rfl

theorem wordBytes_big_getElem (w : Word) (j : Nat) (hj : j < 4) :
    (wordBytes .big w)[j]'(by simpa using hj) = w.extractLsb' (24 - 8 * j) 8 := by
  interval_cases j <;> rfl

/-- Bytes written to memory are held there, when they do not wrap over themselves. -/
theorem Memory.writeBytes_holds {m : Memory} (hm : m.wf) (a : Word) (bytes : List Byte)
    (hl : bytes.length ≤ 2 ^ 32) : HoldsBytes (m.writeBytes a bytes) a bytes := by
  intro k h
  rw [← readAt_offset]
  exact readCell_writeFrom_same hm bytes a.toNat k hl h

/-- A block written to memory is held there (R601). -/
theorem Memory.writeBytes_holdsBlock {m : Memory} (hm : m.wf) (a : Word) (b : Block) :
    HoldsBlock (m.writeBytes a (Block.bytes .little b)) a b := by
  intro i j hi hj
  have := Memory.writeBytes_holds hm a (Block.bytes .little b) (by simp) (4 * i + j) (by simp; omega)
  rw [this, Block.bytes_getElem _ _ _ _ hi hj, wordBytes_little_getElem _ _ hj]

/-- A byte outside the range written reads as before. -/
theorem Memory.writeBytes_outside (m : Memory) (a x : Word) (bytes : List Byte)
    (h : ∀ k, k < bytes.length → x ≠ a + BitVec.ofNat 32 k) : (m.writeBytes a bytes).read x = m.read x := by
  refine readCell_writeFrom_other bytes a.toNat fun j hj e => h j hj ?_
  apply BitVec.eq_of_toNat_eq
  rw [BitVec.toNat_add, BitVec.toNat_ofNat, Nat.add_mod_mod]
  exact e

/-! Images. -/

theorem File.blockAt_getElem (f : File) (o : ByteOrder) (off i : Nat) (hi : i < 1024) :
    (f.blockAt o off)[i]'(by simpa using hi) = f.wordAt o (off + 4 * i) := by
  simp [File.blockAt]

/-- A byte of a block stored in an image (R205, R911). -/
theorem File.putBlock_byte {f : File} (hf : f.wf) (o : ByteOrder) (off : Nat) (b : Block) (gap : Nat → Byte) (i j : Nat)
    (hi : i < 1024) (hj : j < 4) :
    readCell (off + 4 * i + j) (f.putBlock o off b gap).cells =
      (wordBytes o (b.getD i 0xFFFFFFFF#32))[j]'(by simpa using hj) := by
  have hm : cellsWf (max f.size (off + 4096))
      (writeFileBytes f.cells f.size ((List.range (off - f.size)).map gap)) := by
    refine writeFileBytes_wf (cellsWf_mono (Nat.le_max_left ..) hf) _ _ ?_
    simp only [List.length_map, List.length_range]
    omega
  have := readCell_writeFileBytes_same hm (Block.bytes o b) off (4 * i + j) (by simp; omega)
  rw [show off + 4 * i + j = off + (4 * i + j) by omega]
  exact this.trans (Block.bytes_getElem o b i j hi hj)

/-- A block stored in an image is read back (R911). -/
theorem File.blockAt_putBlock {f : File} (hf : f.wf) (o : ByteOrder) (off : Nat) (b : Block) (gap : Nat → Byte)
    (hb : b.length = 1024) : (f.putBlock o off b gap).blockAt o off = b := by
  refine List.ext_getElem (by simp [hb]) fun i h1 h2 => ?_
  have hi : i < 1024 := by simpa using h1
  rw [File.blockAt_getElem _ _ _ _ hi]
  refine wordOfBytes_of_wordBytes o b[i]
    (fun j => readCell (off + 4 * i + j) (f.putBlock o off b gap).cells) fun j hj => ?_
  have := File.putBlock_byte hf o off b gap i j hi hj
  rw [this]
  simp only [List.getD_eq_getElem _ _ h2]

/-- A byte of the old image outside a block stored in it is unchanged. -/
theorem File.putBlock_outside (f : File) (o : ByteOrder) (off : Nat) (b : Block) (gap : Nat → Byte) (k : Nat)
    (hk : k < f.size) (h : k < off ∨ off + 4096 ≤ k) :
    readCell k (f.putBlock o off b gap).cells = readCell k f.cells := by
  unfold File.putBlock
  rw [readCell_writeFileBytes_other _ _ (by simpa using h), readCell_writeFileBytes_other _ _ (.inl hk)]

theorem File.putBlock_size (f : File) (o : ByteOrder) (off : Nat) (b : Block) (gap : Nat → Byte)
    (h : off + 4096 ≤ f.size) : (f.putBlock o off b gap).size = f.size := Nat.max_eq_left h

end Sys2Proof.Machine
end

