-- ==== Sys2Proof/Laws/Commands.lean ====
section
/-! SUPPORT. What an accepted command leaves when it starts a timed operation, acknowledges or fails at once, and what a
completion leaves: the shared operations in the terms of the statements. -/

namespace Sys2Proof.Machine

variable {s : State} {sl : Slot} {h : Sub} {body : DeviceBody}

/-- States that agree on everything but slots, pending bits, the trace, the queue and the sequence number. -/
theorem agree_fields {s t : State}
    (e : { t with slots := s.slots, pend := s.pend, trace := s.trace, queue := s.queue, seq := s.seq } = s) :
    t.cfg = s.cfg ∧ t.tod = s.tod ∧ t.fatal = s.fatal ∧ t.mem = s.mem ∧ t.net = s.net ∧ t.script = s.script ∧
      t.tape = s.tape ∧ t.reply = s.reply ∧ t.returned = s.returned := by
  have f : ∀ {α : Type} (g : State → α),
      g { t with slots := s.slots, pend := s.pend, trace := s.trace, queue := s.queue, seq := s.seq } = g s :=
    fun g => congrArg g e
  exact ⟨f State.cfg, f State.tod, f State.fatal, f State.mem, f State.net, f State.script, f State.tape, f State.reply,
    f State.returned⟩

/-- The status word a code gives in a slot whose body is known. -/
theorem newStatus_eq (hb : s.body sl = body) (c : Word) :
    s.newStatus sl h c = mergeStatus body.kind (s.reg sl (statusIdx h)) c := by
  rw [State.newStatus, State.kind_eq, ← State.body_eq, hb]

/-- The state an idle sub-device runs its command in: its command word stored, and its body changed by `f`. -/
theorem stored_dev (f : DeviceBody → DeviceBody) (w : Word) (x : Slot) (hb : s.body sl = body) :
    ((s.setReg sl (cmdIdx h) w).mapBody sl f).dev x =
      if x = sl then
        { regs := putReg (s.dev sl).regs (cmdIdx h) w, working := (s.dev sl).working, body := f body }
      else s.dev x := by
  have hb' : (s.dev sl).body = body := hb
  simp only [State.mapBody_dev, State.setReg_dev]
  by_cases e : x = sl <;> simp [e, putReg, hb']

theorem stored_newStatus (f : DeviceBody → DeviceBody) (w c : Word) (hb : s.body sl = body)
    (hf : (f body).kind = body.kind) :
    ((s.setReg sl (cmdIdx h) w).mapBody sl f).newStatus sl h c =
      mergeStatus body.kind (s.reg sl (statusIdx h)) c := by
  have hk : ((s.setReg sl (cmdIdx h) w).mapBody sl f).kind sl = body.kind := by
    rw [State.kind_eq, stored_dev f w sl hb]
    simp [hf]
  rw [State.newStatus, hk]
  congr 1
  have := State.setReg_cmd_status s sl h w
  rw [← this]
  simp only [State.reg, State.mapBody_dev, if_true]

/-- The same state with another tape of host answers. -/
theorem tape_newStatus (u : State) (tape : HostTape) (c : Word) :
    State.newStatus { u with tape := tape } sl h c = u.newStatus sl h c := rfl

theorem tape_dev (u : State) (tape : HostTape) (x : Slot) : State.dev { u with tape := tape } x = u.dev x := rfl

theorem tape_pendBit (u : State) (tape : HostTape) (x : Slot) :
    State.pendBit { u with tape := tape } x = u.pendBit x := rfl

/-- A timed command, accepted in time, which has changed the body by `f` and drawn host answers (R506, R512). -/
theorem accepted_begin_tape {k : DevKind} {delta : Nat} {w : Word} (tape : HostTape)
    (f record : DeviceBody → DeviceBody) {run : State → State}
    (hrun : run (s.setReg sl (cmdIdx h) w) =
      State.beginOp { (s.setReg sl (cmdIdx h) w).mapBody sl f with tape := tape } sl h record delta)
    (hi : Idle s sl h body) (hk : body.kind = some k) (hf : (f body).kind = body.kind) (hd : InTime s delta) :
    ∃ t, s.accept k sl h w run = .next t ∧
      Accepted s t sl h w (mergeStatus body.kind (s.reg sl (statusIdx h)) codeBusy)
        (setCtime h (BitVec.ofNat 64 (s.tod.toNat + delta)) (record (setIpend h false (f body))))
        (otherPending h (setIpend h false (f body)) && s.pendBit sl) ∧
      t.tape = tape ∧ OneEvent s t sl .complete delta := by
  obtain ⟨hrunning, hb, hidle⟩ := hi
  have hkind : s.kind sl = some k := by rw [State.kind_eq, ← State.body_eq, hb, hk]
  refine ⟨_, State.accept_idle hrunning hkind hidle w run, ?_⟩
  rw [hrun]
  obtain ⟨h1, h2, h3, h4, h5⟩ := State.beginOp_spec
    (s := { (s.setReg sl (cmdIdx h) w).mapBody sl f with tape := tape }) sl h record
    (by simpa using hrunning) (delta := delta) (by simpa [InTime] using hd)
  obtain ⟨g1, g2, g3, g4, g5, g6, g7, g8, g9⟩ := agree_fields h3
  simp only [tape_newStatus, tape_dev, tape_pendBit, stored_dev f w _ hb, stored_newStatus f w _ hb hf,
    if_true] at h1 h2
  refine ⟨⟨?_, ?_, ?_, ?_, ⟨?_, ?_, ?_, ?_, ?_, ?_⟩, ?_, ?_, ?_⟩, ?_, ?_⟩
  · rw [h1, if_pos rfl]
    rfl
  · rw [h2, if_pos rfl]
    rfl
  · rw [h4]
    simp
  · rw [g3]
    simpa using hrunning
  · intro x hx
    rw [h1, if_neg hx, if_neg hx]
  · intro x hx
    rw [h2, if_neg hx]
    rfl
  · rw [g1]; rfl
  · rw [g2]; rfl
  · rw [g6]; rfl
  · rw [g8]; rfl
  · intro a
    rw [g4]; rfl
  · rw [g5]; rfl
  · rw [g9]; rfl
  · rw [g7]
  · exact h5

/-- A timed command, accepted in time, after a change `f` of the body (R506, R512). -/
theorem accepted_begin {k : DevKind} {delta : Nat} {w : Word} (f record : DeviceBody → DeviceBody)
    {run : State → State}
    (hrun : run (s.setReg sl (cmdIdx h) w) =
      ((s.setReg sl (cmdIdx h) w).mapBody sl f).beginOp sl h record delta)
    (hi : Idle s sl h body) (hk : body.kind = some k) (hf : (f body).kind = body.kind) (hd : InTime s delta) :
    ∃ t, s.accept k sl h w run = .next t ∧
      Started s t sl h w (mergeStatus body.kind (s.reg sl (statusIdx h)) codeBusy)
        (setCtime h (BitVec.ofNat 64 (s.tod.toNat + delta)) (record (setIpend h false (f body))))
        (otherPending h (setIpend h false (f body)) && s.pendBit sl) delta := by
  obtain ⟨t, h1, h2, h3, h4⟩ := accepted_begin_tape s.tape f record hrun hi hk hf hd
  exact ⟨t, h1, h2, h3, h4⟩

/-- The ACK of every device but the ethernet, accepted (R506, R515). -/
theorem accepted_ack {k : DevKind} {w : Word} {run : State → State}
    (hrun : run (s.setReg sl (cmdIdx h) w) = (s.setReg sl (cmdIdx h) w).ackCmd sl h)
    (hi : Idle s sl h body) (hk : body.kind = some k) :
    ∃ t, s.accept k sl h w run = .next t ∧
      Immediate s t sl h w (mergeStatus body.kind (s.reg sl (statusIdx h)) codeReady) (setIpend h false body)
        (otherPending h (setIpend h false body) && s.pendBit sl) := by
  obtain ⟨hrunning, hb, hidle⟩ := hi
  have hkind : s.kind sl = some k := by rw [State.kind_eq, ← State.body_eq, hb, hk]
  refine ⟨_, State.accept_idle hrunning hkind hidle w run, ?_⟩
  rw [hrun]
  obtain ⟨h1, h2, h3, h4⟩ := State.ackCmd_spec (s.setReg sl (cmdIdx h) w) sl h
  have hst := stored_newStatus (s := s) (h := h) (sl := sl) id w codeReady hb rfl
  have hdv := fun x => stored_dev (s := s) (h := h) (sl := sl) id w x hb
  have hid : (s.setReg sl (cmdIdx h) w).mapBody sl id = (s.setReg sl (cmdIdx h) w).mapBody sl id := rfl
  have e : ∀ x, ((s.setReg sl (cmdIdx h) w).mapBody sl id).dev x = (s.setReg sl (cmdIdx h) w).dev x := by
    intro x
    rw [State.mapBody_dev]
    by_cases hx : x = sl <;> simp [hx]
  have hns : (s.setReg sl (cmdIdx h) w).newStatus sl h codeReady =
      ((s.setReg sl (cmdIdx h) w).mapBody sl id).newStatus sl h codeReady := by
    simp only [State.newStatus, State.kind, State.reg, e]
  rw [hst] at hns
  simp only [e] at hdv
  simp only [hdv, hns, if_true] at h1 h2
  have f : ∀ {α : Type} (g : State → α), g _ = g (s.setReg sl (cmdIdx h) w) := fun g => congrArg g h3
  refine ⟨⟨?_, ?_, ?_, ?_, ⟨?_, ?_, ?_, ?_, ?_, ?_⟩, ?_, ?_, ?_⟩, ?_, ?_, ?_⟩
  · rw [h1, if_pos rfl]
    rfl
  · rw [h2, if_pos rfl]
    rfl
  · rw [h4]
    simp
  · exact (f State.fatal).trans hrunning
  · intro x hx
    rw [h1, if_neg hx, if_neg hx]
  · intro x hx
    rw [h2, if_neg hx]
    rfl
  · exact f State.cfg
  · exact f State.tod
  · exact f State.script
  · exact f State.reply
  · intro a
    exact congrArg (fun m : Memory => m.read a) (f State.mem)
  · exact f State.net
  · exact f State.returned
  · exact f State.tape
  · exact f State.queue
  · exact f State.seq

/-- An immediate error, accepted, which has changed the body by `f` and drawn host answers (R506, R513). -/
theorem accepted_fail_tape {k : DevKind} {w c : Word} (tape : HostTape) (f : DeviceBody → DeviceBody)
    {run : State → State}
    (hrun : run (s.setReg sl (cmdIdx h) w) =
      State.failNow { (s.setReg sl (cmdIdx h) w).mapBody sl f with tape := tape } sl h c)
    (hi : Idle s sl h body) (hk : body.kind = some k) (hf : (f body).kind = body.kind) :
    ∃ t, s.accept k sl h w run = .next t ∧
      Accepted s t sl h w (mergeStatus body.kind (s.reg sl (statusIdx h)) c) (setIpend h true (f body)) true ∧
      t.tape = tape ∧ NoEvent s t := by
  obtain ⟨hrunning, hb, hidle⟩ := hi
  have hkind : s.kind sl = some k := by rw [State.kind_eq, ← State.body_eq, hb, hk]
  refine ⟨_, State.accept_idle hrunning hkind hidle w run, ?_⟩
  rw [hrun]
  obtain ⟨h1, h2, h3, h4⟩ := State.failNow_spec { (s.setReg sl (cmdIdx h) w).mapBody sl f with tape := tape } sl h c
  simp only [tape_newStatus, tape_dev, tape_pendBit, stored_dev f w _ hb, stored_newStatus f w _ hb hf,
    if_true] at h1 h2
  have g : ∀ {α : Type} (g : State → α), g _ = g { (s.setReg sl (cmdIdx h) w).mapBody sl f with tape := tape } :=
    fun g => congrArg g h3
  refine ⟨⟨?_, ?_, ?_, ?_, ⟨?_, ?_, ?_, ?_, ?_, ?_⟩, ?_, ?_, ?_⟩, ?_, ?_, ?_⟩
  · rw [h1, if_pos rfl]
  · rw [h2]
    simp
  · rw [h4]
    simp
  · exact (g State.fatal).trans hrunning
  · intro x hx
    rw [h1, if_neg hx, if_neg hx]
  · intro x hx
    rw [h2]
    simp only [hx, decide_false, Bool.false_or]
    rfl
  · exact g State.cfg
  · exact g State.tod
  · exact g State.script
  · exact g State.reply
  · intro a
    exact congrArg (fun m : Memory => m.read a) (g State.mem)
  · exact g State.net
  · exact g State.returned
  · exact g State.tape
  · exact g State.queue
  · exact g State.seq

/-- An immediate error, accepted, after a change `f` of the body (R506, R513). -/
theorem accepted_fail {k : DevKind} {w c : Word} (f : DeviceBody → DeviceBody) {run : State → State}
    (hrun : run (s.setReg sl (cmdIdx h) w) = ((s.setReg sl (cmdIdx h) w).mapBody sl f).failNow sl h c)
    (hi : Idle s sl h body) (hk : body.kind = some k) (hf : (f body).kind = body.kind) :
    ∃ t, s.accept k sl h w run = .next t ∧
      Immediate s t sl h w (mergeStatus body.kind (s.reg sl (statusIdx h)) c) (setIpend h true (f body)) true := by
  obtain ⟨t, h1, h2, h3, h4⟩ := accepted_fail_tape s.tape f hrun hi hk hf
  exact ⟨t, h1, h2, h3, h4⟩

/-- A completion that ends with `finish`, from a state `u` that differs from `s` in the slot's registers and body, in
memory, in the tape, in the network calls and in extra signals only (R513). -/
theorem completed_finish {u : State} {regs : Vector Word 4} {b : DeviceBody} {w : Word} {signals : List Signal}
    (hdev : u.dev sl = { regs := regs, working := (s.dev sl).working, body := b })
    (hother : ∀ x, x ≠ sl → u.dev x = s.dev x) (hpend : u.pend = s.pend) (htrace : u.trace = s.trace ++ signals)
    (hfatal : u.fatal = none) (hcfg : u.cfg = s.cfg) (htod : u.tod = s.tod) (hscript : u.script = s.script)
    (hreply : u.reply = s.reply) :
    Completed s (u.finish sl h w) sl h
      (putReg regs (statusIdx h) (mergeStatus b.kind (regs[(statusIdx h).val]) w)) (setIpend h true (clearOp h b))
      signals := by
  obtain ⟨h1, h2, h3, h4, h5⟩ := State.finish_spec u sl h w
  have hns : u.newStatus sl h w = mergeStatus b.kind (regs[(statusIdx h).val]) w := by
    simp only [State.newStatus, State.kind, State.reg, hdev]
    rfl
  refine ⟨?_, ?_, ?_, h5, ?_, ⟨?_, ?_, ?_, ?_, ?_, ?_⟩⟩
  · rw [h1, if_pos rfl, hns, hdev]
  · rw [h2]
    simp
  · rw [h4, htrace]
  · simpa using hfatal
  · intro x hx
    rw [h1, if_neg hx, hother x hx]
  · intro x hx
    rw [h2]
    simp [hx, State.pendBit, hpend]
  · simpa using hcfg
  · simpa using htod
  · simpa using hscript
  · simpa using hreply

/-- What `arm_poll` leaves, in time (R1120). -/
theorem armPoll_spec {e : Eth} (hb : s.body sl = .eth e) (hs : s.fatal = none) (hd : InTime s (pollTicks s.cfg)) :
    (∀ x, (armPoll sl s).dev x =
      if x = sl then { s.dev sl with body := .eth { e with pollArmed := e.pollArmed || e.polls s.cfg } }
      else s.dev x) ∧
    { armPoll sl s with slots := s.slots, queue := s.queue, seq := s.seq } = s ∧ Armed s (armPoll sl s) sl e := by
  have hb' : (s.dev sl).body = .eth e := hb
  unfold armPoll
  rw [hb]
  by_cases hp : (e.polls s.cfg && !e.pollArmed) = true
  · have hpa : (e.pollArmed || e.polls s.cfg) = true := by
      simp only [Bool.and_eq_true] at hp
      simp [hp.1]
    simp only [hp, if_true, hpa]
    rw [State.schedule_inTime sl .poll hd]
    simp only [State.andThen, hs]
    refine ⟨fun x => ?_, ?_, ?_⟩
    · rw [State.mapBody_dev]
      show (if x = sl then { s.dev sl with body := setPollArmed true (s.dev sl).body } else s.dev x) = _
      rw [hb']
      rfl
    · rw [← hs]
      rfl
    · rw [Armed, if_pos hp]
      exact ⟨rfl, rfl⟩
  · have hp' : (e.polls s.cfg && !e.pollArmed) = false := by simpa using hp
    have hpa : (e.pollArmed || e.polls s.cfg) = e.pollArmed := by
      revert hp
      cases e.pollArmed <;> cases e.polls s.cfg <;> simp
    simp only [hp', Bool.false_eq_true, if_false, hpa]
    refine ⟨fun x => ?_, trivial, ?_⟩
    · by_cases hx : x = sl
      · subst hx
        rw [if_pos rfl]
        conv_rhs => rw [show DeviceBody.eth e = (s.dev x).body from hb'.symm]
      · rw [if_neg hx]
    · rw [Armed, if_neg hp]
      exact ⟨rfl, rfl⟩

end Sys2Proof.Machine
end

