-- ==== Sys2Proof/Laws/Decode.lean ====
section
/-! SUPPORT. The fields of the encoded words: each format gives back the fields it was made of. -/

namespace Sys2Proof

@[simp] theorem opField_wordP (op : BitVec 8) (r : BitVec 24) : opField (wordP op r) = op := by
  apply BitVec.eq_of_getLsbD_eq
  intro i hi
  interval_cases i <;> simp [opField, wordP]

@[simp] theorem restField_wordP (op : BitVec 8) (r : BitVec 24) : restField (wordP op r) = r := by
  apply BitVec.eq_of_getLsbD_eq
  intro i hi
  interval_cases i <;> simp [restField, wordP]

@[simp] theorem opField_wordTX (op c : BitVec 8) (g : BitVec 16) : opField (wordTX op c g) = op := by
  apply BitVec.eq_of_getLsbD_eq
  intro i hi
  interval_cases i <;> simp [opField, wordTX]

@[simp] theorem byte1Field_wordTX (op c : BitVec 8) (g : BitVec 16) : byte1Field (wordTX op c g) = c := by
  apply BitVec.eq_of_getLsbD_eq
  intro i hi
  interval_cases i <;> simp [byte1Field, wordTX]

@[simp] theorem highField_wordTX (op c : BitVec 8) (g : BitVec 16) : highField (wordTX op c g) = g := by
  apply BitVec.eq_of_getLsbD_eq
  intro i hi
  interval_cases i <;> simp [highField, wordTX]

@[simp] theorem opField_wordDS (op : BitVec 8) (c : BitVec 16) (g : BitVec 8) : opField (wordDS op c g) = op := by
  apply BitVec.eq_of_getLsbD_eq
  intro i hi
  interval_cases i <;> simp [opField, wordDS]

@[simp] theorem byte1Field_wordDS (op : BitVec 8) (c : BitVec 16) (g : BitVec 8) :
    byte1Field (wordDS op c g) = g := by
  apply BitVec.eq_of_getLsbD_eq
  intro i hi
  interval_cases i <;> simp [byte1Field, wordDS]

@[simp] theorem highField_wordDS (op : BitVec 8) (c : BitVec 16) (g : BitVec 8) : highField (wordDS op c g) = c := by
  apply BitVec.eq_of_getLsbD_eq
  intro i hi
  interval_cases i <;> simp [highField, wordDS]

@[simp] theorem opField_wordDRW (op h sc g : BitVec 8) : opField (wordDRW op h sc g) = op := by
  apply BitVec.eq_of_getLsbD_eq
  intro i hi
  interval_cases i <;> simp [opField, wordDRW]

@[simp] theorem byte1Field_wordDRW (op h sc g : BitVec 8) : byte1Field (wordDRW op h sc g) = sc := by
  apply BitVec.eq_of_getLsbD_eq
  intro i hi
  interval_cases i <;> simp [byte1Field, wordDRW]

@[simp] theorem byte2Field_wordDRW (op h sc g : BitVec 8) : byte2Field (wordDRW op h sc g) = h := by
  apply BitVec.eq_of_getLsbD_eq
  intro i hi
  interval_cases i <;> simp [byte2Field, wordDRW]

@[simp] theorem byte3Field_wordDRW (op h sc g : BitVec 8) : byte3Field (wordDRW op h sc g) = g := by
  apply BitVec.eq_of_getLsbD_eq
  intro i hi
  interval_cases i <;> simp [byte3Field, wordDRW]

end Sys2Proof
end

