-- ==== Sys2Proof/Laws/Frames.lean ====
section
/-! SUPPORT. What a command and an event can do at all: each touches one slot only, keeps its type and geometry, and
leaves the queue as it is or adds one event of its slot. -/

namespace Sys2Proof.Machine

variable {s t u : State} {sl : Slot}

/-- Only one slot differs, its type and geometry do not, and no event is scheduled. -/
structure Calm (sl : Slot) (s t : State) : Prop where
  others : OnlySlot sl s t
  kind : t.kind sl = s.kind sl
  geometry : (t.body sl).geometry = (s.body sl).geometry
  event : NoEvent s t

/-- A change of a body that keeps its type and geometry. -/
def Keeps (f : DeviceBody → DeviceBody) : Prop := ∀ b, (f b).kind = b.kind ∧ (f b).geometry = b.geometry

theorem OnlySlot.refl : OnlySlot sl s s := ⟨fun _ _ => rfl, fun _ _ => rfl, rfl, rfl, rfl, rfl⟩

theorem OnlySlot.trans (h : OnlySlot sl s t) (k : OnlySlot sl t u) : OnlySlot sl s u :=
  ⟨fun x hx => (k.dev x hx).trans (h.dev x hx), fun x hx => (k.pend x hx).trans (h.pend x hx), k.cfg.trans h.cfg,
    k.tod.trans h.tod, k.script.trans h.script, k.reply.trans h.reply⟩

theorem Calm.refl : Calm sl s s := ⟨OnlySlot.refl, rfl, rfl, rfl, rfl⟩

theorem Calm.trans (h : Calm sl s t) (k : Calm sl t u) : Calm sl s u :=
  ⟨h.others.trans k.others, k.kind.trans h.kind, k.geometry.trans h.geometry, k.event.1.trans h.event.1,
    k.event.2.trans h.event.2⟩

/-- Going on with a calm rest is calm. -/
theorem Calm.andThen {f : State → State} (h : Calm sl s t) (k : Calm sl t (f t)) : Calm sl s (t.andThen f) := by
  unfold State.andThen
  split
  · exact h.trans k
  · exact h

/-- An update that keeps slots, pending bits, configuration, clock, script, reply and queue is calm. -/
theorem Calm.of_eq
    (h : { t with fatal := s.fatal, trace := s.trace, mem := s.mem, net := s.net, tape := s.tape, returned := s.returned } = s) :
    Calm sl s t := by
  have f : ∀ {α : Type} (g : State → α), g _ = g s := fun g => congrArg g h
  have hs : t.slots = s.slots := f State.slots
  have hp : t.pend = s.pend := f State.pend
  exact ⟨⟨fun x _ => State.dev_congr x hs, fun x _ => State.pendBit_congr x hp, f State.cfg, f State.tod,
      f State.script, f State.reply⟩, by rw [State.kind_eq, State.kind_eq, State.dev_congr sl hs],
    by rw [State.body_eq, State.body_eq, State.dev_congr sl hs], f State.queue, f State.seq⟩

theorem calm_setReg (i : Fin 4) (v : Word) : Calm sl s (s.setReg sl i v) :=
  ⟨⟨fun x hx => by simp [State.setReg_dev, hx], fun _ _ => rfl, rfl, rfl, rfl, rfl⟩, by simp, by simp, rfl, rfl⟩

theorem calm_setWorking (b : Bool) : Calm sl s (s.setWorking sl b) :=
  ⟨⟨fun x hx => by simp [State.setWorking_dev, hx], fun _ _ => rfl, rfl, rfl, rfl, rfl⟩,
    by simp [State.kind, State.setWorking_dev], by simp [State.body, State.setWorking_dev], rfl, rfl⟩

theorem calm_mapBody {f : DeviceBody → DeviceBody} (hf : Keeps f) : Calm sl s (s.mapBody sl f) :=
  ⟨⟨fun x hx => by simp [State.mapBody_dev, hx], fun _ _ => rfl, rfl, rfl, rfl, rfl⟩,
    by simp [State.kind, State.mapBody_dev, (hf _).1], by simp [State.body, State.mapBody_dev, (hf _).2], rfl, rfl⟩

theorem calm_emit (g : Signal) : Calm sl s (s.emit g) := Calm.of_eq rfl
theorem calm_stop (r : FatalReason) : Calm sl s (s.stop r) := Calm.of_eq rfl
theorem calm_report (i : Fin 4) : Calm sl s (s.report i) := Calm.of_eq rfl
theorem calm_callNet (c : NetCall) : Calm sl s (s.callNet c) := Calm.of_eq rfl

theorem calm_irqRaise : Calm sl s (s.irqRaise sl) :=
  ⟨⟨fun _ _ => rfl, fun x hx => by simp [State.irqRaise_pendBit, hx], rfl, rfl, rfl, rfl⟩, rfl, rfl, rfl, rfl⟩

theorem calm_irqAck : Calm sl s (s.irqAck sl) :=
  ⟨⟨fun _ _ => rfl, fun x hx => by simp [State.irqAck_pendBit, hx], rfl, rfl, rfl, rfl⟩, rfl, rfl, rfl, rfl⟩

theorem keeps_setIpend (h : Sub) (b : Bool) : Keeps (setIpend h b) := fun d => ⟨setIpend_kind h b d, by cases d <;> rfl⟩
theorem keeps_setCtime (h : Sub) (t : Time) : Keeps (setCtime h t) := fun d => ⟨setCtime_kind h t d, by cases d <;> rfl⟩
theorem keeps_clearOp (h : Sub) : Keeps (clearOp h) := fun d => ⟨clearOp_kind h d, by cases d <;> rfl⟩
theorem keeps_onPrinter (f : Printer → Printer) : Keeps (onPrinter f) := fun d => by cases d <;> exact ⟨rfl, rfl⟩
theorem keeps_onTerminal (f : Terminal → Terminal) : Keeps (onTerminal f) := fun d => by cases d <;> exact ⟨rfl, rfl⟩
theorem keeps_onEth (f : Eth → Eth) : Keeps (onEth f) := fun d => by cases d <;> exact ⟨rfl, rfl⟩
theorem keeps_appendLog (bs : List Byte) : Keeps (appendLog bs) := fun d => by cases d <;> exact ⟨rfl, rfl⟩
theorem keeps_startDisk (o : DiskOp) : Keeps (startDisk o) := fun d => by cases d <;> exact ⟨rfl, rfl⟩
theorem keeps_setDiskCache (c : DiskCache) : Keeps (setDiskCache c) := fun d => by cases d <;> exact ⟨rfl, rfl⟩
theorem keeps_setDiskBuf (b : Block) : Keeps (setDiskBuf b) := fun d => by cases d <;> exact ⟨rfl, rfl⟩
theorem keeps_startFlash (o : FlashOp) : Keeps (startFlash o) := fun d => by cases d <;> exact ⟨rfl, rfl⟩
theorem keeps_setFlashCache (k : Word) : Keeps (setFlashCache k) := fun d => by cases d <;> exact ⟨rfl, rfl⟩
theorem keeps_setFlashBuf (b : Block) : Keeps (setFlashBuf b) := fun d => by cases d <;> exact ⟨rfl, rfl⟩

theorem calm_raiseIrq (h : Sub) : Calm sl s (s.raiseIrq sl h) := (calm_mapBody (keeps_setIpend h true)).trans calm_irqRaise

theorem calm_ackIrq (h : Sub) : Calm sl s (s.ackIrq sl h) := by
  simp only [State.ackIrq]
  split
  · exact calm_mapBody (keeps_setIpend h false)
  · exact (calm_mapBody (keeps_setIpend h false)).trans calm_irqAck

theorem calm_putStatus (h : Sub) (w : Word) : Calm sl s (s.putStatus sl h w) := (calm_setReg _ _).trans (calm_emit _)

theorem calm_setStatus (h : Sub) (w : Word) : Calm sl s (s.setStatus sl h w) := calm_putStatus _ _

theorem calm_finish (h : Sub) (w : Word) : Calm sl s (s.finish sl h w) :=
  (((calm_setStatus h w).trans (calm_mapBody (keeps_clearOp h))).trans (calm_raiseIrq h)).trans (calm_report _)

theorem calm_failNow (h : Sub) (c : Word) : Calm sl s (s.failNow sl h c) := (calm_setStatus h c).trans (calm_raiseIrq h)

theorem calm_ackCmd (h : Sub) : Calm sl s (s.ackCmd sl h) := (calm_ackIrq h).trans (calm_setStatus h _)

theorem calm_tape {tape : HostTape} (e : t = { s with tape := tape }) : Calm sl s t := Calm.of_eq (by rw [e])

theorem calm_drawWaiting : Calm sl s s.drawWaiting.2 := calm_tape s.drawWaiting_tape
theorem calm_drawRecv : Calm sl s s.drawRecv.2 := calm_tape s.drawRecv_tape
theorem calm_drawSent : Calm sl s s.drawSent.2 := calm_tape s.drawSent_tape
theorem calm_fileRead (f : File) (off : Nat) : Calm sl s (s.fileRead f off).2 := calm_tape (s.fileRead_spec f off).1

theorem calm_fileWrite (f : File) (off : Nat) (b : Block) : Calm sl s (s.fileWrite f off b).2 :=
  calm_tape (s.fileWrite_spec f off b).1

theorem calm_dmaFromMem (a : Word) : Calm sl s (s.dmaFromMem a).2.2 := calm_tape (s.dmaFromMem_spec a).2.2.1

theorem calm_dmaFromMemN (a : Word) (n : Nat) : Calm sl s (s.dmaFromMemN a n).2.2 :=
  calm_tape (s.dmaFromMemN_spec a n).2.1

theorem calm_dmaToMemN (a : Word) (bytes : List Byte) (n : Nat) : Calm sl s (s.dmaToMemN a bytes n).2 := by
  obtain ⟨-, stored, -, -, e⟩ := s.dmaToMemN_spec a bytes n
  exact Calm.of_eq (by rw [e])

theorem calm_dmaToMem (a : Word) (b : Block) : Calm sl s (s.dmaToMem a b).2 := calm_dmaToMemN _ _ _

theorem calm_writeLog (bytes : List Byte) : Calm sl s (s.writeLog sl bytes) := by
  cases h : s.drawIo.1
  · rw [(s.writeLog_spec sl bytes).2 h]
    exact (calm_tape rfl).trans (calm_mapBody (keeps_appendLog bytes))
  · rw [(s.writeLog_spec sl bytes).1 h]
    exact Calm.of_eq rfl

/-! Steps that may schedule. -/

/-- Only one slot differs, its type and geometry do not, and at most one event is scheduled, for that slot and in one of
the given delays. -/
structure Local (sl : Slot) (P : Nat → Prop) (s t : State) : Prop where
  others : OnlySlot sl s t
  kind : t.kind sl = s.kind sl
  geometry : (t.body sl).geometry = (s.body sl).geometry
  event : NoEvent s t ∨ ∃ k delta, P delta ∧ InTime s delta ∧ OneEvent s t sl k delta

variable {P Q : Nat → Prop}

theorem Calm.toLocal (h : Calm sl s t) : Local sl P s t := ⟨h.others, h.kind, h.geometry, .inl h.event⟩

/-- A calm change before a step that may schedule. -/
theorem Calm.trans_local (h : Calm sl s t) (k : Local sl P t u) : Local sl P s u := by
  refine ⟨h.others.trans k.others, k.kind.trans h.kind, k.geometry.trans h.geometry, ?_⟩
  rcases k.event with e | ⟨kind, delta, hp, hd, e⟩
  · exact .inl ⟨e.1.trans h.event.1, e.2.trans h.event.2⟩
  · refine .inr ⟨kind, delta, hp, ?_, ?_⟩
    · rw [InTime, ← h.others.tod]
      exact hd
    · rw [OneEvent, ← h.others.tod, ← h.event.1, ← h.event.2]
      exact e

/-- A calm change after a step that may schedule. -/
theorem Local.trans_calm (h : Local sl P s t) (k : Calm sl t u) : Local sl P s u := by
  refine ⟨h.others.trans k.others, k.kind.trans h.kind, k.geometry.trans h.geometry, ?_⟩
  rcases h.event with e | ⟨kind, delta, hp, hd, e⟩
  · exact .inl ⟨k.event.1.trans e.1, k.event.2.trans e.2⟩
  · exact .inr ⟨kind, delta, hp, hd, k.event.1.trans e.1, k.event.2.trans e.2⟩

theorem Local.andThen {f : State → State} (h : Local sl P s t) (k : Calm sl t (f t)) : Local sl P s (t.andThen f) := by
  unfold State.andThen
  split
  · exact h.trans_calm k
  · exact h

theorem Local.mono (h : Local sl P s t) (hpq : ∀ d, P d → Q d) : Local sl Q s t :=
  ⟨h.others, h.kind, h.geometry, h.event.imp_right fun ⟨k, d, hp, r⟩ => ⟨k, d, hpq d hp, r⟩⟩

/-- Scheduling adds one event, or is fatal (R403). -/
theorem local_schedule (k : EventKind) (delta : Nat) : Local sl (· = delta) s (s.schedule sl k delta) := by
  by_cases h : InTime s delta
  · rw [State.schedule_inTime sl k h]
    exact ⟨⟨fun _ _ => rfl, fun _ _ => rfl, rfl, rfl, rfl, rfl⟩, rfl, rfl, .inr ⟨k, delta, rfl, h, rfl, rfl⟩⟩
  · rw [State.schedule_overflow sl k h]
    exact (calm_stop _).toLocal

/-- Starting an operation touches its slot and schedules one completion (R512). -/
theorem local_beginOp (h : Sub) {record : DeviceBody → DeviceBody} (hr : Keeps record) (delta : Nat) :
    Local sl (· = delta) s (s.beginOp sl h record delta) :=
  (((((calm_ackIrq h).trans (calm_setStatus h _)).trans (calm_mapBody hr))).trans_local
    (local_schedule .complete delta)).andThen (calm_mapBody (keeps_setCtime h _))

/-- Arming the poll schedules at the poll period (R1120). -/
theorem local_armPoll : Local sl (· = s.cfg.pollNetTime * s.cfg.clockRate) s (armPoll sl s) := by
  unfold armPoll
  split
  · split
    · exact (local_schedule .poll _).andThen (calm_mapBody (keeps_onEth _))
    · exact Calm.refl.toLocal
  · exact Calm.refl.toLocal

/-! Completions. -/

/-- The delays a completion or a poll can schedule with: the retry of RECVCHR, the poll period (R805, R1119). -/
def LaterDelay (c : Config) (delta : Nat) : Prop := delta = 80 * c.clockRate ∨ delta = c.pollNetTime * c.clockRate

theorem calm_completePrinter (p : Printer) : Calm sl s (completePrinter sl p s) := by
  unfold completePrinter
  split
  · exact calm_stop _
  · exact calm_finish _ _
  · split
    · exact (calm_writeLog _).andThen (calm_finish _ _)
    · exact calm_finish _ _

theorem local_completeHalf (x : Terminal) (h : Sub) : Local sl (LaterDelay s.cfg) s (completeHalf sl x h s) := by
  unfold completeHalf
  split
  · exact (calm_stop _).toLocal
  · exact (calm_finish _ _).toLocal
  · split
    · unfold completeTran
      simp only
      split
      · exact ((calm_writeLog _).andThen ((calm_emit _).trans (calm_finish _ _))).toLocal
      · exact (calm_finish _ _).toLocal
    · unfold completeRecv
      split
      · exact ((local_schedule .complete _).mono fun d hd => .inl hd).andThen
          ((calm_mapBody (keeps_setCtime _ _)).trans (calm_report _))
      · split
        · exact ((calm_mapBody (keeps_onTerminal _)).trans (calm_finish _ _)).toLocal
        · exact (calm_finish _ _).toLocal

theorem local_completeTerminal (x : Terminal) : Local sl (LaterDelay s.cfg) s (completeTerminal sl x s) := by
  unfold completeTerminal
  split
  · exact (calm_stop _).toLocal
  · exact local_completeHalf x _

theorem calm_diskDeliver (d : Disk) (head sect : BitVec 8) : Calm sl s (diskDeliver sl d head sect s) := by
  unfold diskDeliver
  simp only
  split
  · exact ((calm_dmaToMem _ _).trans (calm_mapBody (keeps_setDiskCache _))).trans (calm_finish _ _)
  · exact ((calm_dmaToMem _ _).trans (calm_mapBody (keeps_setDiskCache _))).trans (calm_finish _ _)

theorem calm_diskLoad (d : Disk) (head sect : BitVec 8) : Calm sl s (diskLoad sl d head sect s) := by
  unfold diskLoad
  simp only
  split
  · exact (calm_fileRead _ _).trans (calm_stop _)
  · exact (calm_fileRead _ _).trans (calm_mapBody (keeps_setDiskBuf _))

theorem keeps_setCurCyl (c : Word) : Keeps (onDisk fun d => { d with curCyl := c }) := fun b => by
  cases b <;> exact ⟨rfl, rfl⟩

theorem keeps_written (f : File) (c : Disk → DiskCache) :
    Keeps (onDisk fun d => { d with image := f, cache := c d }) := fun b => by
  cases b <;> exact ⟨rfl, rfl⟩

theorem calm_completeDiskWrite (d : Disk) (head sect : BitVec 8) :
    Calm sl s (completeDiskWrite sl d head sect s) := by
  unfold completeDiskWrite
  split
  · have h := calm_fileWrite (s := s) (sl := sl) d.image (d.offBytes d.curCyl.toNat head.toNat sect.toNat) d.buf
    simp only
    generalize s.fileWrite d.image (d.offBytes d.curCyl.toNat head.toNat sect.toNat) d.buf = r at h ⊢
    split
    · exact h.trans (calm_stop _)
    · exact (h.trans (calm_mapBody (keeps_written _ _))).trans (calm_finish _ _)
  · exact (calm_mapBody (keeps_setDiskCache _)).trans (calm_finish _ _)

theorem calm_completeDisk (d : Disk) : Calm sl s (completeDisk sl d s) := by
  unfold completeDisk
  split
  · exact calm_stop _
  · exact (calm_mapBody (keeps_setCurCyl _)).trans (calm_finish _ _)
  · unfold completeDiskSeek
    split
    · exact (calm_mapBody (keeps_setCurCyl _)).trans (calm_finish _ _)
    · exact calm_finish _ _
  · unfold completeDiskRead
    split
    · refine Calm.andThen ?_ (calm_diskDeliver _ _ _)
      split
      · exact Calm.refl
      · exact calm_diskLoad _ _ _
    · exact (calm_mapBody (keeps_setDiskCache _)).trans (calm_finish _ _)
  · exact calm_completeDiskWrite _ _ _

theorem calm_flashDeliver (blk : BitVec 24) : Calm sl s (flashDeliver sl blk s) := by
  unfold flashDeliver
  simp only
  split
  · exact ((calm_dmaToMem _ _).trans (calm_mapBody (keeps_setFlashCache _))).trans (calm_finish _ _)
  · exact ((calm_dmaToMem _ _).trans (calm_mapBody (keeps_setFlashCache _))).trans (calm_finish _ _)

theorem calm_flashLoad (f : Flash) (blk : BitVec 24) : Calm sl s (flashLoad sl f blk s) := by
  unfold flashLoad
  simp only
  split
  · exact (calm_fileRead _ _).trans (calm_stop _)
  · exact (calm_fileRead _ _).trans (calm_mapBody (keeps_setFlashBuf _))

theorem calm_completeFlash (f : Flash) : Calm sl s (completeFlash sl f s) := by
  unfold completeFlash
  split
  · exact calm_stop _
  · exact calm_finish _ _
  · unfold completeFlashRead
    split
    · refine Calm.andThen ?_ (calm_flashDeliver _)
      split
      · exact Calm.refl
      · exact calm_flashLoad _ _
    · exact (calm_mapBody (keeps_setFlashCache _)).trans (calm_finish _ _)
  · unfold completeFlashWrite
    simp only
    split
    · split
      · exact (calm_fileWrite _ _ _).trans (calm_stop _)
      · exact ((calm_fileWrite _ _ _).trans (calm_mapBody fun b => by cases b <;> exact ⟨rfl, rfl⟩)).trans
          (calm_finish _ _)
    · exact (calm_mapBody (keeps_setFlashCache _)).trans (calm_finish _ _)

/-- Arming the poll after a calm change. -/
theorem Calm.then_armPoll (h : Calm sl s t) : Local sl (LaterDelay s.cfg) s (armPoll sl t) := by
  have k := h.trans_local (local_armPoll (s := t))
  rw [h.others.cfg] at k
  exact k.mono fun d hd => .inr hd

theorem local_completeEth (e : Eth) : Local sl (LaterDelay s.cfg) s (completeEth sl e s) := by
  unfold completeEth
  split
  · exact (calm_stop _).toLocal
  · have h := (((calm_mapBody (s := s) (sl := sl) (keeps_onEth fun e => { e with pktbuf := [] })).trans
      (calm_putStatus .single codeReady)).trans (calm_mapBody (keeps_clearOp .single))).trans calm_irqRaise
    exact Local.andThen (f := fun s => s.report 0) h.then_armPoll (calm_report _)
  · exact (((calm_setReg _ _).trans (calm_setReg _ _)).trans (calm_finish _ _)).toLocal
  · unfold completeReadNet
    simp only
    split
    · have h0 : Calm sl s (s.drawRecv.2.setReg sl 3 (BitVec.ofInt 32 s.drawRecv.1.len)) :=
        calm_drawRecv.trans (calm_setReg _ _)
      split
      · exact (h0.trans (calm_finish _ _)).toLocal
      · split
        · exact (h0.trans (calm_finish _ _)).toLocal
        · split <;>
            exact (((h0.trans (calm_mapBody (keeps_onEth _))).trans (calm_dmaToMemN _ _ _)).trans
              (calm_finish _ _)).toLocal
    · exact (calm_finish _ _).toLocal
  · unfold completeWriteNet
    simp only
    split
    · exact (calm_finish _ _).toLocal
    · split
      · exact ((calm_dmaFromMemN _ _).trans (calm_finish _ _)).toLocal
      · have h := ((calm_dmaFromMemN (sl := sl) (s := s) (s.reg sl 2) (s.reg sl 3).toNat).trans
          (calm_callNet (.send sl (s.dmaFromMemN (s.reg sl 2) (s.reg sl 3).toNat).2.1))).trans calm_drawSent
        split
        · exact (h.trans (calm_finish _ _)).toLocal
        · exact (h.trans (calm_finish _ _)).toLocal
  · exact (((calm_mapBody (keeps_onEth _)).trans (calm_callNet _)).trans (calm_finish _ _)).then_armPoll

theorem local_pollEth (e : Eth) : Local sl (LaterDelay s.cfg) s (pollEth sl e s) := by
  have h0 : Calm sl s (s.mapBody sl (setPollArmed false)) := calm_mapBody (keeps_onEth _)
  unfold pollEth
  simp only
  split
  · exact (h0.trans (calm_report _)).toLocal
  · split
    · exact Local.andThen (f := fun s => s.report 0) h0.then_armPoll (calm_report _)
    · have h1 := h0.trans calm_drawWaiting
      split
      · exact (((h1.trans (calm_putStatus _ _)).trans calm_irqRaise).trans (calm_report _)).toLocal
      · exact Local.andThen (f := fun s => s.report 0) h1.then_armPoll (calm_report _)

/-- What the dispatch of an event can do at all (R407, R521): it touches its target slot only, keeps its type and
geometry, and schedules at most one event, for that slot, after a retry period or a poll period. -/
theorem local_dispatch (e : Event) : Local e.target (LaterDelay s.cfg) s (dispatch e s) := by
  unfold dispatch
  split
  · exact (calm_completePrinter _).toLocal
  · exact local_completeTerminal _
  · exact (calm_completeDisk _).toLocal
  · exact (calm_completeFlash _).toLocal
  · exact local_completeEth _
  · exact local_pollEth _
  · exact (calm_stop _).toLocal

/-! Commands. -/

theorem local_any {delta : Nat} (h : Local sl (· = delta) s t) : Local sl (fun _ => True) s t := h.mono fun _ _ => trivial

theorem local_beginRotational (d : Disk) (sect : BitVec 8) (o : DiskOp) :
    Local sl (fun _ => True) s (beginRotational sl d sect o s) := by
  unfold beginRotational
  split
  · exact (calm_stop _).toLocal
  · exact local_any (local_beginOp _ (keeps_startDisk _) _)

/-- What a command can do at all (R504, R506, R521): it touches its slot only, keeps its type and geometry, and
schedules at most one event, for that slot. -/
theorem local_exec (i : Instr) (h : exec i s = .next t) : Local i.slot (fun _ => True) s t := by
  have stored : ∀ {k : DevKind} {sl : Slot} {hf : Sub} {w : Word} {run : State → State},
      s.accept k sl hf w run = .next t → (∀ u : State, Local sl (fun _ => True) u (run u)) →
      Local sl (fun _ => True) s t := by
    intro k sl hf w run hn hr
    obtain ⟨-, -, ⟨-, e⟩ | ⟨-, e⟩⟩ := State.accept_next hn
    · rw [e]
      exact Calm.refl.toLocal
    · rw [e]
      exact (calm_setReg _ _).trans_local (hr _)
  have ack : ∀ (sl : Slot) (hf : Sub) (u : State), Local sl (fun _ => True) u (u.ackCmd sl hf) := fun sl hf u =>
    (calm_ackCmd hf).toLocal
  cases i with
  | printerReset sl ign =>
    rw [exec, execPrinterReset] at h
    exact stored h fun u => local_any (local_beginOp _ (keeps_onPrinter _) _)
  | printerAck sl ign =>
    rw [exec, execPrinterAck] at h
    exact stored h (ack sl _)
  | printerPrntchr sl ign =>
    rw [exec, execPrinterPrntchr] at h
    exact stored h fun u => local_any (local_beginOp _ (keeps_onPrinter _) _)
  | termRxReset sl ign =>
    rw [exec, execTermRxReset] at h
    exact stored h fun u => local_any (local_beginOp _ (keeps_onTerminal _) _)
  | termRxAck sl ign =>
    rw [exec, execTermRxAck] at h
    exact stored h (ack sl _)
  | termRxRecvchr sl ign =>
    rw [exec, execTermRxRecvchr] at h
    exact stored h fun u => local_any (local_beginOp _ (keeps_onTerminal _) _)
  | termTxReset sl ign =>
    rw [exec, execTermTxReset] at h
    exact stored h fun u => local_any (local_beginOp _ (keeps_onTerminal _) _)
  | termTxAck sl ign =>
    rw [exec, execTermTxAck] at h
    exact stored h (ack sl _)
  | termTxTranchr sl char ign =>
    rw [exec, execTermTxTranchr] at h
    exact stored h fun u => local_any (local_beginOp _ (keeps_onTerminal _) _)
  | diskReset sl ign =>
    rw [exec, execDiskReset] at h
    refine stored h fun u => ?_
    unfold diskResetAccept
    split
    · exact (calm_mapBody (keeps_setDiskCache _)).trans_local (local_any (local_beginOp _ (keeps_startDisk _) _))
    · exact Calm.refl.toLocal
  | diskAck sl ign =>
    rw [exec, execDiskAck] at h
    exact stored h (ack sl _)
  | diskSeekcyl sl cyl ign =>
    rw [exec, execDiskSeekcyl] at h
    refine stored h fun u => ?_
    unfold diskSeekAccept
    split
    · split
      · exact local_any (local_beginOp _ (keeps_startDisk _) _)
      · exact (calm_failNow _ _).toLocal
    · exact Calm.refl.toLocal
  | diskReadblk sl head sect ign =>
    rw [exec, execDiskReadblk] at h
    refine stored h fun u => ?_
    unfold diskReadAccept
    split
    · split
      · exact ((calm_mapBody (keeps_setDiskCache _)).trans (calm_failNow _ _)).toLocal
      · split
        · exact local_any (local_beginOp _ (keeps_startDisk _) _)
        · exact local_beginRotational _ _ _
    · exact Calm.refl.toLocal
  | diskWriteblk sl head sect ign =>
    rw [exec, execDiskWriteblk] at h
    refine stored h fun u => ?_
    unfold diskWriteAccept
    split
    · have h0 : Calm sl u (u.mapBody sl (setDiskCache .invalid)) := calm_mapBody (keeps_setDiskCache _)
      simp only
      split
      · exact (h0.trans (calm_failNow _ _)).toLocal
      · split
        · exact (((h0.trans (calm_dmaFromMem _)).trans (calm_mapBody (keeps_setDiskBuf _))).trans
            (calm_failNow _ _)).toLocal
        · exact ((h0.trans (calm_dmaFromMem _)).trans (calm_mapBody (keeps_setDiskBuf _))).trans_local
            (local_beginRotational _ _ _)
    · exact Calm.refl.toLocal
  | flashReset sl ign =>
    rw [exec, execFlashReset] at h
    exact stored h fun u =>
      (calm_mapBody (keeps_setFlashCache _)).trans_local (local_any (local_beginOp _ (keeps_startFlash _) _))
  | flashAck sl ign =>
    rw [exec, execFlashAck] at h
    exact stored h (ack sl _)
  | flashReadblk sl blk =>
    rw [exec, execFlashReadblk] at h
    refine stored h fun u => ?_
    unfold flashReadAccept
    split
    · split
      · exact ((calm_mapBody (keeps_setFlashCache _)).trans (calm_failNow _ _)).toLocal
      · split
        · exact local_any (local_beginOp _ (keeps_startFlash _) _)
        · exact local_any (local_beginOp _ (keeps_startFlash _) _)
    · exact Calm.refl.toLocal
  | flashWriteblk sl blk =>
    rw [exec, execFlashWriteblk] at h
    refine stored h fun u => ?_
    unfold flashWriteAccept
    split
    · have h0 : Calm sl u (u.mapBody sl (setFlashCache maxU32)) := calm_mapBody (keeps_setFlashCache _)
      simp only
      split
      · exact (h0.trans (calm_failNow _ _)).toLocal
      · split
        · exact (((h0.trans (calm_dmaFromMem _)).trans (calm_mapBody (keeps_setFlashBuf _))).trans
            (calm_failNow _ _)).toLocal
        · exact ((h0.trans (calm_dmaFromMem _)).trans (calm_mapBody (keeps_setFlashBuf _))).trans_local
            (local_any (local_beginOp _ (keeps_startFlash _) _))
    · exact Calm.refl.toLocal
  | ethReset sl ign =>
    rw [exec, execEthReset] at h
    exact stored h fun u => local_any (local_beginOp _ (keeps_onEth _) _)
  | ethAck sl ign =>
    rw [exec, execEthAck] at h
    exact stored h fun u => ((calm_irqAck.trans (calm_putStatus _ _)).trans_local local_armPoll).mono fun _ _ => trivial
  | ethReadconf sl ign =>
    rw [exec, execEthReadconf] at h
    exact stored h fun u => local_any (local_beginOp _ (keeps_onEth _) _)
  | ethReadnet sl ign =>
    rw [exec, execEthReadnet] at h
    exact stored h fun u => local_any (local_beginOp _ (keeps_onEth _) _)
  | ethWritenet sl ign =>
    rw [exec, execEthWritenet] at h
    exact stored h fun u => local_any (local_beginOp _ (keeps_onEth _) _)
  | ethConfigure sl ign =>
    rw [exec, execEthConfigure] at h
    exact stored h fun u => local_any (local_beginOp _ (keeps_onEth _) _)

end Sys2Proof.Machine
end

