-- ==== Sys2Proof/Laws/PerInstr.lean ====
section
/-! SUPPORT. Statements made of every command as syntax: the op field of its word is its row's op code (R301), below the
number of codes its port lists (R309 to R313). -/

namespace Sys2Proof.Laws

/-- The op field of a command's word is the op code of its row (R301). -/
def EncodeOpcode.Statement (i : Instr) : Prop := opField (encode i) = i.opcode

theorem EncodeOpcode.printerReset (sl : Slot) (ign : BitVec 24) :
    EncodeOpcode.Statement (.printerReset sl ign) := by
  simp [EncodeOpcode.Statement, encode, Instr.opcode]

theorem EncodeOpcode.printerAck (sl : Slot) (ign : BitVec 24) :
    EncodeOpcode.Statement (.printerAck sl ign) := by
  simp [EncodeOpcode.Statement, encode, Instr.opcode]

theorem EncodeOpcode.printerPrntchr (sl : Slot) (ign : BitVec 24) :
    EncodeOpcode.Statement (.printerPrntchr sl ign) := by
  simp [EncodeOpcode.Statement, encode, Instr.opcode]

theorem EncodeOpcode.termRxReset (sl : Slot) (ign : BitVec 24) :
    EncodeOpcode.Statement (.termRxReset sl ign) := by
  simp [EncodeOpcode.Statement, encode, Instr.opcode]

theorem EncodeOpcode.termRxAck (sl : Slot) (ign : BitVec 24) :
    EncodeOpcode.Statement (.termRxAck sl ign) := by
  simp [EncodeOpcode.Statement, encode, Instr.opcode]

theorem EncodeOpcode.termRxRecvchr (sl : Slot) (ign : BitVec 24) :
    EncodeOpcode.Statement (.termRxRecvchr sl ign) := by
  simp [EncodeOpcode.Statement, encode, Instr.opcode]

theorem EncodeOpcode.termTxReset (sl : Slot) (ign : BitVec 24) :
    EncodeOpcode.Statement (.termTxReset sl ign) := by
  simp [EncodeOpcode.Statement, encode, Instr.opcode]

theorem EncodeOpcode.termTxAck (sl : Slot) (ign : BitVec 24) :
    EncodeOpcode.Statement (.termTxAck sl ign) := by
  simp [EncodeOpcode.Statement, encode, Instr.opcode]

theorem EncodeOpcode.termTxTranchr (sl : Slot) (char : BitVec 8) (ign : BitVec 16) :
    EncodeOpcode.Statement (.termTxTranchr sl char ign) := by
  simp [EncodeOpcode.Statement, encode, Instr.opcode]

theorem EncodeOpcode.diskReset (sl : Slot) (ign : BitVec 24) :
    EncodeOpcode.Statement (.diskReset sl ign) := by
  simp [EncodeOpcode.Statement, encode, Instr.opcode]

theorem EncodeOpcode.diskAck (sl : Slot) (ign : BitVec 24) :
    EncodeOpcode.Statement (.diskAck sl ign) := by
  simp [EncodeOpcode.Statement, encode, Instr.opcode]

theorem EncodeOpcode.diskSeekcyl (sl : Slot) (cyl : BitVec 16) (ign : BitVec 8) :
    EncodeOpcode.Statement (.diskSeekcyl sl cyl ign) := by
  simp [EncodeOpcode.Statement, encode, Instr.opcode]

theorem EncodeOpcode.diskReadblk (sl : Slot) (head : BitVec 8) (sect : BitVec 8) (ign : BitVec 8) :
    EncodeOpcode.Statement (.diskReadblk sl head sect ign) := by
  simp [EncodeOpcode.Statement, encode, Instr.opcode]

theorem EncodeOpcode.diskWriteblk (sl : Slot) (head : BitVec 8) (sect : BitVec 8) (ign : BitVec 8) :
    EncodeOpcode.Statement (.diskWriteblk sl head sect ign) := by
  simp [EncodeOpcode.Statement, encode, Instr.opcode]

theorem EncodeOpcode.flashReset (sl : Slot) (ign : BitVec 24) :
    EncodeOpcode.Statement (.flashReset sl ign) := by
  simp [EncodeOpcode.Statement, encode, Instr.opcode]

theorem EncodeOpcode.flashAck (sl : Slot) (ign : BitVec 24) :
    EncodeOpcode.Statement (.flashAck sl ign) := by
  simp [EncodeOpcode.Statement, encode, Instr.opcode]

theorem EncodeOpcode.flashReadblk (sl : Slot) (blk : BitVec 24) :
    EncodeOpcode.Statement (.flashReadblk sl blk) := by
  simp [EncodeOpcode.Statement, encode, Instr.opcode]

theorem EncodeOpcode.flashWriteblk (sl : Slot) (blk : BitVec 24) :
    EncodeOpcode.Statement (.flashWriteblk sl blk) := by
  simp [EncodeOpcode.Statement, encode, Instr.opcode]

theorem EncodeOpcode.ethReset (sl : Slot) (ign : BitVec 24) :
    EncodeOpcode.Statement (.ethReset sl ign) := by
  simp [EncodeOpcode.Statement, encode, Instr.opcode]

theorem EncodeOpcode.ethAck (sl : Slot) (ign : BitVec 24) :
    EncodeOpcode.Statement (.ethAck sl ign) := by
  simp [EncodeOpcode.Statement, encode, Instr.opcode]

theorem EncodeOpcode.ethReadconf (sl : Slot) (ign : BitVec 24) :
    EncodeOpcode.Statement (.ethReadconf sl ign) := by
  simp [EncodeOpcode.Statement, encode, Instr.opcode]

theorem EncodeOpcode.ethReadnet (sl : Slot) (ign : BitVec 24) :
    EncodeOpcode.Statement (.ethReadnet sl ign) := by
  simp [EncodeOpcode.Statement, encode, Instr.opcode]

theorem EncodeOpcode.ethWritenet (sl : Slot) (ign : BitVec 24) :
    EncodeOpcode.Statement (.ethWritenet sl ign) := by
  simp [EncodeOpcode.Statement, encode, Instr.opcode]

theorem EncodeOpcode.ethConfigure (sl : Slot) (ign : BitVec 24) :
    EncodeOpcode.Statement (.ethConfigure sl ign) := by
  simp [EncodeOpcode.Statement, encode, Instr.opcode]

/-- The op code of a command's row is one its port's table lists (R309 to R313). -/
def OpcodeInTable.Statement (i : Instr) : Prop := i.opcode.toNat < i.port.opCount

theorem OpcodeInTable.printerReset (sl : Slot) (ign : BitVec 24) :
    OpcodeInTable.Statement (.printerReset sl ign) := by
  simp [OpcodeInTable.Statement, Instr.opcode, Instr.port, Port.opCount]

theorem OpcodeInTable.printerAck (sl : Slot) (ign : BitVec 24) :
    OpcodeInTable.Statement (.printerAck sl ign) := by
  simp [OpcodeInTable.Statement, Instr.opcode, Instr.port, Port.opCount]

theorem OpcodeInTable.printerPrntchr (sl : Slot) (ign : BitVec 24) :
    OpcodeInTable.Statement (.printerPrntchr sl ign) := by
  simp [OpcodeInTable.Statement, Instr.opcode, Instr.port, Port.opCount]

theorem OpcodeInTable.termRxReset (sl : Slot) (ign : BitVec 24) :
    OpcodeInTable.Statement (.termRxReset sl ign) := by
  simp [OpcodeInTable.Statement, Instr.opcode, Instr.port, Port.opCount]

theorem OpcodeInTable.termRxAck (sl : Slot) (ign : BitVec 24) :
    OpcodeInTable.Statement (.termRxAck sl ign) := by
  simp [OpcodeInTable.Statement, Instr.opcode, Instr.port, Port.opCount]

theorem OpcodeInTable.termRxRecvchr (sl : Slot) (ign : BitVec 24) :
    OpcodeInTable.Statement (.termRxRecvchr sl ign) := by
  simp [OpcodeInTable.Statement, Instr.opcode, Instr.port, Port.opCount]

theorem OpcodeInTable.termTxReset (sl : Slot) (ign : BitVec 24) :
    OpcodeInTable.Statement (.termTxReset sl ign) := by
  simp [OpcodeInTable.Statement, Instr.opcode, Instr.port, Port.opCount]

theorem OpcodeInTable.termTxAck (sl : Slot) (ign : BitVec 24) :
    OpcodeInTable.Statement (.termTxAck sl ign) := by
  simp [OpcodeInTable.Statement, Instr.opcode, Instr.port, Port.opCount]

theorem OpcodeInTable.termTxTranchr (sl : Slot) (char : BitVec 8) (ign : BitVec 16) :
    OpcodeInTable.Statement (.termTxTranchr sl char ign) := by
  simp [OpcodeInTable.Statement, Instr.opcode, Instr.port, Port.opCount]

theorem OpcodeInTable.diskReset (sl : Slot) (ign : BitVec 24) :
    OpcodeInTable.Statement (.diskReset sl ign) := by
  simp [OpcodeInTable.Statement, Instr.opcode, Instr.port, Port.opCount]

theorem OpcodeInTable.diskAck (sl : Slot) (ign : BitVec 24) :
    OpcodeInTable.Statement (.diskAck sl ign) := by
  simp [OpcodeInTable.Statement, Instr.opcode, Instr.port, Port.opCount]

theorem OpcodeInTable.diskSeekcyl (sl : Slot) (cyl : BitVec 16) (ign : BitVec 8) :
    OpcodeInTable.Statement (.diskSeekcyl sl cyl ign) := by
  simp [OpcodeInTable.Statement, Instr.opcode, Instr.port, Port.opCount]

theorem OpcodeInTable.diskReadblk (sl : Slot) (head : BitVec 8) (sect : BitVec 8) (ign : BitVec 8) :
    OpcodeInTable.Statement (.diskReadblk sl head sect ign) := by
  simp [OpcodeInTable.Statement, Instr.opcode, Instr.port, Port.opCount]

theorem OpcodeInTable.diskWriteblk (sl : Slot) (head : BitVec 8) (sect : BitVec 8) (ign : BitVec 8) :
    OpcodeInTable.Statement (.diskWriteblk sl head sect ign) := by
  simp [OpcodeInTable.Statement, Instr.opcode, Instr.port, Port.opCount]

theorem OpcodeInTable.flashReset (sl : Slot) (ign : BitVec 24) :
    OpcodeInTable.Statement (.flashReset sl ign) := by
  simp [OpcodeInTable.Statement, Instr.opcode, Instr.port, Port.opCount]

theorem OpcodeInTable.flashAck (sl : Slot) (ign : BitVec 24) :
    OpcodeInTable.Statement (.flashAck sl ign) := by
  simp [OpcodeInTable.Statement, Instr.opcode, Instr.port, Port.opCount]

theorem OpcodeInTable.flashReadblk (sl : Slot) (blk : BitVec 24) :
    OpcodeInTable.Statement (.flashReadblk sl blk) := by
  simp [OpcodeInTable.Statement, Instr.opcode, Instr.port, Port.opCount]

theorem OpcodeInTable.flashWriteblk (sl : Slot) (blk : BitVec 24) :
    OpcodeInTable.Statement (.flashWriteblk sl blk) := by
  simp [OpcodeInTable.Statement, Instr.opcode, Instr.port, Port.opCount]

theorem OpcodeInTable.ethReset (sl : Slot) (ign : BitVec 24) :
    OpcodeInTable.Statement (.ethReset sl ign) := by
  simp [OpcodeInTable.Statement, Instr.opcode, Instr.port, Port.opCount]

theorem OpcodeInTable.ethAck (sl : Slot) (ign : BitVec 24) :
    OpcodeInTable.Statement (.ethAck sl ign) := by
  simp [OpcodeInTable.Statement, Instr.opcode, Instr.port, Port.opCount]

theorem OpcodeInTable.ethReadconf (sl : Slot) (ign : BitVec 24) :
    OpcodeInTable.Statement (.ethReadconf sl ign) := by
  simp [OpcodeInTable.Statement, Instr.opcode, Instr.port, Port.opCount]

theorem OpcodeInTable.ethReadnet (sl : Slot) (ign : BitVec 24) :
    OpcodeInTable.Statement (.ethReadnet sl ign) := by
  simp [OpcodeInTable.Statement, Instr.opcode, Instr.port, Port.opCount]

theorem OpcodeInTable.ethWritenet (sl : Slot) (ign : BitVec 24) :
    OpcodeInTable.Statement (.ethWritenet sl ign) := by
  simp [OpcodeInTable.Statement, Instr.opcode, Instr.port, Port.opCount]

theorem OpcodeInTable.ethConfigure (sl : Slot) (ign : BitVec 24) :
    OpcodeInTable.Statement (.ethConfigure sl ign) := by
  simp [OpcodeInTable.Statement, Instr.opcode, Instr.port, Port.opCount]

end Sys2Proof.Laws
end

