-- ==== Sys2Proof/Laws/Steps.lean ====
section
/-! SUPPORT. What a step can do, said once: the change its request makes, and the dispatch loop after it. -/

namespace Sys2Proof.Machine

variable {s t u : State}

/-- What a request other than a tick changes in a running simulation, before the dispatch loop. -/
inductive Change (s : State) : State → Prop where
  /-- a read, an ignored write, an answered query -/
  | nothing : Change s s
  /-- an accepted or ignored command (R506) -/
  | command (i : Instr) (u : State) (h : exec i s = .next u) : Change s u
  /-- a word whose op code the port's table does not list (R315) -/
  | illegal (p : Port) (sl : Slot) (w : Word) (u : State) (h : execIllegal p sl w s = .next u) : Change s u
  /-- a stored data register (R509) -/
  | data (sl : Slot) (k : DevKind) (i : Fin 4) (v : Word) (hk : s.kind sl = some k) (hw : writable k i = true) :
      Change s (s.setReg sl i v)
  /-- host input (R815) -/
  | input (sl : Slot) (text : List Byte) : Change s (hostInput sl text s)
  /-- the working toggle (R516) -/
  | work (sl : Slot) (b : Bool) : Change s (toggleWork sl b s)
  /-- a tick at the top of the clock's range (R410) -/
  | overflow (h : s.tod = BitVec.allOnes 64) : Change s (s.stop .timeOverflow)
  /-- a write to physical memory by a bus master -/
  | memory (a : Word) (bytes : List Byte) : Change s { s with mem := s.mem.writeBytes a bytes }

/-- What an illegal command does: nothing while the sub-device is busy, else it fails at once (R315, R513). -/
theorem execIllegal_next {p : Port} {sl : Slot} {w : Word} (h : execIllegal p sl w s = .next u) :
    s.fatal = none ∧ s.kind sl = some p.kind ∧
      ((s.busy sl p.sub = true ∧ u = s) ∨
        (s.busy sl p.sub = false ∧ u = (s.setReg sl (cmdIdx p.sub) w).failNow sl p.sub codeIllegalOp)) := by
  have e : execIllegal p sl w s = s.accept p.kind sl p.sub w fun s => s.failNow sl p.sub codeIllegalOp := by
    cases p <;> rfl
  exact State.accept_next (e ▸ h)

/-- What a change can do at all: it touches at most one slot, keeps its type and geometry, and schedules at most one
event, for that slot. -/
theorem Change.toLocal (h : Change s u) : ∃ sl, Local sl (fun _ => True) s u := by
  cases h with
  | nothing => exact ⟨tableSlot, Calm.refl.toLocal⟩
  | command i _ h => exact ⟨i.slot, local_exec i h⟩
  | illegal p sl w _ h =>
    refine ⟨sl, ?_⟩
    obtain ⟨-, -, ⟨-, rfl⟩ | ⟨-, rfl⟩⟩ := execIllegal_next h
    · exact Calm.refl.toLocal
    · exact ((calm_setReg _ _).trans (calm_failNow _ _)).toLocal
  | data sl k i v hk hw => exact ⟨sl, (calm_setReg _ _).toLocal⟩
  | input sl text =>
    refine ⟨sl, ?_⟩
    unfold hostInput
    split
    · exact ((calm_mapBody (keeps_onTerminal _)).trans (calm_writeLog _)).toLocal
    · exact (calm_stop _).toLocal
  | work sl b =>
    refine ⟨sl, ?_⟩
    unfold toggleWork
    split
    · exact Calm.refl.toLocal
    · exact ((calm_setWorking _).trans (calm_emit _)).toLocal
  | overflow _ => exact ⟨tableSlot, (calm_stop _).toLocal⟩
  | memory a bytes => exact ⟨tableSlot, (Calm.of_eq rfl).toLocal⟩

/-- What a register write changes (R502). -/
theorem regWrite_change {sl : Slot} {i : Fin 4} {v : Word} (h : regWrite sl i v s = .next u) : Change s u := by
  unfold regWrite at h
  split at h
  · injection h with h
    exact h ▸ .nothing
  · next k hk =>
    split at h
    · injection h with h
      exact h ▸ .nothing
    · split at h
      · next p hp =>
        unfold command at h
        split at h
        · exact .command _ _ h
        · exact .illegal _ _ _ _ h
      · split at h
        · next hw =>
          injection h with h
          exact h ▸ .data sl k i v hk hw
        · injection h with h
          exact h ▸ .nothing

/-- The step's environment fields, cleared for the next request. -/
def State.taken (s : State) (rest : List Request) : State := { s with script := rest, reply := .none }

/-- One tick of the clock, before the dispatch loop (R410). -/
def State.ticked (s : State) : State := { s with tod := s.tod + 1#64 }

/-- What a step can do: nothing when there is no request; a tick and the dispatch loop; else a change, then the dispatch
loop or no dispatch, and an answer. -/
theorem step_cases (h : step s = .next t) :
    s.fatal = none ∧
      (t = s ∨ (∃ rest, s.tod ≠ BitVec.allOnes 64 ∧ settle (s.taken rest).ticked = .next t) ∨
        ∃ rest u, Change (s.taken rest) u ∧ (settle u = .next t ∨ t = u ∨ ∃ r, t = u.answer r)) := by
  unfold step at h
  split at h
  · exact absurd h (by simp)
  · next hf =>
    refine ⟨hf, ?_⟩
    unfold fetchServe at h
    split at h
    · injection h with h
      exact .inl h.symm
    · next r rest hr =>
      have late : ∀ {u : State}, settleStep u = .next t → settle u = .next t ∨ t = u ∨ ∃ r, t = u.answer r := by
        intro u hu
        unfold settleStep at hu
        split at hu
        · exact .inl hu
        · injection hu with hu
          exact .inr (.inl hu.symm)
      by_cases htick : r = .tick
      · subst htick
        simp only [serve, doTick] at h
        split at h
        · next ho =>
          injection h with h
          exact .inr (.inr ⟨rest, _, .overflow ho, .inr (.inl h.symm)⟩)
        · next ho => exact .inr (.inl ⟨rest, ho, h⟩)
      refine .inr (.inr ⟨rest, ?_⟩)
      cases r with
      | load sl off w =>
        simp only [serve, doLoad] at h
        split at h
        · exact absurd h (by simp)
        · injection h with h
          exact ⟨_, .nothing, .inr (.inr ⟨_, h.symm⟩)⟩
      | store sl off w v =>
        simp only [serve, doStore] at h
        split at h
        · exact absurd h (by simp)
        · unfold thenDo at h
          split at h
          · next u hu => exact ⟨u, regWrite_change hu, late h⟩
          · exact absurd h (by simp)
          · exact absurd h (by simp)
      | tick => exact absurd rfl htick
      | input sl text => exact ⟨_, .input sl text, late h⟩
      | work sl b =>
        simp only [serve, doWork] at h
        split at h
        · exact absurd h (by simp)
        · exact ⟨_, .work sl b, late h⟩
      | readTodLo =>
        injection h with h
        exact ⟨_, .nothing, .inr (.inr ⟨_, h.symm⟩)⟩
      | writeTodLo v => exact absurd h (by simp [serve])
      | readBitmap l =>
        injection h with h
        exact ⟨_, .nothing, .inr (.inr ⟨_, h.symm⟩)⟩
      | writeBitmap l v => exact absurd h (by simp [serve])
      | nextFireTime =>
        injection h with h
        exact ⟨_, .nothing, .inr (.inr ⟨_, h.symm⟩)⟩
      | memLoad a n =>
        injection h with h
        exact ⟨_, .nothing, .inr (.inr ⟨_, h.symm⟩)⟩
      | memStore a bytes =>
        injection h with h
        exact ⟨_, .memory a bytes, .inr (.inl h.symm)⟩

/-- What every dispatch keeps, the dispatch loop keeps; and it ends with a fatal error or with nothing due (R406). -/
theorem drain_induct {P : State → Prop}
    (hd : ∀ s e rest, s.fatal = none → s.queue = e :: rest → e.fire ≤ s.tod → P s →
      P (dispatch e { s with queue := rest })) :
    ∀ n s t, drain n s = some t → P s → P t ∧ (t.fatal = none → runDue t = none) := by
  intro n
  induction n with
  | zero =>
    intro s t h hp
    unfold drain at h
    split at h
    · next hf =>
      injection h with h
      subst h
      exact ⟨hp, fun e => by rw [e] at hf; exact absurd hf (by simp)⟩
    · split at h
      · next hr =>
        injection h with h
        subst h
        exact ⟨hp, fun _ => hr⟩
      · exact absurd h (by simp)
  | succ n ih =>
    intro s t h hp
    unfold drain at h
    split at h
    · next hf =>
      injection h with h
      subst h
      exact ⟨hp, fun e => by rw [e] at hf; exact absurd hf (by simp)⟩
    · next hf =>
      split at h
      · next hr =>
        injection h with h
        subst h
        exact ⟨hp, fun _ => hr⟩
      · next s' hr =>
        refine ih _ _ h ?_
        unfold runDue at hr
        split at hr
        · exact absurd hr (by simp)
        · next e rest hq =>
          split at hr
          · next hdue =>
            injection hr with hr
            subst hr
            exact hd s e rest (by simpa using hf) hq hdue hp
          · exact absurd hr (by simp)

/-- What every dispatch keeps, the dispatch loop keeps. -/
theorem settle_induct {P : State → Prop}
    (hd : ∀ s e rest, s.fatal = none → s.queue = e :: rest → e.fire ≤ s.tod → P s →
      P (dispatch e { s with queue := rest })) (h : settle s = .next t) (hp : P s) :
    P t ∧ (t.fatal = none → runDue t = none) := by
  unfold settle at h
  split at h
  · next hs =>
    injection h with h
    subst h
    exact drain_induct hd _ _ _ hs hp
  · exact absurd h (by simp)

/-- Packaged once: what every change, every tick of the clock and every dispatch keeps, a step keeps. -/
theorem step_induct {P : State → Prop} (ht : ∀ s rest, P s → P (s.taken rest)) (ha : ∀ s r, P s → P (s.answer r))
    (hc : ∀ s u, s.fatal = none → Change s u → P s → P u)
    (hk : ∀ s, s.tod ≠ BitVec.allOnes 64 → P s → P s.ticked)
    (hd : ∀ s e rest, s.fatal = none → s.queue = e :: rest → e.fire ≤ s.tod → P s →
      P (dispatch e { s with queue := rest })) (h : step s = .next t) (hp : P s) : P t := by
  obtain ⟨hf, rfl | ⟨rest, hm, hs⟩ | ⟨rest, u, hu, hs⟩⟩ := step_cases h
  · exact hp
  · exact (settle_induct hd hs (hk _ hm (ht s rest hp))).1
  · have hpu := hc (s.taken rest) _ hf hu (ht s rest hp)
    rcases hs with hs | rfl | ⟨r, rfl⟩
    · exact (settle_induct hd hs hpu).1
    · exact hpu
    · exact ha _ _ hpu

end Sys2Proof.Machine
end

