-- ==== Sys2Proof/Tests/Slice0.lean ====
section
/-! SUPPORT. Tests: ill-formed terms, words written out from the spec's encodings, one step per instruction from the
vectors of spec/95_test_vectors.md, construction; then a witness for the hypotheses of every statement. -/

namespace Sys2Proof.Tests

open Sys2Proof Sys2Proof.Machine

/-! The slots of the test configuration TC. -/

def disk0 : Slot := { line := .l3, dev := 0 }
def flash0 : Slot := { line := .l4, dev := 0 }
def eth0 : Slot := { line := .l5, dev := 0 }
def printer0 : Slot := { line := .l6, dev := 0 }
def printer1 : Slot := { line := .l6, dev := 1 }
def term0 : Slot := { line := .l7, dev := 0 }
def null0 : Slot := { line := .l3, dev := 1 }

/-! Well-formedness: one ill-formed term for each check. -/

theorem test_printer_line_refuses_other_commands : (Instr.diskAck printer0 0#24).wellFormed = false := by decide
theorem test_printer_line_takes_printer_commands : (Instr.printerAck printer0 0#24).wellFormed = true := by decide
theorem test_other_lines_take_any_command : (Instr.printerAck disk0 0#24).wellFormed = true := by decide
theorem test_tc_wellFormed : Config.tc.wf = true := by decide
theorem test_clock_rate_zero_refused : ({ Config.tc with clockRate := 0 }).wf = false := by decide
theorem test_ratio_denominator_zero_refused : ({ Config.tc with readRatioDen := 0 }).wf = false := by decide
theorem test_poll_time_zero_refused : ({ Config.tc with pollNetTime := 0 }).wf = false := by decide
theorem test_too_many_cylinders_refused : ({ Config.tc with maxCyl := 65536 }).wf = false := by decide
theorem test_too_many_heads_refused : ({ Config.tc with maxHead := 256 }).wf = false := by decide
theorem test_too_many_sectors_refused : ({ Config.tc with maxSect := 256 }).wf = false := by decide
theorem test_percent_bounds_refused :
    ({ Config.tc with minDataS := 101 }).wf = false ∧ ({ Config.tc with maxDataS := 101 }).wf = false := by decide
theorem test_too_many_blocks_refused : ({ Config.tc with maxBlocks := 2 ^ 24 + 1 }).wf = false := by decide
theorem test_mode_bit_seven_refused : ({ Config.tc with ethModeInterrupt := 0x80#8 }).wf = false := by decide
theorem test_two_mode_bits_refused : ({ Config.tc with ethModeInterrupt := 0x03#8 }).wf = false := by decide
theorem test_line_six_not_printer_refused :
    ({ Config.tc with lineTypes := { Config.tc.lineTypes with l6 := .disk } }).wf = false := by decide

/-! Decoding: a word for every constructor, its bits written out from the formats of R303 to R307 and the op codes of
R309 to R313. -/

theorem test_decode_printer :
    decode .printer printer0 0b101010101010101010101010_00000000#32 = .ok (.printerReset printer0 0xAAAAAA#24) ∧
    decode .printer printer0 0b000000000000000000000000_00000001#32 = .ok (.printerAck printer0 0#24) ∧
    decode .printer printer0 0b111111111111111111111111_00000010#32 = .ok (.printerPrntchr printer0 0xFFFFFF#24) := by
  decide

theorem test_decode_terminal_receive :
    decode .termRx term0 0b000000000000000000000000_00000000#32 = .ok (.termRxReset term0 0#24) ∧
    decode .termRx term0 0b000000000000000000000000_00000001#32 = .ok (.termRxAck term0 0#24) ∧
    decode .termRx term0 0b000000000000000000000001_00000010#32 = .ok (.termRxRecvchr term0 1#24) := by
  decide

theorem test_decode_terminal_transmit :
    decode .termTx term0 0b0000000000000000_01011010_00000000#32 = .ok (.termTxReset term0 0x5A#24) ∧
    decode .termTx term0 0b0000000000000000_00000000_00000001#32 = .ok (.termTxAck term0 0#24) ∧
    decode .termTx term0 0b1100000000000011_01011010_00000010#32 = .ok (.termTxTranchr term0 0x5A#8 0xC003#16) := by
  decide

theorem test_decode_disk :
    decode .disk disk0 0b000000000000000000000000_00000000#32 = .ok (.diskReset disk0 0#24) ∧
    decode .disk disk0 0b000000000000000000000000_00000001#32 = .ok (.diskAck disk0 0#24) ∧
    decode .disk disk0 0b0000000000001010_11111111_00000010#32 = .ok (.diskSeekcyl disk0 10#16 0xFF#8) ∧
    decode .disk disk0 0b10000000_00000001_00000101_00000011#32 = .ok (.diskReadblk disk0 1#8 5#8 0x80#8) ∧
    decode .disk disk0 0b00000000_00000001_00000111_00000100#32 = .ok (.diskWriteblk disk0 1#8 7#8 0#8) := by
  decide

theorem test_decode_flash :
    decode .flash flash0 0b000000000000000000000000_00000000#32 = .ok (.flashReset flash0 0#24) ∧
    decode .flash flash0 0b000000000000000000000000_00000001#32 = .ok (.flashAck flash0 0#24) ∧
    decode .flash flash0 0b100000000000000000000111_00000010#32 = .ok (.flashReadblk flash0 0x800007#24) ∧
    decode .flash flash0 0b000000000000000000000011_00000011#32 = .ok (.flashWriteblk flash0 3#24) := by
  decide

theorem test_decode_ethernet :
    decode .eth eth0 0b000000000000000000000000_00000000#32 = .ok (.ethReset eth0 0#24) ∧
    decode .eth eth0 0b000000000000000000000000_00000001#32 = .ok (.ethAck eth0 0#24) ∧
    decode .eth eth0 0b000000000000000000000000_00000010#32 = .ok (.ethReadconf eth0 0#24) ∧
    decode .eth eth0 0b000000000000000000000000_00000011#32 = .ok (.ethReadnet eth0 0#24) ∧
    decode .eth eth0 0b000000000000000000000000_00000100#32 = .ok (.ethWritenet eth0 0#24) ∧
    decode .eth eth0 0b000000000000000000000000_00000101#32 = .ok (.ethConfigure eth0 0#24) := by
  decide

/-- The first op code each port's table does not list (R309 to R313). -/
theorem test_first_illegal_op_of_each_port :
    decode .printer printer0 3#32 = .error (.illegalOp .printer 3#8) ∧
    decode .termRx term0 3#32 = .error (.illegalOp .termRx 3#8) ∧
    decode .termTx term0 3#32 = .error (.illegalOp .termTx 3#8) ∧
    decode .disk disk0 5#32 = .error (.illegalOp .disk 5#8) ∧
    decode .flash flash0 4#32 = .error (.illegalOp .flash 4#8) ∧
    decode .eth eth0 6#32 = .error (.illegalOp .eth 6#8) := by
  decide

/-- Bytes in window order (R203), and what is left of them. -/
theorem test_decode_bytes :
    decodeBytes .disk disk0 [0x02#8, 0x00#8, 0x0A#8, 0x00#8, 0x77#8] = .ok (.diskSeekcyl disk0 10#16 0#8, [0x77#8]) ∧
    decodeBytes .disk disk0 [0x02#8, 0x00#8, 0x0A#8] = .error .truncated := by
  decide

theorem test_table_word : decodeTableWord 32 5 = some (.ethConfigure tableSlot 0#24) := by decide

/-! One step. A register write or a request on a state; what it answers next, or the state itself when it stops. -/

/-- The next state, or the given one when the outcome is a stop. -/
def nextOr (s : State) : Host.Outcome State Fault Refusal → State
  | .next t => t
  | _ => s

/-- One step whose request is the given one. -/
def serve1 (r : Request) (s : State) : State := nextOr s (step { s with script := [r] })

/-- Writing a register by its index. -/
def put (sl : Slot) (i : Fin 4) (v : Word) (s : State) : State := serve1 (.store sl (BitVec.ofNat 4 (4 * i.val)) .word v) s

/-- Whether a step is refused for the given reason. -/
def refuses (r : Request) (q : Refusal) (s : State) : Bool :=
  match step { s with script := [r] } with
  | .refused x => x == q
  | _ => false

/-- A state in which the clock stands one tick before the completion of a slot's operation. -/
def due (s : State) (sl : Slot) (f : DeviceBody → DeviceBody) : State :=
  { s.mapBody sl f with
    tod := 99#64, seq := 1, queue := [{ fire := 100#64, seq := 0, target := sl, kind := .complete }] }

/-- The fire times of the queue. -/
def fires (s : State) : List Nat := s.queue.map fun e => e.fire.toNat

/-! Printer: S1, S2, PR3, PR4, PR6, PR8. -/

theorem test_printer_reset_accepted :
    let t := put printer0 1 0#32 State.reset
    t.reg printer0 0 = 3#32 ∧ fires t = [40] ∧ t.pend[(3 : Fin 5)] = 0#8 := by decide

theorem test_printer_reset_completes :
    let t := serve1 .tick (due State.reset printer0 (startPrinter .reset))
    t.reg printer0 0 = 1#32 ∧ t.queue = [] ∧ t.pend[(3 : Fin 5)] = 1#8 := by decide

theorem test_printer_ack :
    let s := (State.reset.setReg printer0 0 4#32).irqRaise printer0
    let t := put printer0 1 1#32 s
    t.reg printer0 0 = 1#32 ∧ t.reg printer0 1 = 1#32 ∧ t.pend[(3 : Fin 5)] = 0#8 := by decide

theorem test_printer_prntchr_accepted :
    let t := put printer0 1 0xFFFFFF02#32 State.reset
    t.reg printer0 0 = 3#32 ∧ t.reg printer0 1 = 0xFFFFFF02#32 ∧ fires t = [8] := by decide

theorem test_printer_prntchr_completes :
    let t := serve1 .tick (due (State.reset.setReg printer0 2 0x12345641#32) printer0 (startPrinter .print))
    t.reg printer0 0 = 1#32 ∧ t.body printer0 = .printer { op := none, log := [0x41#8] } ∧
      t.trace = [.statusChanged printer0] ∧ t.pend[(3 : Fin 5)] = 1#8 := by decide

theorem test_printer_not_working :
    let t := serve1 .tick (due (State.reset.setWorking printer0 false) printer0 (startPrinter .print))
    t.reg printer0 0 = 4#32 ∧ t.body printer0 = .printer { op := none, log := [] } := by decide

theorem test_printer_illegal :
    let t := put printer0 1 0x55#32 State.reset
    t.reg printer0 0 = 2#32 ∧ t.queue = [] ∧ t.pend[(3 : Fin 5)] = 1#8 := by decide

/-! Terminal: TM1 to TM3, TM5, TM6, TM8, P4. -/

/-- TC's terminal with both halves idle, a raised request of each, and the given input. -/
def raised (input : List Byte) : DeviceBody → DeviceBody :=
  onTerminal fun _ =>
    { rx := ⟨none, 0#64, true⟩, tx := ⟨none, 0#64, true⟩, rxbuf := input, log := [] }

theorem test_termRx_reset_keeps_line_of_tx :
    let s := (State.reset.mapBody term0 (raised [])).irqRaise term0
    let t := put term0 1 0#32 s
    t.reg term0 0 = 3#32 ∧ fires t = [400] ∧ t.pend[(4 : Fin 5)] = 1#8 := by decide

theorem test_termRx_reset_completes :
    let t := serve1 .tick (due State.reset term0 (startHalf .rx .reset))
    t.reg term0 0 = 1#32 ∧ t.reg term0 2 = 1#32 ∧ t.returned = some 0 := by decide

theorem test_termRx_ack_keeps_line_of_tx :
    let s := ((State.reset.mapBody term0 (raised [])).irqRaise term0).setReg term0 0 0x6805#32
    let t := put term0 1 1#32 s
    t.reg term0 0 = 1#32 ∧ t.pend[(4 : Fin 5)] = 1#8 := by decide

theorem test_termRx_recvchr_waits_on_empty_buffer :
    let t := serve1 .tick (due (State.reset.setReg term0 0 3#32) term0 (startHalf .rx .char))
    t.reg term0 0 = 3#32 ∧ fires t = [180] ∧ t.pend[(4 : Fin 5)] = 0#8 := by decide

theorem test_termRx_recvchr_receives :
    let f := fun b => startHalf .rx .char (onTerminal (fun t => { t with rxbuf := [0x68#8, 0x69#8, 0x0A#8] }) b)
    let t := serve1 .tick (due State.reset term0 f)
    t.reg term0 0 = 0x6805#32 ∧
      t.body term0 = .terminal { rx := ⟨none, 0#64, true⟩, tx := ⟨none, 0#64, false⟩, rxbuf := [0x69#8, 0x0A#8],
                                 log := [] } := by decide

theorem test_termTx_reset :
    let t := put term0 3 0x5A00#32 State.reset
    t.reg term0 2 = 3#32 ∧ t.reg term0 0 = 1#32 ∧ fires t = [400] := by decide

theorem test_termTx_ack :
    let s := (State.reset.mapBody term0 (setIpend .tx true)).irqRaise term0
    let t := put term0 3 1#32 s
    t.reg term0 2 = 1#32 ∧ t.pend[(4 : Fin 5)] = 0#8 := by decide

theorem test_termTx_tranchr_completes :
    let t := serve1 .tick (due (State.reset.setReg term0 3 0x5A02#32) term0 (startHalf .tx .char))
    t.reg term0 2 = 0x5A05#32 ∧ t.trace = [.transmitted 0x5A#8, .statusChanged term0] ∧ t.returned = some 2 := by
  decide

theorem test_termTx_not_working :
    let s := (State.reset.setReg term0 3 0x5A02#32).setWorking term0 false
    let t := serve1 .tick (due s term0 (startHalf .tx .char))
    t.reg term0 2 = 0x5A04#32 ∧ t.trace = [.statusChanged term0] := by decide

theorem test_termTx_illegal_leaves_rx :
    let t := put term0 3 3#32 State.reset
    t.reg term0 2 = 2#32 ∧ t.reg term0 0 = 1#32 ∧ t.pend[(4 : Fin 5)] = 1#8 := by decide

theorem test_input_is_kept_and_logged :
    (serve1 (.input term0 [0x68#8, 0x69#8]) State.reset).body term0 =
      .terminal { rx := ⟨none, 0#64, false⟩, tx := ⟨none, 0#64, false⟩, rxbuf := [0x68#8, 0x69#8, 0x0A#8],
                  log := [0x68#8, 0x69#8, 0x0A#8] } := by decide

/-! Disk: EV3, EV3b, EV5, DK2 to DK9, DK12 to DK15, DM3. -/

/-- The disk's own fields, none on another type. -/
def diskOf : DeviceBody → Option (BitVec 32 × DiskCache)
  | .disk d => some (d.curCyl, d.cache)
  | _ => none

theorem test_disk_reset_latency_counts_cylinders :
    let s := State.reset.mapBody disk0 (onDisk fun d => { d with curCyl := 10#32 })
    fires (put disk0 1 0#32 s) = [1400] := by decide

theorem test_disk_reset_completes :
    let s := State.reset.mapBody disk0 (onDisk fun d => { d with curCyl := 10#32 })
    let t := serve1 .tick (due s disk0 (startDisk .reset))
    t.reg disk0 0 = 1#32 ∧ diskOf (t.body disk0) = some (0#32, .invalid) := by decide

theorem test_disk_ack : (put disk0 1 1#32 (State.reset.setReg disk0 0 4#32)).reg disk0 0 = 1#32 := by decide

theorem test_disk_seek_bounds :
    fires (put disk0 1 0x00630002#32 State.reset) = [9900] ∧
    (put disk0 1 0x00640002#32 State.reset).reg disk0 0 = 4#32 := by decide

theorem test_disk_seek_zero_delay :
    (put disk0 1 0x00000002#32 State.reset).reg disk0 0 = 1#32 ∧
    (let s := { State.reset with cfg := { Config.tc with zeroDelay := .nextTick } }
     (put disk0 1 0x00000002#32 s).reg disk0 0 = 3#32 ∧ fires (put disk0 1 0x00000002#32 s) = [0]) := by decide

theorem test_disk_read_rotation :
    fires (put disk0 1 0x00000503#32 { State.reset with tod := 12345#64 }) = [26292] ∧
    fires (put disk0 1 0x00000503#32 { State.reset with tod := 10000#64 }) = [25602] := by decide

theorem test_disk_read_out_of_bounds :
    (put disk0 1 0x00020003#32 State.reset).reg disk0 0 = 5#32 ∧
    (put disk0 1 0x00000803#32 State.reset).reg disk0 0 = 5#32 := by decide

theorem test_disk_read_dma_fails :
    let s := State.reset.mapBody disk0 (onDisk fun d => { d with curCyl := 10#32 })
    let t := serve1 .tick (due (s.setReg disk0 2 0x30000000#32) disk0 (startDisk (.read 0#8 5#8 false)))
    t.reg disk0 0 = 7#32 ∧ diskOf (t.body disk0) = some (10#32, .invalid) := by decide +kernel

theorem test_disk_read_delivers :
    let s := State.reset.mapBody disk0 (onDisk fun d => { d with curCyl := 10#32 })
    let t := serve1 .tick (due (s.setReg disk0 2 0x20000000#32) disk0 (startDisk (.read 0#8 5#8 false)))
    t.reg disk0 0 = 1#32 ∧ diskOf (t.body disk0) = some (10#32, { cyl := 10#32, head := 0#32, sect := 5#32 }) := by
  decide +kernel

theorem test_disk_write_latency_and_dma_failure :
    fires (put disk0 1 0x00000104#32 (State.reset.setReg disk0 2 0x20000000#32)) = [1602] ∧
    (put disk0 1 0x00000104#32 (State.reset.setReg disk0 2 0x30000000#32)).reg disk0 0 = 7#32 := by decide

theorem test_disk_write_not_working :
    let t := serve1 .tick (due (State.reset.setWorking disk0 false) disk0 (startDisk (.write 0#8 1#8)))
    t.reg disk0 0 = 6#32 ∧ t.pend[(0 : Fin 5)] = 1#8 := by decide

theorem test_disk_no_sector_ticks :
    let s := State.reset.mapBody disk0 (onDisk fun d => { d with rotTime := 5 })
    (put disk0 1 0x00000103#32 s).fatal = some .zeroSectorTicks := by decide

theorem test_disk_sector_offset :
    (match State.reset.body disk0 with | .disk d => d.offBytes 10 0 5 | _ => 0) = 675868 := by decide

/-! Flash: FL2, FL3, FL5 to FL9, FL11, DM6. -/

theorem test_flash_reset : fires (put flash0 1 0#32 State.reset) = [400] := by decide

theorem test_flash_reset_completes :
    (serve1 .tick (due State.reset flash0 (startFlash .reset))).reg flash0 0 = 1#32 := by decide

theorem test_flash_ack : (put flash0 1 1#32 (State.reset.setReg flash0 0 4#32)).reg flash0 0 = 1#32 := by decide

theorem test_flash_read_latency :
    fires (put flash0 1 0x00000702#32 State.reset) = [502] ∧
    fires (put flash0 1 0x00000702#32 (State.reset.mapBody flash0 (setFlashCache 7#32))) = [2] ∧
    fires (put flash0 1 0x00000702#32 { State.reset with cfg := { Config.tc with readRatioDen := 3 } }) = [335] := by
  decide

theorem test_flash_read_bounds :
    (put flash0 1 0x00003F02#32 State.reset).reg flash0 0 = 3#32 ∧
    (put flash0 1 0x00004002#32 State.reset).reg flash0 0 = 4#32 ∧
    (put flash0 1 0xFFFFFF02#32 State.reset).reg flash0 0 = 4#32 := by decide

theorem test_flash_write_latency_and_bounds :
    fires (put flash0 1 0x00000303#32 (State.reset.setReg flash0 2 0x20001000#32)) = [1002] ∧
    (put flash0 1 0x00004003#32 State.reset).reg flash0 0 = 5#32 := by decide

theorem test_flash_write_completes :
    let t := serve1 .tick (due State.reset flash0 (startFlash (.write 3#24)))
    t.reg flash0 0 = 1#32 ∧ (match t.body flash0 with | .flash f => f.cacheBlk | _ => 0#32) = 3#32 := by decide

theorem test_flash_read_dma_range :
    let t := serve1 .tick (due (State.reset.setReg flash0 2 0x2000F800#32) flash0 (startFlash (.read 0#24 false)))
    t.reg flash0 0 = 7#32 ∧ (match t.body flash0 with | .flash f => f.cacheBlk | _ => 0#32) = maxU32 := by decide +kernel

/-! Ethernet: ET1, ET2, ET5 to ET13, P5. -/

theorem test_eth_reset_keeps_then_clears_readpending :
    (put eth0 1 0#32 (State.reset.setReg eth0 0 0x81#32)).reg eth0 0 = 0x83#32 ∧
    (serve1 .tick (due (State.reset.setReg eth0 0 0x83#32) eth0 (startEth .reset))).reg eth0 0 = 1#32 := by decide

theorem test_eth_ack_clears_readpending :
    let s := (State.reset.setReg eth0 0 0x81#32).irqRaise eth0
    let t := put eth0 1 1#32 s
    t.reg eth0 0 = 1#32 ∧ t.pend[(2 : Fin 5)] = 0#8 := by decide

theorem test_eth_readconf_completes :
    let t := serve1 .tick (due State.reset eth0 (startEth .readConf))
    t.reg eth0 2 = 0x00000011#32 ∧ t.reg eth0 3 = 0x22334455#32 ∧ t.reg eth0 0 = 1#32 := by decide

theorem test_eth_commands_take_ten_ticks :
    [2#32, 3#32, 4#32, 5#32].map (fun w => fires (put eth0 1 w State.reset)) = [[10], [10], [10], [10]] := by decide

theorem test_eth_configure_completes :
    let s := (State.reset.setReg eth0 2 0x00810A0B#32).setReg eth0 3 0x0C0D0E0F#32
    let t := serve1 .tick (due s eth0 (startEth .configure))
    (match t.body eth0 with | .eth e => (e.mode, e.mac, e.pollArmed) | _ => (0#8, tcMac, false)) =
        (0x01#8, ⟨0x0A#8, 0x0B#8, 0x0C#8, 0x0D#8, 0x0E#8, 0x0F#8⟩, true) ∧
      t.queue = [{ fire := 200#64, seq := 1, target := eth0, kind := .poll }] := by decide

/-- One WRITENET completion of `n` bytes, of which the interface sends `sent`. -/
def writeNet (n : Word) (sent : Nat) : State :=
  let s := (State.reset.setReg eth0 2 0x20000000#32).setReg eth0 3 n
  serve1 .tick (due { s with tape := { s.tape with sent := [sent] } } eth0 (startEth .writeNet))

theorem test_eth_writenet_completes :
    (writeNet 60#32 60).reg eth0 0 = 1#32 ∧ (writeNet 60#32 59).reg eth0 0 = 6#32 ∧
    (writeNet 1515#32 0).reg eth0 0 = 6#32 ∧ (writeNet 1515#32 0).net = [] := by decide +kernel

/-- One READNET completion with the interface's answer. -/
def readNet (r : Recv) : State :=
  let s := State.reset.setReg eth0 2 0x20000000#32
  serve1 .tick (due { s with tape := { s.tape with recv := [r] } } eth0 (startEth .readNet))

/-- A packet, no packet and an error. -/
theorem test_eth_readnet_completes :
    (readNet ⟨2, [1#8, 2#8]⟩).reg eth0 3 = 2#32 ∧
    (readNet ⟨2, [1#8, 2#8]⟩).mem = [(0x20000000, 1#8), (0x20000001, 2#8)] ∧
    (readNet ⟨0, []⟩).reg eth0 0 = 1#32 ∧ (readNet ⟨-1, []⟩).reg eth0 3 = 0xFFFFFFFF#32 ∧
    (readNet ⟨-1, []⟩).reg eth0 0 = 5#32 := by decide +kernel

/-- A length below the number of bytes, as R1113 reads: the length goes to DATA1 and that many bytes to memory. -/
theorem test_eth_readnet_length_rules :
    (readNet ⟨1, [1#8, 2#8]⟩).reg eth0 3 = 1#32 ∧ (readNet ⟨1, [1#8, 2#8]⟩).mem = [(0x20000000, 1#8)] ∧
    (match (readNet ⟨1, [1#8, 2#8]⟩).body eth0 with | .eth e => e.pktbuf | _ => []) = [1#8, 2#8] ∧
    (bufferBytes 0 [1#8] 3).head? = some 1#8 ∧ (bufferBytes 0 [1#8] 3).length = 3 ∧
    (readNet ⟨3, [1#8]⟩).tape.drawn = 1 := by
  exact ⟨by decide +kernel, by decide +kernel, by decide +kernel, rfl, rfl, rfl⟩

theorem test_eth_illegal_keeps_readpending :
    (put eth0 1 6#32 (State.reset.setReg eth0 0 0x81#32)).reg eth0 0 = 0x82#32 := by decide

/-- One poll with the interface's answer. -/
def poll (waiting : Bool) : State :=
  let s := State.reset.mapBody eth0 (onEth fun e => { e with mode := 1#8, pollArmed := true })
  serve1 .tick { s with
    tod := 99#64, seq := 1, queue := [{ fire := 100#64, seq := 0, target := eth0, kind := .poll }]
    tape := { s.tape with waiting := [waiting] } }

theorem test_eth_poll :
    (poll true).reg eth0 0 = 0x81#32 ∧ (poll true).queue = [] ∧ (poll true).pend[(2 : Fin 5)] = 1#8 ∧
    (poll false).reg eth0 0 = 1#32 ∧ fires (poll false) = [200] := by decide +kernel

/-- `is_busy` is the OR over the halves of a terminal, and false of a NULL slot (R510, R508). -/
theorem test_is_busy :
    (put term0 3 0x4102#32 State.reset).isBusy term0 = true ∧ State.reset.isBusy term0 = false ∧
    (put printer0 1 2#32 State.reset).isBusy printer0 = true ∧ State.reset.isBusy null0 = false := by decide

/-- The conventional addresses of spec/93_implementation_defined.md G2, under TC. -/
theorem test_addresses :
    loadRequest Config.tc 0x10000054#32 .word = some (.load disk0 0#4 .word) ∧
    loadRequest Config.tc 0x100002CC#32 .word = some (.load { line := .l7, dev := 7 } 8#4 .word) ∧
    loadRequest Config.tc 0x1000001C#32 .word = some .readTodLo ∧
    storeRequest Config.tc 0x10000050#32 .word 1#32 = some (.writeBitmap .l7 1#32) ∧
    loadRequest Config.tc 0x100002D4#32 .word = none ∧ loadRequest Config.tc 0x1000001C#32 .half = none := by decide +kernel

/-! Router, clock and refusals: RT1 to RT6, RT10, EV4, EV6. -/

/-- EV2: two events due at once are dispatched one by one, the first scheduled first. -/
theorem test_two_events_at_once :
    let s := put printer1 1 2#32 (put printer0 1 2#32 State.reset)
    let t := serve1 .tick { s with tod := 7#64 }
    t.trace.drop 2 = [.statusChanged printer0, .statusChanged printer1] ∧ t.pend[(3 : Fin 5)] = 3#8 ∧ t.queue = [] := by
  decide +kernel

theorem test_null_slot_ignores_writes :
    (put null0 1 2#32 State.reset).reg null0 1 = 0#32 ∧ (put null0 2 2#32 State.reset).reg null0 2 = 0#32 := by decide

theorem test_status_and_geometry_ignore_writes :
    (put printer0 0 5#32 State.reset).reg printer0 0 = 1#32 ∧
    (put disk0 3 0xFFFFFFFF#32 State.reset).reg disk0 3 = 0x00640208#32 ∧
    (put eth0 3 60#32 State.reset).reg eth0 3 = 60#32 := by decide

theorem test_busy_device_ignores_commands :
    let s := put printer0 1 2#32 State.reset
    (put printer0 1 0#32 s).reg printer0 1 = 2#32 ∧ fires (put printer0 1 0#32 s) = [8] := by decide

theorem test_clock_at_the_top_is_fatal :
    (serve1 .tick { State.reset with tod := BitVec.allOnes 64 }).fatal = some .timeOverflow ∧
    (put disk0 1 0#32 { State.reset with tod := BitVec.ofNat 64 (2 ^ 64 - 10) }).fatal = some .timeOverflow := by decide

theorem test_tod_lo_wraps :
    (serve1 .readTodLo { State.reset with tod := BitVec.ofNat 64 (2 ^ 32 + 5) }).reply = .word 5#32 := by decide

theorem test_input_to_printer_is_fatal :
    (serve1 (.input printer0 [0x78#8]) State.reset).fatal = some .inputToNonTerminal := by decide

theorem test_refusals :
    refuses (.load disk0 0#4 .byte) .narrowAccess State.reset = true ∧
    refuses (.store disk0 2#4 .word 0#32) .unalignedAccess State.reset = true ∧
    refuses (.writeTodLo 0#32) .readOnlyWord State.reset = true ∧
    refuses (.writeBitmap .l6 0#32) .readOnlyWord State.reset = true ∧
    refuses (.work null0 false) .workOnNull State.reset = true ∧
    refuses .tick (.fatalState .badMagic) { State.reset with fatal := some .badMagic } = true := by decide

/-! Interrupts: IN1, IN5. -/

theorem test_bitmap_of_line_six :
    let s := (State.reset.irqRaise printer0).irqRaise printer1
    (serve1 (.readBitmap .l6) s).reply = .word 3#32 ∧
    (put printer0 1 1#32 s).pend[(3 : Fin 5)] = 2#8 ∧ (put printer0 1 1#32 s).lineBit .l6 = true := by decide

/-! DMA: DM1. -/

theorem test_dma_is_little_endian :
    Memory.writeBytes [] 0x20000000#32 (wordBytes .little 0x11223344#32) =
      [(0x20000000, 0x44#8), (0x20000001, 0x33#8), (0x20000002, 0x22#8), (0x20000003, 0x11#8)] := by decide

/-! Construction: RS1 to RS6. -/

theorem test_construct_tc : construct Config.tc tcSlotConfigs State.reset.tape = State.reset := by decide +kernel

/-- Construction of TC with one slot configured otherwise. -/
def construct1 (sl : Slot) (sc : SlotConfig) : State :=
  construct Config.tc (tcSlotConfigs.set sl.idx.val sc sl.idx.isLt) State.reset.tape

theorem test_construct_failures :
    (construct1 disk0 { SlotConfig.off with enabled := true, image := some { tcDiskImage with cells := [] } }).fatal =
      some .badMagic ∧
    (construct1 disk0 { SlotConfig.off with
      enabled := true, image := some { tcDiskImage with cells := writeCell 7 0#8 tcDiskImage.cells } }).fatal =
      some .badParams ∧
    (construct1 printer0 { SlotConfig.off with enabled := true }).fatal = some .imageOpenFailed := by decide +kernel

theorem test_construct_core_file_skips_a_word :
    (match parseFlash Config.tc { tcFlashImage with
        cells := tcFlashImage.cells ++ [(12, 0xC0#8), (13, 0x2E#8), (15, 0x01#8)] } with
      | .ok { body := .flash f, .. } => f.offBytes 7#24
      | _ => 0) = 28688 := by decide +kernel

theorem test_construct_polling :
    (construct1 eth0 { SlotConfig.off with enabled := true, net := some { mode := 1#8, mac := tcMac } }).queue =
      [{ fire := 100#64, seq := 0, target := eth0, kind := .poll }] := by decide +kernel

/-! Witnesses: for each statement with hypotheses, concrete states and operands that meet them, clause by clause, at the
boundaries of the operands' ranges. -/

/-- TC's disk, flash and other bodies right after reset. -/
def diskBody : Disk :=
  { cyls := 100, heads := 2, sects := 8, rotTime := 16000, seekTime := 100, dataPct := 80, dataOff := 7, curCyl := 0#32,
    cache := .invalid, buf := Block.zero, op := none, image := tcDiskImage }
def flashBody : Flash :=
  { blocks := 64, writeTime := 1000, dataOff := 3, cacheBlk := maxU32, buf := Block.zero, op := none,
    image := tcFlashImage }
def ethBody : Eth := { mode := 0#8, mac := tcMac, op := none, pktbuf := [], pollArmed := false }
def idleHalf : Half := { op := none, ctime := 0#64, ipend := false }
def termBody : Terminal := { rx := idleHalf, tx := idleHalf, rxbuf := [], log := [] }
def printerBody : Printer := { op := none, log := [] }

/-- Reset with one slot's body replaced. -/
def withBody (sl : Slot) (b : DeviceBody) : State := State.reset.mapBody sl fun _ => b

/-- A state whose next file or log operation fails. -/
def ioFails (s : State) : State :=
  { s with cfg := { s.cfg with hostIo := .oracle }, tape := { s.tape with ioFails := [true] } }

theorem idle_printer : Idle State.reset printer0 .single (.printer printerBody) := ⟨rfl, rfl, by decide⟩
theorem idle_rx : Idle State.reset term0 .rx (.terminal termBody) := ⟨rfl, rfl, by decide⟩
theorem idle_tx : Idle State.reset term0 .tx (.terminal termBody) := ⟨rfl, rfl, by decide⟩
theorem idle_disk : Idle State.reset disk0 .single (.disk diskBody) := ⟨rfl, rfl, by decide⟩
theorem idle_flash : Idle State.reset flash0 .single (.flash flashBody) := ⟨rfl, rfl, by decide⟩
theorem idle_eth : Idle State.reset eth0 .single (.eth ethBody) := ⟨rfl, rfl, by decide⟩

theorem witness_EncodeOfDecode : decode .disk disk0 0x00000503#32 = .ok (.diskReadblk disk0 0#8 5#8 0#8) := by decide

/-- The last legal and the first illegal op code of every port. -/
theorem witness_IllegalExactlyOutsideTheTable :
    [Port.printer, .termRx, .termTx, .disk, .flash, .eth].map Port.opCount = [3, 3, 3, 5, 4, 6] ∧
    (opField 5#32).toNat < Port.eth.opCount ∧ Port.eth.opCount ≤ (opField 6#32).toNat ∧
    (opField 2#32).toNat < Port.printer.opCount ∧ Port.printer.opCount ≤ (opField 0xFF#32).toNat := by decide

theorem witness_IgnoredBitsOnlyReachTheCommandRegister :
    State.reset.fatal = none ∧ State.reset.kind printer0 = some Port.printer.kind ∧
      State.reset.busy printer0 Port.printer.sub = false ∧
      ∃ u, exec (Instr.printerPrntchr printer0 0xFFFFFF#24).clearIgn State.reset = .next u := ⟨rfl, rfl, by decide, _, rfl⟩

theorem witness_StepRunsTheDecodedCommand :
    let s : State := { State.reset with script := [.store term0 12#4 .word 0x5A02#32] }
    s.fatal = none ∧ s.script = .store term0 12#4 .word 0x5A02#32 :: [] ∧ (12#4).extractLsb' 0 2 = 0#2 ∧ s.kind term0 = some .terminal ∧
      portAt .terminal (regIndex 12#4) = some .termTx ∧ s.busy term0 .tx = false ∧
      decode .termTx term0 0x5A02#32 = .ok (.termTxTranchr term0 0x5A#8 0#16) := by decide

theorem witness_IllegalCommandFailsAtOnce :
    ∀ x ∈ [(Port.printer, printer0, 3#32), (.termRx, term0, 3#32), (.termTx, term0, 0xFF#32), (.disk, disk0, 5#32),
      (.flash, flash0, 4#32), (.eth, eth0, 6#32)],
      State.reset.fatal = none ∧ State.reset.kind x.2.1 = some x.1.kind ∧ State.reset.busy x.2.1 x.1.sub = false ∧
        x.1.opCount ≤ (opField x.2.2).toNat := by decide

theorem witness_RegisterWriteRouting :
    State.reset.kind null0 = none ∧
    (let s := put printer0 1 2#32 State.reset
     s.fatal = none ∧ s.kind printer0 = some .printer ∧ s.busy printer0 .single = true) ∧
    (∀ x ∈ [(printer0, DevKind.printer), (term0, .terminal), (disk0, .disk), (flash0, .flash), (eth0, .eth)],
      State.reset.kind x.1 = some x.2 ∧ ∀ i : Fin 4, State.reset.busy x.1 (subOfIndex (some x.2) i) = false) := by decide

/-- A state with one request. -/
def asked (r : Request) : State := { State.reset with script := [r] }

theorem reset_null_regs : NullOk (asked (.load null0 12#4 .word)) := by
  intro sl h i
  have key : ∀ k : Fin 40, tcSlots[k].body.kind = none → tcSlots[k].regs = Vector.replicate 4 0#32 := by decide +kernel
  have := key sl.idx h
  show ((tcSlots[sl.idx]).regs)[i] = _
  rw [this]
  simp

theorem witness_ReadsAnswerAndChangeNothing :
    (asked (.load null0 12#4 .word)).fatal = none ∧ (12#4).extractLsb' 0 2 = 0#2 ∧
      NullOk (asked (.load null0 12#4 .word)) ∧ (asked (.load null0 12#4 .word)).kind null0 = none ∧
      (asked .readTodLo).script = [.readTodLo] ∧ (asked (.readBitmap .l7)).script = [.readBitmap .l7] ∧
      (asked .nextFireTime).script = [.nextFireTime] :=
  ⟨rfl, by decide, reset_null_regs, by decide, rfl, rfl, rfl⟩

/-- Under TC no two windows overlap, and no status word lies in a window. -/
theorem witness_AddressesNameRegisters :
    (∀ x y, x ≠ y → 16 ≤ (devRegAddr Config.tc x - devRegAddr Config.tc y).toNat) ∧
    (∀ sl, 16 ≤ (Config.tc.todLoAddr - devRegAddr Config.tc sl).toNat) ∧
    (∀ l sl, 16 ≤ (bitmapAddr Config.tc l - devRegAddr Config.tc sl).toNat) ∧
    (∀ l, bitmapAddr Config.tc l ≠ Config.tc.todLoAddr) ∧
    ∀ l m, m ≠ l → bitmapAddr Config.tc m ≠ bitmapAddr Config.tc l := by
  have key : ∀ i j : Fin 40, i ≠ j → 16 ≤ (Config.tc.devRegAddr[i] - Config.tc.devRegAddr[j]).toNat := by decide +kernel
  have tod : ∀ i : Fin 40, 16 ≤ (Config.tc.todLoAddr - Config.tc.devRegAddr[i]).toNat := by decide +kernel
  have maps : ∀ (l : Fin 5) (i : Fin 40), 16 ≤ (Config.tc.bitmapAddr[l] - Config.tc.devRegAddr[i]).toNat := by
    decide +kernel
  refine ⟨fun x y h => key _ _ fun e => h (Slot.idx_inj e), fun sl => tod _, fun l sl => maps _ _, ?_, ?_⟩
  · intro l
    cases l <;> decide +kernel
  · intro l m h
    cases l <;> cases m <;> first | exact absurd rfl h | decide +kernel

theorem witness_RefusedRequests :
    ({ State.reset with fatal := some .invariant } : State).fatal = some .invariant ∧
    (asked (.load disk0 0#4 .half)).fatal = none ∧ Width.half ≠ .word ∧ Width.byte ≠ .word ∧
      (1#4).extractLsb' 0 2 ≠ 0#2 ∧ (15#4).extractLsb' 0 2 ≠ 0#2 ∧ (asked (.work null0 true)).kind null0 = none := by
  decide

/-- A state with one event, at the given time, and the clock at the given time. -/
def clocked (tod fire : Time) : State :=
  { put printer0 1 2#32 State.reset with
    script := [.tick], tod := tod, queue := [{ fire := fire, seq := 0, target := printer0, kind := .complete }] }

theorem queueOk_clocked (tod fire : Time) (h : tod ≤ fire) : QueueOk (clocked tod fire) where
  sorted := by simp [clocked]
  seqs e he := by
    simp only [clocked, List.mem_singleton] at he
    subst he
    show 0 < (put printer0 1 2#32 State.reset).seq
    decide
  future _ e he := by
    simp only [clocked, List.mem_singleton] at he
    subst he
    exact h

theorem witness_Tick :
    (clocked 99#64 100#64).fatal = none ∧ (clocked 99#64 100#64).script = [.tick] ∧
    (clocked (BitVec.allOnes 64) (BitVec.allOnes 64)).tod.toNat = 2 ^ 64 - 1 ∧
    (clocked (BitVec.allOnes 64 - 1#64) (BitVec.allOnes 64)).tod.toNat < 2 ^ 64 - 1 ∧
    (∀ e ∈ (clocked 98#64 100#64).queue, (clocked 98#64 100#64).tod.toNat + 1 < e.fire.toNat) ∧
    QueueOk (clocked 99#64 100#64) ∧ 1 ≤ Config.tc.clockRate ∧ 1 ≤ Config.tc.pollNetTime ∧
    (∃ e, (clocked 99#64 100#64).queue = [e] ∧ e.fire.toNat = (clocked 99#64 100#64).tod.toNat + 1) :=
  ⟨by decide, rfl, by decide, by decide, by decide, queueOk_clocked _ _ (by decide), by decide, by decide, _, rfl, by decide⟩

theorem witness_HostPorts :
    (asked (.work printer0 false)).fatal = none ∧ (asked (.work printer0 false)).kind printer0 ≠ none ∧
    State.reset.working printer0 = true ∧ State.reset.working printer0 ≠ false ∧
    State.reset.body term0 = .terminal termBody ∧ State.reset.drawIo.1 = false ∧ (ioFails State.reset).drawIo.1 = true ∧
    (ioFails State.reset).body term0 = .terminal termBody ∧ State.reset.kind printer0 ≠ some .terminal :=
  ⟨rfl, by decide, by decide, by decide, rfl, rfl, rfl, rfl, by decide⟩

theorem witness_ScheduleInsertsInKeyOrder :
    let s := clocked (BitVec.ofNat 64 (2 ^ 64 - 10)) (BitVec.ofNat 64 (2 ^ 64 - 1))
    InTime s 9 ∧ ¬ InTime s 10 ∧ QueueOk s :=
  ⟨by unfold InTime; decide, by unfold InTime; decide, queueOk_clocked _ _ (by decide)⟩

theorem witness_RunDueDispatchesTheEarliest :
    State.reset.queue = [] ∧ QueueOk (clocked 100#64 100#64) ∧ QueueOk (clocked 99#64 100#64) ∧
    (∃ e, (clocked 100#64 100#64).queue = [e] ∧ e.fire.toNat ≤ (clocked 100#64 100#64).tod.toNat) ∧
    (∃ e, (clocked 99#64 100#64).queue = [e] ∧ (clocked 99#64 100#64).tod.toNat < e.fire.toNat) :=
  ⟨rfl, queueOk_clocked _ _ (by decide), queueOk_clocked _ _ (by decide), ⟨_, rfl, by decide⟩, ⟨_, rfl, by decide⟩⟩

/-- A due event, nothing due, and both policies. -/
theorem witness_DispatchLoop :
    State.reset.cfg.zeroDelay = .sameStep ∧
    { Config.tc with zeroDelay := ZeroDelayPolicy.nextTick }.zeroDelay = .nextTick ∧
    runDue State.reset = none ∧
    (clocked 100#64 100#64).fatal = none ∧
    (∃ e rest, (clocked 100#64 100#64).queue = e :: rest ∧ e.fire.toNat ≤ (clocked 100#64 100#64).tod.toNat) ∧
    1 ≤ (clocked 100#64 100#64).cfg.clockRate ∧ 1 ≤ (clocked 100#64 100#64).cfg.pollNetTime ∧
    (clocked 100#64 100#64).queue.Pairwise (fun a b => a.before b = true) ∧
    (∀ e ∈ (clocked 100#64 100#64).queue, e.seq < (clocked 100#64 100#64).seq) ∧
    ∃ t, settle (clocked 100#64 100#64) = .next t ∧ t.fatal = none :=
  ⟨rfl, rfl, rfl, rfl, ⟨_, _, rfl, by decide⟩, by decide, by decide, (queueOk_clocked _ _ (by decide)).sorted,
    (queueOk_clocked _ _ (by decide)).seqs, _, rfl, by decide⟩

theorem witness_PrinterCommandsAccepted :
    (∃ p, (put printer0 1 2#32 State.reset).body printer0 = .printer p) ∧
    (put printer0 1 2#32 State.reset).busy printer0 .single = true ∧
    Idle State.reset printer0 .single (.printer printerBody) ∧ InTime State.reset (40 * State.reset.cfg.clockRate) ∧
    InTime State.reset (8 * State.reset.cfg.clockRate) :=
  ⟨⟨_, rfl⟩, by decide, idle_printer, by unfold InTime; decide, by unfold InTime; decide⟩

theorem witness_PrinterCompletions :
    let p := fun o => withBody printer0 (.printer { printerBody with op := some o })
    (p .reset).fatal = none ∧ (p .reset).body printer0 = .printer { printerBody with op := some .reset } ∧
    (p .print).body printer0 = .printer { printerBody with op := some .print } ∧ (p .print).working printer0 = true ∧
    (p .print).drawIo.1 = false ∧ (ioFails (p .print)).working printer0 = true ∧
    (ioFails (p .print)).drawIo.1 = true ∧ ((p .print).setWorking printer0 false).working printer0 = false :=
  ⟨rfl, rfl, rfl, by decide, rfl, by decide, rfl, by decide⟩

theorem witness_ReceiveCommandsAccepted :
    Idle State.reset term0 .rx (.terminal termBody) ∧ InTime State.reset (400 * State.reset.cfg.clockRate) ∧
      InTime State.reset (80 * State.reset.cfg.clockRate) :=
  ⟨idle_rx, by unfold InTime; decide, by unfold InTime; decide⟩

theorem witness_TransmitCommandsAccepted :
    Idle State.reset term0 .tx (.terminal termBody) ∧ InTime State.reset (400 * State.reset.cfg.clockRate) ∧
      InTime State.reset (80 * State.reset.cfg.clockRate) :=
  ⟨idle_tx, by unfold InTime; decide, by unfold InTime; decide⟩

/-- TC's terminal with the given halves and input. -/
def termWith (rx tx : Half) (input : List Byte) : Terminal := { termBody with rx := rx, tx := tx, rxbuf := input }
def resetAt (t : Time) : Half := { idleHalf with op := some .reset, ctime := t }
def charAt (t : Time) : Half := { idleHalf with op := some .char, ctime := t }

/-- Equal times go to the receive half; the transmit half must be strictly earlier. -/
theorem witness_TerminalCompletionChoice :
    let x := termWith (resetAt 10#64) (charAt 10#64) []
    let y := termWith (charAt 10#64) (resetAt 9#64) []
    let z := termWith idleHalf (resetAt 10#64) []
    (withBody term0 (.terminal x)).fatal = none ∧ (withBody term0 (.terminal x)).body term0 = .terminal x ∧
    (x.half .rx).op = some .reset ∧ x.rx.ctime.toNat ≤ x.tx.ctime.toNat ∧
    (y.half .tx).op = some .reset ∧ y.tx.ctime.toNat < y.rx.ctime.toNat ∧
    (z.half .tx).op = some .reset ∧ (z.other .tx).op = none ∧ termBody.rx.op = none ∧ termBody.tx.op = none :=
  ⟨rfl, rfl, rfl, by decide, rfl, by decide, rfl, rfl, rfl, rfl⟩

theorem witness_ReceiveCompletion :
    let x := fun i => termWith (charAt 10#64) (charAt 10#64) i
    let s := fun i => withBody term0 (.terminal (x i))
    (s []).fatal = none ∧ (s []).body term0 = .terminal (x []) ∧ (x []).rx.op = some .char ∧
    (x []).rx.ctime.toNat ≤ (x []).tx.ctime.toNat ∧ InTime (s []) (80 * (s []).cfg.clockRate) ∧
    (x [7#8]).rxbuf = [7#8] ∧ (s [7#8]).working term0 = true ∧ (x [7#8]).rxbuf ≠ [] ∧
    ((s [7#8]).setWorking term0 false).working term0 = false :=
  ⟨rfl, rfl, rfl, by decide, by unfold InTime; decide, rfl, by decide, by decide, by decide⟩

theorem witness_TransmitCompletion :
    let x := termWith (charAt 10#64) (charAt 9#64) []
    let s := withBody term0 (.terminal x)
    s.fatal = none ∧ s.body term0 = .terminal x ∧ x.tx.op = some .char ∧ x.tx.ctime.toNat < x.rx.ctime.toNat ∧
    s.working term0 = true ∧ s.drawIo.1 = false ∧ (ioFails s).working term0 = true ∧ (ioFails s).drawIo.1 = true ∧
    (s.setWorking term0 false).working term0 = false :=
  ⟨rfl, rfl, rfl, by decide, by decide, rfl, by decide, rfl, by decide⟩

theorem witness_DiskResetAndAckAccepted :
    Idle State.reset disk0 .single (.disk diskBody) ∧
      InTime State.reset ((400 + diskBody.seekTime * diskBody.curCyl.toNat) * State.reset.cfg.clockRate) :=
  ⟨idle_disk, by unfold InTime; decide⟩

/-- The last cylinder of the disk and the one after it. -/
theorem witness_DiskSeekAccepted :
    Idle State.reset disk0 .single (.disk diskBody) ∧ (99#16).toNat < diskBody.cyls ∧
      InTime State.reset (diskBody.seekTime * (max (99#16).toNat diskBody.curCyl.toNat -
        min (99#16).toNat diskBody.curCyl.toNat) * State.reset.cfg.clockRate) ∧ diskBody.cyls ≤ (100#16).toNat :=
  ⟨idle_disk, by decide, by unfold InTime; decide, by decide⟩

/-- TC's disk with a cached sector, or with a rotation too short for its sectors. -/
def cachedDisk : Disk := { diskBody with cache := { cyl := 0#32, head := 1#32, sect := 7#32 } }
def stoppedDisk : Disk := { diskBody with rotTime := 7 }

/-- The last head and sector of the disk, and the ones after them. -/
theorem witness_DiskReadAccepted :
    Idle State.reset disk0 .single (.disk diskBody) ∧ diskBody.heads ≤ (2#8).toNat ∧ diskBody.sects ≤ (8#8).toNat ∧
    (1#8).toNat < diskBody.heads ∧ (7#8).toNat < diskBody.sects ∧
    Idle (withBody disk0 (.disk cachedDisk)) disk0 .single (.disk cachedDisk) ∧
    cachedDisk.cache = { cyl := cachedDisk.curCyl, head := (1#8).setWidth 32, sect := (7#8).setWidth 32 } ∧
    InTime (withBody disk0 (.disk cachedDisk)) Config.tc.dmaTicks ∧
    diskBody.cache ≠ { cyl := diskBody.curCyl, head := (1#8).setWidth 32, sect := (7#8).setWidth 32 } ∧
    0 < diskBody.rotTime * Config.tc.clockRate / diskBody.sects ∧ InTime State.reset 13947 ∧
    Idle (withBody disk0 (.disk stoppedDisk)) disk0 .single (.disk stoppedDisk) ∧
    stoppedDisk.cache ≠ { cyl := stoppedDisk.curCyl, head := (1#8).setWidth 32, sect := (7#8).setWidth 32 } ∧
    stoppedDisk.rotTime * Config.tc.clockRate / stoppedDisk.sects = 0 :=
  ⟨idle_disk, by decide, by decide, by decide, by decide, ⟨rfl, rfl, by decide⟩, by decide, by unfold InTime; decide,
    by decide, by decide, by unfold InTime; decide, ⟨rfl, rfl, by decide⟩, by decide, by decide⟩

/-- Reset with the DMA address of one slot; the whole of a block inside TC's memory, or its last byte outside. -/
def dmaAt (sl : Slot) (a : Word) : State := State.reset.setReg sl 2 a

theorem witness_DiskWriteAccepted :
    let s := dmaAt disk0 0x2000F000#32
    let f := dmaAt disk0 0x2000F001#32
    Idle s disk0 .single (.disk diskBody) ∧ Idle f disk0 .single (.disk diskBody) ∧
    diskBody.heads ≤ (2#8).toNat ∧ diskBody.sects ≤ (8#8).toNat ∧ (1#8).toNat < diskBody.heads ∧
    (7#8).toNat < diskBody.sects ∧ (f.decodeFails (f.reg disk0 2) 4096).1 = true ∧
    (s.decodeFails (s.reg disk0 2) 4096).1 = false ∧ 0 < diskBody.rotTime * s.cfg.clockRate / diskBody.sects ∧
    InTime s 13947 ∧
    (let z := s.mapBody disk0 fun _ => .disk stoppedDisk
     Idle z disk0 .single (.disk stoppedDisk) ∧ (z.decodeFails (z.reg disk0 2) 4096).1 = false ∧
       stoppedDisk.rotTime * z.cfg.clockRate / stoppedDisk.sects = 0) :=
  ⟨⟨rfl, rfl, by decide⟩, ⟨rfl, rfl, by decide⟩, by decide, by decide, by decide, by decide, by decide, by decide,
    by decide, by unfold InTime; decide, ⟨rfl, rfl, by decide⟩, by decide, by decide⟩

/-- Reset with an operation of the disk in progress. -/
def diskDoing (o : DiskOp) : State := withBody disk0 (.disk { diskBody with op := some o })

theorem witness_DiskResetAndSeekCompletions :
    (diskDoing .reset).fatal = none ∧ (diskDoing .reset).body disk0 = .disk { diskBody with op := some .reset } ∧
    (diskDoing (.seek 99#16)).body disk0 = .disk { diskBody with op := some (.seek 99#16) } ∧
    (diskDoing (.seek 99#16)).working disk0 = true ∧
    ((diskDoing (.seek 99#16)).setWorking disk0 false).working disk0 = false :=
  ⟨rfl, rfl, rfl, by decide, by decide⟩

theorem witness_DiskReadCompletion :
    let s := fun hit a => (diskDoing (.read 1#8 7#8 hit)).setReg disk0 2 a
    (s false 0#32).fatal = none ∧ (s false 0#32).body disk0 = .disk { diskBody with op := some (.read 1#8 7#8 false) } ∧
    (s false 0#32).mem.wf ∧ diskBody.buf.length = 1024 ∧
    ((s false 0#32).setWorking disk0 false).working disk0 = false ∧ (s false 0#32).working disk0 = true ∧
    (ioFails (s false 0#32)).drawIo.1 = true ∧ ({ tcDiskImage with size := 28 } : File).size < 28 + 15 * 4096 + 4096 ∧
    (s false 0#32).drawIo.1 = false ∧ 28 + 15 * 4096 + 4096 ≤ tcDiskImage.size ∧
    ((s false 0#32).drawIo.2.decodeFails 0x2000F001#32 4096).1 = true ∧
    ((s true 0#32).decodeFails 0x2000F000#32 4096).1 = false :=
  ⟨rfl, rfl, by decide, List.length_replicate, by decide, by decide, rfl, by decide, rfl,
    by decide, rfl, by decide⟩

theorem tcDiskImage_wf : tcDiskImage.wf := by decide
theorem tcFlashImage_wf : tcFlashImage.wf := by decide

theorem witness_DiskWriteCompletion :
    let s := diskDoing (.write 1#8 7#8)
    s.fatal = none ∧ s.body disk0 = .disk { diskBody with op := some (.write 1#8 7#8) } ∧ tcDiskImage.wf ∧
    diskBody.buf.length = 1024 ∧ (s.setWorking disk0 false).working disk0 = false ∧ s.working disk0 = true ∧
    (ioFails s).working disk0 = true ∧ (ioFails s).drawIo.1 = true ∧ s.drawIo.1 = false :=
  ⟨rfl, rfl, tcDiskImage_wf, List.length_replicate, by decide, by decide, by decide, rfl, rfl⟩

theorem witness_FlashResetAndAckAccepted :
    Idle State.reset flash0 .single (.flash flashBody) ∧ InTime State.reset (400 * State.reset.cfg.clockRate) :=
  ⟨idle_flash, by unfold InTime; decide⟩

/-- The last block of the flash and the one after it. -/
theorem witness_FlashReadAccepted :
    let c : Flash := { flashBody with cacheBlk := 63#32 }
    Idle State.reset flash0 .single (.flash flashBody) ∧ flashBody.blocks ≤ (64#24).toNat ∧
    (63#24).toNat < flashBody.blocks ∧ flashBody.cacheBlk ≠ (63#24).setWidth 32 ∧ InTime State.reset 502 ∧
    Idle (withBody flash0 (.flash c)) flash0 .single (.flash c) ∧ c.cacheBlk = (63#24).setWidth 32 ∧
    InTime (withBody flash0 (.flash c)) Config.tc.dmaTicks :=
  ⟨idle_flash, by decide, by decide, by decide, by unfold InTime; decide, ⟨rfl, rfl, by decide⟩, by decide,
    by unfold InTime; decide⟩

theorem witness_FlashWriteAccepted :
    let s := dmaAt flash0 0x2000F000#32
    let f := dmaAt flash0 0x2000F001#32
    Idle s flash0 .single (.flash flashBody) ∧ Idle f flash0 .single (.flash flashBody) ∧
    flashBody.blocks ≤ (64#24).toNat ∧ (63#24).toNat < flashBody.blocks ∧
    (f.decodeFails (f.reg flash0 2) 4096).1 = true ∧ (s.decodeFails (s.reg flash0 2) 4096).1 = false ∧
    InTime s (flashBody.writeTime * s.cfg.clockRate + s.cfg.dmaTicks) :=
  ⟨⟨rfl, rfl, by decide⟩, ⟨rfl, rfl, by decide⟩, by decide, by decide, by decide, by decide, by unfold InTime; decide⟩

/-- Reset with an operation of the flash in progress. -/
def flashDoing (o : FlashOp) : State := withBody flash0 (.flash { flashBody with op := some o })

theorem witness_FlashResetAndReadCompletions :
    let s := fun hit => flashDoing (.read 63#24 hit)
    (flashDoing .reset).fatal = none ∧ (flashDoing .reset).body flash0 = .flash { flashBody with op := some .reset } ∧
    (s false).body flash0 = .flash { flashBody with op := some (.read 63#24 false) } ∧ (s false).mem.wf ∧
    flashBody.buf.length = 1024 ∧ ((s false).setWorking flash0 false).working flash0 = false ∧
    (s false).working flash0 = true ∧ (ioFails (s false)).drawIo.1 = true ∧
    tcFlashImage.size < (4 + 63 * 1024) * 4 + 4096 ∧ (s false).drawIo.1 = false ∧
    (3 + 63 * 1024) * 4 + 4096 ≤ tcFlashImage.size ∧ ((s true).decodeFails ((s true).reg flash0 2) 4096).1 = true ∧
    (((s true).setReg flash0 2 0x20000000#32).decodeFails
      (((s true).setReg flash0 2 0x20000000#32).reg flash0 2) 4096).1 = false :=
  ⟨rfl, rfl, rfl, by decide, List.length_replicate, by decide, by decide, rfl, by decide, rfl,
    by decide, by decide, by decide⟩

theorem witness_FlashWriteCompletion :
    let s := flashDoing (.write 63#24)
    s.fatal = none ∧ s.body flash0 = .flash { flashBody with op := some (.write 63#24) } ∧ tcFlashImage.wf ∧
    flashBody.buf.length = 1024 ∧ (s.setWorking flash0 false).working flash0 = false ∧ s.working flash0 = true ∧
    (ioFails s).working flash0 = true ∧ (ioFails s).drawIo.1 = true ∧ s.drawIo.1 = false :=
  ⟨rfl, rfl, tcFlashImage_wf, List.length_replicate, by decide, by decide, by decide, rfl, rfl⟩

theorem witness_EthernetTimedCommandsAccepted :
    Idle State.reset eth0 .single (.eth ethBody) ∧
    (∀ d ∈ [Config.tc.ethResetTime, Config.tc.ethReadConfTime, Config.tc.ethReadNetTime, Config.tc.ethWriteNetTime,
      Config.tc.ethConfigureTime], InTime State.reset (d * State.reset.cfg.clockRate)) :=
  ⟨idle_eth, by unfold InTime; decide⟩

theorem witness_EthernetAckAccepted :
    Idle State.reset eth0 .single (.eth ethBody) ∧
      InTime State.reset (State.reset.cfg.pollNetTime * State.reset.cfg.clockRate) :=
  ⟨idle_eth, by unfold InTime; decide⟩

/-- Reset with an operation of the ethernet device in progress. -/
def ethDoing (o : EthOp) : State := withBody eth0 (.eth { ethBody with op := some o })

theorem witness_EthernetResetCompletion :
    (ethDoing .reset).fatal = none ∧ (ethDoing .reset).body eth0 = .eth { ethBody with op := some .reset } ∧
      InTime (ethDoing .reset) (Config.tc.pollNetTime * Config.tc.clockRate) :=
  ⟨rfl, rfl, by unfold InTime; decide⟩

theorem witness_EthernetReadConfCompletion :
    (ethDoing .readConf).fatal = none ∧ (ethDoing .readConf).body eth0 = .eth { ethBody with op := some .readConf } ∧
      ethBody.mode.getLsbD 7 = false := ⟨rfl, rfl, by decide⟩

theorem witness_EthernetConfigureCompletion :
    (ethDoing .configure).fatal = none ∧
      (ethDoing .configure).body eth0 = .eth { ethBody with op := some .configure } ∧
      InTime (ethDoing .configure) (Config.tc.pollNetTime * Config.tc.clockRate) :=
  ⟨rfl, rfl, by unfold InTime; decide⟩

theorem witness_EthernetConfigurationRoundTrip : (0x00810011#32).extractLsb' 24 8 = 0#8 := by decide

/-- The longest packet and one byte more; a decodable and an undecodable source. -/
theorem witness_EthernetWriteNetCompletion :
    let s := fun a n => ((ethDoing .writeNet).setReg eth0 2 a).setReg eth0 3 n
    (s 0#32 0#32).fatal = none ∧ (s 0#32 0#32).body eth0 = .eth { ethBody with op := some .writeNet } ∧
    ((s 0#32 0#32).setWorking eth0 false).working eth0 = false ∧
    (s 0#32 1515#32).cfg.ethMaxPacket < ((s 0#32 1515#32).reg eth0 3).toNat ∧ (s 0#32 1514#32).working eth0 = true ∧
    ((s 0#32 1514#32).reg eth0 3).toNat ≤ (s 0#32 1514#32).cfg.ethMaxPacket ∧
    ((s 0#32 1514#32).decodeFails ((s 0#32 1514#32).reg eth0 2) 1514).1 = true ∧
    ((s 0x20000000#32 1514#32).decodeFails ((s 0x20000000#32 1514#32).reg eth0 2) 1514).1 = false :=
  ⟨rfl, rfl, by decide, by decide, by decide, by decide, by decide, by decide⟩

/-- The ethernet device's READNET in progress, with the interface's answer and the DMA address. -/
def receiving (r : Recv) (a : Word) : State :=
  let s := (ethDoing .readNet).setReg eth0 2 a
  { s with tape := { s.tape with recv := [r] } }

theorem witness_EthernetReadNetCompletion :
    (receiving ⟨0, []⟩ 0#32).fatal = none ∧
    (receiving ⟨0, []⟩ 0#32).body eth0 = .eth { ethBody with op := some .readNet } ∧
    (receiving ⟨0, []⟩ 0#32).mem.wf ∧ ((receiving ⟨0, []⟩ 0#32).setWorking eth0 false).working eth0 = false ∧
    (receiving ⟨0, []⟩ 0#32).working eth0 = true ∧ (receiving ⟨0, []⟩ 0#32).drawRecv.1.len = 0 ∧
    (receiving ⟨-1, []⟩ 0#32).drawRecv.1.len < 0 ∧ 0 < (receiving ⟨1, [7#8]⟩ 0#32).drawRecv.1.len ∧
    ((receiving ⟨1, [7#8]⟩ 0#32).drawRecv.2.decodeFails 0#32 1).1 = true ∧
    ((receiving ⟨1, [7#8]⟩ 0x2000FFFF#32).drawRecv.2.decodeFails 0x2000FFFF#32 1).1 = false ∧
    (receiving ⟨1, [7#8]⟩ 0#32).drawRecv.1.len ≤ (receiving ⟨1, [7#8]⟩ 0#32).drawRecv.1.bytes.length :=
  ⟨rfl, rfl, by decide, by decide, by decide, rfl, by decide, by decide, by decide, by decide, by decide⟩

theorem witness_EthernetPoll :
    let e : Eth := { ethBody with mode := 1#8, pollArmed := true }
    let b : Eth := { e with op := some .readConf }
    let s := fun w => { withBody eth0 (.eth e) with tape := { State.reset.tape with waiting := [w] } }
    (s true).fatal = none ∧ (s true).body eth0 = .eth e ∧ InTime (s true) (Config.tc.pollNetTime * Config.tc.clockRate) ∧
    ethBody.mode &&& Config.tc.ethModeInterrupt = 0#8 ∧ e.mode &&& Config.tc.ethModeInterrupt ≠ 0#8 ∧ b.op ≠ none ∧
    (((s true).setReg eth0 0 0x81#32).reg eth0 0).getLsbD 7 = true ∧ e.op = none ∧
    ((s true).reg eth0 0).getLsbD 7 = false ∧ (s true).drawWaiting.1 = true ∧ (s false).drawWaiting.1 = false :=
  ⟨rfl, rfl, by unfold InTime; decide, by decide, by decide, by decide, by decide, rfl, by decide, rfl, rfl⟩

theorem witness_InterruptRaiseAndAcknowledge :
    State.reset.body term0 = .terminal termBody ∧ Sub.rx ≠ .single ∧ Sub.tx ≠ .single ∧ null0 ≠ term0 :=
  ⟨rfl, by decide, by decide, by decide⟩

theorem witness_BlockDma :
    State.reset.mem.wf ∧ Block.zero.length = 1024 ∧ (State.reset.decodeFails 0x2000F000#32 4096).1 = false ∧
      (State.reset.decodeFails 0x2000F001#32 4096).1 = true := ⟨by decide, List.length_replicate, by decide, by decide⟩

theorem witness_ImageBlockRoundTrip : tcFlashImage.wf ∧ Block.zero.length = 1024 := ⟨tcFlashImage_wf, List.length_replicate⟩

/-- The header of TC's disk with one byte changed. -/
def diskHeader (k : Nat) (b : Byte) : File := { tcDiskImage with cells := writeCell k b tcDiskImage.cells }

theorem witness_ImageHeaderParsing :
    let w := fun (f : File) k => (f.wordAt Config.tc.imageByteOrder (4 * k)).toNat
    Config.tc.wf = true ∧ ({ tcDiskImage with size := 27 } : File).size < 28 ∧
    (diskHeader 0 0#8).wordAt Config.tc.imageByteOrder 0 ≠ Config.tc.diskFileId ∧ 28 ≤ tcDiskImage.size ∧
    tcDiskImage.wordAt Config.tc.imageByteOrder 0 = Config.tc.diskFileId ∧
    [w tcDiskImage 1, w tcDiskImage 2, w tcDiskImage 3, w tcDiskImage 6] = [100, 2, 8, 80] ∧
    w (diskHeader 7 0#8) 1 = 0 ∧ w (diskHeader 27 101#8) 6 = 101 ∧
    ({ tcFlashImage with size := 11 } : File).size < 12 ∧ 12 ≤ tcFlashImage.size ∧
    tcFlashImage.wordAt Config.tc.imageByteOrder 0 = Config.tc.flashFileId ∧ w tcFlashImage 1 = 64 ∧
    w { tcFlashImage with cells := writeCell 7 0#8 tcFlashImage.cells } 1 = 0 := by decide +kernel

theorem tcImages_wf : ∀ i : Fin 40, ∀ f, tcSlotConfigs[i].image = some f → f.wf := by
  have key : ∀ i : Fin 40, tcSlotConfigs[i].image ∈ [none, some tcDiskImage, some tcFlashImage] := by decide +kernel
  intro i f h
  have := key i
  rw [h] at this
  simp only [List.mem_cons, reduceCtorEq, Option.some.injEq, List.mem_nil_iff, or_false, false_or] at this
  rcases this with rfl | rfl
  · exact tcDiskImage_wf
  · exact tcFlashImage_wf

theorem tc_builds : ∀ sl : Slot, ∃ d, buildSlot Config.tc sl tcSlotConfigs[sl.idx] = .ok d := by
  have key : ∀ l ∈ [Line.l3, .l4, .l5, .l6, .l7], ∀ d : Fin 8,
      (match buildSlot Config.tc { line := l, dev := d } tcSlotConfigs[({ line := l, dev := d } : Slot).idx] with
        | .ok _ => true | .error _ => false) = true := by decide +kernel
  intro sl
  have := key sl.line (by cases sl.line <;> decide) sl.dev
  cases h : buildSlot Config.tc sl tcSlotConfigs[sl.idx] with
  | ok d => exact ⟨d, rfl⟩
  | error r =>
    have h' : buildSlot Config.tc { line := sl.line, dev := sl.dev }
        tcSlotConfigs[({ line := sl.line, dev := sl.dev } : Slot).idx] = .error r := h
    rw [h'] at this
    exact absurd this Bool.false_ne_true

theorem witness_ConstructedState :
    (∀ sl : Slot, ∃ d, buildSlot Config.tc sl tcSlotConfigs[sl.idx] = .ok d) ∧
    Config.tc.pollNetTime * Config.tc.clockRate < 2 ^ 64 ∧
    buildSlot Config.tc printer0 { SlotConfig.off with enabled := true } = .error .imageOpenFailed :=
  ⟨tc_builds, by decide, rfl⟩

theorem witness_ConstructionEstablishesTheInvariant :
    Config.tc.wf = true ∧ ∀ i : Fin 40, ∀ f, tcSlotConfigs[i].image = some f → f.wf := ⟨by decide, tcImages_wf⟩

/-! A small state of every kind, which satisfies the whole invariant: a printer printing, a terminal with a raised
request of its transmit half, a disk and a flash about to deliver a hit, an ethernet device that polls. -/

def zooDisk : Disk :=
  { cyls := 1, heads := 1, sects := 1, rotTime := 16000, seekTime := 100, dataPct := 80, dataOff := 7, curCyl := 0#32,
    cache := { cyl := 0#32, head := 0#32, sect := 0#32 }, buf := File.blockAt { size := 4124, cells := [(28, 1#8)] } .big 28,
    op := some (.read 0#8 0#8 true), image := { size := 4124, cells := [(28, 1#8)] } }
def zooFlash : Flash :=
  { blocks := 1, writeTime := 1000, dataOff := 3, cacheBlk := 0#32,
    buf := File.blockAt { size := 4108, cells := [(12, 2#8)] } .big 12, op := some (.read 0#24 true),
    image := { size := 4108, cells := [(12, 2#8)] } }
def zooTerm : Terminal := { termBody with tx := { idleHalf with ipend := true } }
def zooEth : Eth := { ethBody with mode := 1#8, pollArmed := true }

/-- A working device with a status word, register 2 and a body. -/
def zooDev (status r2 : Word) (body : DeviceBody) : Device :=
  { regs := #v[status, 0#32, r2, 1#32], working := true, body := body }

def zooEvents : List Event :=
  [{ fire := 100#64, seq := 0, target := printer0, kind := .complete },
    { fire := 100#64, seq := 1, target := disk0, kind := .complete },
    { fire := 101#64, seq := 2, target := flash0, kind := .complete },
    { fire := 200#64, seq := 3, target := eth0, kind := .poll }]

def zooDevs : State :=
  ((((((blankState Config.tc State.reset.tape).setDev printer0
    (zooDev 3#32 0x20000000#32 (.printer { printerBody with op := some .print }))).setDev term0 (zooDev 1#32 1#32 (.terminal zooTerm))).setDev
    disk0 (zooDev 3#32 0x20000000#32 (.disk zooDisk))).setDev flash0 (zooDev 3#32 0x20000000#32 (.flash zooFlash))).setDev eth0
    (zooDev 1#32 0#32 (.eth zooEth))).irqRaise term0

/-- The state, its next request a tick at which two events are due. -/
def zoo : State :=
  { zooDevs with queue := zooEvents, seq := 4, tod := 99#64, mem := [(0x20000000, 5#8)], script := [.tick] }

/-- What a property of every slot of `zoo` comes to. -/
theorem zoo_slots {P : Slot → Device → Prop} (hp : P printer0 (zooDev 3#32 0x20000000#32 (.printer { printerBody with op := some .print })))
    (ht : P term0 (zooDev 1#32 1#32 (.terminal zooTerm))) (hd : P disk0 (zooDev 3#32 0x20000000#32 (.disk zooDisk)))
    (hf : P flash0 (zooDev 3#32 0x20000000#32 (.flash zooFlash))) (he : P eth0 (zooDev 1#32 0#32 (.eth zooEth)))
    (hn : ∀ sl, sl ∉ [printer0, term0, disk0, flash0, eth0] → P sl Device.null) : ∀ sl, P sl (zoo.dev sl) := by
  intro sl
  have key : zoo.dev sl = if sl = eth0 then zooDev 1#32 0#32 (.eth zooEth) else if sl = flash0 then
      zooDev 3#32 0x20000000#32 (.flash zooFlash) else if sl = disk0 then zooDev 3#32 0x20000000#32 (.disk zooDisk) else if sl = term0 then
      zooDev 1#32 1#32 (.terminal zooTerm) else if sl = printer0 then
      zooDev 3#32 0x20000000#32 (.printer { printerBody with op := some .print }) else Device.null := by
    show zooDevs.dev sl = _
    simp only [zooDevs, State.irqRaise_dev, State.dev_setDev]
    simp only [State.dev, blankState, Vector.getElem_replicate, Fin.getElem_fin]
  rw [key]
  split
  · rename_i h; rw [h]; exact he
  · split
    · rename_i h; rw [h]; exact hf
    · split
      · rename_i h; rw [h]; exact hd
      · split
        · rename_i h; rw [h]; exact ht
        · split
          · rename_i h; rw [h]; exact hp
          · exact hn sl (by simp [*])

theorem zoo_storage : StorageOk zoo where
  mem := by decide
  disk := zoo_slots (P := fun _ v => ∀ d, v.body = .disk d → d.image.wf ∧ d.buf.length = 1024) (fun _ h => nomatch h)
    (fun _ h => nomatch h)
    (fun d h => by cases h; exact ⟨by decide, by simp [zooDisk, File.blockAt]⟩) (fun _ h => nomatch h) (fun _ h => nomatch h)
    fun _ _ _ h => nomatch h
  flash := zoo_slots (P := fun _ v => ∀ f, v.body = .flash f → f.image.wf ∧ f.buf.length = 1024) (fun _ h => nomatch h)
    (fun _ h => nomatch h) (fun _ h => nomatch h)
    (fun d h => by cases h; exact ⟨by decide, by simp [zooFlash, File.blockAt]⟩) (fun _ h => nomatch h)
    fun _ _ _ h => nomatch h

theorem zoo_queue : QueueOk zoo where
  sorted := by show zooEvents.Pairwise _; decide
  seqs := by show ∀ e ∈ zooEvents, e.seq < 4; decide
  future _ := by show ∀ e ∈ zooEvents, 99#64 ≤ e.fire; decide

theorem zoo_pend : PendOk zoo :=
  zoo_slots (P := fun sl v => ∀ t, v.body = .terminal t → zoo.pendBit sl = (t.rx.ipend || t.tx.ipend))
    (fun _ h => nomatch h) (fun t h => by cases h; decide) (fun _ h => nomatch h) (fun _ h => nomatch h)
    (fun _ h => nomatch h) fun _ _ _ h => nomatch h

/-- No event targets a slot outside the five. -/
theorem zoo_no_event (sl : Slot) (h : sl ∉ [printer0, term0, disk0, flash0, eth0]) (k : EventKind) :
    zooEvents.countP (fun e => e.target == sl && e.kind == k) = 0 := by
  simp only [List.mem_cons, List.mem_nil_iff, or_false, not_or] at h
  obtain ⟨h1, h2, h3, h4, h5⟩ := h
  simp [zooEvents, Ne.symm h1, Ne.symm h3, Ne.symm h4, Ne.symm h5]

theorem zoo_busy : BusyOk zoo := fun _ =>
  zoo_slots (P := fun sl v =>
      (∀ h ∈ v.body.subs, (codeField v.body.kind v.regs[statusIdx h] == codeBusy) = v.body.opActive h) ∧
      zooEvents.countP (fun e => e.target == sl && e.kind == .complete) =
        v.body.subs.countP fun h => codeField v.body.kind v.regs[statusIdx h] == codeBusy)
    (by decide) (by decide) (by decide) (by decide) (by decide)
    fun sl hn => ⟨(fun _ h => nomatch h), zoo_no_event sl hn .complete⟩

theorem zoo_poll : PollOk zoo := fun _ =>
  zoo_slots (P := fun sl v =>
      zooEvents.countP (fun e => e.target == sl && e.kind == .poll) = if v.body.armed then 1 else 0)
    (by decide) (by decide) (by decide) (by decide) (by decide) fun sl h => zoo_no_event sl h .poll

theorem zoo_null : NullOk zoo :=
  zoo_slots (P := fun _ v => v.body.kind = none → ∀ i : Fin 4, v.regs[i] = 0#32) (fun h => nomatch h)
    (fun h => nomatch h) (fun h => nomatch h) (fun h => nomatch h) (fun h => nomatch h) fun _ _ _ => by decide

theorem zoo_status : StatusOk zoo :=
  zoo_slots (P := fun _ v => match v.body.kind with
      | some .terminal =>
        (v.regs[(0 : Fin 4)] &&& 0xFF#32) ≤ 7#32 ∧ v.regs[(0 : Fin 4)] < 0x10000#32 ∧
          (v.regs[(2 : Fin 4)] &&& 0xFF#32) ≤ 7#32 ∧ v.regs[(2 : Fin 4)] < 0x10000#32
      | some .eth => (v.regs[(0 : Fin 4)] &&& 0x7F#32) ≤ 7#32 ∧ v.regs[(0 : Fin 4)] < 0x100#32
      | _ => v.regs[(0 : Fin 4)] ≤ 7#32)
    (by show (3#32 : Word) ≤ 7#32; decide) (by show _ ∧ _; decide) (by show (3#32 : Word) ≤ 7#32; decide)
    (by show (3#32 : Word) ≤ 7#32; decide) (by show _ ∧ _; decide) fun _ _ => by show (0#32 : Word) ≤ 7#32; decide

theorem zoo_eth : EthOk zoo :=
  zoo_slots (P := fun _ v => ∀ e, v.body = .eth e → e.mode.getLsbD 7 = false) (fun _ h => nomatch h)
    (fun _ h => nomatch h) (fun _ h => nomatch h) (fun _ h => nomatch h) (fun e h => by cases h; decide)
    fun _ _ _ h => nomatch h

theorem zoo_disk : DiskOk zoo :=
  zoo_slots (P := fun _ v => ∀ d, v.body = .disk d →
      d.curCyl.toNat < d.cyls ∧ d.cyls ≤ 65535 ∧ ∀ c, d.op = some (.seek c) → c.toNat < d.cyls)
    (fun _ h => nomatch h) (fun _ h => nomatch h)
    (fun d h => by cases h; exact ⟨by decide, by decide, fun _ h => nomatch h⟩) (fun _ h => nomatch h)
    (fun _ h => nomatch h) fun _ _ _ h => nomatch h

theorem zooDisk_buf : zooDisk.buf = zooDisk.image.blockAt .big
    (zooDisk.offBytes zooDisk.cache.cyl.toNat zooDisk.cache.head.toNat zooDisk.cache.sect.toNat) := by
  have h : zooDisk.offBytes zooDisk.cache.cyl.toNat zooDisk.cache.head.toNat zooDisk.cache.sect.toNat = 28 := by decide
  rw [h]
  simp only [zooDisk]

theorem zooFlash_buf : zooFlash.buf =
    zooFlash.image.blockAt .big ((zooFlash.dataOff + zooFlash.cacheBlk.toNat * 1024) * 4) := by
  have h : (zooFlash.dataOff + zooFlash.cacheBlk.toNat * 1024) * 4 = 12 := by decide
  rw [h]
  simp only [zooFlash]

theorem zoo_cache : CacheOk zoo where
  disk := zoo_slots (P := fun _ v => ∀ d, v.body = .disk d →
      (d.cache.valid = true → d.buf = d.image.blockAt .big
        (d.offBytes d.cache.cyl.toNat d.cache.head.toNat d.cache.sect.toNat)) ∧
      (∀ head sect, d.op = some (.read head sect true) → d.hit head sect = true))
    (fun _ h => nomatch h) (fun _ h => nomatch h)
    (fun d h => by cases h; exact ⟨fun _ => zooDisk_buf, fun _ _ h => by cases h; decide⟩) (fun _ h => nomatch h)
    (fun _ h => nomatch h) fun _ _ _ h => nomatch h
  flash := zoo_slots (P := fun _ v => ∀ f, v.body = .flash f →
      (f.cacheValid = true → f.buf = f.image.blockAt .big ((f.dataOff + f.cacheBlk.toNat * 1024) * 4)) ∧
      (∀ blk, f.op = some (.read blk true) → f.hit blk = true))
    (fun _ h => nomatch h) (fun _ h => nomatch h) (fun _ h => nomatch h)
    (fun f h => by cases h; exact ⟨fun _ => zooFlash_buf, fun _ h => by cases h; decide⟩) (fun _ h => nomatch h)
    fun _ _ _ h => nomatch h

theorem zoo_inv : Inv zoo :=
  ⟨zoo_storage, zoo_queue, zoo_pend, zoo_busy, zoo_poll, zoo_null, zoo_status, zoo_eth, zoo_disk, zoo_cache⟩

/-- A step of the state, at which the printer and the disk complete, answers a running next state. -/
theorem zoo_steps : ∃ t, step zoo = .next t ∧ t.fatal = none := by
  have key : (match step zoo with | .next t => t.fatal.isNone | _ => false) = true := by decide +kernel
  cases h : step zoo with
  | next t => rw [h] at key; exact ⟨t, rfl, Option.isNone_iff_eq_none.mp key⟩
  | fault r => rw [h] at key; exact absurd key Bool.false_ne_true
  | refused r => rw [h] at key; exact absurd key Bool.false_ne_true

theorem witness_StepKeepsEventCounts : (∃ t, step zoo = .next t) ∧ BusyOk zoo ∧ PollOk zoo :=
  ⟨zoo_steps.imp fun _ h => h.1, zoo_busy, zoo_poll⟩
theorem witness_StepKeepsRegisterForms :
    (∃ t, step zoo = .next t) ∧ NullOk zoo ∧ StatusOk zoo ∧ EthOk zoo ∧ DiskOk zoo :=
  ⟨zoo_steps.imp fun _ h => h.1, zoo_null, zoo_status, zoo_eth, zoo_disk⟩
theorem witness_StepKeepsQueue : (∃ t, step zoo = .next t) ∧ QueueOk zoo := ⟨zoo_steps.imp fun _ h => h.1, zoo_queue⟩
theorem witness_StepKeepsTerminalPending : (∃ t, step zoo = .next t) ∧ PendOk zoo :=
  ⟨zoo_steps.imp fun _ h => h.1, zoo_pend⟩
theorem witness_StepKeepsCache : (∃ t, step zoo = .next t) ∧ StorageOk zoo ∧ BusyOk zoo ∧ CacheOk zoo :=
  ⟨zoo_steps.imp fun _ h => h.1, zoo_storage, zoo_busy, zoo_cache⟩
theorem witness_StepKeepsStorage : (∃ t, step zoo = .next t) ∧ StorageOk zoo :=
  ⟨zoo_steps.imp fun _ h => h.1, zoo_storage⟩
theorem witness_StepKeepsWhatConstructionFixed : ∃ t, step zoo = .next t := zoo_steps.imp fun _ h => h.1

/-- The disk's and the flash's read in progress are hits, and their DMA does not fail. -/
theorem witness_HitDeliversTheImage :
    zoo.fatal = none ∧ zoo.working disk0 = true ∧ zoo.working flash0 = true ∧ zoo.mem.wf ∧ CacheOk zoo ∧ DiskOk zoo ∧
    (zoo.decodeFails (zoo.reg disk0 2) 4096).1 = false ∧ (zoo.decodeFails (zoo.reg flash0 2) 4096).1 = false ∧
    zoo.body disk0 = .disk zooDisk ∧ zooDisk.op = some (.read 0#8 0#8 true) ∧ zoo.body flash0 = .flash zooFlash ∧
    zooFlash.op = some (.read 0#24 true) :=
  ⟨rfl, by decide, by decide, by decide, zoo_cache, zoo_disk, by decide, by decide, rfl, rfl, rfl, rfl⟩

end Sys2Proof.Tests
end

section
/-! PROOFS. What construction fixed, and the clock: every change and every dispatch keeps both, and a step moves the
clock by one tick at most. -/

namespace Sys2Proof.Machine

variable {s t u : State} {n m : Nat}

/-- `n` ticks on, with the configuration, the type of every slot and its geometry unchanged. -/
structure Elapsed (n : Nat) (s t : State) : Prop where
  cfg : t.cfg = s.cfg
  clock : t.tod.toNat = s.tod.toNat + n
  kind : ∀ sl, t.kind sl = s.kind sl
  geometry : ∀ sl, (t.body sl).geometry = (s.body sl).geometry

theorem Elapsed.trans (h : Elapsed n s t) (k : Elapsed m t u) : Elapsed (n + m) s u where
  cfg := k.cfg.trans h.cfg
  clock := by rw [k.clock, h.clock, Nat.add_assoc]
  kind sl := (k.kind sl).trans (h.kind sl)
  geometry sl := (k.geometry sl).trans (h.geometry sl)

/-- Type and geometry are read from the slots alone, so an update that leaves the slots changes neither. -/
theorem Elapsed.of_slots (hc : t.cfg = s.cfg) (hs : t.slots = s.slots) (ht : t.tod.toNat = s.tod.toNat + n) :
    Elapsed n s t where
  cfg := hc
  clock := ht
  kind sl := by rw [State.kind_eq, State.kind_eq, State.dev_congr sl hs]
  geometry sl := by rw [State.body_eq, State.body_eq, State.dev_congr sl hs]

theorem Elapsed.refl : Elapsed 0 s s := .of_slots rfl rfl rfl

theorem elapsed_taken (rest : List Request) : Elapsed 0 s (s.taken rest) := .of_slots rfl rfl rfl

theorem elapsed_answer (r : Reply) : Elapsed 0 s (s.answer r) := .of_slots rfl rfl rfl

/-- Below the top of the clock's range a tick does not wrap (R410). -/
theorem elapsed_ticked (h : s.tod ≠ BitVec.allOnes 64) : Elapsed 1 s s.ticked :=
  .of_slots rfl rfl <| by
    have hmax : s.tod.toNat ≠ 2 ^ 64 - 1 := fun e => h (BitVec.eq_of_toNat_eq (e.trans BitVec.toNat_allOnes.symm))
    exact BitVec.toNat_add_of_lt (show s.tod.toNat + 1 < 2 ^ 64 by omega)

/-- What touches one slot only, and keeps its type and geometry, keeps those of every slot. -/
theorem Local.elapsed {sl : Slot} {P : Nat → Prop} (h : Local sl P s t) : Elapsed 0 s t where
  cfg := h.others.cfg
  clock := congrArg BitVec.toNat h.others.tod
  kind x := by
    by_cases hx : x = sl
    · exact hx ▸ h.kind
    · rw [State.kind_eq, State.kind_eq, h.others.dev x hx]
  geometry x := by
    by_cases hx : x = sl
    · exact hx ▸ h.geometry
    · rw [State.body_eq, State.body_eq, h.others.dev x hx]

theorem Change.elapsed (h : Change s u) : Elapsed 0 s u :=
  let ⟨_, hl⟩ := h.toLocal
  hl.elapsed

/-- Taking the earliest event from the queue and dispatching it. -/
theorem elapsed_dispatch (e : Event) (rest : List Event) : Elapsed 0 s (dispatch e { s with queue := rest }) :=
  have taken : Elapsed 0 s { s with queue := rest } := .of_slots rfl rfl rfl
  taken.trans (local_dispatch e).elapsed

/-- However many events the dispatch loop runs, it takes no time (R406). -/
theorem elapsed_settle (h : settle s = .next t) : Elapsed 0 s t :=
  (settle_induct (P := Elapsed 0 s) (fun _ e rest _ _ _ hp => hp.trans (elapsed_dispatch e rest)) h .refl).1

/-- A step is no tick, or one. -/
theorem step_elapsed (h : step s = .next t) : Elapsed 0 s t ∨ Elapsed 1 s t := by
  obtain ⟨-, rfl | ⟨rest, hmax, hs⟩ | ⟨rest, u, hu, hs⟩⟩ := step_cases h
  · exact .inl .refl
  · exact .inr (((elapsed_taken rest).trans (elapsed_ticked hmax)).trans (elapsed_settle hs))
  · have changed : Elapsed 0 s u := (elapsed_taken rest).trans hu.elapsed
    rcases hs with hs | rfl | ⟨r, rfl⟩
    · exact .inl (changed.trans (elapsed_settle hs))
    · exact .inl changed
    · exact .inl (changed.trans (elapsed_answer r))

/-- What one tick at most says of the two states. -/
theorem Elapsed.fixed (h : Elapsed n s t) (hn : n ≤ 1) :
    t.cfg = s.cfg ∧ s.tod.toNat ≤ t.tod.toNat ∧ t.tod.toNat ≤ s.tod.toNat + 1 ∧
      ∀ sl, t.kind sl = s.kind sl ∧ (t.body sl).geometry = (s.body sl).geometry := by
  have hclock := h.clock
  exact ⟨h.cfg, by omega, by omega, fun sl => ⟨h.kind sl, h.geometry sl⟩⟩

/-- Settles O59: a step is a change and dispatches, which take no time, or one tick and dispatches. -/
theorem stepKeepsWhatConstructionFixed : Obligations.StepKeepsWhatConstructionFixed := by
  intro s t h
  rcases step_elapsed h with h | h
  · exact h.fixed zero_le_one
  · exact h.fixed le_rfl

end Sys2Proof.Machine
end

section
/-! PROOFS. Accounts of a slot: storage, pending requests, operations and scheduled events, and what an update of one
slot leaves of them. The invariants of a step are read off these. -/

namespace Sys2Proof.Machine

variable {s t u : State} {sl x : Slot} {h : Sub} {e : Event} {owed owed' : List Event}

/-! The invariants, slot by slot. -/

/-- The storage of one body is whole: its image in canonical form, its buffer a block (R123, R125, R127). -/
def DeviceBody.stored : DeviceBody → Prop
  | .disk d => d.image.wf ∧ d.buf.length = 1024
  | .flash f => f.image.wf ∧ f.buf.length = 1024
  | _ => True

/-- Whether a half of a terminal has a pending request (R122). -/
def DeviceBody.requests : DeviceBody → Bool
  | .terminal t => t.rx.ipend || t.tx.ipend
  | _ => false

theorem storageOk_iff : StorageOk s ↔ s.mem.wf ∧ ∀ sl, (s.body sl).stored := by
  constructor
  · rintro ⟨hmem, hdisk, hflash⟩
    refine ⟨hmem, fun sl => ?_⟩
    cases hb : s.body sl with
    | disk d => exact hdisk sl d hb
    | flash f => exact hflash sl f hb
    | null | printer _ | terminal _ | eth _ => trivial
  · rintro ⟨hmem, hbody⟩
    exact ⟨hmem, fun sl d hd => show (DeviceBody.disk d).stored from hd ▸ hbody sl,
      fun sl f hf => show (DeviceBody.flash f).stored from hf ▸ hbody sl⟩

/-- Storage is memory and slots. -/
theorem storageOk_congr (hm : t.mem = s.mem) (hs : t.slots = s.slots) (h : StorageOk s) : StorageOk t := by
  rw [storageOk_iff] at h ⊢
  exact ⟨hm ▸ h.1, fun sl => by rw [State.body_eq, State.dev_congr sl hs]; exact h.2 sl⟩

theorem pendOk_iff : PendOk s ↔ ∀ sl, s.kind sl = some .terminal → s.pendBit sl = (s.body sl).requests := by
  refine forall_congr' fun sl => ?_
  simp only [State.kind_eq, State.body_eq]
  cases (s.dev sl).body <;> simp [DeviceBody.kind, DeviceBody.requests]

/-- How many events of a slot and a kind a list holds. -/
def eventCount (q : List Event) (sl : Slot) (k : EventKind) : Nat := q.countP fun e => e.target == sl && e.kind == k

/-- R131 at one slot: a sub-device is busy iff it has an operation in progress, and `n` are. -/
def BusyAt (s : State) (sl : Slot) (n : Nat) : Prop :=
  (∀ h ∈ (s.body sl).subs, s.busy sl h = (s.body sl).opActive h) ∧ n = (s.body sl).subs.countP fun h => s.busy sl h

/-- R131 with events owed: those taken from the queue and not yet served, or still to be put into it, count as
scheduled. -/
def BusyWith (owed : List Event) (s : State) : Prop := ∀ sl, BusyAt s sl (eventCount (owed ++ s.queue) sl .complete)

/-- R1120 with events owed. -/
def PollWith (owed : List Event) (s : State) : Prop :=
  ∀ sl, eventCount (owed ++ s.queue) sl .poll = if (s.body sl).armed then 1 else 0

theorem busyOk_iff : BusyOk s ↔ (s.fatal = none → BusyWith [] s) := Iff.rfl
theorem pollOk_iff : PollOk s ↔ (s.fatal = none → PollWith [] s) := Iff.rfl

theorem eventCount_cons (q : List Event) (x : Slot) (k : EventKind) :
    eventCount (e :: q) x k = eventCount q x k + if e.target = x ∧ e.kind = k then 1 else 0 := by
  simp [eventCount, List.countP_cons]

theorem eventCount_perm {p q : List Event} (hp : p.Perm q) (x : Slot) (k : EventKind) :
    eventCount p x k = eventCount q x k := hp.countP_eq _

/-- Inserting in key order puts one event more into the queue. -/
theorem insertEvent_perm (e : Event) (q : List Event) : (insertEvent e q).Perm (e :: q) := by
  induction q with
  | nil => exact .refl _
  | cons y ys ih =>
    simp only [insertEvent]
    split
    · exact .refl _
    · exact (ih.cons y).trans (.swap e y ys)

/-! Sub-devices. -/

/-- The sub-devices of a type (R505). -/
def subsOf : Option DevKind → List Sub
  | none => []
  | some .terminal => [.rx, .tx]
  | some _ => [.single]

theorem subs_eq (b : DeviceBody) : b.subs = subsOf b.kind := by cases b <;> rfl

theorem subs_nodup (b : DeviceBody) : b.subs.Nodup := by cases b <;> simp [DeviceBody.subs]

theorem sub_mem_subsOf (p : Port) : p.sub ∈ subsOf (some p.kind) := by cases p <;> decide

/-- A command register is no status register (R13). -/
theorem statusIdx_ne_cmdIdx (h h' : Sub) : statusIdx h ≠ cmdIdx h' := by cases h <;> cases h' <;> decide

theorem clearOp_opActive (h : Sub) (b : DeviceBody) : (clearOp h b).opActive h = false := by
  cases b with
  | terminal t => cases h <;> rfl
  | null | printer _ | disk _ | flash _ | eth _ => rfl

/-- Two different sub-devices of one slot are the two halves of a terminal. -/
theorem sub_cases {b : DeviceBody} {h h' : Sub} (hh : h ∈ b.subs) (hh' : h' ∈ b.subs) (hne : h' ≠ h) :
    ∃ t, b = .terminal t ∧ ((h = .rx ∧ h' = .tx) ∨ (h = .tx ∧ h' = .rx)) := by
  cases b with
  | terminal t =>
    have two : ∀ {y : Sub}, y ∈ (DeviceBody.terminal t).subs → y = .rx ∨ y = .tx := by simp [DeviceBody.subs]
    rcases two hh with rfl | rfl <;> rcases two hh' with rfl | rfl <;> simp_all
  | null => exact absurd hh (by simp [DeviceBody.subs])
  | printer _ | disk _ | flash _ | eth _ =>
    exact absurd ((List.mem_singleton.1 hh').trans (List.mem_singleton.1 hh).symm) hne

/-- Two sub-devices of one slot have different status registers (R13). -/
theorem statusIdx_ne {b : DeviceBody} {h h' : Sub} (hh : h ∈ b.subs) (hh' : h' ∈ b.subs) (hne : h' ≠ h) :
    statusIdx h' ≠ statusIdx h := by
  obtain ⟨-, -, ⟨rfl, rfl⟩ | ⟨rfl, rfl⟩⟩ := sub_cases hh hh' hne <;> decide

theorem clearOp_opActive_other {b : DeviceBody} {h h' : Sub} (hh : h ∈ b.subs) (hh' : h' ∈ b.subs) (hne : h' ≠ h) :
    (clearOp h b).opActive h' = b.opActive h' := by
  obtain ⟨t, rfl, ⟨rfl, rfl⟩ | ⟨rfl, rfl⟩⟩ := sub_cases hh hh' hne <;> rfl

/-! Status codes. -/

/-- The status word's code is not busy, on any device (R510). -/
abbrev NotBusy (w : Word) : Prop := w &&& 0x7F#32 ≠ codeBusy ∧ w &&& 0xFF#32 ≠ codeBusy

theorem codeField_ne_busy {w : Word} (hw : NotBusy w) (k : Option DevKind) : (codeField k w == codeBusy) = false := by
  unfold codeField
  split
  · exact beq_false_of_ne hw.1
  · exact beq_false_of_ne hw.2

/-- Keeping READPENDING does not touch the status code (R514). -/
theorem codeField_mergeStatus (k : Option DevKind) (old w : Word) :
    codeField k (mergeStatus k old w) = codeField k w := by
  unfold codeField mergeStatus
  split
  · rw [BitVec.and_or_distrib_right, BitVec.and_assoc]
    simp
  · rfl

/-- A terminal's codes 4 and 5 stay what they are beside a character (R316). -/
theorem notBusy_charStatus (b : Byte) {c : Word} (hc : c.getLsbD 2 = true) : NotBusy (charStatus b c) := by
  have bit : (charStatus b c).getLsbD 2 = true := by simp [charStatus, hc]
  have key : ∀ m : Word, m.getLsbD 2 = true → charStatus b c &&& m ≠ codeBusy := fun m hm e => by
    have hb : (charStatus b c &&& m).getLsbD 2 = true := by rw [BitVec.getLsbD_and, bit, hm]; rfl
    rw [e] at hb
    exact absurd hb (by decide)
  exact ⟨key _ (by decide), key _ (by decide)⟩

theorem State.busy_eq (s : State) (sl : Slot) (h : Sub) :
    s.busy sl h = (codeField (s.dev sl).body.kind (s.dev sl).regs[(statusIdx h).val] == codeBusy) := rfl

/-! What an update of one slot leaves. -/

/-- What an update leaves of a body's account, its operations and its poll flag apart. -/
structure SameAccount (b b' : DeviceBody) : Prop where
  kind : b'.kind = b.kind
  geometry : b'.geometry = b.geometry
  requests : b'.requests = b.requests
  stored : b.stored → b'.stored

/-- What an update of one slot that schedules nothing leaves of the accounts; busy codes, operations and the poll flag
apart. -/
structure Upkeep (sl : Slot) (s t : State) : Prop where
  calm : Calm sl s t
  fatal : t.fatal = s.fatal
  storage : StorageOk s → StorageOk t
  pend : PendOk s → PendOk t

/-- An update of one slot that also leaves its busy codes, its operations and its poll flag. -/
structure Still (sl : Slot) (s t : State) : Prop extends Upkeep sl s t where
  busy : ∀ h ∈ (s.body sl).subs, t.busy sl h = s.busy sl h
  op : ∀ h, (t.body sl).opActive h = (s.body sl).opActive h
  armed : (t.body sl).armed = (s.body sl).armed

theorem Upkeep.trans (hs : Upkeep sl s t) (ht : Upkeep sl t u) : Upkeep sl s u where
  calm := hs.calm.trans ht.calm
  fatal := ht.fatal.trans hs.fatal
  storage := ht.storage ∘ hs.storage
  pend := ht.pend ∘ hs.pend

theorem Upkeep.subs (hs : Upkeep sl s t) : (t.body sl).subs = (s.body sl).subs := by
  rw [subs_eq, subs_eq]
  exact congrArg subsOf hs.calm.kind

theorem Still.trans (hs : Still sl s t) (ht : Still sl t u) : Still sl s u where
  toUpkeep := hs.toUpkeep.trans ht.toUpkeep
  busy h hh := (ht.busy h (hs.subs ▸ hh)).trans (hs.busy h hh)
  op h := (ht.op h).trans (hs.op h)
  armed := ht.armed.trans hs.armed

/-- An update that leaves every body and pending bit. -/
theorem Upkeep.of_body (hc : Calm sl s t) (hf : t.fatal = s.fatal) (hb : ∀ x, t.body x = s.body x)
    (hp : ∀ x, t.pendBit x = s.pendBit x) (hm : s.mem.wf → t.mem.wf) : Upkeep sl s t where
  calm := hc
  fatal := hf
  storage hs := by
    rw [storageOk_iff] at hs ⊢
    exact ⟨hm hs.1, fun x => hb x ▸ hs.2 x⟩
  pend hs x y hy := (hp x).trans (hs x y (hb x ▸ hy))

/-- An update of signals, memory, network calls, host answers and the reported index alone. -/
theorem Still.of_eq (hm : s.mem.wf → t.mem.wf)
    (e : { t with trace := s.trace, mem := s.mem, net := s.net, tape := s.tape, returned := s.returned } = s) :
    Still sl s t := by
  have same : ∀ {α : Type} (g : State → α), g _ = g s := fun g => congrArg g e
  have hf : t.fatal = s.fatal := same State.fatal
  have hs : t.slots = s.slots := same State.slots
  have hp : t.pend = s.pend := same State.pend
  have hd : ∀ x, t.dev x = s.dev x := fun x => State.dev_congr x hs
  have hc : Calm sl s t := .of_eq (by rw [← hf]; exact e)
  refine ⟨.of_body hc hf (fun x => congrArg Device.body (hd x)) (fun x => State.pendBit_congr x hp) hm,
    fun h _ => ?_, fun h => ?_, ?_⟩
  · rw [State.busy_eq, State.busy_eq, hd]
  · rw [State.body_eq, State.body_eq, hd]
  · rw [State.body_eq, State.body_eq, hd]

theorem Still.refl : Still sl s s := .of_eq id rfl

theorem still_tape {tape : HostTape} (e : t = { s with tape := tape }) : Still sl s t :=
  .of_eq (by rw [e]; exact id) (by rw [e])

theorem still_emit (g : Signal) : Still sl s (s.emit g) := .of_eq id rfl
theorem still_report (i : Fin 4) : Still sl s (s.report i) := .of_eq id rfl
theorem still_callNet (c : NetCall) : Still sl s (s.callNet c) := .of_eq id rfl

theorem still_dmaToMemN (a : Word) (bytes : List Byte) (n : Nat) : Still sl s (s.dmaToMemN a bytes n).2 := by
  obtain ⟨-, stored, -, -, e⟩ := s.dmaToMemN_spec a bytes n
  exact .of_eq (s.dmaToMemN_wf a bytes n) (by rw [e])

theorem upkeep_setReg (i : Fin 4) (v : Word) : Upkeep sl s (s.setReg sl i v) :=
  .of_body (calm_setReg i v) rfl (fun _ => State.setReg_body ..) (fun _ => rfl) id

theorem still_setWorking (b : Bool) : Still sl s (s.setWorking sl b) := by
  have hb : ∀ x, (s.setWorking sl b).body x = s.body x := fun x => by
    simp only [State.body_eq, State.setWorking_dev]
    split <;> simp_all
  refine ⟨.of_body (calm_setWorking b) rfl hb (fun _ => rfl) id, fun h _ => ?_, fun h => by rw [hb], by rw [hb]⟩
  simp only [State.busy_eq, State.setWorking_dev, if_true]

/-- A register that is no status register of the slot. -/
theorem still_setReg {i : Fin 4} (hi : ∀ h ∈ (s.body sl).subs, statusIdx h ≠ i) (v : Word) :
    Still sl s (s.setReg sl i v) where
  toUpkeep := upkeep_setReg i v
  busy h hh := by
    have hne : i.val ≠ (statusIdx h).val := fun e => hi h hh (Fin.ext e).symm
    simp only [State.busy_eq, State.setReg_dev, if_true, Vector.getElem_set_ne _ _ hne]
  op h := by rw [State.setReg_body]
  armed := by rw [State.setReg_body]

theorem upkeep_putStatus (h : Sub) (w : Word) : Upkeep sl s (s.putStatus sl h w) :=
  (upkeep_setReg _ w).trans (still_emit _).toUpkeep

theorem State.putStatus_body (s : State) (sl x : Slot) (h : Sub) (w : Word) : (s.putStatus sl h w).body x = s.body x :=
  State.setReg_body ..

theorem State.putStatus_busy_same (s : State) (sl : Slot) (h : Sub) (w : Word) :
    (s.putStatus sl h w).busy sl h = (codeField (s.kind sl) w == codeBusy) := by
  simp only [State.busy_eq, State.putStatus_dev, if_true, Vector.getElem_set_self, State.kind_eq]

theorem State.putStatus_busy_other {h' : Sub} (hh : h ∈ (s.body sl).subs) (hh' : h' ∈ (s.body sl).subs) (hne : h' ≠ h)
    (w : Word) : (s.putStatus sl h w).busy sl h' = s.busy sl h' := by
  have hi : (statusIdx h).val ≠ (statusIdx h').val := fun e => statusIdx_ne hh hh' hne (Fin.ext e).symm
  simp only [State.busy_eq, State.putStatus_dev, if_true, Vector.getElem_set_ne _ _ hi]

/-- A status word that leaves the busy test of its sub-device. -/
theorem still_putStatus {w : Word} (hh : h ∈ (s.body sl).subs)
    (hw : (codeField (s.kind sl) w == codeBusy) = s.busy sl h) : Still sl s (s.putStatus sl h w) where
  toUpkeep := upkeep_putStatus h w
  busy h' hh' := by
    by_cases e : h' = h
    · rw [e, State.putStatus_busy_same, hw]
    · exact State.putStatus_busy_other hh hh' e w
  op h' := by rw [State.putStatus_body]
  armed := by rw [State.putStatus_body]

theorem State.mapBody_body (s : State) (sl x : Slot) (f : DeviceBody → DeviceBody) :
    (s.mapBody sl f).body x = if x = sl then f (s.body sl) else s.body x := by
  simp only [State.body_eq, State.mapBody_dev]
  split <;> rfl

theorem State.mapBody_busy {f : DeviceBody → DeviceBody} (hf : (f (s.body sl)).kind = (s.body sl).kind) (h : Sub) :
    (s.mapBody sl f).busy sl h = s.busy sl h := by
  simp only [State.busy_eq, State.mapBody_dev, if_true, ← State.body_eq, hf]

theorem upkeep_mapBody {f : DeviceBody → DeviceBody} (hf : SameAccount (s.body sl) (f (s.body sl))) :
    Upkeep sl s (s.mapBody sl f) where
  calm := ⟨⟨fun x hx => by simp [State.mapBody_dev, hx], fun _ _ => rfl, rfl, rfl, rfl, rfl⟩,
    by rw [State.kind_eq, ← State.body_eq, State.mapBody_body, if_pos rfl]; exact hf.kind,
    by rw [State.mapBody_body, if_pos rfl]; exact hf.geometry, rfl, rfl⟩
  fatal := rfl
  storage hs := by
    rw [storageOk_iff] at hs ⊢
    refine ⟨hs.1, fun x => ?_⟩
    rw [State.mapBody_body]
    split
    · exact hf.stored (hs.2 sl)
    · exact hs.2 x
  pend hs := by
    rw [pendOk_iff] at hs ⊢
    intro x hx
    rw [State.kind_eq, ← State.body_eq] at hx
    rw [State.mapBody_body] at hx ⊢
    split at hx
    · next e =>
      rw [if_pos e, hf.requests, e]
      exact hs sl (hf.kind.symm.trans hx)
    · next e =>
      rw [if_neg e]
      exact hs x hx

theorem still_mapBody {f : DeviceBody → DeviceBody} (hf : SameAccount (s.body sl) (f (s.body sl)))
    (ho : ∀ h, (f (s.body sl)).opActive h = (s.body sl).opActive h) (ha : (f (s.body sl)).armed = (s.body sl).armed) :
    Still sl s (s.mapBody sl f) where
  toUpkeep := upkeep_mapBody hf
  busy h _ := State.mapBody_busy hf.kind h
  op h := by rw [State.mapBody_body, if_pos rfl]; exact ho h
  armed := by rw [State.mapBody_body, if_pos rfl]; exact ha

/-! Interrupts. -/

theorem setIpend_account (h : Sub) (v : Bool) (b : DeviceBody) :
    (setIpend h v b).armed = b.armed ∧ (∀ h', (setIpend h v b).opActive h' = b.opActive h') ∧
      (b.stored → (setIpend h v b).stored) := by
  cases b with
  | terminal t => exact ⟨rfl, fun h' => by cases h <;> cases h' <;> rfl, id⟩
  | null | printer _ | disk _ | flash _ | eth _ => exact ⟨rfl, fun _ => rfl, id⟩

/-- A raise of an interrupt, or an acknowledge: the slot's body changes in one pending flag, and bits change in step. -/
theorem Still.of_setIpend {v : Bool} (hc : Calm sl s t) (hf : t.fatal = s.fatal) (hm : t.mem = s.mem)
    (hd : ∀ x, t.dev x = if x = sl then { s.dev sl with body := setIpend h v (s.dev sl).body } else s.dev x)
    (hp : PendOk s → s.kind sl = some .terminal → t.pendBit sl = (t.body sl).requests) : Still sl s t := by
  have hsl : t.dev sl = { s.dev sl with body := setIpend h v (s.dev sl).body } := by rw [hd, if_pos rfl]
  have hb : t.body sl = setIpend h v (s.body sl) := congrArg Device.body hsl
  obtain ⟨harmed, hop, hstored⟩ := setIpend_account h v (s.body sl)
  refine ⟨⟨hc, hf, fun hs => ?_, fun hs => ?_⟩, fun h' _ => ?_, fun h' => by rw [hb, hop], by rw [hb, harmed]⟩
  · rw [storageOk_iff] at hs ⊢
    refine ⟨hm ▸ hs.1, fun x => ?_⟩
    by_cases hx : x = sl
    · rw [hx, hb]
      exact hstored (hs.2 sl)
    · rw [State.body_eq, hc.others.dev x hx]
      exact hs.2 x
  · have hs' := pendOk_iff.1 hs
    rw [pendOk_iff]
    intro x hk
    by_cases hx : x = sl
    · subst hx
      exact hp hs (hc.kind.symm.trans hk)
    · rw [hc.others.pend x hx, State.body_eq, hc.others.dev x hx]
      exact hs' x (by rwa [State.kind_eq, ← hc.others.dev x hx])
  · rw [State.busy_eq, State.busy_eq, hsl, setIpend_kind]

theorem requests_raised {b : DeviceBody} (hk : b.kind = some .terminal) (h : Sub) :
    (setIpend h true b).requests = true := by
  cases b with
  | terminal t => cases h <;> simp [setIpend, onTerminal, Terminal.setHalf, DeviceBody.requests]
  | null | printer _ | disk _ | flash _ | eth _ => exact absurd hk (by simp [DeviceBody.kind])

/-- The shared bit falls with the last pending flag (R814). -/
theorem requests_acked (h : Sub) (b : DeviceBody) :
    (setIpend h false b).requests = (otherPending h (setIpend h false b) && b.requests) := by
  cases b with
  | terminal t =>
    cases h <;>
      simp +contextual [setIpend, onTerminal, otherPending, Terminal.setHalf, Terminal.other, DeviceBody.requests]
  | null | printer _ | disk _ | flash _ | eth _ => rfl

theorem still_raiseIrq (h : Sub) : Still sl s (s.raiseIrq sl h) := by
  refine .of_setIpend (calm_raiseIrq h) rfl rfl (State.raiseIrq_dev s sl · h) fun _ hk => ?_
  rw [State.raiseIrq_pendBit, State.body_eq, State.raiseIrq_dev, if_pos rfl, requests_raised hk]
  simp

theorem still_ackIrq (h : Sub) : Still sl s (s.ackIrq sl h) := by
  obtain ⟨-, -, -, -, hf, -, hm, -⟩ := s.ackIrq_fields sl h
  refine .of_setIpend (calm_ackIrq h) hf hm (State.ackIrq_dev s sl · h) fun hs hk => ?_
  rw [State.ackIrq_pendBit, if_pos rfl, State.body_eq, State.ackIrq_dev, if_pos rfl, requests_acked,
    pendOk_iff.1 hs sl hk, State.body_eq]

/-- The bit of a slot that is no terminal is free to move (R1118). -/
theorem Still.of_bit (hc : Calm sl s t) (hf : t.fatal = s.fatal) (hm : t.mem = s.mem) (hs : t.slots = s.slots)
    (hk : s.kind sl ≠ some .terminal) : Still sl s t := by
  have hd : ∀ x, t.dev x = s.dev x := fun x => State.dev_congr x hs
  have hb : ∀ x, t.body x = s.body x := fun x => congrArg Device.body (hd x)
  refine ⟨⟨hc, hf, fun hs => ?_, fun hs x y hy => ?_⟩, fun h _ => ?_, fun h => by rw [hb], by rw [hb]⟩
  · rw [storageOk_iff] at hs ⊢
    exact ⟨hm ▸ hs.1, fun x => hb x ▸ hs.2 x⟩
  · have hx : x ≠ sl := fun e => hk <| by
      rw [← e, State.kind_eq, ← hd, ← State.body_eq, hy]
      rfl
    rw [hc.others.pend x hx]
    exact hs x y (hb x ▸ hy)
  · rw [State.busy_eq, State.busy_eq, hd]

theorem still_irqRaise (hk : s.kind sl ≠ some .terminal) : Still sl s (s.irqRaise sl) :=
  .of_bit calm_irqRaise rfl rfl rfl hk

theorem still_irqAck (hk : s.kind sl ≠ some .terminal) : Still sl s (s.irqAck sl) :=
  .of_bit calm_irqAck rfl rfl rfl hk

/-! Operations that start and end. -/

/-- An update of one slot after which one of its sub-devices has the busy code and an operation, or neither. -/
structure Switch (sl : Slot) (h : Sub) (v : Bool) (s t : State) : Prop extends Upkeep sl s t where
  busy : t.busy sl h = v
  op : (t.body sl).opActive h = v
  armed : (t.body sl).armed = (s.body sl).armed
  other : ∀ h' ∈ (s.body sl).subs, h' ≠ h →
    t.busy sl h' = s.busy sl h' ∧ (t.body sl).opActive h' = (s.body sl).opActive h'

/-- A status word of a sub-device with its operation recorded or cleared. -/
theorem switch_status {v : Bool} {w : Word} {f : DeviceBody → DeviceBody} (hh : h ∈ (s.body sl).subs)
    (hw : (codeField (s.kind sl) w == codeBusy) = v) (hf : SameAccount (s.body sl) (f (s.body sl)))
    (ho : (f (s.body sl)).opActive h = v) (ha : (f (s.body sl)).armed = (s.body sl).armed)
    (hother : ∀ h' ∈ (s.body sl).subs, h' ≠ h → (f (s.body sl)).opActive h' = (s.body sl).opActive h') :
    Switch sl h v s ((s.putStatus sl h w).mapBody sl f) := by
  have hb : (s.putStatus sl h w).body sl = s.body sl := State.putStatus_body ..
  refine ⟨(upkeep_putStatus h w).trans (upkeep_mapBody (hb ▸ hf)), ?_, ?_, ?_, fun h' hh' hne => ⟨?_, ?_⟩⟩
  · rw [State.mapBody_busy (hb ▸ hf.kind), State.putStatus_busy_same, hw]
  · rw [State.mapBody_body, if_pos rfl, hb, ho]
  · rw [State.mapBody_body, if_pos rfl, hb, ha]
  · rw [State.mapBody_busy (hb ▸ hf.kind), State.putStatus_busy_other hh hh' hne]
  · rw [State.mapBody_body, if_pos rfl, hb, hother h' hh' hne]

/-- One sub-device more is busy. -/
theorem countP_switch {l : List Sub} (hl : l.Nodup) (hh : h ∈ l) {f g : Sub → Bool} (hf : f h = false) (hg : g h = true)
    (hother : ∀ h' ∈ l, h' ≠ h → g h' = f h') : l.countP g = l.countP f + 1 := by
  have hp := List.perm_cons_erase hh
  have hrest : (l.erase h).countP g = (l.erase h).countP f := List.countP_congr fun h' hh' => by
    obtain ⟨hne, hmem⟩ := (hl.mem_erase_iff).1 hh'
    rw [hother h' hmem hne]
  rw [hp.countP_eq g, hp.countP_eq f, List.countP_cons, List.countP_cons, hrest, hf, hg]
  rfl

/-! Effects. -/

/-- An update keeps the invariants of storage and of pending requests, and turns the accounts of the scheduled events
that hold with some events owed into those with others owed; of a state it leaves fatal, the accounts say nothing
(R131). -/
structure Effect (owed owed' : List Event) (s t : State) : Prop where
  storage : StorageOk s → StorageOk t
  pend : PendOk s → PendOk t
  running : t.fatal = none → s.fatal = none
  busy : t.fatal = none → BusyWith owed s → BusyWith owed' t
  poll : t.fatal = none → PollWith owed s → PollWith owed' t

theorem Effect.trans {owed'' : List Event} (hs : Effect owed owed' s t) (ht : Effect owed' owed'' t u) :
    Effect owed owed'' s u where
  storage := ht.storage ∘ hs.storage
  pend := ht.pend ∘ hs.pend
  running hf := hs.running (ht.running hf)
  busy hf := ht.busy hf ∘ hs.busy (ht.running hf)
  poll hf := ht.poll hf ∘ hs.poll (ht.running hf)

/-- After a fatal error nothing is owed (R1220). -/
theorem Effect.of_fatal (hs : StorageOk s → StorageOk t) (hp : PendOk s → PendOk t) (hf : t.fatal ≠ none) :
    Effect owed owed' s t where
  storage := hs
  pend := hp
  running e := absurd e hf
  busy e := absurd e hf
  poll e := absurd e hf

theorem effect_stop (r : FatalReason) : Effect owed owed' s (s.stop r) :=
  .of_fatal (storageOk_congr rfl rfl) id (by simp)

/-- Going on with the rest of a step (R1220). -/
theorem Effect.andThen {owed'' : List Event} {f : State → State} (hs : Effect owed owed' s t)
    (ht : t.fatal = none → Effect owed' owed'' t (f t)) : Effect owed owed'' s (t.andThen f) := by
  cases hf : t.fatal with
  | none =>
    rw [State.andThen_running hf]
    exact hs.trans (ht hf)
  | some r =>
    rw [State.andThen_stopped hf]
    exact .of_fatal hs.storage hs.pend (by simp [hf])

/-- An event counts for its own slot and kind only. -/
theorem eventCount_other (q : List Event) {k : EventKind} (hx : x ≠ e.target ∨ k ≠ e.kind) :
    eventCount (e :: q) x k = eventCount q x k := by
  rw [eventCount_cons, if_neg fun hc => hx.elim (· hc.1.symm) (· hc.2.symm), Nat.add_zero]

theorem Upkeep.pollWith (hs : Upkeep sl s t) (ha : (t.body sl).armed = (s.body sl).armed) (hp : PollWith owed s) :
    PollWith owed t := fun x => by
  rw [hs.calm.event.1, hp x]
  by_cases hx : x = sl
  · rw [hx, ha]
  · rw [State.body_eq, State.body_eq, hs.calm.others.dev x hx]

/-- The account of a slot an update leaves alone. -/
theorem busyAt_of_dev (hd : t.dev x = s.dev x) {n : Nat} (hs : BusyAt s x n) : BusyAt t x n := by
  simpa only [BusyAt, State.body_eq, State.busy_eq, hd] using hs

theorem Upkeep.busyWith (hs : Upkeep sl s t) (hbusy : ∀ h ∈ (s.body sl).subs, t.busy sl h = s.busy sl h)
    (hop : ∀ h, (t.body sl).opActive h = (s.body sl).opActive h) (hb : BusyWith owed s) : BusyWith owed t := fun x => by
  rw [hs.calm.event.1]
  by_cases hx : x = sl
  · obtain ⟨hagree, hcount⟩ := hb sl
    rw [hx, BusyAt, hs.subs, hcount]
    exact ⟨fun h hh => by rw [hbusy h hh, hop, hagree h hh], List.countP_congr fun h hh => by rw [hbusy h hh]⟩
  · exact busyAt_of_dev (hs.calm.others.dev x hx) (hb x)

theorem Still.effect (hs : Still sl s t) : Effect owed owed s t where
  storage := hs.storage
  pend := hs.pend
  running hf := hs.fatal ▸ hf
  busy _ := hs.toUpkeep.busyWith hs.busy hs.op
  poll _ := hs.toUpkeep.pollWith hs.armed

/-- Busy codes and operations agree after a switch too. -/
theorem Switch.agree {v : Bool} (hs : Switch sl h v s t)
    (ha : ∀ h ∈ (s.body sl).subs, s.busy sl h = (s.body sl).opActive h) :
    ∀ h ∈ (t.body sl).subs, t.busy sl h = (t.body sl).opActive h := fun h' hh' => by
  by_cases hne : h' = h
  · rw [hne, hs.busy, hs.op]
  · obtain ⟨hb, ho⟩ := hs.other h' (hs.subs ▸ hh') hne
    rw [hb, ho, ha h' (hs.subs ▸ hh')]

/-- An operation that starts owes its completion. -/
theorem Switch.effect_on (hs : Switch e.target h true s t) (he : e.kind = .complete) (hh : h ∈ (s.body e.target).subs)
    (hidle : s.busy e.target h = false) : Effect owed (e :: owed) s t where
  storage := hs.storage
  pend := hs.pend
  running hf := hs.fatal ▸ hf
  busy _ hb x := by
    rw [hs.calm.event.1, List.cons_append]
    by_cases hx : x = e.target
    · subst hx
      obtain ⟨hagree, hcount⟩ := hb e.target
      refine ⟨hs.agree hagree, ?_⟩
      rw [eventCount_cons, if_pos ⟨rfl, he⟩, hcount, hs.subs]
      exact (countP_switch (subs_nodup _) hh hidle hs.busy fun h' hh' hne => (hs.other h' hh' hne).1).symm
    · rw [eventCount_other _ (.inl hx)]
      exact busyAt_of_dev (hs.calm.others.dev x hx) (hb x)
  poll _ hp x := by
    rw [List.cons_append, eventCount_other _ (.inr (by simp [he]))]
    exact hs.toUpkeep.pollWith hs.armed hp x

/-- An operation that ends has its completion served. -/
theorem Switch.effect_off (hs : Switch e.target h false s t) (he : e.kind = .complete) (hh : h ∈ (s.body e.target).subs)
    (hop : (s.body e.target).opActive h = true) : Effect (e :: owed) owed s t where
  storage := hs.storage
  pend := hs.pend
  running hf := hs.fatal ▸ hf
  busy _ hb x := by
    have hbx := hb x
    rw [List.cons_append] at hbx
    rw [hs.calm.event.1]
    by_cases hx : x = e.target
    · subst hx
      obtain ⟨hagree, hcount⟩ := hbx
      refine ⟨hs.agree hagree, ?_⟩
      rw [eventCount_cons, if_pos ⟨rfl, he⟩, countP_switch (subs_nodup _) hh hs.busy ((hagree h hh).trans hop)
        fun h' hh' hne => (hs.other h' hh' hne).1.symm] at hcount
      rw [hs.subs]
      exact Nat.succ.inj hcount
    · rw [eventCount_other _ (.inl hx)] at hbx
      exact busyAt_of_dev (hs.calm.others.dev x hx) hbx
  poll _ hp := hs.toUpkeep.pollWith hs.armed fun x => by
    have hpx := hp x
    rwa [List.cons_append, eventCount_other _ (.inr (by simp [he]))] at hpx

/-- Scheduling puts an owed event into the queue, or is fatal (R403). -/
theorem effect_schedule (e : Event) (delta : Nat) : Effect (e :: owed) owed s (s.schedule e.target e.kind delta) := by
  by_cases hd : InTime s delta
  · rw [State.schedule_inTime e.target e.kind hd]
    have hcount : ∀ x k, eventCount (owed ++ insertEvent ⟨s.fireTime delta, s.seq, e.target, e.kind⟩ s.queue) x k =
        eventCount (e :: owed ++ s.queue) x k := fun x k => by
      rw [eventCount_perm ((insertEvent_perm _ _).append_left owed |>.trans List.perm_middle), List.cons_append,
        eventCount_cons, eventCount_cons]
    exact ⟨storageOk_congr rfl rfl, id, id, fun _ hb x => ⟨(hb x).1, (hcount x .complete).trans (hb x).2⟩,
      fun _ hp x => (hcount x .poll).trans (hp x)⟩
  · rw [State.schedule_overflow e.target e.kind hd]
    exact effect_stop _

/-! Timed operations. -/

/-- A body with an operation of one sub-device recorded, and its account otherwise kept. -/
structure Recorded (h : Sub) (b b' : DeviceBody) : Prop extends SameAccount b b' where
  op : b'.opActive h = true
  armed : b'.armed = b.armed
  other : ∀ h' ∈ b.subs, h' ≠ h → b'.opActive h' = b.opActive h'

theorem setCtime_account (h : Sub) (c : Time) (b : DeviceBody) :
    SameAccount b (setCtime h c b) ∧ (∀ h', (setCtime h c b).opActive h' = b.opActive h') ∧
      (setCtime h c b).armed = b.armed := by
  cases b with
  | terminal t => exact ⟨⟨rfl, rfl, by cases h <;> rfl, id⟩, fun h' => by cases h <;> cases h' <;> rfl, rfl⟩
  | null | printer _ | disk _ | flash _ | eth _ => exact ⟨⟨rfl, rfl, rfl, id⟩, fun _ => rfl, rfl⟩

theorem still_setCtime (h : Sub) (c : Time) : Still sl s (s.mapBody sl (setCtime h c)) :=
  let ⟨ha, ho, hp⟩ := setCtime_account h c (s.body sl)
  still_mapBody ha ho hp

/-- A slot of a type, with a sub-device that is not busy. -/
structure AtRest (s : State) (sl : Slot) (k : DevKind) (h : Sub) : Prop where
  kind : s.kind sl = some k
  sub : h ∈ (s.body sl).subs
  idle : s.busy sl h = false

theorem AtRest.still {k : DevKind} (hr : AtRest s sl k h) (hs : Still sl s t) : AtRest t sl k h where
  kind := hs.calm.kind.trans hr.kind
  sub := hs.subs ▸ hr.sub
  idle := (hs.busy h hr.sub).trans hr.idle

/-- A started operation and its completion, or a fatal error (R512). -/
theorem effect_beginOp {k : DevKind} {record : DeviceBody → DeviceBody} (hr : AtRest s sl k h) 
    (hrec : ∀ b, b.kind = some k → Recorded h b (record b))
    (delta : Nat) : Effect owed owed s (s.beginOp sl h record delta) := by
  have acked : Still sl s (s.ackIrq sl h) := still_ackIrq h
  have rest := hr.still acked
  refine Effect.andThen (acked.effect.trans ?_) fun _ => (still_setCtime h _).effect
  have on : Switch sl h true (s.ackIrq sl h) (((s.ackIrq sl h).setStatus sl h codeBusy).mapBody sl record) :=
    have recorded := hrec _ rest.kind
    switch_status rest.sub (by rw [codeField_mergeStatus, rest.kind]; cases k <;> rfl) recorded.toSameAccount
      recorded.op recorded.armed recorded.other
  exact (Switch.effect_on (e := completion 0 0 sl) on rfl rest.sub rest.idle).trans
    (effect_schedule (completion 0 0 sl) delta)

/-- A sub-device with an operation in progress. -/
structure AtWork (s : State) (sl : Slot) (h : Sub) : Prop where
  sub : h ∈ (s.body sl).subs
  op : (s.body sl).opActive h = true

theorem AtWork.still (hw : AtWork s sl h) (hs : Still sl s t) : AtWork t sl h where
  sub := hs.subs ▸ hw.sub
  op := (hs.op h).trans hw.op

theorem effect_end (he : e.kind = .complete) (hw : AtWork s e.target h) {w : Word}
    (hc : (codeField (s.kind e.target) w == codeBusy) = false) :
    Effect (e :: owed) owed s ((s.putStatus e.target h w).mapBody e.target (clearOp h)) := by
  have account : SameAccount (s.body e.target) (clearOp h (s.body e.target)) := by
    cases s.body e.target with
    | terminal t => exact ⟨rfl, rfl, by cases h <;> rfl, id⟩
    | null | printer _ | disk _ | flash _ | eth _ => exact ⟨rfl, rfl, rfl, id⟩
  have armed : (clearOp h (s.body e.target)).armed = (s.body e.target).armed := by cases s.body e.target <;> rfl
  exact (switch_status hw.sub hc account (clearOp_opActive h _) armed fun _ hh' hne =>
    clearOp_opActive_other hw.sub hh' hne).effect_off he hw.sub hw.op

/-- A completion that ends its operation (R513). -/
theorem effect_finish (he : e.kind = .complete) (hw : AtWork s e.target h) {w : Word} (hc : NotBusy w) :
    Effect (e :: owed) owed s (s.finish e.target h w) :=
  (effect_end he hw (by rw [codeField_mergeStatus]; exact codeField_ne_busy hc _)).trans
    ((still_raiseIrq h).trans (still_report _)).effect

/-- A sub-device at rest stays so with a status word that is not busy (R514). -/
theorem AtRest.still_setStatus {k : DevKind} (hr : AtRest s sl k h) {w : Word} (hc : NotBusy w) :
    Still sl s (s.setStatus sl h w) :=
  still_putStatus hr.sub (by rw [codeField_mergeStatus, codeField_ne_busy hc, hr.idle])

theorem effect_failNow {k : DevKind} (hr : AtRest s sl k h) {c : Word} (hc : NotBusy c) :
    Effect owed owed s (s.failNow sl h c) := ((hr.still_setStatus hc).trans (still_raiseIrq h)).effect

theorem effect_ackCmd {k : DevKind} (hr : AtRest s sl k h) : Effect owed owed s (s.ackCmd sl h) :=
  ((still_ackIrq h).trans ((hr.still (still_ackIrq h)).still_setStatus (by decide))).effect

/-! The poll. -/

theorem setPollArmed_account (v : Bool) (b : DeviceBody) :
    SameAccount b (setPollArmed v b) ∧ ∀ h, (setPollArmed v b).opActive h = b.opActive h := by
  cases b <;> exact ⟨⟨rfl, rfl, rfl, id⟩, fun _ => rfl⟩

/-- The flag moves in step with one owed event, whichever way it moves. -/
theorem effect_setPollArmed {y : Eth} (hy : s.body sl = .eth y) (v : Bool)
    (hself : PollWith owed s → eventCount (owed' ++ s.queue) sl .poll = if v then 1 else 0)
    (hother : ∀ x k, x ≠ sl ∨ k ≠ .poll → eventCount (owed' ++ s.queue) x k = eventCount (owed ++ s.queue) x k) :
    Effect owed owed' s (s.mapBody sl (setPollArmed v)) := by
  obtain ⟨ha, ho⟩ := setPollArmed_account v (s.body sl)
  have kept : Upkeep sl s (s.mapBody sl (setPollArmed v)) := upkeep_mapBody ha
  refine ⟨kept.storage, kept.pend, id, fun _ hb x => ?_, fun _ hp x => ?_⟩
  · obtain ⟨hagree, hcount⟩ := kept.busyWith (fun h _ => State.mapBody_busy ha.kind h)
      (fun h => by rw [State.mapBody_body, if_pos rfl, ho]) hb x
    exact ⟨hagree, (hother x .complete (.inr (by decide))).trans hcount⟩
  · by_cases hx : x = sl
    · rw [hx, State.mapBody_body, if_pos rfl, hy]
      exact hself hp
    · rw [State.mapBody_body, if_neg hx]
      exact (hother x .poll (.inl hx)).trans (hp x)

/-- Setting the poll flag owes a poll. -/
theorem effect_arm (he : e.kind = .poll) {y : Eth} (hy : s.body e.target = .eth y) (ha : y.pollArmed = false) :
    Effect owed (e :: owed) s (s.mapBody e.target (setPollArmed true)) := by
  refine effect_setPollArmed hy true (fun hp => ?_) fun x k hxk => ?_
  · rw [List.cons_append, eventCount_cons, if_pos ⟨rfl, he⟩, hp e.target, hy]
    simp [DeviceBody.armed, ha]
  · rw [List.cons_append, eventCount_other _ (he ▸ hxk)]

/-- Clearing the poll flag serves the one poll (R1118). -/
theorem effect_disarm (he : e.kind = .poll) {y : Eth} (hy : s.body e.target = .eth y) :
    Effect (e :: owed) owed s (s.mapBody e.target (setPollArmed false)) := by
  refine effect_setPollArmed hy false (fun hp => ?_) fun x k hxk => ?_
  · have hcount := hp e.target
    rw [List.cons_append, eventCount_cons, if_pos ⟨rfl, he⟩] at hcount
    split at hcount
    · exact Nat.succ.inj hcount
    · exact absurd hcount (Nat.succ_ne_zero _)
  · rw [List.cons_append, eventCount_other _ (he ▸ hxk)]

/-- In time, it makes no difference whether a body changes before or after an event is scheduled. -/
theorem schedule_then_mapBody {delta : Nat} {f : DeviceBody → DeviceBody} {k : EventKind} (hd : InTime s delta)
    (hf : s.fatal = none) :
    (s.schedule sl k delta).andThen (fun s => s.mapBody sl f) = (s.mapBody sl f).schedule sl k delta := by
  have hd' : InTime (s.mapBody sl f) delta := hd
  rw [State.schedule_inTime sl k hd, State.schedule_inTime sl k hd', State.andThen_running (by exact hf)]
  rfl

/-- Arming the poll (R1120). -/
theorem effect_armPoll (hf : s.fatal = none) : Effect owed owed s (armPoll sl s) := by
  unfold armPoll
  split
  · next y hy =>
    split
    · next hp =>
      have ha : y.pollArmed = false := by simp_all
      by_cases hd : InTime s (pollTicks s.cfg)
      · rw [schedule_then_mapBody hd hf]
        exact (effect_arm (e := ⟨0, 0, sl, .poll⟩) rfl hy ha).trans (effect_schedule ⟨0, 0, sl, .poll⟩ _)
      · rw [State.schedule_overflow sl .poll hd]
        exact effect_stop _
    · exact Still.refl (sl := sl).effect
  · exact Still.refl (sl := sl).effect

end Sys2Proof.Machine
end

section
/-! PROOFS. The effect of every command and of every event on the accounts. -/

namespace Sys2Proof.Machine

variable {s t u : State} {sl : Slot} {h : Sub} {e : Event}

/-! Changes of a body beside its operation. -/

/-- A change of a body that keeps its account, its operations and its poll flag. -/
structure Minor (b b' : DeviceBody) : Prop extends SameAccount b b' where
  op : ∀ h, b'.opActive h = b.opActive h
  armed : b'.armed = b.armed

theorem Minor.refl (b : DeviceBody) : Minor b b := ⟨⟨rfl, rfl, rfl, id⟩, fun _ => rfl, rfl⟩

theorem Minor.still {f : DeviceBody → DeviceBody} (hf : Minor (s.body sl) (f (s.body sl))) :
    Still sl s (s.mapBody sl f) :=
  still_mapBody hf.toSameAccount hf.op hf.armed

theorem minor_appendLog (bs : List Byte) (b : DeviceBody) : Minor b (appendLog bs b) := by
  cases b <;> exact ⟨⟨rfl, rfl, rfl, id⟩, fun h => by cases h <;> rfl, rfl⟩

theorem minor_rxbuf (f : Terminal → List Byte) (b : DeviceBody) :
    Minor b (onTerminal (fun t => { t with rxbuf := f t }) b) := by
  cases b <;> exact ⟨⟨rfl, rfl, rfl, id⟩, fun h => by cases h <;> rfl, rfl⟩

theorem minor_pktbuf (bs : List Byte) (b : DeviceBody) : Minor b (onEth (fun e => { e with pktbuf := bs }) b) := by
  cases b <;> exact ⟨⟨rfl, rfl, rfl, id⟩, fun _ => rfl, rfl⟩

theorem minor_conf (m : Byte) (a : Mac) (b : DeviceBody) :
    Minor b (onEth (fun e => { e with mode := m, mac := a }) b) := by
  cases b <;> exact ⟨⟨rfl, rfl, rfl, id⟩, fun _ => rfl, rfl⟩

theorem minor_setDiskCache (c : DiskCache) (b : DeviceBody) : Minor b (setDiskCache c b) := by
  cases b <;> exact ⟨⟨rfl, rfl, rfl, id⟩, fun _ => rfl, rfl⟩

theorem minor_setCurCyl (c : Word) (b : DeviceBody) : Minor b (onDisk (fun d => { d with curCyl := c }) b) := by
  cases b <;> exact ⟨⟨rfl, rfl, rfl, id⟩, fun _ => rfl, rfl⟩

theorem minor_setFlashCache (k : Word) (b : DeviceBody) : Minor b (setFlashCache k b) := by
  cases b <;> exact ⟨⟨rfl, rfl, rfl, id⟩, fun _ => rfl, rfl⟩

theorem minor_setDiskBuf {blk : Block} (hl : blk.length = 1024) (b : DeviceBody) : Minor b (setDiskBuf blk b) := by
  cases b with
  | disk d => exact ⟨⟨rfl, rfl, rfl, fun hd => ⟨hd.1, hl⟩⟩, fun _ => rfl, rfl⟩
  | null | printer _ | terminal _ | flash _ | eth _ => exact .refl _

theorem minor_setFlashBuf {blk : Block} (hl : blk.length = 1024) (b : DeviceBody) : Minor b (setFlashBuf blk b) := by
  cases b with
  | flash d => exact ⟨⟨rfl, rfl, rfl, fun hd => ⟨hd.1, hl⟩⟩, fun _ => rfl, rfl⟩
  | null | printer _ | terminal _ | disk _ | eth _ => exact .refl _

/-! Records of operations. -/

/-- A recorded operation of a type with one sub-device. -/
theorem Recorded.single {b b' : DeviceBody} (ha : SameAccount b b') (ho : b'.opActive .single = true)
    (hp : b'.armed = b.armed) (hb : b.subs = [.single]) : Recorded .single b b' where
  toSameAccount := ha
  op := ho
  armed := hp
  other _ hh' hne := absurd (List.mem_singleton.1 (hb ▸ hh')) hne

theorem recorded_startPrinter (o : PrinterOp) : ∀ b, b.kind = some .printer → Recorded .single b (startPrinter o b)
  | .printer _, _ => .single ⟨rfl, rfl, rfl, id⟩ rfl rfl rfl

theorem recorded_startDisk (o : DiskOp) : ∀ b, b.kind = some .disk → Recorded .single b (startDisk o b)
  | .disk _, _ => .single ⟨rfl, rfl, rfl, id⟩ rfl rfl rfl

theorem recorded_startFlash (o : FlashOp) : ∀ b, b.kind = some .flash → Recorded .single b (startFlash o b)
  | .flash _, _ => .single ⟨rfl, rfl, rfl, id⟩ rfl rfl rfl

theorem recorded_startEth (o : EthOp) : ∀ b, b.kind = some .eth → Recorded .single b (startEth o b)
  | .eth _, _ => .single ⟨rfl, rfl, rfl, id⟩ rfl rfl rfl

theorem recorded_startHalf (hh : h ∈ [Sub.rx, Sub.tx]) (o : HalfOp) :
    ∀ b, b.kind = some .terminal → Recorded h b (startHalf h o b)
  | .terminal t, _ =>
    { kind := rfl, geometry := rfl, requests := by cases h <;> rfl, stored := id, op := by cases h <;> rfl, armed := rfl
      other := fun _ hh' hne => by
        obtain ⟨-, -, ⟨rfl, rfl⟩ | ⟨rfl, rfl⟩⟩ := sub_cases (b := .terminal t) hh hh' hne <;> rfl }

/-! Acceptance. -/

/-- A command has the effect of its run at a sub-device at rest, or none (R504, R506). -/
theorem accept_effect {k : DevKind} {w : Word} {run : State → State} (ha : s.accept k sl h w run = .next t)
    (hh : h ∈ subsOf (some k)) (hrun : ∀ u, u.fatal = none → AtRest u sl k h → Effect [] [] u (run u)) :
    Effect [] [] s t := by
  obtain ⟨hf, hk, ⟨-, rfl⟩ | ⟨hidle, rfl⟩⟩ := State.accept_next ha
  · exact Still.refl (sl := sl).effect
  · have hrest : AtRest s sl k h := ⟨hk, by rwa [subs_eq, State.body_eq, ← State.kind_eq, hk], hidle⟩
    have stored : Still sl s (s.setReg sl (cmdIdx h) w) := still_setReg (fun _ _ => statusIdx_ne_cmdIdx _ _) w
    exact stored.effect.trans (hrun _ (stored.fatal.trans hf) (hrest.still stored))

theorem effect_beginRotational (hr : AtRest s sl .disk .single) (d : Disk) (sect : BitVec 8) (o : DiskOp) :
    Effect [] [] s (beginRotational sl d sect o s) := by
  unfold beginRotational
  split
  · exact effect_stop _
  · exact effect_beginOp hr (recorded_startDisk o) _

theorem effect_diskResetAccept (hr : AtRest s sl .disk .single) : Effect [] [] s (diskResetAccept sl s) := by
  unfold diskResetAccept
  split
  · have invalid := (minor_setDiskCache .invalid (s.body sl)).still
    exact invalid.effect.trans (effect_beginOp (hr.still invalid) (recorded_startDisk _) _)
  · exact Still.refl (sl := sl).effect

theorem effect_diskSeekAccept (hr : AtRest s sl .disk .single) (cyl : BitVec 16) :
    Effect [] [] s (diskSeekAccept sl cyl s) := by
  unfold diskSeekAccept
  split
  · split
    · exact effect_beginOp hr (recorded_startDisk _) _
    · exact effect_failNow hr (by decide)
  · exact Still.refl (sl := sl).effect

theorem effect_diskReadAccept (hr : AtRest s sl .disk .single) (head sect : BitVec 8) :
    Effect [] [] s (diskReadAccept sl head sect s) := by
  unfold diskReadAccept
  split
  · split
    · have invalid := (minor_setDiskCache .invalid (s.body sl)).still
      exact invalid.effect.trans (effect_failNow (hr.still invalid) (by decide))
    · split
      · exact effect_beginOp hr (recorded_startDisk _) _
      · exact effect_beginRotational hr _ _ _
  · exact Still.refl (sl := sl).effect

/-- The block a WRITEBLK takes from memory is whole, whether the DMA fails or not (R602). -/
theorem still_diskFill (a : Word) :
    Still sl s ((s.dmaFromMem a).2.2.mapBody sl (setDiskBuf (s.dmaFromMem a).2.1)) :=
  (still_tape (s.dmaFromMem_spec a).2.2.1).trans (minor_setDiskBuf (s.dmaFromMem_spec a).2.1 _).still

theorem still_flashFill (a : Word) :
    Still sl s ((s.dmaFromMem a).2.2.mapBody sl (setFlashBuf (s.dmaFromMem a).2.1)) :=
  (still_tape (s.dmaFromMem_spec a).2.2.1).trans (minor_setFlashBuf (s.dmaFromMem_spec a).2.1 _).still

theorem effect_diskWriteAccept (hr : AtRest s sl .disk .single) (head sect : BitVec 8) :
    Effect [] [] s (diskWriteAccept sl head sect s) := by
  unfold diskWriteAccept
  split
  · have invalid := (minor_setDiskCache .invalid (s.body sl)).still
    simp only
    split
    · exact invalid.effect.trans (effect_failNow (hr.still invalid) (by decide))
    · have filled := invalid.trans (still_diskFill ((s.mapBody sl (setDiskCache .invalid)).reg sl 2))
      split
      · exact filled.effect.trans (effect_failNow (hr.still filled) (by decide))
      · exact filled.effect.trans (effect_beginRotational (hr.still filled) _ _ _)
  · exact Still.refl (sl := sl).effect

theorem effect_flashResetAccept (hr : AtRest s sl .flash .single) : Effect [] [] s (flashResetAccept sl s) :=
  have invalid := (minor_setFlashCache maxU32 (s.body sl)).still
  invalid.effect.trans (effect_beginOp (hr.still invalid) (recorded_startFlash _) _)

theorem effect_flashReadAccept (hr : AtRest s sl .flash .single) (blk : BitVec 24) :
    Effect [] [] s (flashReadAccept sl blk s) := by
  unfold flashReadAccept
  split
  · split
    · have invalid := (minor_setFlashCache maxU32 (s.body sl)).still
      exact invalid.effect.trans (effect_failNow (hr.still invalid) (by decide))
    · split
      · exact effect_beginOp hr (recorded_startFlash _) _
      · exact effect_beginOp hr (recorded_startFlash _) _
  · exact Still.refl (sl := sl).effect

theorem effect_flashWriteAccept (hr : AtRest s sl .flash .single) (blk : BitVec 24) :
    Effect [] [] s (flashWriteAccept sl blk s) := by
  unfold flashWriteAccept
  split
  · have invalid := (minor_setFlashCache maxU32 (s.body sl)).still
    simp only
    split
    · exact invalid.effect.trans (effect_failNow (hr.still invalid) (by decide))
    · have filled := invalid.trans (still_flashFill ((s.mapBody sl (setFlashCache maxU32)).reg sl 2))
      split
      · exact filled.effect.trans (effect_failNow (hr.still filled) (by decide))
      · exact filled.effect.trans (effect_beginOp (hr.still filled) (recorded_startFlash _) _)
  · exact Still.refl (sl := sl).effect

/-- A slot of a type that is no terminal. -/
theorem AtRest.not_terminal {k : DevKind} (hr : AtRest s sl k h) (hk : k ≠ .terminal) : s.kind sl ≠ some .terminal :=
  fun e => hk (Option.some.inj (hr.kind.symm.trans e))

theorem effect_ethAckAccept (hf : s.fatal = none) (hr : AtRest s sl .eth .single) :
    Effect [] [] s (ethAckAccept sl s) := by
  have acked : Still sl s (s.irqAck sl) := still_irqAck (hr.not_terminal (by decide))
  have rest := hr.still acked
  have ready : Still sl (s.irqAck sl) ((s.irqAck sl).putStatus sl .single codeReady) :=
    still_putStatus rest.sub (by rw [rest.idle, rest.kind]; rfl)
  exact (acked.trans ready).effect.trans (effect_armPoll hf)

/-- What a command does to the accounts. -/
theorem exec_effect {i : Instr} (hi : exec i s = .next t) : Effect [] [] s t := by
  cases i with
  | printerReset sl ign =>
    rw [exec, execPrinterReset] at hi
    exact accept_effect hi (by decide) fun _ _ hr => effect_beginOp hr (recorded_startPrinter _) _
  | printerAck sl ign =>
    rw [exec, execPrinterAck] at hi
    exact accept_effect hi (by decide) fun _ _ hr => effect_ackCmd hr
  | printerPrntchr sl ign =>
    rw [exec, execPrinterPrntchr] at hi
    exact accept_effect hi (by decide) fun _ _ hr => effect_beginOp hr (recorded_startPrinter _) _
  | termRxReset sl ign =>
    rw [exec, execTermRxReset] at hi
    exact accept_effect hi (by decide) fun _ _ hr => effect_beginOp hr (recorded_startHalf (by decide) _) _
  | termRxAck sl ign =>
    rw [exec, execTermRxAck] at hi
    exact accept_effect hi (by decide) fun _ _ hr => effect_ackCmd hr
  | termRxRecvchr sl ign =>
    rw [exec, execTermRxRecvchr] at hi
    exact accept_effect hi (by decide) fun _ _ hr => effect_beginOp hr (recorded_startHalf (by decide) _) _
  | termTxReset sl ign =>
    rw [exec, execTermTxReset] at hi
    exact accept_effect hi (by decide) fun _ _ hr => effect_beginOp hr (recorded_startHalf (by decide) _) _
  | termTxAck sl ign =>
    rw [exec, execTermTxAck] at hi
    exact accept_effect hi (by decide) fun _ _ hr => effect_ackCmd hr
  | termTxTranchr sl char ign =>
    rw [exec, execTermTxTranchr] at hi
    exact accept_effect hi (by decide) fun _ _ hr => effect_beginOp hr (recorded_startHalf (by decide) _) _
  | diskReset sl ign =>
    rw [exec, execDiskReset] at hi
    exact accept_effect hi (by decide) fun _ _ hr => effect_diskResetAccept hr
  | diskAck sl ign =>
    rw [exec, execDiskAck] at hi
    exact accept_effect hi (by decide) fun _ _ hr => effect_ackCmd hr
  | diskSeekcyl sl cyl ign =>
    rw [exec, execDiskSeekcyl] at hi
    exact accept_effect hi (by decide) fun _ _ hr => effect_diskSeekAccept hr cyl
  | diskReadblk sl head sect ign =>
    rw [exec, execDiskReadblk] at hi
    exact accept_effect hi (by decide) fun _ _ hr => effect_diskReadAccept hr head sect
  | diskWriteblk sl head sect ign =>
    rw [exec, execDiskWriteblk] at hi
    exact accept_effect hi (by decide) fun _ _ hr => effect_diskWriteAccept hr head sect
  | flashReset sl ign =>
    rw [exec, execFlashReset] at hi
    exact accept_effect hi (by decide) fun _ _ hr => effect_flashResetAccept hr
  | flashAck sl ign =>
    rw [exec, execFlashAck] at hi
    exact accept_effect hi (by decide) fun _ _ hr => effect_ackCmd hr
  | flashReadblk sl blk =>
    rw [exec, execFlashReadblk] at hi
    exact accept_effect hi (by decide) fun _ _ hr => effect_flashReadAccept hr blk
  | flashWriteblk sl blk =>
    rw [exec, execFlashWriteblk] at hi
    exact accept_effect hi (by decide) fun _ _ hr => effect_flashWriteAccept hr blk
  | ethReset sl ign =>
    rw [exec, execEthReset] at hi
    exact accept_effect hi (by decide) fun _ _ hr => effect_beginOp hr (recorded_startEth _) _
  | ethAck sl ign =>
    rw [exec, execEthAck] at hi
    exact accept_effect hi (by decide) fun _ hf hr => effect_ethAckAccept hf hr
  | ethReadconf sl ign =>
    rw [exec, execEthReadconf] at hi
    exact accept_effect hi (by decide) fun _ _ hr => effect_beginOp hr (recorded_startEth _) _
  | ethReadnet sl ign =>
    rw [exec, execEthReadnet] at hi
    exact accept_effect hi (by decide) fun _ _ hr => effect_beginOp hr (recorded_startEth _) _
  | ethWritenet sl ign =>
    rw [exec, execEthWritenet] at hi
    exact accept_effect hi (by decide) fun _ _ hr => effect_beginOp hr (recorded_startEth _) _
  | ethConfigure sl ign =>
    rw [exec, execEthConfigure] at hi
    exact accept_effect hi (by decide) fun _ _ hr => effect_beginOp hr (recorded_startEth _) _

/-! Completions. -/

/-- A log append is fatal, or leaves the accounts (R706, R819). -/
theorem writeLog_cases (s : State) (sl : Slot) (bytes : List Byte) :
    (∃ u r, Still sl s u ∧ s.writeLog sl bytes = u.stop r) ∨ Still sl s (s.writeLog sl bytes) := by
  have drawn : Still sl s { s with tape := s.drawIo.2.tape } := still_tape rfl
  cases hio : s.drawIo.1
  · rw [(s.writeLog_spec sl bytes).2 hio]
    exact .inr (drawn.trans (minor_appendLog bytes _).still)
  · rw [(s.writeLog_spec sl bytes).1 hio]
    exact .inl ⟨_, _, drawn, rfl⟩

/-- A part of a handler that is fatal or leaves the accounts, and then the rest. -/
theorem effect_then {owed owed' : List Event} {f : State → State}
    (hs : (∃ u r, Still sl s u ∧ t = u.stop r) ∨ Still sl s t) (hf : Still sl s t → Effect owed owed' t (f t)) :
    Effect owed owed' s (t.andThen f) := by
  obtain ⟨u, r, hu, rfl⟩ | hs := hs
  · rw [State.stop_andThen]
    exact hu.effect.trans (effect_stop r)
  · exact Effect.andThen hs.effect fun _ => hf hs

theorem atWork_of_body {b : DeviceBody} (hb : s.body sl = b) (hh : h ∈ b.subs) (ho : b.opActive h = true) :
    AtWork s sl h := ⟨hb ▸ hh, hb ▸ ho⟩

/-- The half a terminal completes has an operation in progress (R813). -/
theorem chooseHalf_some {x : Terminal} (hc : chooseHalf x = some h) : h ∈ [Sub.rx, Sub.tx] := by
  unfold chooseHalf at hc
  split at hc
  · split at hc <;> simp_all
  · split at hc
    · simp_all
    · split at hc <;> simp_all

/-- Reading a sector into the buffer (R913). -/
theorem diskLoad_cases (d : Disk) (head sect : BitVec 8) :
    (∃ u r, Still sl s u ∧ diskLoad sl d head sect s = u.stop r) ∨ Still sl s (diskLoad sl d head sect s) := by
  obtain ⟨htape, hblk⟩ := s.fileRead_spec d.image (d.offBytes d.curCyl.toNat head.toNat sect.toNat)
  unfold diskLoad
  simp only
  split
  · exact .inl ⟨_, _, still_tape htape, rfl⟩
  · next b hb =>
    exact .inr ((still_tape htape).trans (minor_setDiskBuf (by rw [hblk b hb, File.blockAt_length]) _).still)

/-- Reading a block into the buffer (R1008). -/
theorem flashLoad_cases (f : Flash) (blk : BitVec 24) :
    (∃ u r, Still sl s u ∧ flashLoad sl f blk s = u.stop r) ∨ Still sl s (flashLoad sl f blk s) := by
  obtain ⟨htape, hblk⟩ := s.fileRead_spec f.image (f.offBytes blk)
  unfold flashLoad
  simp only
  split
  · exact .inl ⟨_, _, still_tape htape, rfl⟩
  · next b hb =>
    exact .inr ((still_tape htape).trans (minor_setFlashBuf (by rw [hblk b hb, File.blockAt_length]) _).still)

/-- An image written is canonical (R911). -/
theorem fileWrite_wf {f g : File} {off : Nat} {b : Block} (hg : (s.fileWrite f off b).1 = some g) (hf : f.wf) :
    g.wf := by
  obtain ⟨-, hfail, hok⟩ := s.fileWrite_spec f off b
  cases hio : s.drawIo.1
  · obtain ⟨gap, hput⟩ := hok hio
    rw [Option.some.inj (hg.symm.trans hput)]
    exact File.putBlock_wf hf ..
  · exact absurd (hg.symm.trans (hfail hio)) (by simp)

/-- The data registers of an ethernet device are no status registers (R13). -/
theorem still_setReg_eth (hk : s.kind sl = some .eth) {i : Fin 4} (hi : i ≠ 0) (v : Word) :
    Still sl s (s.setReg sl i v) := by
  refine still_setReg (fun h hh => ?_) v
  rw [subs_eq, State.body_eq, ← State.kind_eq, hk] at hh
  rw [List.mem_singleton.1 hh]
  exact hi.symm

/-- Which register index was reported last is in no account (R519). -/
theorem effect_report {owed : List Event} (i : Fin 4) : Effect owed owed s (s.report i) :=
  (still_report (sl := tableSlot) i).effect

section Complete

variable (he : e.kind = .complete)
include he

theorem effect_still_finish (hw : AtWork s e.target h) (hs : Still e.target s u) {w : Word} (hc : NotBusy w) :
    Effect [e] [] s (u.finish e.target h w) := hs.effect.trans (effect_finish he (hw.still hs) hc)

theorem effect_completePrinter {p : Printer} (hb : s.body e.target = .printer p) :
    Effect [e] [] s (completePrinter e.target p s) := by
  have working : ∀ o, p.op = some o → AtWork s e.target .single := fun o ho =>
    atWork_of_body hb (List.mem_singleton.2 rfl) (by rw [DeviceBody.opActive, ho]; rfl)
  unfold completePrinter
  split
  · exact effect_stop _
  · next ho => exact effect_finish he (working _ ho) (by decide)
  · next ho =>
    split
    · exact effect_then (writeLog_cases s e.target _) fun hs => effect_finish he ((working _ ho).still hs) (by decide)
    · exact effect_finish he (working _ ho) (by decide)

theorem effect_completeTran (hw : AtWork s e.target .tx) : Effect [e] [] s (completeTran e.target s) := by
  unfold completeTran
  simp only
  split
  · exact effect_then (writeLog_cases s e.target _) fun hs =>
      effect_still_finish he (hw.still hs) (still_emit _) (notBusy_charStatus _ rfl)
  · exact effect_finish he hw (notBusy_charStatus _ rfl)

/-- An empty receive buffer schedules the completion again (R805). -/
theorem effect_completeRecv (hw : AtWork s e.target .rx) (x : Terminal) :
    Effect [e] [] s (completeRecv e.target x s) := by
  unfold completeRecv
  split
  · have again := effect_schedule (s := s) (owed := []) e (80 * s.cfg.clockRate)
    rw [he] at again
    exact again.andThen fun _ => ((still_setCtime .rx _).trans (still_report 0)).effect
  · split
    · exact effect_still_finish he hw (minor_rxbuf _ _).still (notBusy_charStatus _ rfl)
    · exact effect_finish he hw (by decide)

theorem effect_completeTerminal {x : Terminal} (hb : s.body e.target = .terminal x) :
    Effect [e] [] s (completeTerminal e.target x s) := by
  unfold completeTerminal
  split
  · exact effect_stop _
  · next h hc =>
    have working : ∀ o, (x.half h).op = some o → AtWork s e.target h := fun o ho =>
      atWork_of_body hb (chooseHalf_some hc) (by rw [DeviceBody.opActive, ho]; rfl)
    unfold completeHalf
    split
    · exact effect_stop _
    · next ho => exact effect_finish he (working _ ho) (by decide)
    · next ho =>
      split
      · next htx => exact effect_completeTran he (htx ▸ working _ ho)
      · next htx =>
        have hrx : h = .rx := by simpa [htx] using chooseHalf_some hc
        exact effect_completeRecv he (hrx ▸ working _ ho) x

theorem effect_diskDeliver (hw : AtWork s e.target .single) (d : Disk) (head sect : BitVec 8) :
    Effect [e] [] s (diskDeliver e.target d head sect s) := by
  unfold diskDeliver
  simp only
  split <;> exact effect_still_finish he hw ((still_dmaToMemN _ _ _).trans (minor_setDiskCache _ _).still) (by decide)

theorem effect_completeDiskWrite {d : Disk} (hb : s.body e.target = .disk d) (hw : AtWork s e.target .single)
    (head sect : BitVec 8) : Effect [e] [] s (completeDiskWrite e.target d head sect s) := by
  unfold completeDiskWrite
  simp only
  split
  · have htape := (s.fileWrite_spec d.image (d.offBytes d.curCyl.toNat head.toNat sect.toNat) d.buf).1
    have written : Still e.target s _ := still_tape htape
    split
    · exact written.effect.trans (effect_stop _)
    · next g hg =>
      have hb' : State.body _ e.target = .disk d := (congrArg (State.body · e.target) htape).trans hb
      refine effect_still_finish he hw (written.trans (Minor.still ?_)) (by decide)
      rw [hb']
      exact ⟨⟨rfl, rfl, rfl, fun hd => ⟨fileWrite_wf hg hd.1, hd.2⟩⟩, fun _ => rfl, rfl⟩
  · exact effect_still_finish he hw (minor_setDiskCache _ _).still (by decide)

theorem effect_completeDisk {d : Disk} (hb : s.body e.target = .disk d) :
    Effect [e] [] s (completeDisk e.target d s) := by
  have working : ∀ o, d.op = some o → AtWork s e.target .single := fun o ho =>
    atWork_of_body hb (List.mem_singleton.2 rfl) (by rw [DeviceBody.opActive, ho]; rfl)
  unfold completeDisk
  split
  · exact effect_stop _
  · next ho => exact effect_still_finish he (working _ ho) (minor_setCurCyl _ _).still (by decide)
  · next ho =>
    unfold completeDiskSeek
    split
    · exact effect_still_finish he (working _ ho) (minor_setCurCyl _ _).still (by decide)
    · exact effect_finish he (working _ ho) (by decide)
  · next ho =>
    unfold completeDiskRead
    split
    · refine effect_then (sl := e.target) ?_ fun hs => effect_diskDeliver he ((working _ ho).still hs) _ _ _
      split
      · exact .inr .refl
      · exact diskLoad_cases _ _ _
    · exact effect_still_finish he (working _ ho) (minor_setDiskCache _ _).still (by decide)
  · next ho => exact effect_completeDiskWrite he hb (working _ ho) _ _

theorem effect_flashDeliver (hw : AtWork s e.target .single) (blk : BitVec 24) :
    Effect [e] [] s (flashDeliver e.target blk s) := by
  unfold flashDeliver
  simp only
  split <;> exact effect_still_finish he hw ((still_dmaToMemN _ _ _).trans (minor_setFlashCache _ _).still) (by decide)

theorem effect_completeFlashWrite {f : Flash} (hb : s.body e.target = .flash f) (hw : AtWork s e.target .single)
    (blk : BitVec 24) : Effect [e] [] s (completeFlashWrite e.target f blk s) := by
  unfold completeFlashWrite
  simp only
  split
  · have htape := (s.fileWrite_spec f.image (f.offBytes blk) f.buf).1
    have written : Still e.target s _ := still_tape htape
    split
    · exact written.effect.trans (effect_stop _)
    · next g hg =>
      have hb' : State.body _ e.target = .flash f := (congrArg (State.body · e.target) htape).trans hb
      refine effect_still_finish he hw (written.trans (Minor.still ?_)) (by decide)
      rw [hb']
      exact ⟨⟨rfl, rfl, rfl, fun hd => ⟨fileWrite_wf hg hd.1, hd.2⟩⟩, fun _ => rfl, rfl⟩
  · exact effect_still_finish he hw (minor_setFlashCache _ _).still (by decide)

theorem effect_completeFlash {f : Flash} (hb : s.body e.target = .flash f) :
    Effect [e] [] s (completeFlash e.target f s) := by
  have working : ∀ o, f.op = some o → AtWork s e.target .single := fun o ho =>
    atWork_of_body hb (List.mem_singleton.2 rfl) (by rw [DeviceBody.opActive, ho]; rfl)
  unfold completeFlash
  split
  · exact effect_stop _
  · next ho => exact effect_finish he (working _ ho) (by decide)
  · next ho =>
    unfold completeFlashRead
    split
    · refine effect_then (sl := e.target) ?_ fun hs => effect_flashDeliver he ((working _ ho).still hs) _
      split
      · exact .inr .refl
      · exact flashLoad_cases _ _
    · exact effect_still_finish he (working _ ho) (minor_setFlashCache _ _).still (by decide)
  · next ho => exact effect_completeFlashWrite he hb (working _ ho) _

/-- The RESET completion writes the status word whole, so READPENDING falls (R1104). -/
theorem effect_completeEthReset (hf : s.fatal = none) (hk : s.kind e.target = some .eth)
    (hw : AtWork s e.target .single) : Effect [e] [] s (completeEthReset e.target s) := by
  have emptied : Still e.target s (s.mapBody e.target (onEth fun e => { e with pktbuf := [] })) :=
    (minor_pktbuf [] _).still
  have ended := effect_end (owed := []) he (hw.still emptied) (w := codeReady)
    (by rw [emptied.calm.kind, hk]; rfl)
  have raised := still_irqRaise (sl := e.target)
    (s := ((s.mapBody e.target (onEth fun e => { e with pktbuf := [] })).putStatus e.target .single codeReady).mapBody
      e.target (clearOp .single)) ?_
  · have polled := ((emptied.effect.trans ended).trans raised.effect).trans
      (effect_armPoll (sl := e.target) (by simpa using hf))
    exact polled.andThen (f := fun s => s.report 0) fun _ => effect_report 0
  · rw [((calm_putStatus _ _).trans (calm_mapBody (keeps_clearOp .single))).kind, emptied.calm.kind, hk]
    decide

theorem effect_completeReadNet (hk : s.kind e.target = some .eth) (hw : AtWork s e.target .single) :
    Effect [e] [] s (completeReadNet e.target s) := by
  unfold completeReadNet
  simp only
  split
  · have drawn : Still e.target s s.drawRecv.2 := still_tape s.drawRecv_tape
    have length := drawn.trans
      (still_setReg_eth (i := 3) (drawn.calm.kind.trans hk) (by decide) (BitVec.ofInt 32 s.drawRecv.1.len))
    split
    · exact effect_still_finish he hw length (by decide)
    · split
      · exact effect_still_finish he hw length (by decide)
      · split <;>
          exact effect_still_finish he hw (length.trans ((minor_pktbuf _ _).still.trans (still_dmaToMemN _ _ _)))
            (by decide)
  · exact effect_finish he hw (by decide)

theorem effect_completeWriteNet (hw : AtWork s e.target .single) : Effect [e] [] s (completeWriteNet e.target s) := by
  unfold completeWriteNet
  simp only
  split
  · exact effect_finish he hw (by decide)
  · have read : Still e.target s _ := still_tape (s.dmaFromMemN_spec (s.reg e.target 2) (s.reg e.target 3).toNat).2.1
    split
    · exact effect_still_finish he hw read (by decide)
    · split <;>
        exact effect_still_finish he hw ((read.trans (still_callNet _)).trans (still_tape (State.drawSent_tape _)))
          (by decide)

theorem effect_completeConfigure (hf : s.fatal = none) (hw : AtWork s e.target .single) (x : Eth) :
    Effect [e] [] s (completeConfigure e.target x s) := by
  unfold completeConfigure
  simp only
  generalize configMode (s.reg e.target 2) &&& 0x7F#8 = mode
  generalize (if setsMac (configMode (s.reg e.target 2)) then configMac _ _ else x.mac) = mac
  have configured : Still e.target s ((s.mapBody e.target (onEth fun e => { e with mode := mode, mac := mac })).callNet
      (.configure e.target mode mac)) := (minor_conf mode mac _).still.trans (still_callNet _)
  exact (effect_still_finish he hw configured (by decide)).trans
    (effect_armPoll (by rw [State.finish_fatal, configured.fatal, hf]))

theorem effect_completeEth (hf : s.fatal = none) {x : Eth} (hb : s.body e.target = .eth x) :
    Effect [e] [] s (completeEth e.target x s) := by
  have hk : s.kind e.target = some .eth := congrArg DeviceBody.kind hb
  have working : ∀ o, x.op = some o → AtWork s e.target .single := fun o ho =>
    atWork_of_body hb (List.mem_singleton.2 rfl) (by rw [DeviceBody.opActive, ho]; rfl)
  unfold completeEth
  split
  · exact effect_stop _
  · next ho => exact effect_completeEthReset he hf hk (working _ ho)
  · next ho =>
    have data0 := still_setReg_eth (i := 2) hk (by decide) (confData0 x.mode x.mac)
    exact effect_still_finish he (working _ ho)
      (data0.trans (still_setReg_eth (data0.calm.kind.trans hk) (by decide) _)) (by decide)
  · next ho => exact effect_completeReadNet he hk (working _ ho)
  · next ho => exact effect_completeWriteNet he (working _ ho)
  · next ho => exact effect_completeConfigure he hf (working _ ho) x

end Complete

/-! The poll, and the dispatch of any event. -/

/-- Latching READPENDING leaves the status code (R1102, R1118). -/
theorem still_latchPending (hk : s.kind sl = some .eth) : Still sl s (latchPending sl s) := by
  have hsub : Sub.single ∈ (s.body sl).subs := by
    rw [subs_eq, State.body_eq, ← State.kind_eq, hk]
    decide
  have status : Still sl s (s.putStatus sl .single (s.reg sl 0 ||| 0x80#32)) := by
    refine still_putStatus hsub ?_
    show (codeField _ _ == _) = (codeField (s.kind sl) (s.reg sl 0) == codeBusy)
    simp only [hk, codeField, if_true, BitVec.and_or_distrib_right]
    simp
  exact status.trans (still_irqRaise (by rw [status.calm.kind, hk]; decide))

theorem effect_pollEth (he : e.kind = .poll) (hf : s.fatal = none) {x : Eth} (hb : s.body e.target = .eth x) :
    Effect [e] [] s (pollEth e.target x s) := by
  have disarmed : Effect [e] [] s (s.mapBody e.target (setPollArmed false)) := effect_disarm he hb
  unfold pollEth
  simp only
  split
  · exact disarmed.trans (effect_report 0)
  · split
    · exact Effect.andThen (f := fun s => s.report 0) (disarmed.trans (effect_armPoll hf)) fun _ => effect_report 0
    · have drawn : Still e.target (s.mapBody e.target (setPollArmed false)) _ := still_tape (State.drawWaiting_tape _)
      split
      · have hk : (s.mapBody e.target (setPollArmed false)).drawWaiting.2.kind e.target = some .eth := by
          rw [drawn.calm.kind, (calm_mapBody (f := setPollArmed false) (keeps_onEth _)).kind]
          exact congrArg DeviceBody.kind hb
        exact disarmed.trans ((drawn.trans (still_latchPending hk)).trans (still_report 0)).effect
      · exact Effect.andThen (f := fun s => s.report 0)
          ((disarmed.trans drawn.effect).trans (effect_armPoll (drawn.fatal.trans hf))) fun _ => effect_report 0

/-- The dispatch of an event serves it (R407). -/
theorem dispatch_effect (e : Event) (hf : s.fatal = none) : Effect [e] [] s (dispatch e s) := by
  unfold dispatch
  split
  · next hb he => exact effect_completePrinter he hb
  · next hb he => exact effect_completeTerminal he hb
  · next hb he => exact effect_completeDisk he hb
  · next hb he => exact effect_completeFlash he hb
  · next hb he => exact effect_completeEth he hf hb
  · next hb he => exact effect_pollEth he hf hb
  · exact effect_stop _

/-! A step. -/

/-- An illegal command is accepted like every other, and fails at once (R315, R506). -/
theorem execIllegal_eq (p : Port) (sl : Slot) (w : Word) (s : State) :
    execIllegal p sl w s = s.accept p.kind sl p.sub w fun s => s.failNow sl p.sub codeIllegalOp := by cases p <;> rfl

/-- A data register that a write stores is no status register (R507, R509). -/
theorem statusIdx_ne_writable {k : DevKind} {i : Fin 4} (hw : writable k i = true) (hh : h ∈ subsOf (some k)) :
    statusIdx h ≠ i := by
  cases k with
  | terminal => exact absurd hw (by simp [writable])
  | printer | disk | flash | eth =>
    rw [List.mem_singleton.1 hh]
    rintro rfl
    exact absurd hw (by decide)

/-- What a request other than a tick does to the accounts. -/
theorem Change.effect (hc : Change s u) : Effect [] [] s u := by
  cases hc with
  | nothing => exact (Still.refl (sl := tableSlot)).effect
  | command i _ hi => exact exec_effect hi
  | illegal p sl w _ hi =>
    rw [execIllegal_eq] at hi
    exact accept_effect hi (sub_mem_subsOf p) fun _ _ hr => effect_failNow hr (by decide)
  | data sl k i v hk hw =>
    refine (still_setReg (fun h hh => statusIdx_ne_writable hw ?_) v).effect
    rwa [← hk, State.kind_eq, ← State.body_eq, ← subs_eq]
  | input sl text =>
    unfold hostInput
    split
    · have received : Still sl s _ := (minor_rxbuf (fun t => t.rxbuf ++ text ++ [0x0A#8]) (s.body sl)).still
      obtain ⟨v, r, hv, hstop⟩ | logged := writeLog_cases
        (s.mapBody sl (onTerminal fun t => { t with rxbuf := t.rxbuf ++ text ++ [0x0A#8] })) sl (text ++ [0x0A#8])
      · rw [hstop]
        exact (received.trans hv).effect.trans (effect_stop r)
      · exact (received.trans logged).effect
    · exact effect_stop _
  | work sl b =>
    unfold toggleWork
    split
    · exact (Still.refl (sl := sl)).effect
    · exact ((still_setWorking (sl := sl) b).trans (still_emit _)).effect
  | overflow _ => exact effect_stop _
  | memory a bytes => exact (Still.of_eq (sl := tableSlot) (fun hm => Memory.writeBytes_wf hm a bytes) rfl).effect

/-- The effect of a step, packaged once: what an effect that owes nothing keeps in a running state, a step keeps. -/
theorem step_effect_induct {P : State → Prop} (htaken : ∀ s rest, P s → P (s.taken rest))
    (hanswer : ∀ s r, P s → P (s.answer r)) (htick : ∀ s : State, P s → P s.ticked)
    (hchange : ∀ s u, s.fatal = none → Effect [] [] s u → P s → P u)
    (hdispatch : ∀ s e rest u, s.fatal = none → s.queue = e :: rest → Effect [e] [] { s with queue := rest } u →
      P s → P u)
    (hs : step s = .next t) (hp : P s) : P t :=
  step_induct htaken hanswer (fun s u hf hc => hchange s u hf hc.effect) (fun s _ => htick s)
    (fun s e rest hf hq _ => hdispatch s e rest _ hf hq (dispatch_effect e hf)) hs hp

/-- Settles O58: every effect keeps storage. -/
theorem stepKeepsStorage : Obligations.StepKeepsStorage := by
  intro s t hs h
  exact step_effect_induct (P := StorageOk) (fun _ _ => storageOk_congr rfl rfl) (fun _ _ => storageOk_congr rfl rfl)
    (fun _ => storageOk_congr rfl rfl) (fun _ _ _ he => he.storage)
    (fun s _ _ _ _ _ he hs => he.storage (storageOk_congr (s := s) rfl rfl hs)) h hs

/-- Settles O56: every effect keeps the shared bit of a terminal. -/
theorem stepKeepsTerminalPending : Obligations.StepKeepsTerminalPending := by
  intro s t hs h
  exact step_effect_induct (P := PendOk) (fun _ _ => id) (fun _ _ => id) (fun _ => id) (fun _ _ _ he => he.pend)
    (fun _ _ _ _ _ _ he => he.pend) h hs

theorem step_busyOk (h : step s = .next t) (hb : BusyOk s) : BusyOk t :=
  step_effect_induct (P := BusyOk) (fun _ _ => id) (fun _ _ => id) (fun _ => id)
    (fun _ _ hf he hb hf' => he.busy hf' (hb hf))
    (fun s _ rest _ hf hq he hb hf' => he.busy hf' fun x => by
      have hx := hb hf x
      rw [State.completions, hq] at hx
      exact hx) h hb

theorem step_pollOk (h : step s = .next t) (hp : PollOk s) : PollOk t :=
  step_effect_induct (P := PollOk) (fun _ _ => id) (fun _ _ => id) (fun _ => id)
    (fun _ _ hf he hp hf' => he.poll hf' (hp hf))
    (fun s _ rest _ hf hq he hp hf' => he.poll hf' fun x => by
      have hx := hp hf x
      rw [State.polls, hq] at hx
      exact hx) h hp

/-- With the accounts in order, a slot is busy exactly while a completion of it is scheduled (R510, R511). -/
theorem isBusy_eq_pending (hb : BusyOk s) (hf : s.fatal = none) (sl : Slot) :
    s.isBusy sl = decide (0 < s.completions sl) := by
  obtain ⟨-, hcount⟩ := hb hf sl
  rw [hcount, State.isBusy, Bool.eq_iff_iff, decide_eq_true_iff, List.any_eq_true, List.countP_pos_iff]

/-- Settles O53: every effect keeps the accounts of the scheduled events. -/
theorem stepKeepsEventCounts : Obligations.StepKeepsEventCounts := by
  intro s t h
  exact ⟨fun hb => ⟨step_busyOk h hb, isBusy_eq_pending (step_busyOk h hb)⟩, step_pollOk h⟩

end Sys2Proof.Machine
end

section
/-! PROOFS. The queue: an insertion keeps the key order, a dispatch takes the head, and the dispatch loop leaves nothing
due. -/

namespace Sys2Proof.Machine

variable {s t u : State} {sl : Slot} {a b c e : Event}

/-- The queue is in strict key order, and every number in it is older than the next one (R102, R402). -/
structure KeyOrder (s : State) : Prop where
  sorted : s.queue.Pairwise fun a b => a.before b = true
  seqs : ∀ e ∈ s.queue, e.seq < s.seq

theorem queueOk_iff : QueueOk s ↔ KeyOrder s ∧ (s.fatal = none → ∀ e ∈ s.queue, s.tod ≤ e.fire) :=
  ⟨fun ⟨hsorted, hseqs, hfuture⟩ => ⟨⟨hsorted, hseqs⟩, hfuture⟩,
    fun ⟨⟨hsorted, hseqs⟩, hfuture⟩ => ⟨hsorted, hseqs, hfuture⟩⟩

/-- The order of the keys, as one of numbers (R402). -/
theorem before_iff :
    a.before b = true ↔ a.fire.toNat < b.fire.toNat ∨ (a.fire.toNat = b.fire.toNat ∧ a.seq < b.seq) := by
  simp [Event.before, BitVec.lt_def, BitVec.toNat_inj]

theorem before_trans (hab : a.before b = true) (hbc : b.before c = true) : a.before c = true := by
  rw [before_iff] at *
  omega

/-- An event with a newer number that does not come before another comes after it. -/
theorem before_of_not_before (h : ¬ e.before a = true) (hseq : a.seq < e.seq) : a.before e = true := by
  rw [before_iff] at *
  omega

theorem mem_insertEvent {q : List Event} : a ∈ insertEvent e q ↔ a = e ∨ a ∈ q := by
  rw [(insertEvent_perm e q).mem_iff, List.mem_cons]

/-- An event with a number newer than all is inserted in key order (R402, R403). -/
theorem insertEvent_sorted {q : List Event} (hq : q.Pairwise fun a b => a.before b = true)
    (hnew : ∀ a ∈ q, a.seq < e.seq) : (insertEvent e q).Pairwise fun a b => a.before b = true := by
  induction q with
  | nil => exact List.pairwise_singleton ..
  | cons y ys ih =>
    obtain ⟨hy, hys⟩ := List.pairwise_cons.1 hq
    simp only [insertEvent]
    split
    · next hey =>
      refine List.pairwise_cons.2 ⟨fun z hz => ?_, hq⟩
      rcases List.mem_cons.1 hz with rfl | hz
      · exact hey
      · exact before_trans hey (hy z hz)
    · next hey =>
      refine List.pairwise_cons.2 ⟨fun z hz => ?_, ih hys fun a ha => hnew a (List.mem_cons_of_mem _ ha)⟩
      rcases mem_insertEvent.1 hz with rfl | hz
      · exact before_of_not_before hey (hnew y (List.mem_cons_self ..))
      · exact hy z hz

theorem KeyOrder.oneEvent {k : EventKind} {delta : Nat} (hs : KeyOrder s) (he : OneEvent s t sl k delta) :
    KeyOrder t where
  sorted := by
    rw [he.1]
    exact insertEvent_sorted hs.sorted hs.seqs
  seqs a ha := by
    rw [he.1] at ha
    rw [he.2]
    rcases mem_insertEvent.1 ha with rfl | ha
    · exact Nat.lt_succ_self _
    · exact Nat.lt_succ_of_lt (hs.seqs a ha)

/-- A handler schedules at most one event, with the next number. -/
theorem Local.keyOrder {P : Nat → Prop} (hl : Local sl P s t) (hs : KeyOrder s) : KeyOrder t := by
  obtain ⟨hq, hn⟩ | ⟨_, _, _, _, he⟩ := hl.event
  · exact ⟨hq ▸ hs.sorted, hn ▸ hq ▸ hs.seqs⟩
  · exact hs.oneEvent he

/-- What a handler schedules does not lie in the past (R403). -/
theorem Local.future {P : Nat → Prop} (hl : Local sl P s t) (hs : ∀ e ∈ s.queue, s.tod ≤ e.fire) :
    ∀ e ∈ t.queue, t.tod ≤ e.fire := by
  rw [hl.others.tod]
  obtain ⟨hq, -⟩ | ⟨_, delta, _, hd, hq, -⟩ := hl.event
  · exact hq ▸ hs
  · rw [hq]
    intro a ha
    rcases mem_insertEvent.1 ha with rfl | ha
    · rw [BitVec.le_def, BitVec.toNat_ofNat, Nat.mod_eq_of_lt hd]
      exact Nat.le_add_right ..
    · exact hs a ha

/-- Nothing due at the head of a sorted queue is nothing due at all (R405). -/
theorem KeyOrder.future_of_idle (hs : KeyOrder s) (hd : runDue s = none) : ∀ e ∈ s.queue, s.tod ≤ e.fire := by
  unfold runDue at hd
  split at hd
  · next hq => simp [hq]
  · next e rest hq =>
    split at hd
    · exact absurd hd (by simp)
    · next hdue =>
      have hhead : s.tod.toNat < e.fire.toNat := by simpa [BitVec.le_def] using hdue
      have hsorted := hs.sorted
      rw [hq] at hsorted ⊢
      intro a ha
      rw [BitVec.le_def]
      rcases List.mem_cons.1 ha with rfl | ha
      · exact hhead.le
      · have hafter := before_iff.1 ((List.pairwise_cons.1 hsorted).1 a ha)
        omega

/-- The dispatch loop puts a queue in key order into order with the clock too (R132, R406). -/
theorem settle_queueOk (h : settle s = .next t) (hs : KeyOrder s) : QueueOk t := by
  obtain ⟨ht, hidle⟩ := settle_induct (P := KeyOrder) (fun s e rest _ hq _ hs => by
    have hqueue := hs.sorted
    have hseqs := hs.seqs
    rw [hq] at hqueue hseqs
    exact (local_dispatch e).keyOrder
      ⟨(List.pairwise_cons.1 hqueue).2, fun a ha => hseqs a (List.mem_cons_of_mem _ ha)⟩) h hs
  exact queueOk_iff.2 ⟨ht, fun hf => ht.future_of_idle (hidle hf)⟩

/-- Settles O55: a change schedules nothing in the past, and after a tick the dispatch loop leaves nothing there. -/
theorem stepKeepsQueue : Obligations.StepKeepsQueue := by
  intro s t hs h
  obtain ⟨horder, hfuture⟩ := queueOk_iff.1 hs
  obtain ⟨hf, rfl | ⟨rest, -, hsettle⟩ | ⟨rest, u, hchange, hlate⟩⟩ := step_cases h
  · exact hs
  · exact settle_queueOk hsettle ⟨horder.sorted, horder.seqs⟩
  · obtain ⟨sl, hlocal⟩ := hchange.toLocal
    have hu : QueueOk u :=
      queueOk_iff.2 ⟨hlocal.keyOrder ⟨horder.sorted, horder.seqs⟩, fun _ => hlocal.future (hfuture hf)⟩
    rcases hlate with hsettle | rfl | ⟨r, rfl⟩
    · exact settle_queueOk hsettle (queueOk_iff.1 hu).1
    · exact hu
    · exact ⟨hu.sorted, hu.seqs, hu.future⟩

end Sys2Proof.Machine
end

section
/-! PROOFS. Construction: what a freshly built device is, that a state of such devices satisfies the whole invariant,
and that the initial polls keep it. -/

namespace Sys2Proof.Machine

variable {s t : State} {sl x : Slot} {c : Config} {d : Device}

/-! Freshly built devices. -/

/-- A device as construction builds it, from an image in canonical form and within T1's bounds (R111, R121 to R126). -/
inductive Fresh : Device → Prop where
  | null : Fresh .null
  | printer (log : List Byte) : Fresh (.freshPrinter log)
  | terminal (log : List Byte) : Fresh (.freshTerminal log)
  | disk (cyls heads sects rotTime seekTime dataPct dataOff : Nat) (f : File) (hpos : 1 ≤ cyls) (hmax : cyls ≤ 65535)
      (hf : f.wf) : Fresh (.freshDisk cyls heads sects rotTime seekTime dataPct dataOff f)
  | flash (blocks writeTime dataOff : Nat) (f : File) (hf : f.wf) : Fresh (.freshFlash blocks writeTime dataOff f)
  | eth (mode : Byte) (mac : Mac) : Fresh (.freshEth mode mac)

theorem parseDisk_fresh {f : File} (hc : c.wf = true) (hf : f.wf) (h : parseDisk c f = .ok d) : Fresh d := by
  have hgeo : c.maxCyl ≤ 65535 := by
    simp only [Config.wf, Config.geometryOk, Bool.and_eq_true, decide_eq_true_eq] at hc
    omega
  unfold parseDisk at h
  simp only at h
  split at h
  · exact absurd h (by simp)
  · split at h
    · next hb =>
      simp only [Bool.and_eq_true, decide_eq_true_eq] at hb
      injection h with h
      exact h ▸ .disk _ _ _ _ _ _ _ f (by omega) (by omega) hf
    · exact absurd h (by simp)

theorem parseFlash_fresh {f : File} (hf : f.wf) (h : parseFlash c f = .ok d) : Fresh d := by
  unfold parseFlash at h
  simp only at h
  split at h
  · exact absurd h (by simp)
  · split at h
    · injection h with h
      exact h ▸ .flash _ _ _ f hf
    · exact absurd h (by simp)

/-- What an opened resource is built into (R1302). -/
theorem opened_bind {α β : Type} {o : Option α} {f : α → Except FatalReason β} {y : β} (h : (opened o).bind f = .ok y) :
    ∃ v, o = some v ∧ f v = .ok y := by
  cases o with
  | none => exact absurd h (by simp [opened, Except.bind])
  | some v => exact ⟨v, rfl, h⟩

theorem opened_map {α β : Type} {o : Option α} {f : α → β} {y : β} (h : (opened o).map f = .ok y) :
    ∃ v, o = some v ∧ f v = y := by
  cases o with
  | none => exact absurd h (by simp [opened, Except.map])
  | some v => exact ⟨v, rfl, by simpa [opened, Except.map] using h⟩

/-- Every slot that can be built is built fresh (R1301). -/
theorem buildSlot_fresh {sc : SlotConfig} (hc : c.wf = true) (himage : ∀ f, sc.image = some f → f.wf)
    (h : buildSlot c sl sc = .ok d) : Fresh d := by
  unfold buildSlot at h
  split at h
  · unfold openDevice at h
    split at h
    · obtain ⟨log, -, rfl⟩ := opened_map h
      exact .printer log
    · obtain ⟨log, -, rfl⟩ := opened_map h
      exact .terminal log
    · obtain ⟨f, hf, hp⟩ := opened_bind h
      exact parseDisk_fresh hc (himage f hf) hp
    · obtain ⟨f, hf, hp⟩ := opened_bind h
      exact parseFlash_fresh (himage f hf) hp
    · obtain ⟨n, -, rfl⟩ := opened_map h
      exact .eth n.mode n.mac
  · injection h with h
    exact h ▸ .null

namespace Fresh

theorem stored (h : Fresh d) : d.body.stored := by
  cases h with
  | disk _ _ _ _ _ _ _ _ _ _ hf => exact ⟨hf, List.length_replicate⟩
  | flash _ _ _ _ hf => exact ⟨hf, List.length_replicate⟩
  | null | printer | terminal | eth => trivial

theorem no_request (h : Fresh d) : d.body.requests = false ∧ d.body.armed = false := by
  cases h <;> exact ⟨rfl, rfl⟩

/-- Every sub-device is ready, and none has an operation (R111). -/
theorem at_rest (hd : Fresh d) {h : Sub} (hh : h ∈ d.body.subs) :
    d.regs[(statusIdx h).val] = codeReady ∧ d.body.opActive h = false := by
  cases hd with
  | null => exact absurd hh (by simp [Device.null, DeviceBody.subs])
  | terminal => cases h <;> exact ⟨rfl, rfl⟩
  | printer | disk | flash | eth =>
    rw [List.mem_singleton.1 hh]
    exact ⟨rfl, rfl⟩

theorem not_busy (hd : Fresh d) {h : Sub} (hh : h ∈ d.body.subs) :
    (codeField d.body.kind d.regs[(statusIdx h).val] == codeBusy) = false := by
  rw [(hd.at_rest hh).1]
  exact codeField_ne_busy (by decide) _

theorem null_regs (h : Fresh d) (hk : d.body.kind = none) (i : Fin 4) : d.regs[i] = 0#32 := by
  cases h with
  | null => revert i; decide
  | printer | terminal | disk | flash | eth => exact absurd hk (by simp [Device.freshPrinter, Device.freshTerminal,
      Device.freshDisk, Device.freshFlash, Device.freshEth, DeviceBody.kind])

/-- The interface's mode is stored without bit 7 (log 19). -/
theorem mode_bit {e : Eth} (h : Fresh d) (hb : d.body = .eth e) : e.mode.getLsbD 7 = false := by
  cases h with
  | eth mode mac => cases hb; simp
  | null | printer | terminal | disk | flash => exact nomatch hb

theorem heads {y : Disk} (h : Fresh d) (hb : d.body = .disk y) :
    y.curCyl.toNat < y.cyls ∧ y.cyls ≤ 65535 ∧ ∀ c, y.op = some (.seek c) → c.toNat < y.cyls := by
  cases h with
  | disk cyls _ _ _ _ _ _ f hpos hmax _ => cases hb; exact ⟨hpos, hmax, fun _ ho => nomatch ho⟩
  | null | printer | terminal | flash | eth => exact nomatch hb

theorem disk_cache {y : Disk} (h : Fresh d) (hb : d.body = .disk y) : y.cache.valid = false ∧ y.op = none := by
  cases h with
  | disk => cases hb; exact ⟨rfl, rfl⟩
  | null | printer | terminal | flash | eth => exact nomatch hb

theorem flash_cache {y : Flash} (h : Fresh d) (hb : d.body = .flash y) : y.cacheValid = false ∧ y.op = none := by
  cases h with
  | flash => cases hb; exact ⟨rfl, rfl⟩
  | null | printer | terminal | disk | eth => exact nomatch hb

end Fresh

/-- Every slot is fresh, and nothing else has happened yet (R1300). -/
structure Constructed (c : Config) (s : State) : Prop where
  cfg : s.cfg = c
  fresh : ∀ sl, Fresh (s.dev sl)
  queue : s.queue = []
  pend : ∀ sl, s.pendBit sl = false
  mem : s.mem = []

theorem Constructed.inv (hs : Constructed c s) : Inv s where
  storage := storageOk_iff.2
    ⟨by rw [hs.mem]; exact ⟨.nil, fun _ h => absurd h (by simp)⟩, fun sl => (hs.fresh sl).stored⟩
  queue := ⟨by rw [hs.queue]; exact .nil, by simp [hs.queue], by simp [hs.queue]⟩
  pend := pendOk_iff.2 fun sl _ => (hs.pend sl).trans (hs.fresh sl).no_request.1.symm
  busy := busyOk_iff.2 fun _ sl => by
    have idle : ∀ h ∈ (s.body sl).subs, s.busy sl h = false := fun h hh => (hs.fresh sl).not_busy hh
    refine ⟨fun h hh => (idle h hh).trans ((hs.fresh sl).at_rest hh).2.symm, ?_⟩
    rw [hs.queue]
    exact (List.countP_eq_zero.2 fun h hh => by simp [idle h hh]).symm
  poll := pollOk_iff.2 fun _ sl => by
    rw [hs.queue, State.body_eq, (hs.fresh sl).no_request.2]
    rfl
  null sl hk i := (hs.fresh sl).null_regs hk i
  status sl := by
    have hfresh := hs.fresh sl
    simp only [State.kind_eq, State.reg_eq]
    generalize s.dev sl = d at hfresh ⊢
    cases hfresh with
    | null => exact show (0#32 : Word) ≤ 7#32 by decide
    | printer | disk | flash => exact show (1#32 : Word) ≤ 7#32 by decide
    | terminal =>
      have half : (1#32 : Word) &&& 0xFF#32 ≤ 7#32 ∧ (1#32 : Word) < 0x10000#32 := by decide
      exact ⟨half.1, half.2, half.1, half.2⟩
    | eth => exact show (1#32 : Word) &&& 0x7F#32 ≤ 7#32 ∧ (1#32 : Word) < 0x100#32 by decide
  eth sl e he := (hs.fresh sl).mode_bit he
  disk sl d hd := (hs.fresh sl).heads hd
  cache := by
    refine ⟨fun sl d hd => ?_, fun sl f hf => ?_⟩
    · obtain ⟨hinvalid, hidle⟩ := (hs.fresh sl).disk_cache hd
      exact ⟨fun hv => absurd (hinvalid.symm.trans hv) (by decide), fun _ _ ho => nomatch hidle.symm.trans ho⟩
    · obtain ⟨hinvalid, hidle⟩ := (hs.fresh sl).flash_cache hf
      exact ⟨fun hv => absurd (hinvalid.symm.trans hv) (by decide), fun _ ho => nomatch hidle.symm.trans ho⟩

/-! The initial polls. -/

/-- Arming a poll changes no slot but for the poll flag (R1120). -/
theorem armPoll_dev (s : State) (sl x : Slot) :
    (armPoll sl s).dev x = s.dev x ∨
      (armPoll sl s).dev x = { s.dev x with body := setPollArmed true (s.dev x).body } := by
  have scheduled : ∀ delta, (s.schedule sl .poll delta).dev x = s.dev x := fun delta => by
    refine State.dev_congr x ?_
    unfold State.schedule
    split <;> rfl
  unfold armPoll
  split
  · split
    · unfold State.andThen
      split
      · rw [State.mapBody_dev, scheduled]
        split
        · next hx =>
          subst hx
          exact .inr (by rw [scheduled])
        · exact .inl rfl
      · exact .inl (scheduled _)
    · exact .inl rfl
  · exact .inl rfl

theorem armPoll_reg (s : State) (sl x : Slot) (i : Fin 4) : (armPoll sl s).reg x i = s.reg x i := by
  rcases armPoll_dev s sl x with h | h <;> rw [State.reg_eq, State.reg_eq, h]

theorem armPoll_kind (s : State) (sl x : Slot) : (armPoll sl s).kind x = s.kind x :=
  (local_armPoll (s := s) (sl := sl)).elapsed.kind x

/-- The body of a slot after a poll is armed: the same, or that of an ethernet device with the flag set. -/
theorem armPoll_body (s : State) (sl x : Slot) :
    (armPoll sl s).body x = s.body x ∨
      ∃ y, s.body x = .eth y ∧ (armPoll sl s).body x = .eth { y with pollArmed := true } := by
  rw [State.body_eq, State.body_eq]
  rcases armPoll_dev s sl x with h | h
  · exact .inl (congrArg Device.body h)
  · rw [h]
    cases (s.dev x).body with
    | eth y => exact .inr ⟨y, rfl, rfl⟩
    | null | printer _ | terminal _ | disk _ | flash _ => exact .inl rfl

/-- Arming a poll keeps the whole invariant. -/
theorem inv_armPoll (hs : Inv s) (hf : s.fatal = none) (sl : Slot) : Inv (armPoll sl s) := by
  have effect : Effect [] [] s (armPoll sl s) := effect_armPoll hf
  have only := local_armPoll (s := s) (sl := sl)
  obtain ⟨horder, hfuture⟩ := queueOk_iff.1 hs.queue
  have disks : ∀ x d, (armPoll sl s).body x = .disk d → s.body x = .disk d := fun x d hd => by
    rcases armPoll_body s sl x with h | ⟨y, -, h⟩
    · exact h ▸ hd
    · exact nomatch h.symm.trans hd
  have flashes : ∀ x f, (armPoll sl s).body x = .flash f → s.body x = .flash f := fun x f hd => by
    rcases armPoll_body s sl x with h | ⟨y, -, h⟩
    · exact h ▸ hd
    · exact nomatch h.symm.trans hd
  refine ⟨effect.storage hs.storage, queueOk_iff.2 ⟨only.keyOrder horder, fun _ => only.future (hfuture hf)⟩,
    effect.pend hs.pend, fun hf' => effect.busy hf' (hs.busy hf), fun hf' => effect.poll hf' (hs.poll hf),
    fun x hk i => ?_, fun x => ?_, fun x e he => ?_, fun x d hd => hs.disk x d (disks x d hd), ?_, ?_⟩
  · rw [armPoll_reg]
    exact hs.null x (armPoll_kind s sl x ▸ hk) i
  · simp only [armPoll_kind, armPoll_reg]
    exact hs.status x
  · rcases armPoll_body s sl x with h | ⟨y, hy, h⟩
    · exact hs.eth x e (h ▸ he)
    · cases h.symm.trans he
      exact hs.eth x y hy
  · rw [only.others.cfg]
    exact fun x d hd => hs.cache.disk x d (disks x d hd)
  · rw [only.others.cfg]
    exact fun x f hf => hs.cache.flash x f (flashes x f hf)

/-! Construction. -/

/-- What a step's rest keeps in a running state, it keeps going on (R1220). -/
theorem andThen_induct {P : State → Prop} {f : State → State} (hs : P s) (hf : s.fatal = none → P (f s)) :
    P (s.andThen f) := by
  cases h : s.fatal with
  | none => exact (State.andThen_running h f).symm ▸ hf h
  | some r => exact (State.andThen_stopped h f).symm ▸ hs

theorem blankState_constructed (c : Config) (tape : HostTape) : Constructed c (blankState c tape) where
  cfg := rfl
  fresh sl := by
    have h : (blankState c tape).dev sl = .null := by simp [State.dev, blankState]
    exact h ▸ .null
  queue := rfl
  pend sl := by simp [State.pendBit, blankState]
  mem := rfl

/-- One slot more is built, or a fatal error leaves the slots built so far (R1301, R1304). -/
theorem constructed_instantiate {scs : Vector SlotConfig 40} (hc : c.wf = true)
    (himage : ∀ i : Fin 40, ∀ f, scs[i].image = some f → f.wf) (hs : Constructed c s) (sl : Slot) :
    Constructed c (instantiate scs s sl) := by
  refine andThen_induct hs fun _ => ?_
  split
  · next d hd =>
    have hfresh : Fresh d := buildSlot_fresh (hs.cfg ▸ hc) (himage sl.idx) hd
    refine ⟨hs.cfg, fun x => ?_, hs.queue, hs.pend, hs.mem⟩
    rw [State.dev_setDev]
    split
    · exact hfresh
    · exact hs.fresh x
  · exact ⟨hs.cfg, hs.fresh, hs.queue, hs.pend, hs.mem⟩

/-- Settles O51: a state of fresh slots satisfies the invariant, and so it does after every initial poll. -/
theorem constructionEstablishesTheInvariant : Obligations.ConstructionEstablishesTheInvariant := by
  intro c scs tape hc himage
  have slots : Constructed c (allSlots.foldl (instantiate scs) (blankState c tape)) :=
    List.foldlRecOn (motive := Constructed c) _ _ (blankState_constructed c tape) fun _ hs sl _ =>
      constructed_instantiate hc himage hs sl
  exact andThen_induct slots.inv fun _ =>
    List.foldlRecOn (motive := Inv) _ _ slots.inv fun _ hs sl _ => andThen_induct hs fun hf => inv_armPoll hs hf sl

/-! The reset state. -/

/-- The device of a slot number under TC: six devices, and the NULL slot at every other number (R106, log 2). -/
inductive ResetSlot : Fin 40 → Device → Prop where
  | disk : ResetSlot 0 (.freshDisk 100 2 8 16000 100 80 7 tcDiskImage)
  | flash : ResetSlot 8 (.freshFlash 64 1000 3 tcFlashImage)
  | eth : ResetSlot 16 (.freshEth 0#8 tcMac)
  | printer : ResetSlot 24 (.freshPrinter [])
  | printer' : ResetSlot 25 (.freshPrinter [])
  | terminal : ResetSlot 32 (.freshTerminal [])
  | null (i : Fin 40) (hi : ∀ k ∈ [0, 8, 16, 24, 25, 32], i.val ≠ k) : ResetSlot i .null

theorem resetSlot (i : Fin 40) : ResetSlot i State.reset.slots[i] := by
  have hi : State.reset.slots[i] = tcSlots[i.val] := rfl
  rw [hi]
  simp only [tcSlots, Vector.getElem_set, Vector.getElem_replicate]
  split_ifs with h32 h25 h24 h16 h8 h0
  · exact (Fin.ext h32 : (32 : Fin 40) = i) ▸ .terminal
  · exact (Fin.ext h25 : (25 : Fin 40) = i) ▸ .printer'
  · exact (Fin.ext h24 : (24 : Fin 40) = i) ▸ .printer
  · exact (Fin.ext h16 : (16 : Fin 40) = i) ▸ .eth
  · exact (Fin.ext h8 : (8 : Fin 40) = i) ▸ .flash
  · exact (Fin.ext h0 : (0 : Fin 40) = i) ▸ .disk
  · refine .null i fun k hk => ?_
    simp only [List.mem_cons, List.mem_nil_iff, or_false] at hk
    omega

theorem ResetSlot.fresh {i : Fin 40} (h : ResetSlot i d) : Fresh d := by
  cases h with
  | disk => exact .disk _ _ _ _ _ _ _ _ (by decide) (by decide) (by decide)
  | flash => exact .flash _ _ _ _ (by decide)
  | eth => exact .eth _ _
  | printer | printer' => exact .printer _
  | terminal => exact .terminal _
  | null => exact .null

theorem reset_constructed : Constructed Config.tc State.reset where
  cfg := rfl
  fresh sl := (resetSlot sl.idx).fresh
  queue := rfl
  pend sl := by simp [State.pendBit, State.reset]
  mem := rfl

/-- Settles O52: the reset state is one of fresh slots. -/
theorem resetSatisfiesTheInvariant : Obligations.ResetSatisfiesTheInvariant := reset_constructed.inv

/-- Settles O49: the clock, the queue, the bitmaps and the trace are read off, the devices of TC slot by slot. -/
theorem resetValues : Obligations.ResetValues := by
  refine ⟨rfl, rfl, rfl, rfl, rfl, fun l => by simp [State.reset], fun i => ?_, fun i => ?_, fun i => ?_, rfl, rfl⟩
  · have device := resetSlot i
    generalize State.reset.slots[i] = d at device ⊢
    cases device with
    | null _ hi =>
      refine (List.lookup_eq_none_iff.2 fun p hp => bne_iff_ne.2 (hi p.1 ?_)).symm
      exact List.mem_map_of_mem (f := Prod.fst) hp
    | disk | flash | eth | printer | printer' | terminal => rfl
  · have device := resetSlot i
    generalize State.reset.slots[i] = d at device ⊢
    cases device <;> exact ⟨rfl, rfl⟩
  · have device := resetSlot i
    generalize State.reset.slots[i] = d at device ⊢
    cases device with
    | null => trivial
    | disk => exact ⟨rfl, rfl, rfl, rfl⟩
    | flash => exact ⟨rfl, rfl, rfl⟩
    | eth | printer | printer' | terminal => rfl

end Sys2Proof.Machine
end

section
/-! PROOFS. Images and addresses: a block stored in an image is read back byte by byte, and the external decoder turns
an address of a register window or of a status word into the request of that register or word. -/

namespace Sys2Proof.Machine

variable {c : Config} {a : Word}

/-! A block in an image (R205, R911). -/

/-- Settles O46: the laws of `File.putBlock`, with the bytes of a word written out in either order. -/
theorem imageBlockRoundTrip : Obligations.ImageBlockRoundTrip := by
  intro f o off b gap hf hb
  refine ⟨File.putBlock_wf hf o off b gap, File.blockAt_putBlock hf o off b gap hb,
    fun k hk hout => File.putBlock_outside f o off b gap k hk hout, fun i j hi hj => ?_⟩
  have word (d : Word) : b.getD i d = b[i] := List.getD_eq_getElem b d (hb ▸ hi)
  simp only [File.putBlock_byte hf o off b gap i j hi hj, word]
  cases o with
  | little => exact wordBytes_little_getElem _ j hj
  | big => exact wordBytes_big_getElem _ j hj

/-! The windows and the status words of the external decoder (R201, R206). -/

/-- A search finds the one element that satisfies its test. -/
theorem find?_eq_some_of_unique {α : Type} {l : List α} {p : α → Bool} {x : α} (hx : x ∈ l) (hp : p x = true)
    (huniq : ∀ y, p y = true → y = x) : l.find? p = some x := by
  cases hfound : l.find? p with
  | none => exact absurd hp (List.find?_eq_none.1 hfound x hx)
  | some y => rw [huniq y (List.find?_some hfound)]

theorem windowAt_eq_some {sl : Slot} (hin : (a - devRegAddr c sl).toNat < 16)
    (hout : ∀ x, x ≠ sl → 16 ≤ (a - devRegAddr c x).toNat) : windowAt c a = some sl := by
  refine find?_eq_some_of_unique (mem_allSlots sl) (decide_eq_true (BitVec.lt_def.2 hin)) fun x hx => ?_
  by_contra hne
  exact absurd (BitVec.lt_def.1 (of_decide_eq_true hx)) (Nat.not_lt.2 (hout x hne))

theorem windowAt_eq_none (hout : ∀ sl, 16 ≤ (a - devRegAddr c sl).toNat) : windowAt c a = none := by
  refine List.find?_eq_none.2 fun sl _ hsl => ?_
  exact absurd (BitVec.lt_def.1 (of_decide_eq_true hsl)) (Nat.not_lt.2 (hout sl))

theorem bitmapAt_bitmapAddr {l : Line} (hne : ∀ m, m ≠ l → bitmapAddr c m ≠ bitmapAddr c l) :
    bitmapAt c (bitmapAddr c l) = some l := by
  refine find?_eq_some_of_unique (by cases l <;> simp) (beq_self_eq_true _) fun m hm => ?_
  by_contra hml
  exact hne m hml (beq_iff_eq.1 hm).symm

section Windows

variable {sl : Slot} (w : Width) (v : Word)

theorem loadRequest_window (h : windowAt c a = some sl) :
    loadRequest c a w = some (.load sl (windowOffset c sl a) w) := by
  simp only [loadRequest, h]

theorem storeRequest_window (h : windowAt c a = some sl) :
    storeRequest c a w v = some (.store sl (windowOffset c sl a) w v) := by
  simp only [storeRequest, h]

theorem loadRequest_outside (h : windowAt c a = none) :
    loadRequest c a .word = if a = c.todLoAddr then some .readTodLo else (bitmapAt c a).map .readBitmap := by
  simp only [loadRequest, h, ne_eq, not_true_eq_false, if_false]

theorem storeRequest_outside (h : windowAt c a = none) :
    storeRequest c a .word v =
      if a = c.todLoAddr then some (.writeTodLo v) else (bitmapAt c a).map fun l => .writeBitmap l v := by
  simp only [storeRequest, h, ne_eq, not_true_eq_false, if_false]

end Windows

/-- An address of a window that no other window meets is in that window only. -/
theorem windowAt_register (hsep : ∀ x y, x ≠ y → 16 ≤ (devRegAddr c x - devRegAddr c y).toNat) (sl : Slot) (k : Nat)
    (hk : k < 16) : windowAt c (devRegAddr c sl + BitVec.ofNat 32 k) = some sl := by
  refine windowAt_eq_some ?_ fun x hx => ?_
  · bv_omega
  · have above := hsep sl x (Ne.symm hx)
    have below := hsep x sl hx
    bv_omega

theorem windowOffset_register (sl : Slot) (k : Nat) :
    windowOffset c sl (devRegAddr c sl + BitVec.ofNat 32 k) = BitVec.ofNat 4 k := by
  unfold windowOffset
  rw [BitVec.add_comm, BitVec.add_sub_cancel, BitVec.setWidth_ofNat_of_le (by decide)]

/-- The offset of a register is aligned and names its index (R201, R202). -/
theorem regIndex_offset : ∀ i : Fin 4, regIndex (BitVec.ofNat 4 (4 * i.val)) = i ∧
    (BitVec.ofNat 4 (4 * i.val)).extractLsb' 0 2 = 0#2 := by decide

/-- Settles O60: an address in one window is that slot's, one outside every window is looked up among the status
words. -/
theorem addressesNameRegisters : Obligations.AddressesNameRegisters := by
  intro c v
  refine ⟨fun hsep sl i w => ?_, fun hout => ?_, fun l hout htod hne => ?_⟩
  · have hi : 4 * i.val < 16 := by omega
    have hwin := windowAt_register hsep sl _ hi
    have hoff := windowOffset_register (c := c) sl (4 * i.val)
    exact ⟨hoff ▸ loadRequest_window w hwin, hoff ▸ storeRequest_window w v hwin, regIndex_offset i⟩
  · have hwin := windowAt_eq_none hout
    exact ⟨by rw [loadRequest_outside hwin, if_pos rfl], by rw [storeRequest_outside v hwin, if_pos rfl]⟩
  · have hwin := windowAt_eq_none hout
    have hmap := bitmapAt_bitmapAddr hne
    exact ⟨by rw [loadRequest_outside hwin, if_neg htod, hmap, Option.map_some],
      by rw [storeRequest_outside v hwin, if_neg htod, hmap, Option.map_some]⟩

end Sys2Proof.Machine
end

section
/-! PROOFS. The encoding: each format is made of its fields, so the words of a port and its commands are in one-to-one
correspondence; the configuration words of the ethernet device are of format DRW. -/

namespace Sys2Proof

open Machine

/-! The formats (R301, R303 to R307): a word is made of its fields, each of its 32 bits lying in one of them. -/

theorem wordP_fields (w : Word) : wordP (opField w) (restField w) = w := by
  refine BitVec.eq_of_getLsbD_eq fun i hi => ?_
  simp only [wordP, opField, restField, BitVec.getLsbD_or, BitVec.getLsbD_shiftLeft, BitVec.getLsbD_setWidth,
    BitVec.getLsbD_extractLsb']
  grind

theorem wordTX_fields (w : Word) : wordTX (opField w) (byte1Field w) (highField w) = w := by
  refine BitVec.eq_of_getLsbD_eq fun i hi => ?_
  simp only [wordTX, opField, byte1Field, highField, BitVec.getLsbD_or, BitVec.getLsbD_shiftLeft,
    BitVec.getLsbD_setWidth, BitVec.getLsbD_extractLsb']
  grind

/-- Formats TX and DS divide a word alike: where the one has its character, the other ignores the byte (R304, R305). -/
theorem wordDS_eq_wordTX (op : BitVec 8) (cyl : BitVec 16) (ign : BitVec 8) :
    wordDS op cyl ign = wordTX op ign cyl := rfl

theorem wordDS_fields (w : Word) : wordDS (opField w) (highField w) (byte1Field w) = w := by
  rw [wordDS_eq_wordTX, wordTX_fields]

theorem wordDRW_fields (w : Word) : wordDRW (opField w) (byte2Field w) (byte1Field w) (byte3Field w) = w := by
  refine BitVec.eq_of_getLsbD_eq fun i hi => ?_
  simp only [wordDRW, opField, byte1Field, byte2Field, byte3Field, BitVec.getLsbD_or, BitVec.getLsbD_shiftLeft,
    BitVec.getLsbD_setWidth, BitVec.getLsbD_extractLsb']
  grind

/-! The words of the commands. -/

/-- The op field of a command's word is its op code (R301). -/
theorem opField_encode : ∀ i : Instr, opField (encode i) = i.opcode
  | .printerReset .. => Laws.EncodeOpcode.printerReset ..
  | .printerAck .. => Laws.EncodeOpcode.printerAck ..
  | .printerPrntchr .. => Laws.EncodeOpcode.printerPrntchr ..
  | .termRxReset .. => Laws.EncodeOpcode.termRxReset ..
  | .termRxAck .. => Laws.EncodeOpcode.termRxAck ..
  | .termRxRecvchr .. => Laws.EncodeOpcode.termRxRecvchr ..
  | .termTxReset .. => Laws.EncodeOpcode.termTxReset ..
  | .termTxAck .. => Laws.EncodeOpcode.termTxAck ..
  | .termTxTranchr .. => Laws.EncodeOpcode.termTxTranchr ..
  | .diskReset .. => Laws.EncodeOpcode.diskReset ..
  | .diskAck .. => Laws.EncodeOpcode.diskAck ..
  | .diskSeekcyl .. => Laws.EncodeOpcode.diskSeekcyl ..
  | .diskReadblk .. => Laws.EncodeOpcode.diskReadblk ..
  | .diskWriteblk .. => Laws.EncodeOpcode.diskWriteblk ..
  | .flashReset .. => Laws.EncodeOpcode.flashReset ..
  | .flashAck .. => Laws.EncodeOpcode.flashAck ..
  | .flashReadblk .. => Laws.EncodeOpcode.flashReadblk ..
  | .flashWriteblk .. => Laws.EncodeOpcode.flashWriteblk ..
  | .ethReset .. => Laws.EncodeOpcode.ethReset ..
  | .ethAck .. => Laws.EncodeOpcode.ethAck ..
  | .ethReadconf .. => Laws.EncodeOpcode.ethReadconf ..
  | .ethReadnet .. => Laws.EncodeOpcode.ethReadnet ..
  | .ethWritenet .. => Laws.EncodeOpcode.ethWritenet ..
  | .ethConfigure .. => Laws.EncodeOpcode.ethConfigure ..

/-- Settles O1, port by port: the decoder reads the op code and the fields of a format back from its word. -/
theorem decodeOfEncode : Obligations.DecodeOfEncode := by
  intro i
  cases i with
  | printerReset | printerAck | printerPrntchr => simp [Instr.port, Instr.slot, encode, decode, decodePrinter]
  | termRxReset | termRxAck | termRxRecvchr => simp [Instr.port, Instr.slot, encode, decode, decodeTermRx]
  | termTxReset | termTxAck | termTxTranchr => simp [Instr.port, Instr.slot, encode, decode, decodeTermTx]
  | diskReset | diskAck | diskSeekcyl | diskReadblk | diskWriteblk =>
    simp [Instr.port, Instr.slot, encode, decode, decodeDisk]
  | flashReset | flashAck | flashReadblk | flashWriteblk =>
    simp [Instr.port, Instr.slot, encode, decode, decodeFlash]
  | ethReset | ethAck | ethReadconf | ethReadnet | ethWritenet | ethConfigure =>
    simp [Instr.port, Instr.slot, encode, decode, decodeEth]

/-! What decoding can answer. -/

/-- What a word is at a port and slot: the word of one of the port's commands at the slot, or an illegal one, of an op
code past the port's table. -/
inductive Decoded (p : Port) (sl : Slot) (w : Word) : Except DecodeError Instr → Prop
  | command (i : Instr) (hword : encode i = w) (hport : i.port = p) (hslot : i.slot = sl) : Decoded p sl w (.ok i)
  | illegal (hop : p.opCount ≤ (opField w).toNat) : Decoded p sl w (.error (.illegalOp p (opField w)))

section Ports

variable {op : BitVec 8} {w : Word} (sl : Slot)

theorem wordP_of_opField (h : opField w = op) : wordP op (restField w) = w := h ▸ wordP_fields w

theorem wordTX_of_opField (h : opField w = op) : wordTX op (byte1Field w) (highField w) = w := h ▸ wordTX_fields w

theorem wordDS_of_opField (h : opField w = op) : wordDS op (highField w) (byte1Field w) = w := h ▸ wordDS_fields w

theorem wordDRW_of_opField (h : opField w = op) : wordDRW op (byte2Field w) (byte1Field w) (byte3Field w) = w :=
  h ▸ wordDRW_fields w

/-- The words of a printer (R309). -/
theorem decodePrinter_spec (w : Word) : Decoded .printer sl w (decodePrinter sl w) := by
  unfold decodePrinter
  split_ifs with h0 h1 h2
  · exact .command _ (wordP_of_opField h0) rfl rfl
  · exact .command _ (wordP_of_opField h1) rfl rfl
  · exact .command _ (wordP_of_opField h2) rfl rfl
  · exact .illegal (by rw [Port.opCount]; bv_omega)

/-- The words of a terminal's receive half (R310). -/
theorem decodeTermRx_spec (w : Word) : Decoded .termRx sl w (decodeTermRx sl w) := by
  unfold decodeTermRx
  split_ifs with h0 h1 h2
  · exact .command _ (wordP_of_opField h0) rfl rfl
  · exact .command _ (wordP_of_opField h1) rfl rfl
  · exact .command _ (wordP_of_opField h2) rfl rfl
  · exact .illegal (by rw [Port.opCount]; bv_omega)

/-- The words of a terminal's transmit half (R310). -/
theorem decodeTermTx_spec (w : Word) : Decoded .termTx sl w (decodeTermTx sl w) := by
  unfold decodeTermTx
  split_ifs with h0 h1 h2
  · exact .command _ (wordP_of_opField h0) rfl rfl
  · exact .command _ (wordP_of_opField h1) rfl rfl
  · exact .command _ (wordTX_of_opField h2) rfl rfl
  · exact .illegal (by rw [Port.opCount]; bv_omega)

/-- The words of a disk (R311). -/
theorem decodeDisk_spec (w : Word) : Decoded .disk sl w (decodeDisk sl w) := by
  unfold decodeDisk
  split_ifs with h0 h1 h2 h3 h4
  · exact .command _ (wordP_of_opField h0) rfl rfl
  · exact .command _ (wordP_of_opField h1) rfl rfl
  · exact .command _ (wordDS_of_opField h2) rfl rfl
  · exact .command _ (wordDRW_of_opField h3) rfl rfl
  · exact .command _ (wordDRW_of_opField h4) rfl rfl
  · exact .illegal (by rw [Port.opCount]; bv_omega)

/-- The words of a flash (R312). -/
theorem decodeFlash_spec (w : Word) : Decoded .flash sl w (decodeFlash sl w) := by
  unfold decodeFlash
  split_ifs with h0 h1 h2 h3
  · exact .command _ (wordP_of_opField h0) rfl rfl
  · exact .command _ (wordP_of_opField h1) rfl rfl
  · exact .command _ (wordP_of_opField h2) rfl rfl
  · exact .command _ (wordP_of_opField h3) rfl rfl
  · exact .illegal (by rw [Port.opCount]; bv_omega)

/-- The words of an ethernet device (R313). -/
theorem decodeEth_spec (w : Word) : Decoded .eth sl w (decodeEth sl w) := by
  unfold decodeEth
  split_ifs with h0 h1 h2 h3 h4 h5
  · exact .command _ (wordP_of_opField h0) rfl rfl
  · exact .command _ (wordP_of_opField h1) rfl rfl
  · exact .command _ (wordP_of_opField h2) rfl rfl
  · exact .command _ (wordP_of_opField h3) rfl rfl
  · exact .command _ (wordP_of_opField h4) rfl rfl
  · exact .command _ (wordP_of_opField h5) rfl rfl
  · exact .illegal (by rw [Port.opCount]; bv_omega)

/-- Decoding answers what the word is. -/
theorem decode_spec (p : Port) (w : Word) : Decoded p sl w (decode p sl w) :=
  match p with
  | .printer => decodePrinter_spec sl w
  | .termRx => decodeTermRx_spec sl w
  | .termTx => decodeTermTx_spec sl w
  | .disk => decodeDisk_spec sl w
  | .flash => decodeFlash_spec sl w
  | .eth => decodeEth_spec sl w

end Ports

/-- The op code of a command is one of its port's table (R309 to R313). -/
theorem opcode_lt_opCount : ∀ i : Instr, i.opcode.toNat < i.port.opCount
  | .printerReset .. => Laws.OpcodeInTable.printerReset ..
  | .printerAck .. => Laws.OpcodeInTable.printerAck ..
  | .printerPrntchr .. => Laws.OpcodeInTable.printerPrntchr ..
  | .termRxReset .. => Laws.OpcodeInTable.termRxReset ..
  | .termRxAck .. => Laws.OpcodeInTable.termRxAck ..
  | .termRxRecvchr .. => Laws.OpcodeInTable.termRxRecvchr ..
  | .termTxReset .. => Laws.OpcodeInTable.termTxReset ..
  | .termTxAck .. => Laws.OpcodeInTable.termTxAck ..
  | .termTxTranchr .. => Laws.OpcodeInTable.termTxTranchr ..
  | .diskReset .. => Laws.OpcodeInTable.diskReset ..
  | .diskAck .. => Laws.OpcodeInTable.diskAck ..
  | .diskSeekcyl .. => Laws.OpcodeInTable.diskSeekcyl ..
  | .diskReadblk .. => Laws.OpcodeInTable.diskReadblk ..
  | .diskWriteblk .. => Laws.OpcodeInTable.diskWriteblk ..
  | .flashReset .. => Laws.OpcodeInTable.flashReset ..
  | .flashAck .. => Laws.OpcodeInTable.flashAck ..
  | .flashReadblk .. => Laws.OpcodeInTable.flashReadblk ..
  | .flashWriteblk .. => Laws.OpcodeInTable.flashWriteblk ..
  | .ethReset .. => Laws.OpcodeInTable.ethReset ..
  | .ethAck .. => Laws.OpcodeInTable.ethAck ..
  | .ethReadconf .. => Laws.OpcodeInTable.ethReadconf ..
  | .ethReadnet .. => Laws.OpcodeInTable.ethReadnet ..
  | .ethWritenet .. => Laws.OpcodeInTable.ethWritenet ..
  | .ethConfigure .. => Laws.OpcodeInTable.ethConfigure ..

/-- Settles O2: the only words that decode are the words of commands. -/
theorem encodeOfDecode : Obligations.EncodeOfDecode := by
  intro p sl w i hi
  have hspec := decode_spec sl p w
  rw [hi] at hspec
  obtain ⟨_, hword, hport, hslot⟩ := hspec
  exact ⟨hword, hport, hslot⟩

/-- Settles O3: a command's word has an op code of its port's table, so the two answers exclude each other. -/
theorem illegalExactlyOutsideTheTable : Obligations.IllegalExactlyOutsideTheTable := by
  intro p sl w
  have hspec := decode_spec sl p w
  generalize decode p sl w = d at hspec ⊢
  cases hspec with
  | command i hword hport hslot =>
    have hop : i.opcode = opField w := by rw [← hword, opField_encode]
    have hlt : (opField w).toNat < p.opCount := hop ▸ hport ▸ opcode_lt_opCount i
    exact ⟨fun _ => ⟨i, rfl, hop⟩, fun hge => absurd hlt (by omega)⟩
  | illegal hge => exact ⟨fun hlt => absurd hlt (by omega), fun _ => rfl⟩

/-- Settles O4: each word but the last is, bit for bit, the word of the command it stands for; the last has an op code
past the printer's table. -/
theorem exampleWordsDecode : Obligations.ExampleWordsDecode := fun sl =>
  ⟨decodeOfEncode (.diskReadblk sl 0#8 5#8 0#8), decodeOfEncode (.diskSeekcyl sl 10#16 0#8),
    decodeOfEncode (.termTxTranchr sl 0x5A#8 0#16), decodeOfEncode (.flashReadblk sl 7#24),
    decodeOfEncode (.printerPrntchr sl 0xFFFFFF#24), decodeOfEncode (.termRxRecvchr sl 1#24),
    decodeOfEncode (.ethConfigure sl 0#24), (illegalExactlyOutsideTheTable .printer sl 0x55#32).2 (by decide)⟩

/-! The configuration words of the ethernet device (R318, R1107) have the byte layout of format DRW. -/

theorem confData0_or_high (mode : Byte) (mac : Mac) (high : Byte) :
    confData0 mode mac ||| (high.setWidth 32 <<< 24) = wordDRW mac.m1 mode mac.m0 high := by
  rw [confData0, wordDRW, BitVec.or_comm, BitVec.or_assoc, BitVec.or_assoc, BitVec.or_assoc]

theorem confData0_eq (mode : Byte) (mac : Mac) : confData0 mode mac = wordDRW mac.m1 mode mac.m0 0#8 := by
  simp [← confData0_or_high]

theorem confData1_eq (mac : Mac) : confData1 mac = wordDRW mac.m5 mac.m3 mac.m4 mac.m2 := rfl

theorem configMode_eq (d0 : Word) : configMode d0 = byte2Field d0 := rfl

theorem configMac_eq (d0 d1 : Word) :
    configMac d0 d1 = ⟨byte1Field d0, opField d0, byte3Field d1, byte2Field d1, byte1Field d1, opField d1⟩ := rfl

/-- Settles O40: both directions are the round trip of format DRW. -/
theorem ethernetConfigurationRoundTrip : Obligations.EthernetConfigurationRoundTrip := by
  intro mode mac high
  refine ⟨?_, ?_, fun d0 d1 (hhigh : byte3Field d0 = 0#8) => ⟨?_, ?_⟩⟩
  · simp [confData0_or_high, confData1_eq, configMac_eq]
  · simp [confData0_or_high, configMode_eq]
  · simp only [confData0_eq, configMac_eq, configMode_eq]
    rw [← hhigh, wordDRW_fields]
  · simp only [confData1_eq, configMac_eq]
    rw [wordDRW_fields]

end Sys2Proof
end

section
/-! PROOFS. The ignored bits: what a command does once accepted neither reads nor writes its command register. -/

namespace Sys2Proof.Machine

variable (s : State) (sl : Slot) (h : Sub) (v w : Word)

/-! Storing a command word commutes with every operation of an accepted command. -/

theorem State.setDev_setDev (d e : Device) : (s.setDev sl d).setDev sl e = s.setDev sl e := by
  simp [State.setDev]

theorem State.setReg_setReg (i : Fin 4) : (s.setReg sl i v).setReg sl i w = s.setReg sl i w := by
  simp [State.setReg, State.setDev_setDev]

theorem State.setReg_setReg_comm {i j : Fin 4} (hij : i ≠ j) :
    (s.setReg sl i v).setReg sl j w = (s.setReg sl j w).setReg sl i v := by
  have hne : i.val ≠ j.val := fun e => hij (Fin.ext e)
  simp [State.setReg, State.setDev_setDev, Vector.set_comm _ _ hne]

theorem State.setReg_mapBody (i : Fin 4) (f : DeviceBody → DeviceBody) :
    (s.setReg sl i v).mapBody sl f = (s.mapBody sl f).setReg sl i v := by
  simp [State.setReg, State.mapBody, State.setDev_setDev]

theorem State.setReg_reg_other {i j : Fin 4} (hij : j ≠ i) : (s.setReg sl i v).reg sl j = s.reg sl j := by
  simp only [State.reg, State.setReg_dev, if_true]
  exact Vector.getElem_set_ne _ _ fun e => hij (Fin.ext e.symm)

/-- The data register a block command takes its address from is no command register (R13, R308). -/
theorem State.setReg_cmd_data0 : (s.setReg sl (cmdIdx .single) v).reg sl 2 = s.reg sl 2 :=
  s.setReg_reg_other sl v (by decide)

theorem State.setReg_schedule (i : Fin 4) (k : EventKind) (delta : Nat) :
    (s.setReg sl i v).schedule sl k delta = (s.schedule sl k delta).setReg sl i v := by
  unfold State.schedule
  rw [State.setReg_tod]
  split <;> rfl

/-- The rest of a step commutes with a store of a register when each of its states does. -/
theorem State.setReg_andThen {i : Fin 4} {f g : State → State}
    (hf : ∀ u, f (u.setReg sl i v) = (g u).setReg sl i v) :
    (s.setReg sl i v).andThen f = (s.andThen g).setReg sl i v := by
  unfold State.andThen
  rw [State.setReg_fatal]
  split
  · exact hf s
  · rfl

theorem State.setReg_cmd_putStatus :
    (s.setReg sl (cmdIdx h) v).putStatus sl h w = (s.putStatus sl h w).setReg sl (cmdIdx h) v :=
  congrArg (State.emit · (.statusChanged sl)) (State.setReg_setReg_comm s sl v w (statusIdx_ne_cmdIdx h h).symm)

theorem State.setReg_cmd_setStatus :
    (s.setReg sl (cmdIdx h) v).setStatus sl h w = (s.setStatus sl h w).setReg sl (cmdIdx h) v := by
  unfold State.setStatus
  rw [State.setReg_kind, State.setReg_cmd_status, State.setReg_cmd_putStatus]

theorem State.setReg_ackIrq (i : Fin 4) : (s.setReg sl i v).ackIrq sl h = (s.ackIrq sl h).setReg sl i v := by
  simp only [State.ackIrq, State.setReg_mapBody, State.setReg_body]
  split <;> rfl

theorem State.setReg_cmd_ackCmd : (s.setReg sl (cmdIdx h) v).ackCmd sl h = (s.ackCmd sl h).setReg sl (cmdIdx h) v := by
  rw [State.ackCmd, State.setReg_ackIrq, State.setReg_cmd_setStatus, State.ackCmd]

theorem State.setReg_cmd_failNow :
    (s.setReg sl (cmdIdx h) v).failNow sl h w = (s.failNow sl h w).setReg sl (cmdIdx h) v := by
  rw [State.failNow, State.setReg_cmd_setStatus, State.raiseIrq, State.setReg_mapBody]
  rfl

theorem State.setReg_cmd_beginOp (record : DeviceBody → DeviceBody) (delta : Nat) :
    (s.setReg sl (cmdIdx h) v).beginOp sl h record delta = (s.beginOp sl h record delta).setReg sl (cmdIdx h) v := by
  unfold State.beginOp
  rw [State.setReg_ackIrq, State.setReg_cmd_setStatus, State.setReg_mapBody, State.setReg_schedule]
  exact State.setReg_andThen _ _ _ fun u => State.setReg_mapBody u sl v _ _

theorem State.setReg_decodeFails (i : Fin 4) (a : Word) (n : Nat) :
    (s.setReg sl i v).decodeFails a n = ((s.decodeFails a n).1, (s.decodeFails a n).2.setReg sl i v) := by
  unfold State.decodeFails
  rw [State.setReg_cfg, State.setReg_tape]
  split
  · rfl
  · split <;> rfl

theorem State.setReg_countDraw (i : Fin 4) : (s.setReg sl i v).countDraw = s.countDraw.setReg sl i v := rfl

theorem State.setReg_dmaFromMem (i : Fin 4) (a : Word) :
    (s.setReg sl i v).dmaFromMem a =
      ((s.dmaFromMem a).1, (s.dmaFromMem a).2.1, (s.dmaFromMem a).2.2.setReg sl i v) := by
  simp only [State.dmaFromMem, State.setReg_decodeFails]
  cases (s.decodeFails a 4096).1 with
  | true => simp [State.setReg_countDraw]
  | false => simp

theorem State.setReg_armPoll (i : Fin 4) : armPoll sl (s.setReg sl i v) = (armPoll sl s).setReg sl i v := by
  unfold armPoll
  rw [State.setReg_body, State.setReg_cfg]
  split
  · split
    · rw [State.setReg_schedule]
      exact State.setReg_andThen _ _ _ fun u => State.setReg_mapBody u sl v i _
    · rfl
  · rfl

/-! The commands, once accepted. -/

/-- What runs at a sub-device neither reads nor writes its command register. -/
def BlindToCommand (sl : Slot) (h : Sub) (run : State → State) : Prop :=
  ∀ s v, run (s.setReg sl (cmdIdx h) v) = (run s).setReg sl (cmdIdx h) v

variable {sl h}

theorem blind_ackCmd : BlindToCommand sl h fun s => s.ackCmd sl h := fun s => State.setReg_cmd_ackCmd s sl h

/-- A timed operation whose latency is taken from the configuration. -/
theorem blind_beginOp (record : DeviceBody → DeviceBody) (delta : Config → Nat) :
    BlindToCommand sl h fun s => s.beginOp sl h record (delta s.cfg) :=
  fun s v => State.setReg_cmd_beginOp s sl h v record (delta s.cfg)

theorem blind_beginRotational (d : Disk) (sect : BitVec 8) (o : DiskOp) :
    BlindToCommand sl .single (beginRotational sl d sect o) := by
  intro s v
  simp only [beginRotational, State.setReg_cfg, State.setReg_tod, State.setReg_cmd_beginOp]
  split <;> rfl

theorem blind_diskResetAccept : BlindToCommand sl .single (diskResetAccept sl) := by
  intro s v
  unfold diskResetAccept
  rw [State.setReg_body]
  split
  · rw [State.setReg_mapBody, State.setReg_cmd_beginOp, State.setReg_cfg]
  · rfl

theorem blind_diskSeekAccept (cyl : BitVec 16) : BlindToCommand sl .single (diskSeekAccept sl cyl) := by
  intro s v
  unfold diskSeekAccept
  rw [State.setReg_body]
  split
  · split
    · rw [State.setReg_cmd_beginOp, State.setReg_cfg]
    · rw [State.setReg_cmd_failNow]
  · rfl

theorem blind_diskReadAccept (head sect : BitVec 8) : BlindToCommand sl .single (diskReadAccept sl head sect) := by
  intro s v
  unfold diskReadAccept
  rw [State.setReg_body]
  split
  · split
    · rw [State.setReg_mapBody, State.setReg_cmd_failNow]
    · split
      · rw [State.setReg_cmd_beginOp, State.setReg_cfg]
      · exact blind_beginRotational _ _ _ s v
  · rfl

theorem blind_diskWriteAccept (head sect : BitVec 8) : BlindToCommand sl .single (diskWriteAccept sl head sect) := by
  intro s v
  unfold diskWriteAccept
  rw [State.setReg_body]
  split
  · simp only [State.setReg_mapBody, State.setReg_cmd_data0, State.setReg_dmaFromMem]
    split
    · rw [State.setReg_cmd_failNow]
    · split
      · rw [State.setReg_cmd_failNow]
      · exact blind_beginRotational _ _ _ _ v
  · rfl

theorem blind_flashResetAccept : BlindToCommand sl .single (flashResetAccept sl) := by
  intro s v
  unfold flashResetAccept
  rw [State.setReg_mapBody, State.setReg_cmd_beginOp, State.setReg_cfg]

theorem blind_flashReadAccept (blk : BitVec 24) : BlindToCommand sl .single (flashReadAccept sl blk) := by
  intro s v
  unfold flashReadAccept
  rw [State.setReg_body]
  split
  · split
    · rw [State.setReg_mapBody, State.setReg_cmd_failNow]
    · split
      · rw [State.setReg_cmd_beginOp, State.setReg_cfg]
      · rw [State.setReg_cmd_beginOp, State.setReg_cfg]
  · rfl

theorem blind_flashWriteAccept (blk : BitVec 24) : BlindToCommand sl .single (flashWriteAccept sl blk) := by
  intro s v
  unfold flashWriteAccept
  rw [State.setReg_body]
  split
  · simp only [State.setReg_mapBody, State.setReg_cmd_data0, State.setReg_dmaFromMem]
    split
    · rw [State.setReg_cmd_failNow]
    · split
      · rw [State.setReg_cmd_failNow]
      · exact State.setReg_cmd_beginOp _ sl .single v _ _
  · rfl

theorem blind_ethAckAccept : BlindToCommand sl .single (ethAckAccept sl) := by
  intro s v
  have acked : (s.setReg sl (cmdIdx .single) v).irqAck sl = (s.irqAck sl).setReg sl (cmdIdx .single) v := rfl
  rw [ethAckAccept, acked, State.setReg_cmd_putStatus, State.setReg_armPoll, ethAckAccept]

/-- A command with and without its ignored bits is accepted for the same run, with its own word stored; the run does
not see which word that is (R302, R506). -/
theorem exec_blind (i : Instr) :
    ∃ run : State → State,
      BlindToCommand i.slot i.port.sub run ∧
      (∀ s, exec i s = s.accept i.port.kind i.slot i.port.sub (encode i) run) ∧
      ∀ s, exec i.clearIgn s = s.accept i.port.kind i.slot i.port.sub (encode i.clearIgn) run := by
  cases i with
  | printerReset | printerPrntchr | termRxReset | termRxRecvchr | termTxReset | termTxTranchr =>
    exact ⟨_, blind_beginOp _ fun c => _ * c.clockRate, fun _ => rfl, fun _ => rfl⟩
  | ethReset => exact ⟨_, blind_beginOp _ fun c => c.ethResetTime * c.clockRate, fun _ => rfl, fun _ => rfl⟩
  | ethReadconf => exact ⟨_, blind_beginOp _ fun c => c.ethReadConfTime * c.clockRate, fun _ => rfl, fun _ => rfl⟩
  | ethReadnet => exact ⟨_, blind_beginOp _ fun c => c.ethReadNetTime * c.clockRate, fun _ => rfl, fun _ => rfl⟩
  | ethWritenet => exact ⟨_, blind_beginOp _ fun c => c.ethWriteNetTime * c.clockRate, fun _ => rfl, fun _ => rfl⟩
  | ethConfigure => exact ⟨_, blind_beginOp _ fun c => c.ethConfigureTime * c.clockRate, fun _ => rfl, fun _ => rfl⟩
  | printerAck | termRxAck | termTxAck | diskAck | flashAck => exact ⟨_, blind_ackCmd, fun _ => rfl, fun _ => rfl⟩
  | ethAck => exact ⟨_, blind_ethAckAccept, fun _ => rfl, fun _ => rfl⟩
  | diskReset => exact ⟨_, blind_diskResetAccept, fun _ => rfl, fun _ => rfl⟩
  | diskSeekcyl => exact ⟨_, blind_diskSeekAccept _, fun _ => rfl, fun _ => rfl⟩
  | diskReadblk => exact ⟨_, blind_diskReadAccept _ _, fun _ => rfl, fun _ => rfl⟩
  | diskWriteblk => exact ⟨_, blind_diskWriteAccept _ _, fun _ => rfl, fun _ => rfl⟩
  | flashReset => exact ⟨_, blind_flashResetAccept, fun _ => rfl, fun _ => rfl⟩
  | flashReadblk => exact ⟨_, blind_flashReadAccept _, fun _ => rfl, fun _ => rfl⟩
  | flashWriteblk => exact ⟨_, blind_flashWriteAccept _, fun _ => rfl, fun _ => rfl⟩

/-- Settles O5: both commands run alike, and a second store of the command register replaces the first. -/
theorem ignoredBitsOnlyReachTheCommandRegister : Obligations.IgnoredBitsOnlyReachTheCommandRegister := by
  intro i s u hf hk hb hu
  obtain ⟨run, hblind, hexec, hclear⟩ := exec_blind i
  rw [hclear, State.accept_idle hf hk hb, hblind] at hu
  rw [hexec, State.accept_idle hf hk hb, hblind]
  cases hu
  rw [State.setReg_setReg]

end Sys2Proof.Machine
end

section
/-! PROOFS. The event engine: scheduling, the earliest event, the dispatch loop and the tick. The loop ends because each
dispatch takes one due event from the queue and, within table T1's bounds, schedules none that is due. -/

namespace Sys2Proof.Machine

variable {s t u : State} {sl : Slot} {e : Event} {rest : List Event} {n : Nat}

/-! Scheduling. -/

theorem insertEvent_length (e : Event) (q : List Event) : (insertEvent e q).length = q.length + 1 := by
  rw [(insertEvent_perm e q).length_eq, List.length_cons]

/-- Scheduling keeps the queue in order and schedules nothing in the past (R132, R403). -/
theorem QueueOk.schedule (hs : QueueOk s) (k : EventKind) {delta : Nat} (hd : InTime s delta) :
    QueueOk (s.schedule sl k delta) := by
  obtain ⟨horder, hfuture⟩ := queueOk_iff.1 hs
  have hl := local_schedule (s := s) (sl := sl) k delta
  have hf : (s.schedule sl k delta).fatal = s.fatal := by rw [State.schedule_inTime sl k hd]
  exact queueOk_iff.2 ⟨hl.keyOrder horder, fun h => hl.future (hfuture (hf ▸ h))⟩

/-- Settles O13: in time, scheduling is the insertion of one event with the next number. -/
theorem scheduleInsertsInKeyOrder : Obligations.ScheduleInsertsInKeyOrder := by
  intro s sl k delta
  refine ⟨fun hd => ⟨?_, ?_, fun hs => hs.schedule k hd, ?_⟩, State.schedule_overflow sl k⟩
  all_goals rw [State.schedule_inTime sl k hd]
  · exact fun x => mem_insertEvent
  · exact insertEvent_length _ _

/-! The earliest event. -/

theorem runDue_nil (hq : s.queue = []) : runDue s = none := by
  simp [runDue, hq]

theorem runDue_due (hq : s.queue = e :: rest) (hdue : e.fire.toNat ≤ s.tod.toNat) :
    runDue s = some (dispatch e { s with queue := rest }) := by
  simp [runDue, hq, BitVec.le_def, hdue]

theorem runDue_early (hq : s.queue = e :: rest) (hearly : s.tod.toNat < e.fire.toNat) : runDue s = none := by
  simp [runDue, hq, BitVec.le_def, hearly]

/-- What is dispatched is the head of the queue, and it is due (R405). -/
theorem runDue_some (h : runDue s = some u) :
    ∃ e rest, s.queue = e :: rest ∧ e.fire.toNat ≤ s.tod.toNat ∧ u = dispatch e { s with queue := rest } := by
  cases hq : s.queue with
  | nil => simp [runDue_nil hq] at h
  | cons e rest =>
    by_cases hdue : e.fire.toNat ≤ s.tod.toNat
    · rw [runDue_due hq hdue] at h
      exact ⟨e, rest, rfl, hdue, (Option.some.inj h).symm⟩
    · simp [runDue_early hq (not_le.1 hdue)] at h

/-- No event of a queue in key order fires earlier than its head (R402). -/
theorem head_fires_first (hs : s.queue.Pairwise fun a b => a.before b = true) (hq : s.queue = e :: rest) :
    ∀ x ∈ rest, e.fire.toNat ≤ x.fire.toNat := by
  intro x hx
  have hafter := before_iff.1 ((List.pairwise_cons.1 (hq ▸ hs)).1 x hx)
  omega

/-- Settles O14: the dispatch takes the head of the queue, and key order makes the head the earliest. -/
theorem runDueDispatchesTheEarliest : Obligations.RunDueDispatchesTheEarliest := fun _ =>
  ⟨fun hq => ⟨by simp [nextFireTime, hq], runDue_nil hq⟩, fun _ _ hs hq =>
    ⟨head_fires_first hs.sorted hq, by simp [nextFireTime, hq], runDue_due hq, runDue_early hq⟩⟩

/-- With every event in the future nothing is due. -/
theorem runDue_of_future (h : ∀ e ∈ s.queue, s.tod.toNat < e.fire.toNat) : runDue s = none := by
  cases hq : s.queue with
  | nil => exact runDue_nil hq
  | cons e rest => exact runDue_early hq (h e (by simp [hq]))

/-- In key order, nothing due means every event in the future (R132, R405). -/
theorem KeyOrder.strictFuture_of_idle (hs : KeyOrder s) (hd : runDue s = none) :
    ∀ e ∈ s.queue, s.tod.toNat < e.fire.toNat := by
  cases hq : s.queue with
  | nil => simp
  | cons e rest =>
    have hhead : s.tod.toNat < e.fire.toNat := by
      by_contra hdue
      simp [runDue_due hq (not_lt.1 hdue)] at hd
    exact List.forall_mem_cons.2
      ⟨hhead, fun x hx => hhead.trans_le (head_fires_first hs.sorted hq x hx)⟩

/-! The number of due events, which bounds the dispatch loop. -/

/-- Table T1's bounds on the two factors of every delay a handler schedules with. -/
structure Paced (c : Config) : Prop where
  clockRate : 1 ≤ c.clockRate
  pollNetTime : 1 ≤ c.pollNetTime

/-- The number of events due now. -/
def State.dueCount (s : State) : Nat := s.queue.countP fun e => decide (e.fire.toNat ≤ s.tod.toNat)

theorem dueCount_le_length : s.dueCount ≤ s.queue.length := List.countP_le_length

theorem dueCount_eq_zero : s.dueCount = 0 ↔ ∀ e ∈ s.queue, s.tod.toNat < e.fire.toNat := by
  simp [State.dueCount, List.countP_eq_zero]

/-- Within T1's bounds a handler schedules strictly into the future (R805, R1119). -/
theorem LaterDelay.pos {c : Config} {delta : Nat} (hc : Paced c) (h : LaterDelay c delta) : 0 < delta := by
  rcases h with rfl | rfl
  · exact Nat.mul_pos (by decide) hc.clockRate
  · exact Nat.mul_pos hc.pollNetTime hc.clockRate

/-- What schedules only into the future leaves the number of due events as it is. -/
theorem Local.dueCount {P : Nat → Prop} (hl : Local sl P s t) (hpos : ∀ d, P d → 0 < d) :
    t.dueCount = s.dueCount := by
  unfold State.dueCount
  rw [hl.others.tod]
  obtain ⟨hq, -⟩ | ⟨_, delta, hp, hd, hq, -⟩ := hl.event
  · rw [hq]
  · have hlater := hpos delta hp
    have hnew : ¬ (BitVec.ofNat 64 (s.tod.toNat + delta)).toNat ≤ s.tod.toNat := by
      rw [BitVec.toNat_ofNat, Nat.mod_eq_of_lt hd]
      omega
    rw [hq, (insertEvent_perm _ _).countP_eq, List.countP_cons_of_neg (by simpa using hnew)]

theorem dueCount_dispatch (hc : Paced s.cfg) (e : Event) : (dispatch e s).dueCount = s.dueCount :=
  (local_dispatch e).dueCount fun _ hd => hd.pos hc

/-- Every dispatch is of one due event, and makes no other due. -/
theorem runDue_dueCount (hc : Paced s.cfg) (h : runDue s = some u) : u.dueCount + 1 = s.dueCount := by
  obtain ⟨e, rest, hq, hdue, rfl⟩ := runDue_some h
  rw [dueCount_dispatch (s := { s with queue := rest }) hc]
  simp [State.dueCount, hq, hdue]

theorem runDue_cfg (h : runDue s = some u) : u.cfg = s.cfg := by
  obtain ⟨e, rest, -, -, rfl⟩ := runDue_some h
  exact (elapsed_dispatch e rest).cfg

/-! The dispatch loop. -/

/-- The loop is over: the simulation has ended, or nothing is due (R406). -/
theorem drain_over (h : s.fatal ≠ none ∨ runDue s = none) : drain n s = some s := by
  unfold drain
  cases hf : s.fatal with
  | some _ => simp
  | none => simp [h.resolve_left (not_not.2 hf)]

/-- The loop dispatches one event and goes on (R406). -/
theorem drain_dispatch (hf : s.fatal = none) (h : runDue s = some u) : drain (n + 1) s = drain n u := by
  rw [drain]
  simp [hf, h]

/-- The loop ends in `t`, with any fuel that covers the events due (log 10). -/
def DrainsTo (s t : State) : Prop := ∀ n, s.dueCount ≤ n → drain n s = some t

theorem DrainsTo.settle (h : DrainsTo s t) : settle s = .next t := by
  simp only [Machine.settle, h _ dueCount_le_length]

theorem DrainsTo.over (h : s.fatal ≠ none ∨ runDue s = none) : DrainsTo s s := fun _ _ => drain_over h

theorem DrainsTo.dispatch (hc : Paced s.cfg) (hf : s.fatal = none) (hu : runDue s = some u)
    (h : DrainsTo u t) : DrainsTo s t := by
  intro n hn
  rw [← runDue_dueCount hc hu] at hn
  obtain ⟨m, rfl⟩ := Nat.exists_eq_add_of_le' (Nat.le_of_add_left_le hn)
  rw [drain_dispatch hf hu]
  exact h m (Nat.le_of_add_le_add_right hn)

/-- Within T1's bounds the loop ends, by induction on the number of due events (R406). -/
theorem drainsTo_exists (hc : Paced s.cfg) : ∃ t, DrainsTo s t := by
  induction hk : s.dueCount generalizing s with
  | zero => exact ⟨s, .over (.inr (runDue_of_future (dueCount_eq_zero.1 hk)))⟩
  | succ k ih =>
    by_cases hover : s.fatal ≠ none ∨ runDue s = none
    · exact ⟨s, .over hover⟩
    · obtain ⟨hf, hdue⟩ := not_or.1 hover
      obtain ⟨u, hu⟩ := Option.ne_none_iff_exists'.1 hdue
      have hcount := runDue_dueCount hc hu
      obtain ⟨t, ht⟩ := ih (s := u) (runDue_cfg hu ▸ hc) (by omega)
      exact ⟨t, ht.dispatch hc (not_not.1 hf) hu⟩

theorem settle_exists (hc : Paced s.cfg) : ∃ t, settle s = .next t :=
  (drainsTo_exists hc).imp fun _ ht => ht.settle

/-- Events due at once are dispatched one by one (R406, R409). -/
theorem settle_dispatch (hc : Paced s.cfg) (hf : s.fatal = none) (hu : runDue s = some u) :
    settle s = settle u := by
  obtain ⟨t, ht⟩ := drainsTo_exists (s := u) (runDue_cfg hu ▸ hc)
  rw [ht.settle, (ht.dispatch hc hf hu).settle]

/-- After the loop a queue in key order lies strictly in the future (R132, R406). -/
theorem settle_strictFuture (h : settle s = .next t) (hs : KeyOrder s) (hf : t.fatal = none) :
    ∀ e ∈ t.queue, t.tod.toNat < e.fire.toNat := by
  have horder : KeyOrder t := (queueOk_iff.1 (settle_queueOk h hs)).1
  have hidle := (settle_induct (P := fun _ => True) (fun _ _ _ _ _ _ _ => trivial) h trivial).2 hf
  exact horder.strictFuture_of_idle hidle

theorem settle_tod (h : settle s = .next t) : t.tod = s.tod :=
  BitVec.eq_of_toNat_eq (elapsed_settle h).clock

/-! No step faults. -/

theorem settleStep_ne_fault (hc : Paced s.cfg) (r : Fault) : settleStep s ≠ .fault r := by
  obtain ⟨t, ht⟩ := settle_exists hc
  unfold settleStep
  split
  · simp [ht]
  · simp

/-- A change keeps the configuration, so the drain after it ends as well. -/
theorem Change.settleStep_ne_fault (h : Change s u) (hc : Paced s.cfg) (r : Fault) : settleStep u ≠ .fault r :=
  Machine.settleStep_ne_fault (h.elapsed.cfg.symm ▸ hc) r

theorem exec_ne_fault (i : Instr) (r : Fault) : exec i s ≠ .fault r := by
  rcases exec_cases i s with ⟨_, -, h⟩ | ⟨-, -, h⟩ | ⟨-, -, t, h⟩ <;> simp [h]

theorem State.accept_ne_fault {k : DevKind} {h : Sub} {w : Word} {run : State → State} (r : Fault) :
    s.accept k sl h w run ≠ .fault r := by
  unfold State.accept
  repeat' split
  all_goals simp

/-- An illegal command is an acceptance at its port, too (R315, R506). -/
theorem execIllegal_accepts (p : Port) (w : Word) :
    execIllegal p sl w s = s.accept p.kind sl p.sub w fun s => s.failNow sl p.sub codeIllegalOp := by
  cases p <;> rfl

theorem execIllegal_ne_fault (p : Port) (w : Word) (r : Fault) : execIllegal p sl w s ≠ .fault r := by
  rw [execIllegal_accepts]
  exact State.accept_ne_fault r

theorem command_ne_fault (p : Port) (w : Word) (r : Fault) : command p sl w s ≠ .fault r := by
  unfold command
  split
  · exact exec_ne_fault _ r
  · exact execIllegal_ne_fault p w r

theorem regWrite_ne_fault (i : Fin 4) (v : Word) (r : Fault) : regWrite sl i v s ≠ .fault r := by
  unfold regWrite
  split
  · simp
  · split
    · simp
    · split
      · exact command_ne_fault _ v r
      · split <;> simp

theorem doStore_ne_fault (hc : Paced s.cfg) (off : BitVec 4) (w : Width) (v : Word) (r : Fault) :
    doStore sl off w v s ≠ .fault r := by
  unfold doStore
  split
  · simp
  · cases h : regWrite sl (regIndex off) v s with
    | next u => exact (regWrite_change h).settleStep_ne_fault hc r
    | fault f => exact absurd h (regWrite_ne_fault _ v f)
    | refused f => simp [thenDo]

theorem doTick_ne_fault (hc : Paced s.cfg) (r : Fault) : doTick s ≠ .fault r := by
  unfold doTick
  split
  · simp
  · obtain ⟨t, ht⟩ := settle_exists (s := { s with tod := s.tod + 1#64 }) hc
    simp [ht]

theorem serve_ne_fault (hc : Paced s.cfg) (q : Request) (r : Fault) : serve q s ≠ .fault r := by
  cases q with
  | store sl off w v => exact doStore_ne_fault hc off w v r
  | tick => exact doTick_ne_fault hc r
  | input sl text => exact (Change.input sl text).settleStep_ne_fault hc r
  | work sl b =>
    simp only [serve, doWork]
    split
    · simp
    · exact (Change.work sl b).settleStep_ne_fault hc r
  | load sl off w =>
    simp only [serve, doLoad]
    split <;> simp
  | readTodLo | writeTodLo | readBitmap | writeBitmap | nextFireTime | memLoad | memStore => simp [serve]

/-- Within T1's bounds no step meets the model's own fault (log 10). -/
theorem step_ne_fault (hc : Paced s.cfg) (r : Fault) : step s ≠ .fault r := by
  unfold step
  split
  · simp
  · unfold fetchServe
    split
    · simp
    · next q rest _ => exact serve_ne_fault (s := { s with script := rest, reply := .none }) hc q r

/-- Settles O15: the number of due events falls with every dispatch, and the loop stops when none is left. -/
theorem dispatchLoop : Obligations.DispatchLoop := by
  intro s
  refine ⟨fun h => by simp [settleStep, h], fun h => by simp [settleStep, h], fun hclock hpoll => ?_,
    fun hsorted hseqs t ht => ⟨settle_tod ht, settle_strictFuture ht ⟨hsorted, hseqs⟩⟩⟩
  have hc : Paced s.cfg := ⟨hclock, hpoll⟩
  exact ⟨settle_exists hc, step_ne_fault hc, fun hover => (DrainsTo.over hover).settle,
    fun e rest hf hq hdue => settle_dispatch hc hf (runDue_due hq hdue)⟩

/-! The tick. -/

theorem step_tick {requests : List Request} (hf : s.fatal = none) (hs : s.script = .tick :: requests) :
    step s = doTick (s.taken requests) := by
  simp [step, fetchServe, serve, hf, hs, State.taken]

/-- At the top of the counter a tick is fatal (R410). -/
theorem doTick_top (h : s.tod.toNat = 2 ^ 64 - 1) : doTick s = .next (s.stop .timeOverflow) :=
  if_pos (BitVec.eq_of_toNat_eq (h.trans BitVec.toNat_allOnes.symm))

/-- Below the top the counter advances and the queue is drained (R410). -/
theorem doTick_below (h : s.tod.toNat < 2 ^ 64 - 1) :
    doTick s = settle { s with tod := BitVec.ofNat 64 (s.tod.toNat + 1) } := by
  have hmax : s.tod ≠ BitVec.allOnes 64 := fun htop => h.ne (htop ▸ BitVec.toNat_allOnes)
  rw [doTick, if_neg hmax, BitVec.ofNat_add, BitVec.ofNat_toNat, BitVec.setWidth_eq]

theorem step_tick_below {requests : List Request} (hf : s.fatal = none) (hs : s.script = .tick :: requests)
    (h : s.tod.toNat < 2 ^ 64 - 1) :
    step s =
      settle { s with script := requests, reply := .none, tod := BitVec.ofNat 64 (s.tod.toNat + 1) } :=
  (step_tick hf hs).trans (doTick_below (s := s.taken requests) h)

/-- An event due alone is dispatched, and what its handler schedules is not due, so the loop ends there. -/
theorem settle_single (hc : Paced s.cfg) (hf : s.fatal = none) (hq : s.queue = e :: rest)
    (hdue : e.fire.toNat ≤ s.tod.toNat) (hrest : ∀ x ∈ rest, s.tod.toNat < x.fire.toNat) :
    settle s = .next (dispatch e { s with queue := rest }) := by
  rw [settle_dispatch hc hf (runDue_due hq hdue)]
  refine (DrainsTo.over (.inr (runDue_of_future (dueCount_eq_zero.1 ?_)))).settle
  rw [dueCount_dispatch (s := { s with queue := rest }) hc]
  exact dueCount_eq_zero.2 hrest

/-- Settles O11: a tick is the counter's advance and the dispatch loop, which here has no event due or one. -/
theorem tick : Obligations.Tick := by
  intro s requests hf hs
  have htod (h : s.tod.toNat < 2 ^ 64 - 1) : (BitVec.ofNat 64 (s.tod.toNat + 1)).toNat = s.tod.toNat + 1 := by
    rw [BitVec.toNat_ofNat, Nat.mod_eq_of_lt (by omega)]
  refine ⟨fun h => (step_tick hf hs).trans (doTick_top (s := s.taken requests) h), step_tick_below hf hs,
    fun h hquiet => ?_, fun e queue hclock hpoll _ hq hfire hlater => ?_⟩
  · rw [step_tick_below hf hs h]
    exact (DrainsTo.over (.inr (runDue_of_future fun e he => (htod h).symm ▸ hquiet e he))).settle
  · have h : s.tod.toNat < 2 ^ 64 - 1 := by
      have hmax := e.fire.isLt
      omega
    have hnow : BitVec.ofNat 64 (s.tod.toNat + 1) = e.fire := BitVec.eq_of_toNat_eq ((htod h).trans hfire.symm)
    rw [step_tick_below hf hs h, hnow]
    exact settle_single ⟨hclock, hpoll⟩ hf hq le_rfl hlater

end Sys2Proof.Machine
end

section
/-! PROOFS. The forms of the registers, slot by slot: what an update of a slot has to respect to keep them, and that
every command and every event does. -/

namespace Sys2Proof.Machine

variable {s t u : State} {sl : Slot} {h : Sub} {d : Device} {b : DeviceBody} {k : DevKind} {i : Fin 4} {v w : Word}

/-! The invariants, slot by slot. -/

/-- The status registers of a type: STATUS, and on a terminal TRANS_STATUS too (R13). -/
def IsStatus (k : Option DevKind) (i : Fin 4) : Prop := i = 0 ∨ (k = some .terminal ∧ i = 2)

/-- The form of a status word of a type (R113, R316), with no code above 7 (R1210). -/
def StatusWord (k : Option DevKind) (w : Word) : Prop :=
  match k with
  | some .terminal => (w &&& 0xFF#32) ≤ 7#32 ∧ w < 0x10000#32
  | some .eth => (w &&& 0x7F#32) ≤ 7#32 ∧ w < 0x100#32
  | _ => w ≤ 7#32

/-- The registers of a NULL slot are 0 (R508). -/
def Device.NullForm (d : Device) : Prop := d.body.kind = none → ∀ i : Fin 4, d.regs[i] = 0#32

/-- Every status register has the form of the device's type. -/
def Device.StatusForm (d : Device) : Prop := ∀ i : Fin 4, IsStatus d.body.kind i → StatusWord d.body.kind d.regs[i]

/-- The mode byte holds no SETMAC bit (R126). -/
def DeviceBody.ModeForm : DeviceBody → Prop
  | .eth e => e.mode.getLsbD 7 = false
  | _ => True

/-- The heads are over a cylinder of the disk, and so is the target of a seek in progress (R902). -/
def Disk.HeadsForm (d : Disk) : Prop :=
  d.curCyl.toNat < d.cyls ∧ d.cyls ≤ 65535 ∧ ∀ c, d.op = some (.seek c) → c.toNat < d.cyls

/-- The heads of a disk are where they may be; no other type has any. -/
def DeviceBody.HeadsForm : DeviceBody → Prop
  | .disk d => d.HeadsForm
  | _ => True

theorem nullOk_iff : NullOk s ↔ ∀ sl, (s.dev sl).NullForm := Iff.rfl

theorem statusForm_iff : d.StatusForm ↔
    StatusWord d.body.kind d.regs[0] ∧ (d.body.kind = some .terminal → StatusWord d.body.kind d.regs[2]) :=
  ⟨fun hd => ⟨hd 0 (.inl rfl), fun hk => hd 2 (.inr ⟨hk, rfl⟩)⟩, fun ⟨h0, h2⟩ i hi => by
    obtain rfl | ⟨hk, rfl⟩ := hi
    · exact h0
    · exact h2 hk⟩

theorem statusOk_iff : StatusOk s ↔ ∀ sl, (s.dev sl).StatusForm := by
  refine forall_congr' fun sl => ?_
  rw [statusForm_iff]
  simp only [State.kind_eq, State.reg_eq]
  cases (s.dev sl).body <;> simp [DeviceBody.kind, StatusWord, and_assoc]

theorem ethOk_iff : EthOk s ↔ ∀ sl, (s.body sl).ModeForm := by
  refine forall_congr' fun sl => ?_
  cases s.body sl <;> simp [DeviceBody.ModeForm]

theorem diskOk_iff : DiskOk s ↔ ∀ sl, (s.body sl).HeadsForm := by
  refine forall_congr' fun sl => ?_
  cases s.body sl <;> simp [DeviceBody.HeadsForm, Disk.HeadsForm]

/-! Status words. -/

theorem not_isStatus_cmdIdx (k : Option DevKind) (h : Sub) : ¬ IsStatus k (cmdIdx h) := by
  cases h <;> simp [IsStatus, cmdIdx]

/-- A data register that a write stores is no status register (R507, R509). -/
theorem not_isStatus_writable (hw : writable k i = true) : ¬ IsStatus (some k) i := by
  rintro (rfl | ⟨hk, rfl⟩)
  · cases k <;> exact absurd hw (by decide)
  · exact absurd hw (by rw [Option.some.inj hk]; decide)

theorem masked_le (hw : w ≤ 7#32) (m : Word) : w &&& m ≤ 7#32 := by
  refine BitVec.le_def.2 (le_trans ?_ (BitVec.le_def.1 hw))
  rw [BitVec.toNat_and]
  exact Nat.and_le_left

/-- A bare code is a status word of every type (R1210). -/
theorem StatusWord.code (k : Option DevKind) (hw : w ≤ 7#32) : StatusWord k w := by
  unfold StatusWord
  split
  · exact ⟨masked_le hw _, by bv_omega⟩
  · exact ⟨masked_le hw _, by bv_omega⟩
  · exact hw

/-- Setting READPENDING keeps an ethernet status word's code and width (R514, R1102). -/
theorem StatusWord.or_readPending {r : Word} (hr : r = r &&& 0x80#32) (hw : StatusWord (some .eth) w) :
    StatusWord (some .eth) (r ||| w) := by
  obtain ⟨hcode, hwidth⟩ := hw
  constructor
  · have code : (r ||| w) &&& 0x7F#32 = w &&& 0x7F#32 := by
      rw [hr, BitVec.and_or_distrib_right, BitVec.and_assoc]
      simp
    exact code ▸ hcode
  · have hr8 : r.toNat < 2 ^ 8 := by
      rw [hr, BitVec.toNat_and]
      exact Nat.and_lt_two_pow _ (by decide)
    exact BitVec.lt_def.2 (by rw [BitVec.toNat_or]; exact Nat.or_lt_two_pow hr8 (BitVec.lt_def.1 hwidth))

/-- What a status write stores has the form of what it is given (R514). -/
theorem StatusWord.merge {k : Option DevKind} (old : Word) (hw : StatusWord k w) :
    StatusWord k (mergeStatus k old w) := by
  unfold mergeStatus
  split
  · next hk =>
    subst hk
    exact hw.or_readPending (by rw [BitVec.and_assoc, BitVec.and_self])
  · exact hw

/-- A code beside a character (R316). -/
theorem StatusWord.char (c : Byte) (hw : w ≤ 7#32) : StatusWord (some .terminal) (charStatus c w) := by
  have hc := c.isLt
  have shifted : (c.setWidth 32 <<< 8 : Word).toNat = c.toNat <<< 8 := by
    rw [BitVec.toNat_shiftLeft, BitVec.toNat_setWidth]
    omega
  have low : (c.setWidth 32 <<< 8 : Word) &&& 0xFF#32 = 0#32 := by
    refine BitVec.eq_of_toNat_eq ?_
    rw [BitVec.toNat_and, shifted, show (0xFF#32).toNat = 2 ^ 8 - 1 from rfl, Nat.and_two_pow_sub_one_eq_mod,
      Nat.shiftLeft_eq, Nat.mul_mod_left]
    rfl
  refine ⟨?_, BitVec.lt_def.2 ?_⟩
  · rw [charStatus, BitVec.and_or_distrib_right, low, BitVec.zero_or]
    exact masked_le hw _
  · rw [charStatus, BitVec.toNat_or, shifted]
    exact Nat.or_lt_two_pow (n := 16) (by omega) (by bv_omega)

/-! Changes of a body. -/

/-- A change of a body that keeps its type and the forms it has. -/
structure Reshape (b b' : DeviceBody) : Prop where
  kind : b'.kind = b.kind
  mode : b.ModeForm → b'.ModeForm
  heads : b.HeadsForm → b'.HeadsForm

theorem reshape_onPrinter (f : Printer → Printer) (b : DeviceBody) : Reshape b (onPrinter f b) := by
  cases b <;> exact ⟨rfl, id, id⟩

theorem reshape_onTerminal (f : Terminal → Terminal) (b : DeviceBody) : Reshape b (onTerminal f b) := by
  cases b <;> exact ⟨rfl, id, id⟩

theorem reshape_onFlash (f : Flash → Flash) (b : DeviceBody) : Reshape b (onFlash f b) := by
  cases b <;> exact ⟨rfl, id, id⟩

theorem reshape_onDisk {f : Disk → Disk} (hf : ∀ d, b = .disk d → d.HeadsForm → (f d).HeadsForm) :
    Reshape b (onDisk f b) := by
  cases b with
  | disk d => exact ⟨rfl, id, hf d rfl⟩
  | null | printer _ | terminal _ | flash _ | eth _ => exact ⟨rfl, id, id⟩

theorem reshape_onEth {f : Eth → Eth} (hf : ∀ e, e.mode.getLsbD 7 = false → (f e).mode.getLsbD 7 = false) :
    Reshape b (onEth f b) := by
  cases b with
  | eth e => exact ⟨rfl, hf e, id⟩
  | null | printer _ | terminal _ | disk _ | flash _ => exact ⟨rfl, id, id⟩

theorem reshape_startPrinter (o : PrinterOp) (b : DeviceBody) : Reshape b (startPrinter o b) := reshape_onPrinter _ b

theorem reshape_startHalf (h : Sub) (o : HalfOp) (b : DeviceBody) : Reshape b (startHalf h o b) :=
  reshape_onTerminal _ b

theorem reshape_startEth (o : EthOp) (b : DeviceBody) : Reshape b (startEth o b) := reshape_onEth fun _ => id

theorem reshape_setPollArmed (v : Bool) (b : DeviceBody) : Reshape b (setPollArmed v b) := reshape_onEth fun _ => id

theorem reshape_pktbuf (bs : List Byte) (b : DeviceBody) : Reshape b (onEth (fun e => { e with pktbuf := bs }) b) :=
  reshape_onEth fun _ => id

theorem reshape_setDiskCache (c : DiskCache) (b : DeviceBody) : Reshape b (setDiskCache c b) :=
  reshape_onDisk fun _ _ => id

theorem reshape_setDiskBuf (blk : Block) (b : DeviceBody) : Reshape b (setDiskBuf blk b) := reshape_onDisk fun _ _ => id

theorem reshape_written (f : File) (c : Disk → DiskCache) (b : DeviceBody) :
    Reshape b (onDisk (fun d => { d with image := f, cache := c d }) b) := reshape_onDisk fun _ _ => id

theorem Disk.HeadsForm.withOp {y : Disk} {o : Option DiskOp} (hy : y.HeadsForm)
    (ho : ∀ c, o = some (.seek c) → c.toNat < y.cyls) : Disk.HeadsForm { y with op := o } :=
  ⟨hy.1, hy.2.1, ho⟩

/-- An operation that is no seek has no target cylinder. -/
theorem reshape_startDisk {o : DiskOp} (ho : ∀ c, o ≠ .seek c) (b : DeviceBody) : Reshape b (startDisk o b) :=
  reshape_onDisk fun _ _ hy => hy.withOp fun c hc => absurd (Option.some.inj hc) (ho c)

theorem reshape_clearOp (h : Sub) (b : DeviceBody) : Reshape b (clearOp h b) := by
  cases b with
  | disk y => exact ⟨rfl, id, fun hy => hy.withOp fun _ hc => nomatch hc⟩
  | null | printer _ | terminal _ | flash _ | eth _ => exact ⟨rfl, id, id⟩

theorem reshape_appendLog (bs : List Byte) (b : DeviceBody) : Reshape b (appendLog bs b) := by
  cases b <;> exact ⟨rfl, id, id⟩

/-! Changes of a device. -/

/-- A change of a device that keeps its type and the forms it has. -/
structure Formed (d d' : Device) : Prop where
  kind : d'.body.kind = d.body.kind
  null : d.NullForm → d'.NullForm
  status : d.StatusForm → d'.StatusForm
  mode : d.body.ModeForm → d'.body.ModeForm
  heads : d.body.HeadsForm → d'.body.HeadsForm

theorem Formed.refl : Formed d d := ⟨rfl, id, id, id, id⟩

theorem Formed.trans {d' d'' : Device} (hd : Formed d d') (hd' : Formed d' d'') : Formed d d'' where
  kind := hd'.kind.trans hd.kind
  null := hd'.null ∘ hd.null
  status := hd'.status ∘ hd.status
  mode := hd'.mode ∘ hd.mode
  heads := hd'.heads ∘ hd.heads

/-- The working flag is in no form. -/
theorem formed_working (b : Bool) : Formed d { d with working := b } := ⟨rfl, id, id, id, id⟩

/-- The forms of the registers depend on the type of the body only. -/
theorem formed_body (hb : Reshape d.body b) : Formed d { d with body := b } where
  kind := hb.kind
  null hd hk := hd (hb.kind.symm.trans hk)
  status hd i hi := hb.kind.symm ▸ hd i (hb.kind ▸ hi)
  mode := hb.mode
  heads := hb.heads

/-- A register written on a typed device, with a word of the form it had where it is a status register. -/
theorem formed_reg (hk : d.body.kind = some k)
    (hv : IsStatus (some k) i → StatusWord (some k) d.regs[i] → StatusWord (some k) v) :
    Formed d { d with regs := d.regs.set i.val v i.isLt } where
  kind := rfl
  null _ hnull := nomatch hk.symm.trans hnull
  status hd j hj := by
    have hj' : IsStatus (some k) j := hk ▸ hj
    have hold : StatusWord (some k) d.regs[j] := hk ▸ hd j hj
    show StatusWord d.body.kind (d.regs.set i.val v i.isLt)[j.val]
    rw [hk, Vector.getElem_set]
    split
    · next e =>
      cases Fin.ext e
      exact hv hj' hold
    · exact hold
  mode := id
  heads := id

/-! Changes of a state. -/

/-- Every slot keeps its type and the forms it has. -/
def KeepsForms (s t : State) : Prop := ∀ sl, Formed (s.dev sl) (t.dev sl)

namespace KeepsForms

theorem refl : KeepsForms s s := fun _ => .refl

theorem trans (hs : KeepsForms s t) (ht : KeepsForms t u) : KeepsForms s u := fun sl => (hs sl).trans (ht sl)

theorem kind (hs : KeepsForms s t) (sl : Slot) : t.kind sl = s.kind sl := (hs sl).kind

theorem andThen {f : State → State} (hs : KeepsForms s t) (hf : KeepsForms s (f t)) :
    KeepsForms s (t.andThen f) := by
  unfold State.andThen
  split
  · exact hf
  · exact hs

/-- The forms are read from the slots alone. -/
theorem of_slots (hs : KeepsForms s t) (hu : u.slots = t.slots) : KeepsForms s u := fun sl => by
  rw [State.dev_congr sl hu]
  exact hs sl

/-- A draw of a host answer. -/
theorem tape {tape : HostTape} (hs : KeepsForms s t) (e : u = { t with tape := tape }) : KeepsForms s u :=
  hs.of_slots (by rw [e])

theorem dmaToMemN (hs : KeepsForms s t) (a : Word) (bytes : List Byte) (n : Nat) :
    KeepsForms s (t.dmaToMemN a bytes n).2 := by
  obtain ⟨-, stored, -, -, e⟩ := t.dmaToMemN_spec a bytes n
  exact hs.of_slots (by rw [e])

theorem schedule (hs : KeepsForms s t) (sl : Slot) (k : EventKind) (delta : Nat) :
    KeepsForms s (t.schedule sl k delta) := by
  unfold State.schedule
  split
  · exact hs
  · exact hs

theorem setDev (hs : KeepsForms s t) (hd : Formed (t.dev sl) d) : KeepsForms s (t.setDev sl d) := fun x => by
  rw [State.dev_setDev]
  split
  · next hx =>
    subst hx
    exact (hs x).trans hd
  · exact hs x

theorem mapBody {f : DeviceBody → DeviceBody} (hs : KeepsForms s t) (hf : Reshape (t.body sl) (f (t.body sl))) :
    KeepsForms s (t.mapBody sl f) := hs.setDev (formed_body hf)

theorem armPoll (hs : KeepsForms s t) (sl : Slot) : KeepsForms s (armPoll sl t) := fun x => by
  rcases armPoll_dev t sl x with h | h <;> rw [h]
  · exact hs x
  · exact (hs x).trans (formed_body (reshape_setPollArmed true _))

theorem raiseIrq (hs : KeepsForms s t) (sl : Slot) (h : Sub) : KeepsForms s (t.raiseIrq sl h) :=
  (hs.mapBody (reshape_onTerminal _ _)).of_slots (u := t.raiseIrq sl h) rfl

theorem ackIrq (hs : KeepsForms s t) (sl : Slot) (h : Sub) : KeepsForms s (t.ackIrq sl h) := by
  have cleared : KeepsForms s (t.mapBody sl (setIpend h false)) := hs.mapBody (reshape_onTerminal _ _)
  simp only [State.ackIrq]
  split
  · exact cleared
  · exact cleared.of_slots (State.irqAck_slots _ _)

/-- A log append, or its failure (R706, R819). -/
theorem writeLog (hs : KeepsForms s t) (sl : Slot) (bytes : List Byte) : KeepsForms s (t.writeLog sl bytes) := by
  cases hio : t.drawIo.1
  · rw [(t.writeLog_spec sl bytes).2 hio]
    exact (hs.tape rfl).mapBody (reshape_appendLog _ _)
  · rw [(t.writeLog_spec sl bytes).1 hio]
    exact hs.of_slots rfl

/-! Updates of a slot that hosts a device. -/

section Typed

variable (hs : KeepsForms s t) (hk : s.kind sl = some k)
include hs hk

theorem setReg (hi : ¬ IsStatus (some k) i) (v : Word) : KeepsForms s (t.setReg sl i v) :=
  hs.setDev (formed_reg ((hs.kind sl).trans hk) fun h => absurd h hi)

theorem putStatus (hw : StatusWord (some k) (t.reg sl (statusIdx h)) → StatusWord (some k) w) :
    KeepsForms s (t.putStatus sl h w) :=
  (hs.setDev (formed_reg ((hs.kind sl).trans hk) fun _ => hw)).of_slots (u := t.putStatus sl h w) rfl

theorem setStatus (hw : StatusWord (some k) w) : KeepsForms s (t.setStatus sl h w) :=
  hs.putStatus hk fun _ => by rw [hs.kind, hk]; exact hw.merge _

/-- A completion with a status word of the type's form (R513). -/
theorem finish (hw : StatusWord (some k) w) : KeepsForms s (t.finish sl h w) :=
  (((hs.setStatus hk hw).mapBody (reshape_clearOp _ _)).raiseIrq sl h).of_slots rfl

theorem failNow (hw : w ≤ 7#32) : KeepsForms s (t.failNow sl h w) := (hs.setStatus hk (.code _ hw)).raiseIrq sl h

theorem ackCmd : KeepsForms s (t.ackCmd sl h) := (hs.ackIrq sl h).setStatus hk (.code _ (by decide))

/-- A started operation, recorded in the body the acknowledge leaves, or a fatal error (R512). -/
theorem beginOp {record : DeviceBody → DeviceBody} (delta : Nat)
    (hr : Reshape (setIpend h false (t.body sl)) (record (setIpend h false (t.body sl)))) :
    KeepsForms s (t.beginOp sl h record delta) := by
  have acked : ((t.ackIrq sl h).setStatus sl h codeBusy).body sl = setIpend h false (t.body sl) := by
    rw [State.setStatus, State.putStatus_body, State.body_eq, State.ackIrq_dev, if_pos rfl, State.body_eq]
  have started := (((hs.ackIrq sl h).setStatus hk (.code _ (w := codeBusy) (by decide))).mapBody
    (acked.symm ▸ hr)).schedule sl .complete delta
  exact started.andThen (started.mapBody (reshape_onTerminal _ _))

end Typed

end KeepsForms

/-! Commands. -/

/-- A run that keeps the forms of every state in which the slot has the type. -/
def RunKeepsForms (k : DevKind) (sl : Slot) (run : State → State) : Prop :=
  ∀ s, s.kind sl = some k → KeepsForms s (run s)

theorem runKeepsForms_ackCmd : RunKeepsForms k sl fun s => s.ackCmd sl h := fun _ hk => KeepsForms.refl.ackCmd hk

/-- A timed operation whose latency is taken from the configuration. -/
theorem runKeepsForms_beginOp {record : DeviceBody → DeviceBody} (hr : ∀ b, Reshape b (record b))
    (delta : Config → Nat) : RunKeepsForms k sl fun s => s.beginOp sl h record (delta s.cfg) :=
  fun _ hk => KeepsForms.refl.beginOp hk _ (hr _)

/-- A command keeps the forms when its run at a slot of its type does (R504, R506). -/
theorem accept_keepsForms {run : State → State} (ha : s.accept k sl h w run = .next t)
    (hrun : RunKeepsForms k sl run) : KeepsForms s t := by
  obtain ⟨-, hk, ⟨-, rfl⟩ | ⟨-, rfl⟩⟩ := State.accept_next ha
  · exact .refl
  · have stored : KeepsForms s (s.setReg sl (cmdIdx h) w) :=
      KeepsForms.refl.setReg hk (not_isStatus_cmdIdx _ h) w
    exact stored.trans (hrun _ ((stored.kind sl).trans hk))

theorem KeepsForms.beginRotational (hs : KeepsForms s t) (hk : s.kind sl = some .disk) (d : Disk) (sect : BitVec 8)
    {o : DiskOp} (ho : ∀ c, o ≠ .seek c) : KeepsForms s (beginRotational sl d sect o t) := by
  unfold Machine.beginRotational
  split
  · exact hs.of_slots rfl
  · exact hs.beginOp hk _ (reshape_startDisk ho _)

/-- The transfer of a WRITEBLK into the buffer, failed or not (R602). -/
theorem KeepsForms.diskFill (hs : KeepsForms s t) (sl : Slot) (a : Word) :
    KeepsForms s ((t.dmaFromMem a).2.2.mapBody sl (setDiskBuf (t.dmaFromMem a).2.1)) :=
  (hs.tape (t.dmaFromMem_spec a).2.2.1).mapBody (reshape_setDiskBuf _ _)

theorem KeepsForms.flashFill (hs : KeepsForms s t) (sl : Slot) (a : Word) :
    KeepsForms s ((t.dmaFromMem a).2.2.mapBody sl (setFlashBuf (t.dmaFromMem a).2.1)) :=
  (hs.tape (t.dmaFromMem_spec a).2.2.1).mapBody (reshape_onFlash _ _)

theorem runKeepsForms_diskResetAccept : RunKeepsForms .disk sl (diskResetAccept sl) := by
  intro s hk
  unfold diskResetAccept
  split
  · exact (KeepsForms.refl.mapBody (reshape_setDiskCache _ _)).beginOp hk _ (reshape_startDisk (by simp) _)
  · exact .refl

theorem runKeepsForms_flashResetAccept : RunKeepsForms .flash sl (flashResetAccept sl) := fun _ hk =>
  (KeepsForms.refl.mapBody (reshape_onFlash _ _)).beginOp hk _ (reshape_onFlash _ _)

/-- The target of a seek that starts is one of the disk's cylinders (R908). -/
theorem runKeepsForms_diskSeekAccept (cyl : BitVec 16) : RunKeepsForms .disk sl (diskSeekAccept sl cyl) := by
  intro s hk
  unfold diskSeekAccept
  split
  · next d hb =>
    split
    · next hcyl =>
      refine KeepsForms.refl.beginOp hk _ (reshape_onDisk fun d' hd' hheads => hheads.withOp fun c hc => ?_)
      rw [hb] at hd'
      cases hd'
      cases hc
      exact hcyl
    · exact KeepsForms.refl.failNow hk (by decide)
  · exact .refl

theorem runKeepsForms_diskReadAccept (head sect : BitVec 8) : RunKeepsForms .disk sl (diskReadAccept sl head sect) := by
  intro s hk
  unfold diskReadAccept
  split
  · split
    · exact (KeepsForms.refl.mapBody (reshape_setDiskCache _ _)).failNow hk (by decide)
    · split
      · exact KeepsForms.refl.beginOp hk _ (reshape_startDisk (by simp) _)
      · exact KeepsForms.refl.beginRotational hk _ _ (by simp)
  · exact .refl

theorem runKeepsForms_diskWriteAccept (head sect : BitVec 8) :
    RunKeepsForms .disk sl (diskWriteAccept sl head sect) := by
  intro s hk
  unfold diskWriteAccept
  split
  · have invalid : KeepsForms s (s.mapBody sl (setDiskCache .invalid)) :=
      KeepsForms.refl.mapBody (reshape_setDiskCache _ _)
    simp only
    split
    · exact invalid.failNow hk (by decide)
    · have filled := invalid.diskFill sl ((s.mapBody sl (setDiskCache .invalid)).reg sl 2)
      split
      · exact filled.failNow hk (by decide)
      · exact filled.beginRotational hk _ _ (by simp)
  · exact .refl

theorem runKeepsForms_flashReadAccept (blk : BitVec 24) : RunKeepsForms .flash sl (flashReadAccept sl blk) := by
  intro s hk
  unfold flashReadAccept
  split
  · split
    · exact (KeepsForms.refl.mapBody (reshape_onFlash _ _)).failNow hk (by decide)
    · split <;> exact KeepsForms.refl.beginOp hk _ (reshape_onFlash _ _)
  · exact .refl

theorem runKeepsForms_flashWriteAccept (blk : BitVec 24) : RunKeepsForms .flash sl (flashWriteAccept sl blk) := by
  intro s hk
  unfold flashWriteAccept
  split
  · have invalid : KeepsForms s (s.mapBody sl (setFlashCache maxU32)) := KeepsForms.refl.mapBody (reshape_onFlash _ _)
    simp only
    split
    · exact invalid.failNow hk (by decide)
    · have filled := invalid.flashFill sl ((s.mapBody sl (setFlashCache maxU32)).reg sl 2)
      split
      · exact filled.failNow hk (by decide)
      · exact filled.beginOp hk _ (reshape_onFlash _ _)
  · exact .refl

theorem runKeepsForms_ethAckAccept : RunKeepsForms .eth sl (ethAckAccept sl) :=
  fun s hk => (KeepsForms.putStatus (t := s.irqAck sl) (KeepsForms.refl.of_slots rfl) hk fun _ =>
    .code _ (by decide)).armPoll sl

/-- Every command is an acceptance of its word, for a run that keeps the forms (R506). -/
theorem exec_runKeepsForms (i : Instr) :
    ∃ run, RunKeepsForms i.port.kind i.slot run ∧
      ∀ s, exec i s = s.accept i.port.kind i.slot i.port.sub (encode i) run := by
  cases i with
  | printerReset | printerPrntchr =>
    exact ⟨_, runKeepsForms_beginOp (reshape_startPrinter _) fun c => _ * c.clockRate, fun _ => rfl⟩
  | termRxReset | termRxRecvchr | termTxReset | termTxTranchr =>
    exact ⟨_, runKeepsForms_beginOp (reshape_startHalf _ _) fun c => _ * c.clockRate, fun _ => rfl⟩
  | ethReset =>
    exact ⟨_, runKeepsForms_beginOp (reshape_startEth _) fun c => c.ethResetTime * c.clockRate, fun _ => rfl⟩
  | ethReadconf =>
    exact ⟨_, runKeepsForms_beginOp (reshape_startEth _) fun c => c.ethReadConfTime * c.clockRate, fun _ => rfl⟩
  | ethReadnet =>
    exact ⟨_, runKeepsForms_beginOp (reshape_startEth _) fun c => c.ethReadNetTime * c.clockRate, fun _ => rfl⟩
  | ethWritenet =>
    exact ⟨_, runKeepsForms_beginOp (reshape_startEth _) fun c => c.ethWriteNetTime * c.clockRate, fun _ => rfl⟩
  | ethConfigure =>
    exact ⟨_, runKeepsForms_beginOp (reshape_startEth _) fun c => c.ethConfigureTime * c.clockRate, fun _ => rfl⟩
  | printerAck | termRxAck | termTxAck | diskAck | flashAck => exact ⟨_, runKeepsForms_ackCmd, fun _ => rfl⟩
  | ethAck => exact ⟨_, runKeepsForms_ethAckAccept, fun _ => rfl⟩
  | diskReset => exact ⟨_, runKeepsForms_diskResetAccept, fun _ => rfl⟩
  | diskSeekcyl => exact ⟨_, runKeepsForms_diskSeekAccept _, fun _ => rfl⟩
  | diskReadblk => exact ⟨_, runKeepsForms_diskReadAccept _ _, fun _ => rfl⟩
  | diskWriteblk => exact ⟨_, runKeepsForms_diskWriteAccept _ _, fun _ => rfl⟩
  | flashReset => exact ⟨_, runKeepsForms_flashResetAccept, fun _ => rfl⟩
  | flashReadblk => exact ⟨_, runKeepsForms_flashReadAccept _, fun _ => rfl⟩
  | flashWriteblk => exact ⟨_, runKeepsForms_flashWriteAccept _, fun _ => rfl⟩

/-- Every command keeps the forms. -/
theorem exec_keepsForms {i : Instr} (hi : exec i s = .next t) : KeepsForms s t := by
  obtain ⟨run, hrun, hexec⟩ := exec_runKeepsForms i
  exact accept_keepsForms (hexec s ▸ hi) hrun

/-! Completions. -/

theorem keepsForms_completePrinter {p : Printer} (hb : s.body sl = .printer p) :
    KeepsForms s (completePrinter sl p s) := by
  have hk : s.kind sl = some .printer := congrArg DeviceBody.kind hb
  unfold completePrinter
  split
  · exact KeepsForms.refl.of_slots rfl
  · exact KeepsForms.refl.finish hk (.code _ (by decide))
  · split
    · have logged := KeepsForms.refl.writeLog (s := s) sl [printChar (s.reg sl 2)]
      exact logged.andThen (logged.finish hk (.code _ (by decide)))
    · exact KeepsForms.refl.finish hk (.code _ (by decide))

theorem keepsForms_completeTran (hk : s.kind sl = some .terminal) : KeepsForms s (completeTran sl s) := by
  unfold completeTran
  simp only
  split
  · have logged := KeepsForms.refl.writeLog (s := s) sl [transChar (s.reg sl 3)]
    exact logged.andThen (KeepsForms.finish (t := State.emit _ _) logged hk (.char _ (by decide)))
  · exact KeepsForms.refl.finish hk (.char _ (by decide))

theorem keepsForms_completeRecv (hk : s.kind sl = some .terminal) (x : Terminal) :
    KeepsForms s (completeRecv sl x s) := by
  unfold completeRecv
  split
  · have again := KeepsForms.refl.schedule (s := s) sl .complete (80 * s.cfg.clockRate)
    exact again.andThen ((again.mapBody (f := setCtime _ _) (reshape_onTerminal _ _)).of_slots rfl)
  · split
    · exact (KeepsForms.refl.mapBody (reshape_onTerminal _ _)).finish hk (.char _ (by decide))
    · exact KeepsForms.refl.finish hk (.code _ (by decide))

theorem keepsForms_completeTerminal {x : Terminal} (hb : s.body sl = .terminal x) :
    KeepsForms s (completeTerminal sl x s) := by
  have hk : s.kind sl = some .terminal := congrArg DeviceBody.kind hb
  unfold completeTerminal
  split
  · exact KeepsForms.refl.of_slots rfl
  · unfold completeHalf
    split
    · exact KeepsForms.refl.of_slots rfl
    · exact KeepsForms.refl.finish hk (.code _ (by decide))
    · split
      · exact keepsForms_completeTran hk
      · exact keepsForms_completeRecv hk x

theorem KeepsForms.diskLoad (hs : KeepsForms s t) (d : Disk) (head sect : BitVec 8) :
    KeepsForms s (diskLoad sl d head sect t) := by
  have read := hs.tape (t.fileRead_spec d.image (d.offBytes d.curCyl.toNat head.toNat sect.toNat)).1
  unfold Machine.diskLoad
  simp only
  split
  · exact read.of_slots rfl
  · exact read.mapBody (reshape_setDiskBuf _ _)

theorem KeepsForms.diskDeliver (hs : KeepsForms s t) (hk : s.kind sl = some .disk) (d : Disk) (head sect : BitVec 8) :
    KeepsForms s (diskDeliver sl d head sect t) := by
  unfold Machine.diskDeliver
  simp only
  split <;> exact ((hs.dmaToMemN _ _ _).mapBody (reshape_setDiskCache _ _)).finish hk (.code _ (by decide))

theorem keepsForms_completeDiskWrite (hk : s.kind sl = some .disk) (d : Disk) (head sect : BitVec 8) :
    KeepsForms s (completeDiskWrite sl d head sect s) := by
  unfold completeDiskWrite
  simp only
  split
  · have written :=
      KeepsForms.refl.tape (s.fileWrite_spec d.image (d.offBytes d.curCyl.toNat head.toNat sect.toNat) d.buf).1
    split
    · exact written.of_slots rfl
    · exact (written.mapBody (reshape_written _ _ _)).finish hk (.code _ (by decide))
  · exact (KeepsForms.refl.mapBody (reshape_setDiskCache _ _)).finish hk (.code _ (by decide))

/-- The heads come to rest over cylinder 0 or over the target of the seek (R906, R910). -/
theorem keepsForms_completeDisk {d : Disk} (hb : s.body sl = .disk d) : KeepsForms s (completeDisk sl d s) := by
  have hk : s.kind sl = some .disk := congrArg DeviceBody.kind hb
  unfold completeDisk
  split
  · exact KeepsForms.refl.of_slots rfl
  · refine (KeepsForms.refl.mapBody (reshape_onDisk fun y _ hy => ?_)).finish hk (.code _ (by decide))
    exact ⟨Nat.zero_lt_of_lt hy.1, hy.2⟩
  · next cyl ho =>
    unfold completeDiskSeek
    split
    · refine (KeepsForms.refl.mapBody (reshape_onDisk fun y hy hheads => ?_)).finish hk (.code _ (by decide))
      rw [hb] at hy
      cases hy
      have hcyl : (cyl.setWidth 32 : Word).toNat = cyl.toNat := by simp; omega
      exact ⟨hcyl ▸ hheads.2.2 cyl ho, hheads.2⟩
    · exact KeepsForms.refl.finish hk (.code _ (by decide))
  · next head sect hit _ =>
    unfold completeDiskRead
    split
    · have loaded : KeepsForms s (if hit then s else diskLoad sl d head sect s) := by
        split
        · exact .refl
        · exact KeepsForms.refl.diskLoad d _ _
      exact loaded.andThen (loaded.diskDeliver hk d _ _)
    · exact (KeepsForms.refl.mapBody (reshape_setDiskCache _ _)).finish hk (.code _ (by decide))
  · exact keepsForms_completeDiskWrite hk d _ _

theorem KeepsForms.flashLoad (hs : KeepsForms s t) (f : Flash) (blk : BitVec 24) :
    KeepsForms s (flashLoad sl f blk t) := by
  have read := hs.tape (t.fileRead_spec f.image (f.offBytes blk)).1
  unfold Machine.flashLoad
  simp only
  split
  · exact read.of_slots rfl
  · exact read.mapBody (reshape_onFlash _ _)

theorem KeepsForms.flashDeliver (hs : KeepsForms s t) (hk : s.kind sl = some .flash) (blk : BitVec 24) :
    KeepsForms s (flashDeliver sl blk t) := by
  unfold Machine.flashDeliver
  simp only
  split <;> exact ((hs.dmaToMemN _ _ _).mapBody (reshape_onFlash _ _)).finish hk (.code _ (by decide))

theorem keepsForms_completeFlashWrite (hk : s.kind sl = some .flash) (f : Flash) (blk : BitVec 24) :
    KeepsForms s (completeFlashWrite sl f blk s) := by
  unfold completeFlashWrite
  simp only
  split
  · have written := KeepsForms.refl.tape (s.fileWrite_spec f.image (f.offBytes blk) f.buf).1
    split
    · exact written.of_slots rfl
    · exact (written.mapBody (reshape_onFlash _ _)).finish hk (.code _ (by decide))
  · exact (KeepsForms.refl.mapBody (reshape_onFlash _ _)).finish hk (.code _ (by decide))

theorem keepsForms_completeFlash {f : Flash} (hb : s.body sl = .flash f) : KeepsForms s (completeFlash sl f s) := by
  have hk : s.kind sl = some .flash := congrArg DeviceBody.kind hb
  unfold completeFlash
  split
  · exact KeepsForms.refl.of_slots rfl
  · exact KeepsForms.refl.finish hk (.code _ (by decide))
  · next blk hit _ =>
    unfold completeFlashRead
    split
    · have loaded : KeepsForms s (if hit then s else flashLoad sl f blk s) := by
        split
        · exact .refl
        · exact KeepsForms.refl.flashLoad f _
      exact loaded.andThen (loaded.flashDeliver hk _)
    · exact (KeepsForms.refl.mapBody (reshape_onFlash _ _)).finish hk (.code _ (by decide))
  · exact keepsForms_completeFlashWrite hk f _

/-- The data registers of an ethernet device hold no status (R13). -/
theorem not_isStatus_eth (hi : i ≠ 0) : ¬ IsStatus (some .eth) i := by simp [IsStatus, hi]

theorem keepsForms_completeEthReset (hk : s.kind sl = some .eth) : KeepsForms s (completeEthReset sl s) := by
  have ready := (KeepsForms.refl.mapBody (s := s) (sl := sl) (reshape_pktbuf [] _)).putStatus (h := .single)
    (w := codeReady) hk fun _ => .code _ (by decide)
  have armed := ((ready.mapBody (sl := sl) (reshape_clearOp .single _)).of_slots (State.irqRaise_slots _ sl)).armPoll sl
  exact armed.andThen (armed.of_slots (State.report_slots _ 0))

theorem keepsForms_completeReadNet (hk : s.kind sl = some .eth) : KeepsForms s (completeReadNet sl s) := by
  unfold completeReadNet
  simp only
  split
  · have length := (KeepsForms.refl.tape s.drawRecv_tape).setReg hk (not_isStatus_eth (i := 3) (by decide))
      (BitVec.ofInt 32 s.drawRecv.1.len)
    split
    · exact length.finish hk (.code _ (by decide))
    · split
      · exact length.finish hk (.code _ (by decide))
      · split <;>
          exact ((length.mapBody (reshape_pktbuf _ _)).dmaToMemN _ _ _).finish hk (.code _ (by decide))
  · exact KeepsForms.refl.finish hk (.code _ (by decide))

theorem keepsForms_completeWriteNet (hk : s.kind sl = some .eth) : KeepsForms s (completeWriteNet sl s) := by
  unfold completeWriteNet
  simp only
  split
  · exact KeepsForms.refl.finish hk (.code _ (by decide))
  · have read := KeepsForms.refl.tape (s.dmaFromMemN_spec (s.reg sl 2) (s.reg sl 3).toNat).2.1
    split
    · exact read.finish hk (.code _ (by decide))
    · have sent (c : NetCall) := (read.of_slots (State.callNet_slots _ c)).tape (State.drawSent_tape _)
      split <;> exact (sent _).finish hk (.code _ (by decide))

/-- The mode is stored without SETMAC (R1109). -/
theorem keepsForms_completeConfigure (hk : s.kind sl = some .eth) (e : Eth) :
    KeepsForms s (completeConfigure sl e s) := by
  have configured : ∀ (m : Byte) (mac : Mac), KeepsForms s
      (s.mapBody sl (onEth fun e => { e with mode := m &&& 0x7F#8, mac := mac })) := fun m mac =>
    KeepsForms.refl.mapBody (reshape_onEth fun _ _ => by simp)
  exact (((configured _ _).of_slots (State.callNet_slots _ _)).finish hk (.code _ (by decide))).armPoll sl

theorem keepsForms_completeEth {e : Eth} (hb : s.body sl = .eth e) : KeepsForms s (completeEth sl e s) := by
  have hk : s.kind sl = some .eth := congrArg DeviceBody.kind hb
  unfold completeEth
  split
  · exact KeepsForms.refl.of_slots rfl
  · exact keepsForms_completeEthReset hk
  · have data0 := KeepsForms.refl.setReg hk (not_isStatus_eth (i := 2) (by decide)) (confData0 e.mode e.mac)
    exact (data0.setReg hk (not_isStatus_eth (by decide)) _).finish hk (.code _ (by decide))
  · exact keepsForms_completeReadNet hk
  · exact keepsForms_completeWriteNet hk
  · exact keepsForms_completeConfigure hk e

/-! The poll, and the dispatch of any event. -/

/-- Latching READPENDING sets bit 7 beside the code (R1102, R1118). -/
theorem KeepsForms.latchPending (hs : KeepsForms s t) (hk : s.kind sl = some .eth) :
    KeepsForms s (latchPending sl t) := by
  refine (hs.putStatus hk (h := .single) fun hw => ?_).of_slots (State.irqRaise_slots _ sl)
  exact BitVec.or_comm _ _ ▸ hw.or_readPending (by decide)

theorem keepsForms_pollEth {e : Eth} (hb : s.body sl = .eth e) : KeepsForms s (pollEth sl e s) := by
  have hk : s.kind sl = some .eth := congrArg DeviceBody.kind hb
  have disarmed : KeepsForms s (s.mapBody sl (setPollArmed false)) := KeepsForms.refl.mapBody (reshape_setPollArmed _ _)
  have reported {t : State} (ht : KeepsForms s t) : KeepsForms s ((armPoll sl t).andThen fun s => s.report 0) :=
    (ht.armPoll sl).andThen ((ht.armPoll sl).of_slots (State.report_slots _ 0))
  unfold pollEth
  simp only
  split
  · exact disarmed.of_slots rfl
  · split
    · exact reported disarmed
    · have drawn := disarmed.tape (State.drawWaiting_tape _)
      split
      · exact (drawn.latchPending hk).of_slots rfl
      · exact reported drawn

/-- Every event keeps the forms (R407). -/
theorem dispatch_keepsForms (e : Event) (s : State) : KeepsForms s (dispatch e s) := by
  unfold dispatch
  split
  · next hb _ => exact keepsForms_completePrinter hb
  · next hb _ => exact keepsForms_completeTerminal hb
  · next hb _ => exact keepsForms_completeDisk hb
  · next hb _ => exact keepsForms_completeFlash hb
  · next hb _ => exact keepsForms_completeEth hb
  · next hb _ => exact keepsForms_pollEth hb
  · exact KeepsForms.refl.of_slots rfl

/-! A step. -/

theorem Change.keepsForms (hc : Change s u) : KeepsForms s u := by
  cases hc with
  | nothing => exact .refl
  | command i _ hi => exact exec_keepsForms hi
  | illegal p sl w _ hi =>
    rw [execIllegal_eq] at hi
    exact accept_keepsForms hi fun _ hk => KeepsForms.refl.failNow hk (by decide)
  | data sl k i v hk hw => exact KeepsForms.refl.setReg hk (not_isStatus_writable hw) v
  | input sl text =>
    unfold hostInput
    split
    · exact (KeepsForms.refl.mapBody (reshape_onTerminal _ _)).writeLog sl _
    · exact KeepsForms.refl.of_slots rfl
  | work sl b =>
    unfold toggleWork
    split
    · exact .refl
    · exact (KeepsForms.refl.setDev (formed_working b)).of_slots (u := (s.setWorking sl b).emit _) rfl
  | overflow _ => exact KeepsForms.refl.of_slots rfl
  | memory a bytes => exact KeepsForms.refl.of_slots rfl

theorem step_keepsForms (h : step s = .next t) : KeepsForms s t :=
  step_induct (P := KeepsForms s) (fun _ _ hp => hp.of_slots rfl) (fun _ _ hp => hp.of_slots rfl)
    (fun _ _ _ hc hp => hp.trans hc.keepsForms) (fun _ _ hp => hp.of_slots rfl)
    (fun u e rest _ _ _ hp =>
      (hp.of_slots (u := { u with queue := rest }) rfl).trans (dispatch_keepsForms e _)) h .refl

/-- With the heads over a cylinder of the disk, the key of a hit is no sentinel (R124, R902). -/
theorem Disk.HeadsForm.valid_of_hit {y : Disk} {head sect : BitVec 8} (hy : y.HeadsForm)
    (hhit : y.hit head sect = true) : y.cache.valid = true := by
  obtain ⟨hcyl, hcyls, -⟩ := hy
  have sector (x : BitVec 8) : (x.setWidth 32 : Word) ≠ maxU32 := by
    have := x.isLt
    unfold maxU32
    bv_omega
  have cylinder : y.curCyl ≠ maxU32 := by
    unfold maxU32
    bv_omega
  rw [beq_iff_eq.1 hhit]
  simp [DiskCache.valid, DiskCache.key, sector, cylinder]

/-- Settles O54: every change and every dispatch keeps the forms of every slot. -/
theorem stepKeepsRegisterForms : Obligations.StepKeepsRegisterForms := by
  intro s t h
  have forms := step_keepsForms h
  simp only [nullOk_iff, statusOk_iff, ethOk_iff, diskOk_iff]
  refine ⟨fun hs sl => (forms sl).null (hs sl), fun hs sl => (forms sl).status (hs sl),
    fun hs sl => (forms sl).mode (hs sl), fun hs => ?_⟩
  have heads : ∀ sl, (t.body sl).HeadsForm := fun sl => (forms sl).heads (hs sl)
  refine ⟨heads, fun sl d head sect hd hhit => ?_⟩
  have hheads := heads sl
  rw [hd] at hheads
  exact hheads.valid_of_hit hhit

end Sys2Proof.Machine
end

section
/-! PROOFS. The router and the ports: what a register write does, register by register, and the step that serves one
request of a running simulation. -/

namespace Sys2Proof.Machine

variable {s : State} {sl : Slot} {i : Fin 4} {k : DevKind} {v : Word}

/-! The write side of the router (R502 to R509). -/

theorem regWrite_null (hk : s.kind sl = none) : regWrite sl i v s = .next s := by
  simp [regWrite, hk]

theorem regWrite_busy (hk : s.kind sl = some k) (hb : s.busy sl (subOfIndex (some k) i) = true) :
    regWrite sl i v s = .next s := by
  simp [regWrite, hk, hb]

/-- A register that is neither a command register nor writable ignores what is written to it (R507). -/
theorem regWrite_ignored (hk : s.kind sl = some k) (hb : s.busy sl (subOfIndex (some k) i) = false)
    (hp : portAt k i = none) (hw : writable k i = false) : regWrite sl i v s = .next s := by
  simp [regWrite, hk, hb, hp, hw]

theorem regWrite_stored (hk : s.kind sl = some k) (hb : s.busy sl (subOfIndex (some k) i) = false)
    (hp : portAt k i = none) (hw : writable k i = true) : regWrite sl i v s = .next (s.setReg sl i v) := by
  simp [regWrite, hk, hb, hp, hw]

/-- A command register belongs to the sub-device it drives (R505). -/
theorem subOfIndex_portAt {p : Port} (hp : portAt k i = some p) : subOfIndex (some k) i = p.sub := by
  revert i
  cases k <;> cases p <;> decide

theorem regWrite_command {p : Port} (hk : s.kind sl = some k) (hp : portAt k i = some p)
    (hb : s.busy sl p.sub = false) : regWrite sl i v s = command p sl v s := by
  simp [regWrite, hk, subOfIndex_portAt hp, hb, hp]

theorem command_decoded {p : Port} {c : Instr} (hd : decode p sl v = .ok c) : command p sl v s = exec c s := by
  simp [command, hd]

/-- A command given to a busy sub-device is ignored (R504). -/
theorem exec_busy {c : Instr} (hf : s.fatal = none) (hk : s.kind c.slot = some c.port.kind)
    (hb : s.busy c.slot c.port.sub = true) : exec c s = .next s := by
  obtain ⟨run, hexec⟩ := exec_accepts c
  rw [hexec, State.accept_busy hf hk hb]

/-- Settles O8: which registers of which type are stored is read off the two tables of the router. -/
theorem registerWriteRouting : Obligations.RegisterWriteRouting := by
  intro s sl i v
  refine ⟨regWrite_null, fun c hf hk hb => exec_busy hf hk hb, fun k hk => ⟨regWrite_busy hk, fun hb => ?_⟩⟩
  refine ⟨?_, ?_, ?_, ?_, ?_⟩
  · rintro rfl
    exact regWrite_ignored hk hb (by cases k <;> rfl) (by cases k <;> rfl)
  · rintro rfl rfl
    exact regWrite_ignored hk hb rfl rfl
  · rintro rfl hterminal
    refine regWrite_stored hk hb (by cases k <;> rfl) ?_
    cases k with
    | terminal => exact absurd rfl hterminal
    | printer | disk | flash | eth => rfl
  · rintro rfl rfl
    exact regWrite_stored hk hb rfl rfl
  · rintro rfl heth hterminal
    cases k with
    | terminal => exact absurd rfl hterminal
    | eth => exact absurd rfl heth
    | printer | disk | flash => exact regWrite_ignored hk hb rfl rfl

/-! A step serves the next request of the script. -/

theorem step_serve {r : Request} {rest : List Request} (hf : s.fatal = none) (hs : s.script = r :: rest) :
    step s = serve r (s.taken rest) := by
  simp [step, fetchServe, hf, hs, State.taken]

/-- An aligned word access is not refused (R202). -/
theorem accessRefusal_aligned {off : BitVec 4} (ho : off.extractLsb' 0 2 = 0#2) : accessRefusal off .word = none := by
  simp [accessRefusal, ho]

theorem serve_store {off : BitVec 4} (ho : off.extractLsb' 0 2 = 0#2) :
    serve (.store sl off .word v) s = thenDo (regWrite sl (regIndex off) v s) settleStep := by
  simp [serve, doStore, accessRefusal_aligned ho]

theorem serve_load {off : BitVec 4} (ho : off.extractLsb' 0 2 = 0#2) :
    serve (.load sl off .word) s = .next (s.answer (.word (s.reg sl (regIndex off)))) := by
  simp [serve, doLoad, accessRefusal_aligned ho]

theorem serve_work {b : Bool} (hk : s.kind sl ≠ none) : serve (.work sl b) s = settleStep (toggleWork sl b s) := by
  obtain ⟨k, hk⟩ := Option.ne_none_iff_exists'.1 hk
  simp [serve, doWork, hk]

/-- Settles O6: the request reaches the router, and the router hands a command register's word to its decoder. -/
theorem stepRunsTheDecodedCommand : Obligations.StepRunsTheDecodedCommand := by
  intro s sl off w rest hf hs ho
  have hstep : step s = thenDo (regWrite sl (regIndex off) w (s.taken rest)) settleStep := by
    rw [step_serve hf hs, serve_store ho]
  refine ⟨hstep, fun k p i hk hp hb hd => ?_⟩
  rw [hstep, regWrite_command (s := s.taken rest) hk hp hb, command_decoded hd]
  rfl

/-! Reads. -/

/-- A bit of a bitmap word is the pending bit of the device of that number, or 0 (R1204). -/
theorem bitmap_getLsbD (s : State) (l : Line) (d : Fin 32) :
    ((s.pend[l.idx]).setWidth 32).getLsbD d.val =
      if h : d.val < 8 then s.pendBit { line := l, dev := ⟨d.val, h⟩ } else false := by
  rw [BitVec.getLsbD_setWidth, decide_eq_true d.isLt, Bool.true_and]
  split
  · rfl
  · next h => exact BitVec.getLsbD_of_ge _ _ (not_lt.1 h)

/-- Settles O9: a read is served by an answer, and an answer changes the reply only. -/
theorem readsAnswerAndChangeNothing : Obligations.ReadsAnswerAndChangeNothing := by
  intro s rest hf
  refine ⟨fun sl off hs ho => ⟨?_, fun hnull hk => hnull sl hk _⟩, fun hs => ?_,
    fun l hs => ⟨_, ?_, bitmap_getLsbD s l⟩, fun hs => ?_⟩
  · rw [step_serve hf hs, serve_load ho]
    rfl
  · have low : s.tod.setWidth 32 = BitVec.ofNat 32 (s.tod.toNat % 2 ^ 32) :=
      BitVec.eq_of_toNat_eq (by rw [BitVec.toNat_setWidth, BitVec.toNat_ofNat, Nat.mod_mod])
    rw [step_serve hf hs, ← low]
    rfl
  · rw [step_serve hf hs]
    rfl
  · rw [step_serve hf hs]
    rfl

/-! The host ports (R516, R815). -/

theorem toggleWork_same {b : Bool} (h : s.working sl = b) : toggleWork sl b s = s := if_pos h

theorem toggleWork_edge {b : Bool} (h : s.working sl ≠ b) :
    toggleWork sl b s = (s.setWorking sl b).emit (.conditionChanged b) := if_neg h

/-- What the host answers depends on no slot (log 5). -/
theorem State.mapBody_drawIo (s : State) (sl : Slot) (f : DeviceBody → DeviceBody) :
    (s.mapBody sl f).drawIo = (s.drawIo.1, s.drawIo.2.mapBody sl f) := by
  unfold State.drawIo
  rw [State.mapBody_cfg, State.mapBody_tape]
  split
  · rfl
  · split <;> rfl

theorem State.mapBody_mapBody (s : State) (sl : Slot) (f g : DeviceBody → DeviceBody) :
    (s.mapBody sl f).mapBody sl g = s.mapBody sl (g ∘ f) := by
  simp [State.mapBody, State.setDev_setDev]

/-- A terminal with a line of host input received and logged (R815). -/
def Terminal.receive (t : Terminal) (text : List Byte) : Terminal :=
  { t with rxbuf := t.rxbuf ++ text ++ [0x0A#8], log := t.log ++ text ++ [0x0A#8] }

/-- Input to a terminal whose log can be written is one change of its body, and a draw. -/
theorem hostInput_logged {t : Terminal} {text : List Byte} (hb : s.body sl = .terminal t) (hio : s.drawIo.1 = false) :
    hostInput sl text s =
      State.setDev { s with tape := s.drawIo.2.tape } sl { s.dev sl with body := .terminal (t.receive text) } := by
  have hb' : (s.dev sl).body = .terminal t := hb
  simp only [hostInput, hb]
  rw [(State.writeLog_spec _ sl _).2 (by rw [State.mapBody_drawIo, hio]), State.mapBody_drawIo]
  refine (State.mapBody_mapBody { s with tape := s.drawIo.2.tape } sl _ _).trans ?_
  simp [State.mapBody, tape_dev, hb', appendLog, onTerminal, Terminal.receive]

theorem hostInput_unlogged {t : Terminal} {text : List Byte} (hb : s.body sl = .terminal t) (hio : s.drawIo.1 = true) :
    (hostInput sl text s).fatal = some .logWriteFailed := by
  simp only [hostInput, hb]
  rw [(State.writeLog_spec _ sl _).1 (by rw [State.mapBody_drawIo, hio])]

theorem hostInput_other {text : List Byte} (hk : s.kind sl ≠ some .terminal) :
    hostInput sl text s = s.stop .inputToNonTerminal := by
  unfold hostInput
  split
  · next t hb => exact absurd (congrArg DeviceBody.kind hb) hk
  · rfl

/-- Settles O12: each port is its effect on one slot and then the drain of the step. -/
theorem hostPorts : Obligations.HostPorts := by
  intro s sl b text
  refine ⟨fun rest hf hs hk => ?_, fun rest hf hs => ?_, toggleWork_same, fun h => ?_, fun t hb hio hf => ?_,
    fun t => hostInput_unlogged, hostInput_other⟩
  · rw [step_serve hf hs, serve_work (s := s.taken rest) hk]
    rfl
  · rw [step_serve hf hs]
    rfl
  · rw [toggleWork_edge h]
    refine ⟨?_, rfl, rfl, rfl, ((calm_setWorking b).trans (calm_emit _)).others, ⟨fun _ => rfl, ⟨rfl, rfl⟩, rfl, rfl⟩⟩
    rw [State.emit_dev, State.setWorking_dev, if_pos rfl]
  · rw [hostInput_logged hb hio]
    exact ⟨State.dev_setDev_same .., hf, rfl,
      ⟨fun x hx => State.dev_setDev_other _ hx _, fun _ _ => rfl, rfl, rfl, rfl, rfl⟩,
      ⟨fun _ => rfl, ⟨rfl, rfl⟩, rfl, rfl⟩⟩

end Sys2Proof.Machine
end

section
/-! The block DMA in both directions (R601, R602). -/

namespace Sys2Proof.Machine

variable (s : State) (a : Word) (b : Block)

/-- R601: whatever the memory port answers, only the 4096 bytes of the range can change. -/
theorem State.dmaToMem_sameOutside : SameOutside s (s.dmaToMem a b).2 a 4096 := by
  obtain ⟨-, stored, hlength, -, hstate⟩ := s.dmaToMem_spec a b
  intro x hx
  rw [hstate]
  exact s.mem.writeBytes_outside a x stored (by rwa [hlength])

variable {s a}

/-- R204, R601: where the memory port accepts the range, memory holds the block. -/
theorem State.dmaToMem_holdsBlock (hm : s.mem.wf) (hok : (s.decodeFails a 4096).1 = false) :
    HoldsBlock (s.dmaToMem a b).2.mem a b := by
  obtain ⟨-, stored, -, haccepted, hstate⟩ := s.dmaToMem_spec a b
  rw [hstate, (haccepted hok).1]
  exact Memory.writeBytes_holdsBlock hm a b

/-- Where the memory port accepts the range, the only draw is the port's own answer (log 6). -/
theorem State.dmaToMem_tape (hok : (s.decodeFails a 4096).1 = false) :
    (s.dmaToMem a b).2.tape = (s.decodeFails a 4096).2.tape := by
  obtain ⟨-, stored, -, haccepted, -⟩ := s.dmaToMem_spec a b
  exact (haccepted hok).2

variable (s a)

/-- R601: a DMA to memory changes nothing but memory and the tape of host answers. -/
theorem State.dmaToMem_frame : { (s.dmaToMem a b).2 with mem := s.mem, tape := s.tape } = s := by
  obtain ⟨-, stored, -, -, hstate⟩ := s.dmaToMem_spec a b
  rw [hstate]

/-- Settles O45: the effect of each direction is what its spec lemma says, and a block that memory holds at an address
is the block read there. -/
theorem blockDma : Obligations.BlockDma := by
  intro s a b hm hb
  obtain ⟨hanswer, hlength, hstate, hread⟩ := s.dmaFromMem_spec a
  refine ⟨(s.dmaToMem_spec a b).1, s.dmaToMemN_wf a _ 4096 hm, s.dmaToMem_sameOutside a b, fun hok => ?stored,
    hanswer, hlength, by rw [hstate], fun hok => ?read, Memory.block_of_holds hb⟩
  case stored => exact ⟨State.dmaToMem_holdsBlock b hm hok, s.dmaToMem_frame a b, State.dmaToMem_tape b hok⟩
  case read =>
    rw [(hread hok).1]
    exact s.mem.block_holds a

end Sys2Proof.Machine
end

section
/-! PROOFS. Illegal op codes, and the printer: what its commands do when accepted, and what its completions leave. -/

namespace Sys2Proof.Machine

variable {s : State} {sl : Slot} {h : Sub} {body : DeviceBody} {p : Printer}

/-! Illegal op codes (R315). -/

/-- The command register of a port's sub-device is that port's. -/
theorem portAt_cmdIdx (p : Port) : portAt p.kind (cmdIdx p.sub) = some p := by
  cases p <;> rfl

theorem command_illegal {p : Port} {w : Word} (hop : p.opCount ≤ (opField w).toNat) :
    command p sl w s = execIllegal p sl w s := by
  rw [command, (illegalExactlyOutsideTheTable p sl w).2 hop]

/-- Only the ethernet device keeps a bit of its old status word (R514). -/
theorem mergeStatus_port (p : Port) (s : State) (sl : Slot) (c : Word) :
    mergeStatus (some p.kind) (s.reg sl (statusIdx p.sub)) c = if p = .eth then ethStatus s sl c else c := by
  cases p <;> rfl

/-- Settles O7: the router hands the word to its port, whose table does not list it, and the port fails at once. -/
theorem illegalCommandFailsAtOnce : Obligations.IllegalCommandFailsAtOnce := by
  intro p sl w s hf hk hb hop
  have hwrite : regWrite sl (cmdIdx p.sub) w s =
      s.accept p.kind sl p.sub w fun s => s.failNow sl p.sub codeIllegalOp := by
    rw [regWrite_command hk (portAt_cmdIdx p) hb, command_illegal hop, execIllegal_accepts]
  obtain ⟨t, ht, hfail⟩ := accepted_fail (s := s) (sl := sl) (h := p.sub) (w := w) (c := codeIllegalOp) id
    (run := fun s => s.failNow sl p.sub codeIllegalOp) (by rw [State.mapBody_id]) ⟨hf, rfl, hb⟩ hk rfl
  have hkind : (s.body sl).kind = some p.kind := hk
  rw [hkind, mergeStatus_port] at hfail
  exact ⟨t, hwrite.trans ht, hfail⟩

/-! The printer's commands (R701, R703, R704). -/

/-- A command that starts an operation of an idle printer for a number of microseconds, in time (R512). -/
theorem printer_started (o : PrinterOp) (micros : Nat) (w : Word) (hi : Idle s sl .single (.printer p))
    (hd : InTime s (micros * s.cfg.clockRate)) :
    ∃ t, (s.accept .printer sl .single w fun s =>
        s.beginOp sl .single (startPrinter o) (micros * s.cfg.clockRate)) = .next t ∧
      Started s t sl .single w codeBusy (.printer { p with op := some o }) false (micros * s.cfg.clockRate) :=
  accepted_begin id (startPrinter o) (by rw [State.mapBody_id]; rfl) hi rfl rfl hd

/-- Settles O16: RESET and PRNTCHR start an operation, ACK acknowledges, and the router ignores every write to a busy
printer. -/
theorem printerCommandsAccepted : Obligations.PrinterCommandsAccepted := by
  intro s sl ign p
  refine ⟨fun hb hbusy i v => ?busy, fun hi => ⟨fun hd => ?reset, ?ack, fun hd => ?print⟩⟩
  case busy => exact regWrite_busy (k := .printer) (congrArg DeviceBody.kind hb) hbusy
  case reset => exact printer_started .reset 40 _ hi hd
  case ack => exact accepted_ack (run := fun s => s.ackCmd sl .single) rfl hi rfl
  case print => exact printer_started .print 8 _ hi hd

/-! Completions. -/

/-- A completion that has drawn host answers and changed the body by `f` before it finishes: the status word, the body
without its operation and the request change, and nothing else (R513). -/
theorem completed_quiet (tape : HostTape) (f : DeviceBody → DeviceBody) (w : Word) (hs : s.fatal = none)
    (hb : s.body sl = body) :
    let t := (State.mapBody { s with tape := tape } sl f).finish sl h w
    Completed s t sl h (s.regsWith sl (statusIdx h) (mergeStatus (f body).kind (s.reg sl (statusIdx h)) w))
      (setIpend h true (clearOp h (f body))) [] ∧ Quiet s t tape := by
  have hdev (x : Slot) : (State.mapBody { s with tape := tape } sl f).dev x =
      if x = sl then { s.dev sl with body := f body } else s.dev x := by
    rw [State.mapBody_dev, ← hb]
    rfl
  refine ⟨completed_finish ((hdev sl).trans (if_pos rfl)) (fun x hx => (hdev x).trans (if_neg hx)) rfl
    (List.append_nil _).symm hs rfl rfl rfl rfl, ?_⟩
  constructor <;> simp [SameMemory, NoEvent]

/-! The printer's completions (R702, R705, R706). -/

theorem dispatch_printer (fire : Time) (n : Nat) (hb : s.body sl = .printer p) :
    dispatch (completion fire n sl) s = completePrinter sl p s := by
  simp [dispatch, completion, hb]

theorem completePrinter_reset (ho : p.op = some .reset) : completePrinter sl p s = s.finish sl .single codeReady := by
  simp [completePrinter, ho]

theorem completePrinter_print (ho : p.op = some .print) (hw : s.working sl = true) :
    completePrinter sl p s =
      (s.writeLog sl [printChar (s.reg sl 2)]).andThen fun s => s.finish sl .single codeReady := by
  simp [completePrinter, ho, hw]

theorem completePrinter_broken (ho : p.op = some .print) (hw : s.working sl = false) :
    completePrinter sl p s = s.finish sl .single codePrntErr := by
  simp [completePrinter, ho, hw]

/-- A printer that finishes with nothing logged. -/
theorem printer_finished (w : Word) (hs : s.fatal = none) (hb : s.body sl = .printer p) :
    Completed s (s.finish sl .single w) sl .single (s.regsWith sl 0 w) (.printer { p with op := none }) [] ∧
      Quiet s (s.finish sl .single w) s.tape := by
  have hfinish := completed_quiet (h := .single) s.tape id w hs hb
  rw [State.mapBody_id] at hfinish
  exact hfinish

/-- Settles O17: by the operation in progress, whether the printer works, and whether its log can be written. -/
theorem printerCompletions : Obligations.PrinterCompletions := by
  intro s sl p fire n hs hb
  obtain ⟨hfails, hlogged⟩ := s.writeLog_spec sl [printChar (s.reg sl 2)]
  simp only [dispatch_printer fire n hb]
  refine ⟨fun ho => ?reset, fun ho hw hio => ?printed, fun ho hw hio => ?unlogged, fun ho hw => ?broken⟩
  case reset =>
    rw [completePrinter_reset ho]
    exact printer_finished _ hs hb
  case printed =>
    rw [completePrinter_print ho hw, hlogged hio, State.andThen_running (by exact hs)]
    exact completed_quiet s.drawIo.2.tape _ _ hs hb
  case unlogged =>
    rw [completePrinter_print ho hw, hfails hio, State.andThen_stopped rfl]
    exact ⟨rfl, hb⟩
  case broken =>
    rw [completePrinter_broken ho hw]
    exact printer_finished _ hs hb

end Sys2Proof.Machine
end

section
/-! PROOFS. The terminal: what the commands of its halves do when accepted, which half an event completes, and what the
completions leave. -/

namespace Sys2Proof.Machine

variable {s : State} {sl : Slot} {h : Sub} {x : Terminal}

/-! The bodies of a terminal. -/

/-- R512, R814: a started operation is recorded in its half, whose request is withdrawn. -/
theorem begun_terminal (h : Sub) (o : HalfOp) (c : Time) (x : Terminal) :
    setCtime h c (startHalf h o (setIpend h false (.terminal x))) = .terminal (x.setHalf h ⟨some o, c, false⟩) := by
  cases h <;> rfl

/-- R513: a completed half is idle and raises its request. -/
theorem ended_terminal (h : Sub) (x : Terminal) :
    setIpend h true (clearOp h (.terminal x)) =
      .terminal (x.setHalf h { x.half h with op := none, ipend := true }) := by
  cases h <;> rfl

/-- R814: the request of one half says nothing of the other's. -/
theorem otherPending_setIpend (h : Sub) (v : Bool) (x : Terminal) :
    otherPending h (setIpend h v (.terminal x)) = (x.other h).ipend := by
  cases h <;> rfl

/-! The commands of a half (R802 to R804, R808 to R810). -/

/-- A command that starts an operation of an idle half for a number of microseconds, in time (R512). -/
theorem half_started (o : HalfOp) (micros : Nat) (w : Word) (hi : Idle s sl h (.terminal x))
    (hd : InTime s (micros * s.cfg.clockRate)) :
    ∃ t, (s.accept .terminal sl h w fun s => s.beginOp sl h (startHalf h o) (micros * s.cfg.clockRate)) = .next t ∧
      Started s t sl h w codeBusy
        (.terminal (x.setHalf h ⟨some o, s.fireTime (micros * s.cfg.clockRate), false⟩))
        ((x.other h).ipend && s.pendBit sl) (micros * s.cfg.clockRate) := by
  rw [← begun_terminal, ← otherPending_setIpend h false]
  exact accepted_begin id (startHalf h o) (by rw [State.mapBody_id]; rfl) hi rfl rfl hd

/-- The ACK of an idle half (R515, R814). -/
theorem half_acknowledged (w : Word) (hi : Idle s sl h (.terminal x)) :
    ∃ t, (s.accept .terminal sl h w fun s => s.ackCmd sl h) = .next t ∧
      Immediate s t sl h w codeReady (.terminal (x.setHalf h { x.half h with ipend := false }))
        ((x.other h).ipend && s.pendBit sl) := by
  rw [← otherPending_setIpend h false]
  exact accepted_ack rfl hi rfl

/-- Settles O18: RESET and RECVCHR start an operation of the receive half, ACK acknowledges its request. -/
theorem receiveCommandsAccepted : Obligations.ReceiveCommandsAccepted := fun _ _ _ _ hi =>
  ⟨half_started .reset 400 _ hi, half_acknowledged _ hi, half_started .char 80 _ hi⟩

/-- Settles O19: RESET and TRANCHR start an operation of the transmit half, ACK acknowledges its request. -/
theorem transmitCommandsAccepted : Obligations.TransmitCommandsAccepted := fun _ _ _ _ _ _ hi =>
  ⟨half_started .reset 400 _ hi, half_acknowledged _ hi, half_started .char 80 _ hi⟩

/-! The half an event completes (R813). -/

/-- The receive half is due when the transmit half is idle or not earlier. -/
theorem chooseHalf_rx {o : HalfOp} (ho : x.rx.op = some o)
    (hc : x.tx.op = none ∨ x.rx.ctime.toNat ≤ x.tx.ctime.toNat) : chooseHalf x = some .rx := by
  obtain htx | hle := hc
  · simp [chooseHalf, ho, htx]
  · have hlater : ¬ x.tx.ctime < x.rx.ctime := by
      rw [BitVec.lt_def]
      omega
    simp [chooseHalf, ho, hlater]

/-- The transmit half is due when the receive half is idle or strictly later. -/
theorem chooseHalf_tx {o : HalfOp} (ho : x.tx.op = some o)
    (hc : x.rx.op = none ∨ x.tx.ctime.toNat < x.rx.ctime.toNat) : chooseHalf x = some .tx := by
  obtain hrx | hlt := hc
  · simp [chooseHalf, ho, hrx]
  · cases hrx : x.rx.op with
    | none => simp [chooseHalf, ho, hrx]
    | some _ => simp [chooseHalf, ho, hrx, BitVec.lt_def, hlt]

theorem chooseHalf_idle (hrx : x.rx.op = none) (htx : x.tx.op = none) : chooseHalf x = none := by
  simp [chooseHalf, hrx, htx]

theorem dispatch_terminal (fire : Time) (n : Nat) (hb : s.body sl = .terminal x) :
    dispatch (completion fire n sl) s = completeTerminal sl x s := by
  simp [dispatch, completion, hb]

theorem completeTerminal_chosen (hc : chooseHalf x = some h) :
    completeTerminal sl x s = completeHalf sl x h s := by
  rw [completeTerminal, hc]

theorem completeTerminal_idle (hc : chooseHalf x = none) : completeTerminal sl x s = s.stop .invariant := by
  rw [completeTerminal, hc]

/-! The completions of a half (R805 to R807, R811, R817). -/

theorem completeHalf_reset (ho : (x.half h).op = some .reset) : completeHalf sl x h s = s.finish sl h codeReady := by
  simp [completeHalf, ho]

theorem completeHalf_rx_char (ho : x.rx.op = some .char) : completeHalf sl x .rx s = completeRecv sl x s := by
  simp [completeHalf, Terminal.half, ho]

theorem completeHalf_tx_char (ho : x.tx.op = some .char) : completeHalf sl x .tx s = completeTran sl s := by
  simp [completeHalf, Terminal.half, ho]

/-- A half that finishes after host answers were drawn and the terminal was changed by `f` (R513). -/
theorem half_finished_after (tape : HostTape) (f : Terminal → Terminal) (w : Word) (hs : s.fatal = none)
    (hb : s.body sl = .terminal x) :
    let t := (State.mapBody { s with tape := tape } sl (onTerminal f)).finish sl h w
    Completed s t sl h (s.regsWith sl (statusIdx h) w)
      (.terminal ((f x).setHalf h { (f x).half h with op := none, ipend := true })) [] ∧ Quiet s t tape := by
  rw [← ended_terminal]
  exact completed_quiet tape (onTerminal f) w hs hb

/-- A half that finishes with nothing else changed (R513). -/
theorem half_finished (w : Word) (hs : s.fatal = none) (hb : s.body sl = .terminal x) :
    Completed s (s.finish sl h w) sl h (s.regsWith sl (statusIdx h) w)
      (.terminal (x.setHalf h { x.half h with op := none, ipend := true })) [] ∧
      Quiet s (s.finish sl h w) s.tape := by
  have hfinish := completed_quiet (h := h) s.tape id w hs hb
  rw [State.mapBody_id] at hfinish
  rw [← ended_terminal]
  exact hfinish

/-- A signal sent before a completion stands first among the completion's signals (R520). -/
theorem Completed.of_emit {t : State} {g : Signal} {regs : Vector Word 4} {body : DeviceBody} {signals : List Signal}
    (hc : Completed (s.emit g) t sl h regs body signals) : Completed s t sl h regs body (g :: signals) where
  dev := hc.dev
  bit := hc.bit
  trace := by simpa using hc.trace
  returned := hc.returned
  running := hc.running
  others := ⟨hc.others.dev, hc.others.pend, hc.others.cfg, hc.others.tod, hc.others.script, hc.others.reply⟩

theorem Quiet.of_emit {t : State} {g : Signal} {tape : HostTape} (hq : Quiet (s.emit g) t tape) : Quiet s t tape :=
  ⟨hq.memory, hq.event, hq.net, hq.tape⟩

/-- Settles O20: the half chosen is the one that is due, and its RESET finishes with READY. -/
theorem terminalCompletionChoice : Obligations.TerminalCompletionChoice := by
  intro s sl x h fire n hs hb
  simp only [dispatch_terminal fire n hb]
  refine ⟨fun hne ho hdue => ?reset, fun hrx htx => ?idle⟩
  case reset =>
    have hchosen : chooseHalf x = some h := by
      cases h with
      | single => exact absurd rfl hne
      | rx => exact chooseHalf_rx ho (by simpa [Terminal.other] using hdue)
      | tx => exact chooseHalf_tx ho (by simpa [Terminal.other] using hdue)
    rw [completeTerminal_chosen hchosen, completeHalf_reset ho]
    exact half_finished _ hs hb
  case idle =>
    rw [completeTerminal_idle (chooseHalf_idle hrx htx)]
    rfl

/-! RECVCHR (R805, R806, R807). -/

/-- The event of an empty receive buffer is scheduled again, in time. -/
theorem completeRecv_empty (hbuf : x.rxbuf = []) (hs : s.fatal = none) (hd : InTime s (80 * s.cfg.clockRate)) :
    completeRecv sl x s =
      ((s.mapBody sl (setCtime .rx (s.fireTime (80 * s.cfg.clockRate)))).schedule sl .complete
        (80 * s.cfg.clockRate)).report 0 := by
  simp only [completeRecv, hbuf]
  rw [State.schedule_inTime sl .complete hd, State.andThen_running (by exact hs),
    State.schedule_inTime sl .complete (by exact hd)]
  rfl

theorem completeRecv_received {b : Byte} {rest : List Byte} (hbuf : x.rxbuf = b :: rest) (hw : s.working sl = true) :
    completeRecv sl x s =
      (s.mapBody sl (onTerminal fun t => { t with rxbuf := rest })).finish sl .rx (charStatus b codeReceived) := by
  simp [completeRecv, hbuf, hw]

theorem completeRecv_broken (hbuf : x.rxbuf ≠ []) (hw : s.working sl = false) :
    completeRecv sl x s = s.finish sl .rx codeRecvErr := by
  cases hx : x.rxbuf with
  | nil => exact absurd hx hbuf
  | cons b rest => simp [completeRecv, hx, hw]

/-- Settles O21: by whether a byte is waiting and the terminal works. -/
theorem receiveCompletion : Obligations.ReceiveCompletion := by
  intro s sl x fire n hs hb ho hdue
  simp only [dispatch_terminal fire n hb, completeTerminal_chosen (chooseHalf_rx ho hdue), completeHalf_rx_char ho]
  refine ⟨fun hbuf hd => ?empty, fun b rest hbuf hw => ?received, fun hbuf hw => ?broken⟩
  case empty =>
    have hb' : (s.dev sl).body = .terminal x := hb
    rw [completeRecv_empty hbuf hs hd, State.schedule_inTime sl .complete (by exact hd)]
    have hdev : ∀ y, (s.mapBody sl (setCtime .rx (s.fireTime (80 * s.cfg.clockRate)))).dev y = _ :=
      fun y => State.mapBody_dev s sl y _
    refine ⟨(hdev sl).trans ?_, ⟨rfl, rfl⟩, rfl, rfl, rfl, hs,
      ⟨fun y hy => (hdev y).trans (if_neg hy), fun _ _ => rfl, rfl, rfl, rfl, rfl⟩, fun _ => rfl, rfl, rfl⟩
    rw [if_pos rfl, hb']
    rfl
  case received =>
    rw [completeRecv_received hbuf hw]
    exact half_finished_after s.tape (fun t => { t with rxbuf := rest }) _ hs hb
  case broken =>
    rw [completeRecv_broken hbuf hw]
    exact half_finished _ hs hb

/-! TRANCHR (R811, R819). -/

theorem completeTran_logs (hw : s.working sl = true) :
    completeTran sl s = (s.writeLog sl [transChar (s.reg sl 3)]).andThen fun u =>
      (u.emit (.transmitted (transChar (s.reg sl 3)))).finish sl .tx
        (charStatus (transChar (s.reg sl 3)) codeTransmitted) := by
  simp [completeTran, hw]

theorem completeTran_broken (hw : s.working sl = false) :
    completeTran sl s = s.finish sl .tx (charStatus (transChar (s.reg sl 3)) codeTranErr) := by
  simp [completeTran, hw]

/-- A half that finishes after a log append and the signal for it. -/
theorem half_finished_logged (tape : HostTape) (b : Byte) (g : Signal) (w : Word) (hs : s.fatal = none)
    (hb : s.body sl = .terminal x) :
    let t := ((State.mapBody { s with tape := tape } sl (appendLog [b])).emit g).finish sl .tx w
    Completed s t sl .tx (s.regsWith sl 2 w)
      (.terminal { x with log := x.log ++ [b], tx := { x.tx with op := none, ipend := true } }) [g] ∧
      Quiet s t tape := by
  obtain ⟨hcompleted, hquiet⟩ :=
    completed_quiet (s := s.emit g) (h := .tx) tape (appendLog [b]) w (by exact hs) (by exact hb)
  exact ⟨hcompleted.of_emit, hquiet.of_emit⟩

/-- Settles O22: by whether the terminal works, and whether its log can be written. -/
theorem transmitCompletion : Obligations.TransmitCompletion := by
  intro s sl x fire n hs hb ho hdue
  obtain ⟨hfails, hlogged⟩ := s.writeLog_spec sl [transChar (s.reg sl 3)]
  simp only [dispatch_terminal fire n hb, completeTerminal_chosen (chooseHalf_tx ho hdue), completeHalf_tx_char ho]
  refine ⟨fun hw hio => ?transmitted, fun hw hio => ?unlogged, fun hw => ?broken⟩
  case transmitted =>
    rw [completeTran_logs hw, hlogged hio, State.andThen_running (by exact hs)]
    exact half_finished_logged s.drawIo.2.tape _ _ _ hs hb
  case unlogged =>
    rw [completeTran_logs hw, hfails hio, State.andThen_stopped rfl]
  case broken =>
    rw [completeTran_broken hw]
    exact half_finished _ hs hb

end Sys2Proof.Machine
end

section
/-! PROOFS. The caches, slot by slot: what an update of a slot has to respect so that a valid cache names what the
buffer holds, and that every command and every event does. -/

namespace Sys2Proof.Machine

variable {s t u : State} {sl : Slot} {h : Sub} {b : DeviceBody} {k : DevKind} {o : ByteOrder} {d : Disk} {f : Flash}
  {head sect : BitVec 8} {blk : BitVec 24}

/-! The invariant, slot by slot. -/

/-- The buffer of a disk holds the sector of a key, as the image has it (R911). -/
def Disk.Holds (o : ByteOrder) (d : Disk) (c : DiskCache) : Prop :=
  d.buf = d.image.blockAt o (d.offBytes c.cyl.toNat c.head.toNat c.sect.toNat)

/-- The buffer of a flash holds the block of a key, as the image has it (R1011). -/
def Flash.Holds (o : ByteOrder) (f : Flash) (c : Word) : Prop :=
  f.buf = f.image.blockAt o ((f.dataOff + c.toNat * 1024) * 4)

/-- A valid cache names what the buffer holds (R913, R1008). -/
def DeviceBody.CacheForm (o : ByteOrder) : DeviceBody → Prop
  | .disk d => d.cache.valid = true → d.Holds o d.cache
  | .flash f => f.cacheValid = true → f.Holds o f.cacheBlk
  | _ => True

/-- A read in progress that was accepted as a hit is one of what is cached (R902, R1002). -/
def DeviceBody.HitForm : DeviceBody → Prop
  | .disk d => ∀ head sect, d.op = some (.read head sect true) → d.hit head sect = true
  | .flash f => ∀ blk, f.op = some (.read blk true) → f.hit blk = true
  | _ => True

/-- The cache of one slot is coherent. -/
structure CacheAt (s : State) (sl : Slot) : Prop where
  cache : (s.body sl).CacheForm s.cfg.imageByteOrder
  hit : (s.body sl).HitForm

theorem cacheOk_iff : CacheOk s ↔ ∀ sl, CacheAt s sl := by
  refine ⟨fun ⟨hdisk, hflash⟩ sl => ?_, fun hs => ⟨fun sl d hd => ?_, fun sl f hf => ?_⟩⟩
  · cases hb : s.body sl with
    | disk d => exact ⟨hb ▸ (hdisk sl d hb).1, hb ▸ (hdisk sl d hb).2⟩
    | flash f => exact ⟨hb ▸ (hflash sl f hb).1, hb ▸ (hflash sl f hb).2⟩
    | null | printer _ | terminal _ | eth _ => constructor <;> (rw [hb]; trivial)
  · obtain ⟨hcache, hhit⟩ := hs sl
    rw [hd] at hcache hhit
    exact ⟨hcache, hhit⟩
  · obtain ⟨hcache, hhit⟩ := hs sl
    rw [hf] at hcache hhit
    exact ⟨hcache, hhit⟩

/-- Only disks and flashes have a cache. -/
theorem cacheAt_of_kind {k : Option DevKind} (hk : s.kind sl = k) (hdisk : k ≠ some .disk) (hflash : k ≠ some .flash) :
    CacheAt s sl := by
  subst hk
  rw [State.kind_eq, ← State.body_eq] at hdisk hflash
  cases hb : s.body sl with
  | disk d => exact absurd (congrArg DeviceBody.kind hb) hdisk
  | flash f => exact absurd (congrArg DeviceBody.kind hb) hflash
  | null | printer _ | terminal _ | eth _ => constructor <;> (rw [hb]; trivial)

theorem CacheAt.of_body (hs : CacheAt s sl) (hc : t.cfg = s.cfg) (hb : t.body sl = s.body sl) : CacheAt t sl :=
  ⟨hc ▸ hb ▸ hs.cache, hb ▸ hs.hit⟩

/-- The caches are read from the bodies and the byte order alone. -/
theorem CacheOk.of_body (hs : CacheOk s) (hc : t.cfg = s.cfg) (hb : ∀ x, t.body x = s.body x) : CacheOk t :=
  cacheOk_iff.2 fun x => (cacheOk_iff.1 hs x).of_body hc (hb x)

/-- A change of one slot keeps every cache when it keeps the slot's. -/
theorem Local.cacheOk {P : Nat → Prop} (hl : Local sl P s t) (hs : CacheOk s) (ht : CacheAt t sl) : CacheOk t := by
  rw [cacheOk_iff] at hs ⊢
  intro x
  by_cases hx : x = sl
  · exact hx ▸ ht
  · exact (hs x).of_body hl.others.cfg (congrArg Device.body (hl.others.dev x hx))

/-! The shared operations. -/

theorem State.ackIrq_body (s : State) (sl : Slot) (h : Sub) :
    (s.ackIrq sl h).body sl = setIpend h false (s.body sl) := by
  rw [State.body_eq, State.ackIrq_dev, if_pos rfl]
  rfl

/-- A terminal has no cache, and a change of a terminal changes no other body. -/
theorem CacheAt.mapTerminal (hs : CacheAt s sl) (g : Terminal → Terminal) :
    CacheAt (s.mapBody sl (onTerminal g)) sl := by
  obtain ⟨hcache, hhit⟩ := hs
  constructor
  · rw [State.mapBody_body, if_pos rfl, State.mapBody_cfg]
    revert hcache
    cases s.body sl <;> exact id
  · rw [State.mapBody_body, if_pos rfl]
    revert hhit
    cases s.body sl <;> exact id

theorem CacheAt.setStatus (hs : CacheAt s sl) (w : Word) : CacheAt (s.setStatus sl h w) sl :=
  hs.of_body rfl (State.putStatus_body ..)

theorem CacheAt.ackIrq (hs : CacheAt s sl) (h : Sub) : CacheAt (s.ackIrq sl h) sl :=
  (hs.mapTerminal fun t => t.setHalf h { t.half h with ipend := false }).of_body (calm_ackIrq h).others.cfg
    ((s.ackIrq_body sl h).trans (by rw [State.mapBody_body, if_pos rfl]; rfl))

theorem CacheAt.raiseIrq (hs : CacheAt s sl) (h : Sub) : CacheAt (s.raiseIrq sl h) sl :=
  (hs.mapTerminal fun t => t.setHalf h { t.half h with ipend := true }).of_body rfl rfl

theorem CacheAt.ackCmd (hs : CacheAt s sl) (h : Sub) : CacheAt (s.ackCmd sl h) sl := (hs.ackIrq h).setStatus _

theorem CacheAt.failNow (hs : CacheAt s sl) (h : Sub) (c : Word) : CacheAt (s.failNow sl h c) sl :=
  (hs.setStatus c).raiseIrq h

/-- The end of an operation ends every hit (R513). -/
theorem cacheAt_finish (hs : (s.body sl).CacheForm s.cfg.imageByteOrder) (w : Word) : CacheAt (s.finish sl h w) sl := by
  have ended : CacheAt ((s.setStatus sl h w).mapBody sl (clearOp h)) sl := by
    constructor <;> rw [State.mapBody_body, if_pos rfl, State.setStatus, State.putStatus_body]
    · revert hs
      cases s.body sl <;> exact id
    · cases s.body sl with
      | disk d => exact fun _ _ ho => nomatch ho
      | flash f => exact fun _ ho => nomatch ho
      | null | printer _ | terminal _ | eth _ => trivial
  exact (ended.raiseIrq h).of_body rfl rfl

/-- A started operation is recorded, whether its completion can be scheduled or not (R403, R512). -/
theorem cacheAt_beginOp {record : DeviceBody → DeviceBody}
    (hcache : (record (setIpend h false (s.body sl))).CacheForm s.cfg.imageByteOrder)
    (hhit : (record (setIpend h false (s.body sl))).HitForm) (delta : Nat) :
    CacheAt (s.beginOp sl h record delta) sl := by
  have recorded : CacheAt (((s.ackIrq sl h).setStatus sl h codeBusy).mapBody sl record) sl := by
    constructor <;> rw [State.mapBody_body, if_pos rfl, State.setStatus, State.putStatus_body, State.ackIrq_body]
    · rw [State.mapBody_cfg, State.putStatus_cfg, (calm_ackIrq (sl := sl) h).others.cfg]
      exact hcache
    · exact hhit
  have scheduled : CacheAt ((((s.ackIrq sl h).setStatus sl h codeBusy).mapBody sl record).schedule sl .complete delta)
      sl := by
    unfold State.schedule
    split <;> exact recorded.of_body rfl rfl
  unfold State.beginOp State.andThen
  split
  · exact scheduled.mapTerminal _
  · exact scheduled

/-! Disks and flashes, and the start of their operations. -/

/-- The body a change of a disk leaves. -/
theorem State.mapBody_disk (hb : s.body sl = .disk d) (g : Disk → Disk) :
    (s.mapBody sl (onDisk g)).body sl = .disk (g d) := by
  rw [State.mapBody_body, if_pos rfl, hb]
  rfl

theorem State.mapBody_flash (hb : s.body sl = .flash f) (g : Flash → Flash) :
    (s.mapBody sl (onFlash g)).body sl = .flash (g f) := by
  rw [State.mapBody_body, if_pos rfl, hb]
  rfl

/-- An invalid cache names nothing (R124). -/
theorem cacheForm_invalid (hd : d.cache = .invalid) : (DeviceBody.disk d).CacheForm o := by
  intro hvalid
  rw [hd] at hvalid
  exact absurd hvalid (by decide)

theorem cacheForm_unkeyed (hf : f.cacheBlk = maxU32) : (DeviceBody.flash f).CacheForm o := by
  intro hvalid
  rw [Flash.cacheValid, hf] at hvalid
  exact absurd hvalid (by decide)

/-- A disk at rest has no hit in progress. -/
theorem cacheAt_idleDisk (hb : s.body sl = .disk d) (hop : d.op = none)
    (hc : (DeviceBody.disk d).CacheForm s.cfg.imageByteOrder) : CacheAt s sl := by
  refine ⟨hb ▸ hc, ?_⟩
  rw [hb]
  exact fun _ _ ho => nomatch hop.symm.trans ho

theorem cacheAt_idleFlash (hb : s.body sl = .flash f) (hop : f.op = none)
    (hc : (DeviceBody.flash f).CacheForm s.cfg.imageByteOrder) : CacheAt s sl := by
  refine ⟨hb ▸ hc, ?_⟩
  rw [hb]
  exact fun _ ho => nomatch hop.symm.trans ho

/-- An operation that starts leaves the cache; a hit has to be one of it (R512, R902). -/
theorem cacheAt_startDisk {op : DiskOp} (hb : s.body sl = .disk d)
    (hc : (DeviceBody.disk d).CacheForm s.cfg.imageByteOrder)
    (hhit : ∀ head sect, op = .read head sect true → d.hit head sect = true) (delta : Nat) :
    CacheAt (s.beginOp sl .single (startDisk op) delta) sl := by
  refine cacheAt_beginOp ?_ ?_ delta <;> rw [hb]
  · exact hc
  · exact fun head sect ho => hhit head sect (Option.some.inj ho)

theorem cacheAt_startFlash {op : FlashOp} (hb : s.body sl = .flash f)
    (hc : (DeviceBody.flash f).CacheForm s.cfg.imageByteOrder)
    (hhit : ∀ blk, op = .read blk true → f.hit blk = true) (delta : Nat) :
    CacheAt (s.beginOp sl .single (startFlash op) delta) sl := by
  refine cacheAt_beginOp ?_ ?_ delta <;> rw [hb]
  · exact hc
  · exact fun blk ho => hhit blk (Option.some.inj ho)

theorem cacheAt_beginRotational {op : DiskOp} (hb : s.body sl = .disk d) (hop : d.op = none)
    (hc : (DeviceBody.disk d).CacheForm s.cfg.imageByteOrder)
    (hmiss : ∀ head sect, op ≠ .read head sect true) (y : Disk) (x : BitVec 8) :
    CacheAt (beginRotational sl y x op s) sl := by
  unfold beginRotational
  split
  · exact (cacheAt_idleDisk hb hop hc).of_body rfl rfl
  · exact cacheAt_startDisk hb hc (fun head sect ho => absurd ho (hmiss head sect)) _

/-! Disk commands. -/

/-- A run that keeps the cache of a slot of the type, at rest. -/
def RunKeepsCache (k : DevKind) (sl : Slot) (run : State → State) : Prop :=
  ∀ s, (s.body sl).kind = some k → (s.body sl).opActive .single = false → CacheAt s sl → CacheAt (run s) sl

theorem runKeepsCache_ackCmd : RunKeepsCache k sl fun s => s.ackCmd sl .single := fun _ _ _ hs => hs.ackCmd _

theorem runKeepsCache_diskReset : RunKeepsCache .disk sl (diskResetAccept sl) := by
  intro s _ _ hs
  unfold diskResetAccept
  split
  · next d hb => exact cacheAt_startDisk (State.mapBody_disk hb _) (cacheForm_invalid rfl) (by simp) _
  · exact hs

theorem runKeepsCache_diskSeek (cyl : BitVec 16) : RunKeepsCache .disk sl (diskSeekAccept sl cyl) := by
  intro s _ _ hs
  unfold diskSeekAccept
  split
  · next d hb =>
    split
    · exact cacheAt_startDisk hb (hb ▸ hs.cache) (by simp) _
    · exact hs.failNow _ _
  · exact hs

/-- The operation of a disk at rest. -/
theorem disk_op_none (hop : (s.body sl).opActive .single = false) (hb : s.body sl = .disk d) : d.op = none := by
  rw [hb] at hop
  exact Option.isSome_eq_false_iff.1 hop |> Option.isNone_iff_eq_none.1

theorem flash_op_none (hop : (s.body sl).opActive .single = false) (hb : s.body sl = .flash f) : f.op = none := by
  rw [hb] at hop
  exact Option.isSome_eq_false_iff.1 hop |> Option.isNone_iff_eq_none.1

/-- A disk at rest whose cache has been made invalid, and which fails at once. -/
theorem cacheAt_failInvalid (hb : s.body sl = .disk d) (hop : d.op = none) (hc : d.cache = .invalid) (c : Word) :
    CacheAt (s.failNow sl .single c) sl :=
  (cacheAt_idleDisk hb hop (cacheForm_invalid hc)).failNow _ c

theorem cacheAt_failUnkeyed (hb : s.body sl = .flash f) (hop : f.op = none) (hc : f.cacheBlk = maxU32) (c : Word) :
    CacheAt (s.failNow sl .single c) sl :=
  (cacheAt_idleFlash hb hop (cacheForm_unkeyed hc)).failNow _ c

theorem runKeepsCache_diskRead (head sect : BitVec 8) : RunKeepsCache .disk sl (diskReadAccept sl head sect) := by
  intro s _ hop hs
  unfold diskReadAccept
  split
  · next d hb =>
    have idle := disk_op_none hop hb
    split
    · exact cacheAt_failInvalid (State.mapBody_disk hb _) idle rfl _
    · split
      · next hhit =>
        refine cacheAt_startDisk hb (hb ▸ hs.cache) (fun head' sect' e => ?_) _
        cases e
        exact hhit
      · exact cacheAt_beginRotational hb idle (hb ▸ hs.cache) (by simp) _ _
  · exact hs

/-- The body of a disk after the transfer of a WRITEBLK into its buffer, failed or not (R602). -/
theorem diskFill_body (hb : s.body sl = .disk d) (a : Word) :
    ((s.dmaFromMem a).2.2.mapBody sl (setDiskBuf (s.dmaFromMem a).2.1)).body sl =
      .disk { d with buf := (s.dmaFromMem a).2.1 } :=
  State.mapBody_disk ((congrArg (State.body · sl) (s.dmaFromMem_spec a).2.2.1).trans hb) _

theorem flashFill_body (hb : s.body sl = .flash f) (a : Word) :
    ((s.dmaFromMem a).2.2.mapBody sl (setFlashBuf (s.dmaFromMem a).2.1)).body sl =
      .flash { f with buf := (s.dmaFromMem a).2.1 } :=
  State.mapBody_flash ((congrArg (State.body · sl) (s.dmaFromMem_spec a).2.2.1).trans hb) _

/-- A WRITEBLK makes the cache invalid before it fills the buffer (R914). -/
theorem runKeepsCache_diskWrite (head sect : BitVec 8) : RunKeepsCache .disk sl (diskWriteAccept sl head sect) := by
  intro s _ hop hs
  unfold diskWriteAccept
  split
  · next d hb =>
    have idle := disk_op_none hop hb
    have invalid : (s.mapBody sl (setDiskCache .invalid)).body sl = .disk { d with cache := .invalid } :=
      State.mapBody_disk hb _
    have filled := diskFill_body invalid ((s.mapBody sl (setDiskCache .invalid)).reg sl 2)
    simp only
    split
    · exact cacheAt_failInvalid invalid idle rfl _
    · split
      · exact cacheAt_failInvalid filled idle rfl _
      · exact cacheAt_beginRotational filled idle (cacheForm_invalid rfl) (by simp) _ _
  · exact hs

/-! Flash commands. -/

theorem runKeepsCache_flashReset : RunKeepsCache .flash sl (flashResetAccept sl) := by
  intro s hk _ _
  unfold flashResetAccept
  cases hb : s.body sl with
  | flash f => exact cacheAt_startFlash (State.mapBody_flash hb _) (cacheForm_unkeyed rfl) (by simp) _
  | null | printer _ | terminal _ | disk _ | eth _ => rw [hb] at hk; nomatch hk

theorem runKeepsCache_flashRead (blk : BitVec 24) : RunKeepsCache .flash sl (flashReadAccept sl blk) := by
  intro s _ hop hs
  unfold flashReadAccept
  split
  · next f hb =>
    have cached : (DeviceBody.flash f).CacheForm s.cfg.imageByteOrder := hb ▸ hs.cache
    have idle := flash_op_none hop hb
    split
    · exact cacheAt_failUnkeyed (State.mapBody_flash hb _) idle rfl _
    · split
      · next hhit =>
        refine cacheAt_startFlash hb cached (fun blk' e => ?_) _
        cases e
        exact hhit
      · exact cacheAt_startFlash hb cached (by simp) _
  · exact hs

/-- A WRITEBLK makes the cache invalid before it fills the buffer (R1009). -/
theorem runKeepsCache_flashWrite (blk : BitVec 24) : RunKeepsCache .flash sl (flashWriteAccept sl blk) := by
  intro s _ hop hs
  unfold flashWriteAccept
  split
  · next f hb =>
    have idle := flash_op_none hop hb
    have invalid : (s.mapBody sl (setFlashCache maxU32)).body sl = .flash { f with cacheBlk := maxU32 } :=
      State.mapBody_flash hb _
    have filled := flashFill_body invalid ((s.mapBody sl (setFlashCache maxU32)).reg sl 2)
    simp only
    split
    · exact cacheAt_failUnkeyed invalid idle rfl _
    · split
      · exact cacheAt_failUnkeyed filled idle rfl _
      · exact cacheAt_startFlash filled (cacheForm_unkeyed rfl) (by simp) _
  · exact hs

/-! Acceptance. -/

/-- A sub-device that accepts a command has no operation in progress (R131, R504). -/
theorem opActive_of_idle (hb : BusyWith [] s) (hh : h ∈ (s.body sl).subs) (hidle : s.busy sl h = false) :
    (s.body sl).opActive h = false := ((hb sl).1 h hh).symm.trans hidle

theorem accept_cacheAt {w : Word} {run : State → State} (hk : Sub.single ∈ subsOf (some k))
    (hrun : RunKeepsCache k sl run) (ha : s.accept k sl .single w run = .next t) (hb : BusyWith [] s)
    (hs : CacheAt s sl) : CacheAt t sl := by
  obtain ⟨-, hkind, ⟨-, rfl⟩ | ⟨hidle, rfl⟩⟩ := State.accept_next ha
  · exact hs
  · have hkind : (s.body sl).kind = some k := hkind
    have hbody : (s.setReg sl (cmdIdx .single) w).body sl = s.body sl := State.setReg_body ..
    have atRest := opActive_of_idle hb (by rwa [subs_eq, hkind]) hidle
    exact hrun _ (hbody ▸ hkind) (hbody ▸ atRest) (hs.of_body rfl hbody)

/-- Every command keeps the cache of its slot. -/
theorem exec_cacheAt {i : Instr} (hi : exec i s = .next t) (hb : BusyWith [] s) (hs : CacheAt s i.slot) :
    CacheAt t i.slot := by
  have hkind : t.kind i.slot = some i.port.kind := by
    obtain ⟨run, hexec⟩ := exec_accepts i
    rw [(local_exec i hi).kind, (State.accept_next (hexec s ▸ hi)).2.1]
  cases i with
  | diskReset => exact accept_cacheAt (by decide) runKeepsCache_diskReset hi hb hs
  | diskSeekcyl => exact accept_cacheAt (by decide) (runKeepsCache_diskSeek _) hi hb hs
  | diskReadblk => exact accept_cacheAt (by decide) (runKeepsCache_diskRead _ _) hi hb hs
  | diskWriteblk => exact accept_cacheAt (by decide) (runKeepsCache_diskWrite _ _) hi hb hs
  | flashReset => exact accept_cacheAt (by decide) runKeepsCache_flashReset hi hb hs
  | flashReadblk => exact accept_cacheAt (by decide) (runKeepsCache_flashRead _) hi hb hs
  | flashWriteblk => exact accept_cacheAt (by decide) (runKeepsCache_flashWrite _) hi hb hs
  | diskAck | flashAck => exact accept_cacheAt (by decide) runKeepsCache_ackCmd hi hb hs
  | printerReset | printerAck | printerPrntchr | termRxReset | termRxAck | termRxRecvchr | termTxReset | termTxAck
  | termTxTranchr | ethReset | ethAck | ethReadconf | ethReadnet | ethWritenet | ethConfigure =>
    exact cacheAt_of_kind hkind nofun nofun

/-! Completions. -/

/-- A completion that has left a disk with its buffer holding what a valid cache names (R513). -/
theorem cacheAt_finishDisk (hb : s.body sl = .disk d) (hc : (DeviceBody.disk d).CacheForm s.cfg.imageByteOrder)
    (w : Word) : CacheAt (s.finish sl .single w) sl := cacheAt_finish (hb ▸ hc) w

theorem cacheAt_finishFlash (hb : s.body sl = .flash f) (hc : (DeviceBody.flash f).CacheForm s.cfg.imageByteOrder)
    (w : Word) : CacheAt (s.finish sl .single w) sl := cacheAt_finish (hb ▸ hc) w

theorem State.dmaToMem_body (s : State) (sl : Slot) (a : Word) (blk : Block) :
    (s.dmaToMem a blk).2.body sl = s.body sl := by
  obtain ⟨-, stored, -, -, e⟩ := s.dmaToMem_spec a blk
  rw [e]
  rfl

theorem State.dmaToMem_cfg (s : State) (a : Word) (blk : Block) : (s.dmaToMem a blk).2.cfg = s.cfg := by
  obtain ⟨-, stored, -, -, e⟩ := s.dmaToMem_spec a blk
  rw [e]

/-- The end of READBLK caches the sector the buffer holds (R913). -/
theorem cacheAt_diskDeliver {y : Disk} (hb : s.body sl = .disk d)
    (hd : (DiskCache.key y.curCyl head sect).valid = true →
      d.Holds s.cfg.imageByteOrder (DiskCache.key y.curCyl head sect)) :
    CacheAt (diskDeliver sl y head sect s) sl := by
  have hdma : (s.dmaToMem (s.reg sl 2) (diskBuf (s.body sl))).2.body sl = .disk d :=
    (State.dmaToMem_body ..).trans hb
  unfold diskDeliver
  simp only
  split
  · exact cacheAt_finishDisk (State.mapBody_disk hdma _) (cacheForm_invalid rfl) _
  · exact cacheAt_finishDisk (State.mapBody_disk hdma _) (by rw [State.mapBody_cfg, State.dmaToMem_cfg]; exact hd) _

theorem cacheAt_flashDeliver (hb : s.body sl = .flash f)
    (hf : f.Holds s.cfg.imageByteOrder (blk.setWidth 32)) : CacheAt (flashDeliver sl blk s) sl := by
  have hdma : (s.dmaToMem (s.reg sl 2) (flashBuf (s.body sl))).2.body sl = .flash f :=
    (State.dmaToMem_body ..).trans hb
  unfold flashDeliver
  simp only
  split
  · exact cacheAt_finishFlash (State.mapBody_flash hdma _) (cacheForm_unkeyed rfl) _
  · exact cacheAt_finishFlash (State.mapBody_flash hdma _)
      (by rw [State.mapBody_cfg, State.dmaToMem_cfg]; exact fun _ => hf) _

/-- The bits of a sector's key are those of the command's fields (R902). -/
theorem DiskCache.key_toNat (c : Word) (head sect : BitVec 8) :
    (DiskCache.key c head sect).head.toNat = head.toNat ∧ (DiskCache.key c head sect).sect.toNat = sect.toNat :=
  ⟨BitVec.toNat_setWidth_of_le (by decide), BitVec.toNat_setWidth_of_le (by decide)⟩

/-- The sector of a command, as the image of a disk has it (R911). -/
def Disk.sector (o : ByteOrder) (d : Disk) (head sect : BitVec 8) : Block :=
  d.image.blockAt o (d.offBytes d.curCyl.toNat head.toNat sect.toNat)

/-- The block of a command, as the image of a flash has it (R1011). -/
def Flash.block (o : ByteOrder) (f : Flash) (blk : BitVec 24) : Block := f.image.blockAt o (f.offBytes blk)

/-- A disk whose buffer is the sector of a command holds the sector the command's key names. -/
theorem Disk.holds_key (hd : d.buf = d.sector o head sect) : d.Holds o (DiskCache.key d.curCyl head sect) := by
  obtain ⟨hhead, hsect⟩ := DiskCache.key_toNat d.curCyl head sect
  rw [Disk.Holds, hhead, hsect]
  exact hd

theorem Flash.holds_key (hf : f.buf = f.block o blk) : f.Holds o (blk.setWidth 32) := by
  rw [Flash.Holds, BitVec.toNat_setWidth_of_le (by decide)]
  exact hf

/-- A miss fills the buffer with the sector, or is fatal and changes no body (R913). -/
theorem diskLoad_body (hb : s.body sl = .disk d) (head sect : BitVec 8) :
    (∃ r, (diskLoad sl d head sect s).fatal = some r ∧ (diskLoad sl d head sect s).body sl = s.body sl) ∨
      (diskLoad sl d head sect s).fatal = s.fatal ∧
        (diskLoad sl d head sect s).body sl = .disk { d with buf := d.sector s.cfg.imageByteOrder head sect } := by
  obtain ⟨htape, hblk⟩ := s.fileRead_spec d.image (d.offBytes d.curCyl.toNat head.toNat sect.toNat)
  have hread := congrArg (State.body · sl) htape
  unfold diskLoad
  simp only
  split
  · exact .inl ⟨_, rfl, hread⟩
  · next b hsome =>
    rw [Disk.sector, ← hblk b hsome]
    exact .inr ⟨by rw [State.mapBody_fatal, htape], State.mapBody_disk (hread.trans hb) _⟩

theorem flashLoad_body (hb : s.body sl = .flash f) (blk : BitVec 24) :
    (∃ r, (flashLoad sl f blk s).fatal = some r ∧ (flashLoad sl f blk s).body sl = s.body sl) ∨
      (flashLoad sl f blk s).fatal = s.fatal ∧
        (flashLoad sl f blk s).body sl = .flash { f with buf := f.block s.cfg.imageByteOrder blk } := by
  obtain ⟨htape, hblk⟩ := s.fileRead_spec f.image (f.offBytes blk)
  have hread := congrArg (State.body · sl) htape
  unfold flashLoad
  simp only
  split
  · exact .inl ⟨_, rfl, hread⟩
  · next b hsome =>
    rw [Flash.block, ← hblk b hsome]
    exact .inr ⟨by rw [State.mapBody_fatal, htape], State.mapBody_flash (hread.trans hb) _⟩

/-- The sector of a command does not depend on what the buffer holds. -/
theorem Disk.sector_withBuf (o : ByteOrder) (d : Disk) (buf : Block) (head sect : BitVec 8) :
    Disk.sector o { d with buf := buf } head sect = d.sector o head sect := rfl

theorem Flash.block_withBuf (o : ByteOrder) (f : Flash) (buf : Block) (blk : BitVec 24) :
    Flash.block o { f with buf := buf } blk = f.block o blk := rfl

theorem Disk.holds_loaded {buf : Block} (hbuf : buf = d.sector o head sect) :
    Disk.Holds o { d with buf := buf } (DiskCache.key d.curCyl head sect) :=
  Disk.holds_key (hbuf.trans (d.sector_withBuf o buf head sect).symm)

theorem Flash.holds_loaded {buf : Block} (hbuf : buf = f.block o blk) :
    Flash.Holds o { f with buf := buf } (blk.setWidth 32) :=
  Flash.holds_key (hbuf.trans (f.block_withBuf o buf blk).symm)

/-- A block's number is no sentinel, so a hit has a valid cache (R124, R1002). -/
theorem Flash.valid_of_hit (hf : f.hit blk = true) : f.cacheValid = true := by
  have hblk := blk.isLt
  have hkey : f.cacheBlk = blk.setWidth 32 := beq_iff_eq.1 hf
  rw [Flash.cacheValid, hkey, bne_iff_ne, maxU32]
  bv_omega

/-- A hit delivers what the cache names; a miss reads it first (R913). -/
theorem cacheAt_completeDiskRead {hit : Bool} (hrun : s.fatal = none) (hb : s.body sl = .disk d)
    (ho : d.op = some (.read head sect hit)) (hs : CacheAt s sl) :
    CacheAt (completeDiskRead sl d head sect hit s) sl := by
  have hcache : (DeviceBody.disk d).CacheForm s.cfg.imageByteOrder := hb ▸ hs.cache
  have hhit : (DeviceBody.disk d).HitForm := hb ▸ hs.hit
  unfold completeDiskRead
  split
  · cases hit with
    | true =>
      rw [if_pos rfl, State.andThen_running hrun]
      refine cacheAt_diskDeliver hb ?_
      rw [← beq_iff_eq.1 (hhit head sect ho)]
      exact hcache
    | false =>
      have hcfg : (diskLoad sl d head sect s).cfg = s.cfg := (calm_diskLoad (sl := sl) d head sect).others.cfg
      rw [if_neg Bool.false_ne_true]
      obtain ⟨r, hfatal, hbody⟩ | ⟨hfatal, hbody⟩ := diskLoad_body hb head sect
      · rw [State.andThen_stopped hfatal]
        exact hs.of_body hcfg hbody
      · rw [State.andThen_running (hfatal.trans hrun)]
        exact cacheAt_diskDeliver hbody fun _ => hcfg ▸ Disk.holds_loaded rfl
  · exact cacheAt_finishDisk (State.mapBody_disk hb _) (cacheForm_invalid rfl) _

theorem cacheAt_completeFlashRead {hit : Bool} (hrun : s.fatal = none) (hb : s.body sl = .flash f)
    (ho : f.op = some (.read blk hit)) (hs : CacheAt s sl) :
    CacheAt (completeFlashRead sl f blk hit s) sl := by
  have hcache : (DeviceBody.flash f).CacheForm s.cfg.imageByteOrder := hb ▸ hs.cache
  have hhit : (DeviceBody.flash f).HitForm := hb ▸ hs.hit
  unfold completeFlashRead
  split
  · cases hit with
    | true =>
      rw [if_pos rfl, State.andThen_running hrun]
      refine cacheAt_flashDeliver hb ?_
      rw [← beq_iff_eq.1 (hhit blk ho)]
      exact hcache (Flash.valid_of_hit (hhit blk ho))
    | false =>
      have hcfg : (flashLoad sl f blk s).cfg = s.cfg := (calm_flashLoad (sl := sl) f blk).others.cfg
      rw [if_neg Bool.false_ne_true]
      obtain ⟨r, hfatal, hbody⟩ | ⟨hfatal, hbody⟩ := flashLoad_body hb blk
      · rw [State.andThen_stopped hfatal]
        exact hs.of_body hcfg hbody
      · rw [State.andThen_running (hfatal.trans hrun)]
        exact cacheAt_flashDeliver hbody (hcfg ▸ Flash.holds_loaded rfl)
  · exact cacheAt_finishFlash (State.mapBody_flash hb _) (cacheForm_unkeyed rfl) _

/-- A write leaves in the image what the buffer holds (R911, R915). -/
theorem blockAt_fileWrite {g y : File} {off : Nat} {buf : Block} (hg : (s.fileWrite y off buf).1 = some g) (hy : y.wf)
    (hbuf : buf.length = 1024) : g.blockAt s.cfg.imageByteOrder off = buf := by
  obtain ⟨-, hfail, hok⟩ := s.fileWrite_spec y off buf
  cases hio : s.drawIo.1
  · obtain ⟨gap, hput⟩ := hok hio
    rw [Option.some.inj (hg.symm.trans hput)]
    exact File.blockAt_putBlock hy _ _ _ _ hbuf
  · exact absurd (hg.symm.trans (hfail hio)) (by simp)

/-- A sector written is cached, as the image now has it; a failed write changes neither (R915, log 23). -/
theorem cacheAt_completeDiskWrite (hb : s.body sl = .disk d) (hd : d.image.wf ∧ d.buf.length = 1024)
    (hs : CacheAt s sl) : CacheAt (completeDiskWrite sl d head sect s) sl := by
  unfold completeDiskWrite
  simp only
  split
  · have htape := (s.fileWrite_spec d.image (d.offBytes d.curCyl.toNat head.toNat sect.toNat) d.buf).1
    have hbody := congrArg (State.body · sl) htape
    split
    · exact hs.of_body (calm_fileWrite (sl := sl) _ _ _).others.cfg hbody
    · next g hg =>
      refine cacheAt_finishDisk (State.mapBody_disk (hbody.trans hb) _) (fun _ => ?_) _
      rw [State.mapBody_cfg, (calm_fileWrite (sl := sl) _ _ _).others.cfg]
      exact Disk.holds_key (d := { d with image := g }) (blockAt_fileWrite hg hd.1 hd.2).symm
  · exact cacheAt_finishDisk (State.mapBody_disk hb _) (cacheForm_invalid rfl) _

theorem cacheAt_completeFlashWrite (hb : s.body sl = .flash f) (hf : f.image.wf ∧ f.buf.length = 1024)
    (hs : CacheAt s sl) : CacheAt (completeFlashWrite sl f blk s) sl := by
  unfold completeFlashWrite
  simp only
  split
  · have htape := (s.fileWrite_spec f.image (f.offBytes blk) f.buf).1
    have hbody := congrArg (State.body · sl) htape
    split
    · exact hs.of_body (calm_fileWrite (sl := sl) _ _ _).others.cfg hbody
    · next g hg =>
      refine cacheAt_finishFlash (State.mapBody_flash (hbody.trans hb) _) (fun _ => ?_) _
      rw [State.mapBody_cfg, (calm_fileWrite (sl := sl) _ _ _).others.cfg]
      exact Flash.holds_key (f := { f with image := g }) (blockAt_fileWrite hg hf.1 hf.2).symm
  · exact cacheAt_finishFlash (State.mapBody_flash hb _) (cacheForm_unkeyed rfl) _

/-- A disk's completions; the heads may move, as the cache names its own cylinder (R906, R910). -/
theorem cacheAt_completeDisk (hrun : s.fatal = none) (hb : s.body sl = .disk d)
    (hd : d.image.wf ∧ d.buf.length = 1024) (hs : CacheAt s sl) : CacheAt (completeDisk sl d s) sl := by
  have hcache : (DeviceBody.disk d).CacheForm s.cfg.imageByteOrder := hb ▸ hs.cache
  unfold completeDisk
  split
  · exact hs.of_body rfl rfl
  · exact cacheAt_finishDisk (State.mapBody_disk hb _) (by exact hcache) _
  · unfold completeDiskSeek
    split
    · exact cacheAt_finishDisk (State.mapBody_disk hb _) (by exact hcache) _
    · exact cacheAt_finishDisk hb hcache _
  · next ho => exact cacheAt_completeDiskRead hrun hb ho hs
  · exact cacheAt_completeDiskWrite hb hd hs

theorem cacheAt_completeFlash (hrun : s.fatal = none) (hb : s.body sl = .flash f)
    (hf : f.image.wf ∧ f.buf.length = 1024) (hs : CacheAt s sl) : CacheAt (completeFlash sl f s) sl := by
  unfold completeFlash
  split
  · exact hs.of_body rfl rfl
  · exact cacheAt_finishFlash hb (hb ▸ hs.cache) _
  · next ho => exact cacheAt_completeFlashRead hrun hb ho hs
  · exact cacheAt_completeFlashWrite hb hf hs

/-- The dispatch of an event keeps the cache of its slot (R407). -/
theorem dispatch_cacheAt (e : Event) (hrun : s.fatal = none) (hst : (s.body e.target).stored)
    (hs : CacheAt s e.target) : CacheAt (dispatch e s) e.target := by
  have hkind : (dispatch e s).kind e.target = (s.body e.target).kind := (local_dispatch e).kind
  cases hb : s.body e.target with
  | disk d =>
    rw [hb] at hst
    unfold dispatch
    rw [hb]
    cases e.kind with
    | complete => exact cacheAt_completeDisk hrun hb hst hs
    | poll => exact hs.of_body rfl rfl
  | flash f =>
    rw [hb] at hst
    unfold dispatch
    rw [hb]
    cases e.kind with
    | complete => exact cacheAt_completeFlash hrun hb hst hs
    | poll => exact hs.of_body rfl rfl
  | null | printer _ | terminal _ | eth _ =>
    exact cacheAt_of_kind (hkind.trans (congrArg DeviceBody.kind hb)) nofun nofun

/-! A step. -/

/-- Every change keeps every cache. -/
theorem Change.cacheOk (hc : Change s u) (hb : BusyWith [] s) (hs : CacheOk s) : CacheOk u := by
  cases hc with
  | nothing => exact hs
  | command i _ hi => exact (local_exec i hi).cacheOk hs (exec_cacheAt hi hb (cacheOk_iff.1 hs i.slot))
  | illegal p sl w _ hi =>
    obtain ⟨-, hkind, ⟨-, rfl⟩ | ⟨-, rfl⟩⟩ := execIllegal_next hi
    · exact hs
    · have stored : CacheOk (s.setReg sl (cmdIdx p.sub) w) := hs.of_body rfl fun _ => State.setReg_body ..
      exact ((calm_failNow p.sub codeIllegalOp).toLocal (P := fun _ => True)).cacheOk stored
        ((cacheOk_iff.1 stored sl).failNow _ _)
  | data sl k i v hk hw => exact hs.of_body rfl fun _ => State.setReg_body ..
  | input sl text =>
    unfold hostInput
    split
    · next t hbody =>
      have logged : Calm sl s _ := (calm_mapBody (keeps_onTerminal fun t =>
        { t with rxbuf := t.rxbuf ++ text ++ [0x0A#8] })).trans (calm_writeLog (text ++ [0x0A#8]))
      exact (logged.toLocal (P := fun _ => True)).cacheOk hs
        (cacheAt_of_kind (logged.kind.trans (congrArg DeviceBody.kind hbody)) nofun nofun)
    · exact hs.of_body rfl fun _ => rfl
  | work sl b =>
    unfold toggleWork
    split
    · exact hs
    · refine hs.of_body rfl fun x => ?_
      simp only [State.body_eq, State.emit_dev, State.setWorking_dev]
      split <;> simp_all
  | overflow _ => exact hs.of_body rfl fun _ => rfl
  | memory a bytes => exact hs.of_body rfl fun _ => rfl

/-- Settles O57: a running simulation keeps its storage, its busy flags and with them every cache, through every change
and every dispatch; a fatal error keeps the caches too. -/
theorem stepKeepsCache : Obligations.StepKeepsCache := by
  intro s t hstorage hbusy hcache h
  refine (step_induct (P := fun s => StorageOk s ∧ BusyOk s ∧ CacheOk s) ?taken ?answer ?change ?tick ?dispatch h
    ⟨hstorage, hbusy, hcache⟩).2.2
  case taken =>
    exact fun s rest ⟨hst, hb, hc⟩ => ⟨storageOk_congr (s := s) rfl rfl hst, hb, hc.of_body rfl fun _ => rfl⟩
  case answer =>
    exact fun s r ⟨hst, hb, hc⟩ => ⟨storageOk_congr (s := s) rfl rfl hst, hb, hc.of_body rfl fun _ => rfl⟩
  case tick =>
    exact fun s _ ⟨hst, hb, hc⟩ => ⟨storageOk_congr (s := s) rfl rfl hst, hb, hc.of_body rfl fun _ => rfl⟩
  case change =>
    intro s u hf hu ⟨hst, hb, hc⟩
    exact ⟨hu.effect.storage hst, fun hf' => hu.effect.busy hf' (hb hf), hu.cacheOk (hb hf) hc⟩
  case dispatch =>
    intro s e rest hf hq _ ⟨hst, hb, hc⟩
    have taken : StorageOk { s with queue := rest } := storageOk_congr (s := s) rfl rfl hst
    have coherent : CacheOk { s with queue := rest } := hc.of_body rfl fun _ => rfl
    have served := dispatch_effect (s := { s with queue := rest }) e hf
    refine ⟨served.storage taken, fun hf' => served.busy hf' fun x => ?_, (local_dispatch e).cacheOk coherent
      (dispatch_cacheAt e hf ((storageOk_iff.1 taken).2 _) (cacheOk_iff.1 coherent _))⟩
    have hx := hb hf x
    rw [State.completions, hq] at hx
    exact hx

end Sys2Proof.Machine
end

section
/-! PROOFS. The disk: what its commands do when accepted, what its completions leave, and what a hit delivers. -/

namespace Sys2Proof.Machine

variable {s t u : State} {sl : Slot} {h : Sub} {body : DeviceBody} {d : Disk} {head sect : BitVec 8} {w c : Word}
  {delta : Nat} {run : State → State}

/-! The commands of an idle disk. -/

/-- A command of an idle disk that starts an operation, in time (R512). -/
theorem disk_started {op : DiskOp} (hi : Idle s sl .single (.disk d))
    (hrun : run (s.setReg sl (cmdIdx .single) w) =
      (s.setReg sl (cmdIdx .single) w).beginOp sl .single (startDisk op) delta) (hd : InTime s delta) :
    ∃ t, s.accept .disk sl .single w run = .next t ∧
      Started s t sl .single w codeBusy (.disk { d with op := some op }) false delta :=
  accepted_begin id (startDisk op) (by rw [State.mapBody_id]; exact hrun) hi rfl rfl hd

/-- A command that ends in a fatal error (R1220). -/
theorem accepted_stop {k : DevKind} {r : FatalReason} (hi : Idle s sl h body) (hk : body.kind = some k)
    (hrun : run (s.setReg sl (cmdIdx h) w) = u.stop r) :
    ∃ t, s.accept k sl h w run = .next t ∧ t.fatal = some r :=
  ⟨_, State.accept_idle hi.running ((congrArg DeviceBody.kind hi.body).trans hk) hi.idle w run, hrun ▸ rfl⟩

/-- The body an idle sub-device runs its command on. -/
theorem Idle.stored_body (hi : Idle s sl h body) (w : Word) : (s.setReg sl (cmdIdx h) w).body sl = body :=
  (State.setReg_body ..).trans hi.body

theorem diskResetAccept_eq (hb : s.body sl = .disk d) :
    diskResetAccept sl s =
      (s.mapBody sl (setDiskCache .invalid)).beginOp sl .single (startDisk .reset) (d.resetTicks s.cfg) := by
  simp only [diskResetAccept, hb]

/-- Settles O23: RESET starts an operation with the cache invalid, ACK acknowledges. -/
theorem diskResetAndAckAccepted : Obligations.DiskResetAndAckAccepted := by
  intro s sl ign d hi
  refine ⟨fun hd => ?reset, ?ack⟩
  case reset => exact accepted_begin (setDiskCache .invalid) _ (diskResetAccept_eq (hi.stored_body _)) hi rfl rfl hd
  case ack => exact accepted_ack (run := fun s => s.ackCmd sl .single) rfl hi rfl

/-- The seek distance is the difference of the cylinders (R908). -/
theorem Disk.distance_eq (d : Disk) (c : BitVec 16) :
    d.distance c = max c.toNat d.curCyl.toNat - min c.toNat d.curCyl.toNat := by
  unfold Disk.distance
  split <;> omega

theorem diskSeekAccept_inside {c : BitVec 16} (hb : s.body sl = .disk d) (hc : c.toNat < d.cyls) :
    diskSeekAccept sl c s = s.beginOp sl .single (startDisk (.seek c)) (d.seekTicks s.cfg c) := by
  simp only [diskSeekAccept, hb, if_pos hc]

theorem diskSeekAccept_outside {c : BitVec 16} (hb : s.body sl = .disk d) (hc : d.cyls ≤ c.toNat) :
    diskSeekAccept sl c s = s.failNow sl .single codeSeekErr := by
  simp only [diskSeekAccept, hb, if_neg (Nat.not_lt.2 hc)]

/-- Settles O24: by whether the disk has the cylinder. -/
theorem diskSeekAccepted : Obligations.DiskSeekAccepted := by
  intro s sl c ign d hi
  have hb := hi.stored_body (wordDS 2#8 c ign)
  rw [← Disk.distance_eq]
  refine ⟨fun hc hd => ?inside, fun hc => ?outside⟩
  case inside => exact disk_started hi (diskSeekAccept_inside hb hc) hd
  case outside =>
    exact accepted_fail id (by rw [State.mapBody_id]; exact diskSeekAccept_outside hb hc) hi rfl rfl

/-! READBLK (R901, R903, R905, R912). -/

theorem Disk.inBounds_eq_true (hh : head.toNat < d.heads) (hs : sect.toNat < d.sects) :
    d.inBounds head sect = true := by
  simp [Disk.inBounds, hh, hs]

theorem Disk.inBounds_eq_false (ho : d.heads ≤ head.toNat ∨ d.sects ≤ sect.toNat) : d.inBounds head sect = false := by
  simpa [Disk.inBounds, imp_iff_not_or] using ho

theorem diskReadAccept_outside (hb : s.body sl = .disk d) (ho : d.inBounds head sect = false) :
    diskReadAccept sl head sect s = (s.mapBody sl (setDiskCache .invalid)).failNow sl .single codeDReadErr := by
  simp [diskReadAccept, hb, ho]

theorem diskReadAccept_hit (hb : s.body sl = .disk d) (ho : d.inBounds head sect = true)
    (hh : d.hit head sect = true) :
    diskReadAccept sl head sect s = s.beginOp sl .single (startDisk (.read head sect true)) s.cfg.dmaTicks := by
  simp [diskReadAccept, hb, ho, hh]

theorem diskReadAccept_miss (hb : s.body sl = .disk d) (ho : d.inBounds head sect = true)
    (hh : d.hit head sect = false) :
    diskReadAccept sl head sect s = beginRotational sl d sect (.read head sect false) s := by
  simp [diskReadAccept, hb, ho, hh]

theorem beginRotational_stopped (op : DiskOp) (ht : d.sectTicks s.cfg = 0) :
    beginRotational sl d sect op s = s.stop .zeroSectorTicks := if_pos ht

/-- The latency of a transfer, from the low word of the clock (R905). -/
theorem beginRotational_begun (op : DiskOp) (ht : 0 < d.sectTicks s.cfg) :
    beginRotational sl d sect op s = s.beginOp sl .single (startDisk op)
      (d.rot s.cfg sect.toNat (s.tod.toNat % 2 ^ 32) + s.cfg.dmaTicks) := by
  rw [beginRotational, if_neg ht.ne', BitVec.toNat_setWidth]

/-- Settles O25: by the bounds, the cache, and the sector ticks. -/
theorem diskReadAccepted : Obligations.DiskReadAccepted := by
  intro s sl head sect ign d hi w st L off miss cached
  have hb := hi.stored_body w
  have hmiss (hc : ¬ cached) : d.hit head sect = false := beq_false_of_ne hc
  refine ⟨fun ho => ?outside, fun hh hs hc hd => ?hit, fun hh hs hc hst hd => ?miss, fun hh hs hc hst => ?stopped⟩
  case outside =>
    exact accepted_fail _ (diskReadAccept_outside hb (Disk.inBounds_eq_false ho)) hi rfl rfl
  case hit => exact disk_started hi (diskReadAccept_hit hb (Disk.inBounds_eq_true hh hs) (beq_iff_eq.2 hc)) hd
  case miss =>
    have hrun := diskReadAccept_miss hb (Disk.inBounds_eq_true hh hs) (hmiss hc)
    exact disk_started hi (hrun.trans (beginRotational_begun _ hst)) hd
  case stopped =>
    have hrun := diskReadAccept_miss hb (Disk.inBounds_eq_true hh hs) (hmiss hc)
    exact accepted_stop hi rfl (hrun.trans (beginRotational_stopped _ hst))

/-! WRITEBLK (R903, R905, R914). -/

/-- What the memory port answers depends on the configuration and the tape alone (R604). -/
theorem State.decodeFails_congr (hc : t.cfg = s.cfg) (ht : t.tape = s.tape) (a : Word) (n : Nat) :
    (t.decodeFails a n).1 = (s.decodeFails a n).1 ∧ (t.decodeFails a n).2.tape = (s.decodeFails a n).2.tape := by
  unfold State.decodeFails State.countDraw
  rw [hc, ht]
  split
  · exact ⟨rfl, ht⟩
  · split <;> exact ⟨rfl, rfl⟩

theorem diskWriteAccept_outside (hb : s.body sl = .disk d) (ho : d.inBounds head sect = false) :
    diskWriteAccept sl head sect s = (s.mapBody sl (setDiskCache .invalid)).failNow sl .single codeDWritErr := by
  simp [diskWriteAccept, hb, ho]

/-- The state in which a WRITEBLK has filled the buffer of a disk with `buf`, its cache invalid (R914). -/
def diskFilled (sl : Slot) (buf : Block) (tape : HostTape) (s : State) : State :=
  { s.mapBody sl (setDiskBuf buf ∘ setDiskCache .invalid) with tape := tape }

/-- R914: what a WRITEBLK in bounds does, by whether the DMA fails; on success the buffer is memory's block. -/
theorem diskWriteAccept_inside (hb : s.body sl = .disk d) (ho : d.inBounds head sect = true) :
    ∃ buf tape, buf.length = 1024 ∧
      ((s.decodeFails (s.reg sl 2) 4096).1 = true →
        diskWriteAccept sl head sect s = (diskFilled sl buf tape s).failNow sl .single codeDmaErr) ∧
      ((s.decodeFails (s.reg sl 2) 4096).1 = false →
        diskWriteAccept sl head sect s = beginRotational sl d sect (.write head sect) (diskFilled sl buf tape s) ∧
        buf = s.mem.block (s.reg sl 2) ∧ tape = (s.decodeFails (s.reg sl 2) 4096).2.tape) := by
  have hreg : (s.mapBody sl (setDiskCache .invalid)).reg sl 2 = s.reg sl 2 := by
    simp only [State.reg, State.mapBody_dev, if_true]
  obtain ⟨hfailed, htape⟩ := State.decodeFails_congr (s := s) (t := s.mapBody sl (setDiskCache .invalid)) rfl rfl
    (s.reg sl 2) 4096
  obtain ⟨hanswer, hlength, hstate, hread⟩ :=
    (s.mapBody sl (setDiskCache .invalid)).dmaFromMem_spec (s.reg sl 2)
  rw [hfailed] at hanswer hread
  rw [htape] at hread
  unfold diskWriteAccept
  simp only [hb, ho, hreg, hanswer, Bool.not_true, Bool.false_eq_true, if_false]
  generalize (s.mapBody sl (setDiskCache .invalid)).dmaFromMem (s.reg sl 2) = r at hlength hstate hread
  have hfill : r.2.2.mapBody sl (setDiskBuf r.2.1) = diskFilled sl r.2.1 r.2.2.tape s := by
    rw [hstate, diskFilled, ← State.mapBody_mapBody]
    rfl
  rw [hfill]
  exact ⟨r.2.1, r.2.2.tape, hlength, fun hf => by rw [if_pos hf], fun hf => ⟨by rw [if_neg (by simp [hf])], hread hf⟩⟩

/-- Settles O26: by the bounds, the DMA, and the sector ticks. -/
theorem diskWriteAccepted : Obligations.DiskWriteAccepted := by
  intro s sl head sect ign d hi w st L off delta failed
  have hb := hi.stored_body w
  have hdata : (s.setReg sl (cmdIdx .single) w).reg sl 2 = s.reg sl 2 := State.setReg_cmd_data0 ..
  obtain ⟨hfailed, htape⟩ :=
    State.decodeFails_congr (s := s) (t := s.setReg sl (cmdIdx .single) w) rfl rfl (s.reg sl 2) 4096
  have inside (hh : head.toNat < d.heads) (hs : sect.toNat < d.sects) :=
    diskWriteAccept_inside hb (Disk.inBounds_eq_true hh hs)
  rw [hdata, hfailed, htape] at inside
  refine ⟨fun ho => ?outside, fun hh hs hf => ?dmaFailed, fun hh hs hf hst => ?stopped, fun hh hs hf hst hd => ?begun⟩
  case outside =>
    exact accepted_fail _ (diskWriteAccept_outside hb (Disk.inBounds_eq_false ho)) hi rfl rfl
  case dmaFailed =>
    obtain ⟨buf, tape, -, hrun, -⟩ := inside hh hs
    obtain ⟨t, ht, haccepted, -, hevent⟩ := accepted_fail_tape tape _ (hrun hf) hi rfl rfl
    exact ⟨t, buf, ht, haccepted, hevent⟩
  case stopped =>
    obtain ⟨buf, tape, -, -, hrun⟩ := inside hh hs
    exact accepted_stop hi rfl ((hrun hf).1.trans (beginRotational_stopped _ hst))
  case begun =>
    obtain ⟨buf, tape, hlength, -, hrun⟩ := inside hh hs
    obtain ⟨hrun, hblock, hdrawn⟩ := hrun hf
    obtain ⟨t, ht, haccepted, htape', hevent⟩ :=
      accepted_begin_tape tape _ _ (hrun.trans (beginRotational_begun _ hst)) hi rfl rfl hd
    exact ⟨t, buf, ht, haccepted, hevent, htape'.trans hdrawn, hlength, hblock ▸ s.mem.block_holds _⟩

/-! Completions (R906, R910, R913, R915). -/

theorem dispatch_disk (fire : Time) (n : Nat) (hb : s.body sl = .disk d) :
    dispatch (completion fire n sl) s = completeDisk sl d s := by
  simp [dispatch, completion, hb]

theorem dispatch_flash {f : Flash} (fire : Time) (n : Nat) (hb : s.body sl = .flash f) :
    dispatch (completion fire n sl) s = completeFlash sl f s := by
  simp [dispatch, completion, hb]

theorem completeDisk_reset (ho : d.op = some .reset) :
    completeDisk sl d s = (s.mapBody sl (onDisk fun d => { d with curCyl := 0#32 })).finish sl .single codeReady := by
  simp [completeDisk, ho]

theorem completeDisk_seek {c : BitVec 16} (ho : d.op = some (.seek c)) (hw : s.working sl = true) :
    completeDisk sl d s =
      (s.mapBody sl (onDisk fun d => { d with curCyl := c.setWidth 32 })).finish sl .single codeReady := by
  simp [completeDisk, ho, completeDiskSeek, hw]

theorem completeDisk_seekBroken {c : BitVec 16} (ho : d.op = some (.seek c)) (hw : s.working sl = false) :
    completeDisk sl d s = s.finish sl .single codeSeekErr := by
  simp [completeDisk, ho, completeDiskSeek, hw]

theorem completeDisk_read {hit : Bool} (ho : d.op = some (.read head sect hit)) :
    completeDisk sl d s = completeDiskRead sl d head sect hit s := by
  simp [completeDisk, ho]

theorem completeDisk_write (ho : d.op = some (.write head sect)) :
    completeDisk sl d s = completeDiskWrite sl d head sect s := by
  simp [completeDisk, ho]

/-- A completion that leaves the body but for its operation. -/
theorem completed_unchanged (w : Word) (hs : s.fatal = none) (hb : s.body sl = body) :
    Completed s (s.finish sl h w) sl h (s.regsWith sl (statusIdx h) (mergeStatus body.kind (s.reg sl (statusIdx h)) w))
      (setIpend h true (clearOp h body)) [] ∧ Quiet s (s.finish sl h w) s.tape := by
  have hfinish := completed_quiet (h := h) s.tape id w hs hb
  rw [State.mapBody_id] at hfinish
  exact hfinish

/-- Settles O27: by the operation in progress, and whether the disk works. -/
theorem diskResetAndSeekCompletions : Obligations.DiskResetAndSeekCompletions := by
  intro s sl d fire n hs hb
  simp only [dispatch_disk fire n hb]
  refine ⟨fun ho => ?reset, fun c ho hw => ?seek, fun c ho hw => ?broken⟩
  case reset =>
    rw [completeDisk_reset ho]
    exact completed_quiet s.tape _ _ hs hb
  case seek =>
    rw [completeDisk_seek ho hw]
    exact completed_quiet s.tape _ _ hs hb
  case broken =>
    rw [completeDisk_seekBroken ho hw]
    exact completed_unchanged _ hs hb

/-! READBLK (R911, R913). -/

/-- A completion from a state in which memory was written. -/
theorem Completed.of_mem {m : Memory} {regs : Vector Word 4} {signals : List Signal}
    (hc : Completed { s with mem := m } t sl h regs body signals) : Completed s t sl h regs body signals :=
  ⟨hc.dev, hc.bit, hc.trace, hc.returned, hc.running,
    ⟨hc.others.dev, hc.others.pend, hc.others.cfg, hc.others.tod, hc.others.script, hc.others.reply⟩⟩

/-- A DMA to memory changes memory and the tape alone (R601). -/
theorem State.dmaToMem_eq (s : State) (a : Word) (b : Block) :
    (s.dmaToMem a b).2 = { s with mem := (s.dmaToMem a b).2.mem, tape := (s.dmaToMem a b).2.tape } := by
  obtain ⟨-, stored, -, -, hstate⟩ := s.dmaToMem_spec a b
  rw [hstate]

/-- A completion that changes the body by `f` after it has sent a block to memory from a state `u`, which differs from
`s` in the body, by `g`, and in the tape (R601, R513). -/
theorem completed_dma (tape : HostTape) (f g : DeviceBody → DeviceBody) (a : Word) (blk : Block) (w : Word)
    (hs : s.fatal = none) (hb : s.body sl = body) :
    let u := State.mapBody { s with tape := tape } sl g
    let t := ((u.dmaToMem a blk).2.mapBody sl f).finish sl h w
    Completed s t sl h (s.regsWith sl (statusIdx h) (mergeStatus (f (g body)).kind (s.reg sl (statusIdx h)) w))
        (setIpend h true (clearOp h (f (g body)))) [] ∧
      SameOutside s t a 4096 ∧ NoEvent s t ∧ t.net = s.net ∧ t.tape = (u.dmaToMem a blk).2.tape := by
  intro u t
  obtain ⟨m, tape', hmem, htape, ht⟩ : ∃ m tape', (u.dmaToMem a blk).2.mem = m ∧ (u.dmaToMem a blk).2.tape = tape' ∧
      t = (State.mapBody { s with mem := m, tape := tape' } sl (f ∘ g)).finish sl h w := by
    refine ⟨_, _, rfl, rfl, ?_⟩
    rw [← State.mapBody_mapBody]
    exact congrArg (fun v : State => (v.mapBody sl f).finish sl h w) (u.dmaToMem_eq a blk)
  obtain ⟨hcompleted, hquiet⟩ := completed_quiet (s := { s with mem := m }) (h := h) tape' (f ∘ g) w hs hb
  rw [htape, ht]
  refine ⟨hcompleted.of_mem, fun x hx => ?_, hquiet.event, hquiet.net, rfl⟩
  rw [hquiet.memory, ← hmem]
  exact u.dmaToMem_sameOutside a blk x hx

theorem completeDiskRead_broken {hit : Bool} (hw : s.working sl = false) :
    completeDiskRead sl d head sect hit s =
      (s.mapBody sl (setDiskCache .invalid)).finish sl .single codeDReadErr := by
  simp [completeDiskRead, hw]

/-- A miss whose sector cannot be read (R911, R919, log 23). -/
theorem completeDiskRead_unread (hw : s.working sl = true)
    (hio : s.drawIo.1 = true ∨ d.image.size < d.offBytes d.curCyl.toNat head.toNat sect.toNat + 4096) :
    completeDiskRead sl d head sect false s = s.drawIo.2.stop .imageReadFailed := by
  obtain ⟨hdrawn, hnone, -⟩ := s.fileRead_cases d.image (d.offBytes d.curCyl.toNat head.toNat sect.toNat)
  simp [completeDiskRead, hw, diskLoad, hnone hio, hdrawn]

/-- The state in which a disk has a block in its buffer, after host answers were drawn. -/
def diskLoaded (sl : Slot) (buf : Block) (tape : HostTape) (s : State) : State :=
  State.mapBody { s with tape := tape } sl (setDiskBuf buf)

theorem diskLoad_read {blk : Block} (hio : s.drawIo.1 = false)
    (hsize : d.offBytes d.curCyl.toNat head.toNat sect.toNat + 4096 ≤ d.image.size)
    (hblk : d.sector s.cfg.imageByteOrder head sect = blk) :
    diskLoad sl d head sect s = diskLoaded sl blk s.drawIo.2.tape s := by
  obtain ⟨hdrawn, -, hsome⟩ := s.fileRead_cases d.image (d.offBytes d.curCyl.toNat head.toNat sect.toNat)
  have hread : (s.fileRead d.image (d.offBytes d.curCyl.toNat head.toNat sect.toNat)).1 = some blk :=
    hblk ▸ hsome hio hsize
  simp only [diskLoad, hread, hdrawn]
  rw [diskLoaded, ← s.drawIo_tape]

/-- A read that reaches the DMA has the sector in the buffer: a hit has had it, a miss has read it (R913). -/
theorem completeDiskRead_loaded {hit : Bool} (hs : s.fatal = none) (hb : s.body sl = .disk d)
    (hw : s.working sl = true)
    (hload : hit = true ∨ s.drawIo.1 = false ∧ d.offBytes d.curCyl.toNat head.toNat sect.toNat + 4096 ≤ d.image.size) :
    completeDiskRead sl d head sect hit s =
      diskDeliver sl d head sect (diskLoaded sl (if hit then d.buf else d.sector s.cfg.imageByteOrder head sect)
        (if hit then s else s.drawIo.2).tape s) := by
  cases hit with
  | true =>
    have hb' : (s.dev sl).body = .disk d := hb
    have hkept : diskLoaded sl d.buf s.tape s = s := by
      have hbuf : setDiskBuf d.buf (s.dev sl).body = (s.dev sl).body := by rw [hb']; rfl
      exact (congrArg (fun b => s.setDev sl { s.dev sl with body := b }) hbuf).trans (State.setDev_dev s sl)
    simp [completeDiskRead, hw, hkept, State.andThen_running hs]
  | false =>
    obtain ⟨hio, hsize⟩ := hload.resolve_left Bool.false_ne_true
    simp only [completeDiskRead, hw, if_true, Bool.false_eq_true, if_false, diskLoad_read hio hsize rfl]
    exact State.andThen_running (by exact hs) _

theorem diskDeliver_failed {y : Disk} (hb : s.body sl = .disk d) (hdma : (s.decodeFails (s.reg sl 2) 4096).1 = true) :
    diskDeliver sl y head sect s =
      ((s.dmaToMem (s.reg sl 2) d.buf).2.mapBody sl (setDiskCache .invalid)).finish sl .single codeDmaErr := by
  simp [diskDeliver, hb, diskBuf, (s.dmaToMem_spec (s.reg sl 2) d.buf).1, hdma]

theorem diskDeliver_sent {y : Disk} (hb : s.body sl = .disk d) (hdma : (s.decodeFails (s.reg sl 2) 4096).1 = false) :
    diskDeliver sl y head sect s =
      ((s.dmaToMem (s.reg sl 2) d.buf).2.mapBody sl (setDiskCache (DiskCache.key y.curCyl head sect))).finish
        sl .single codeReady := by
  simp [diskDeliver, hb, diskBuf, (s.dmaToMem_spec (s.reg sl 2) d.buf).1, hdma]

theorem diskLoaded_body (buf : Block) (tape : HostTape) (hb : s.body sl = .disk d) :
    (diskLoaded sl buf tape s).body sl = .disk { d with buf := buf } :=
  State.mapBody_disk (s := { s with tape := tape }) hb _

theorem diskLoaded_reg (buf : Block) (tape : HostTape) (i : Fin 4) :
    (diskLoaded sl buf tape s).reg sl i = s.reg sl i := by
  simp only [diskLoaded, State.reg, State.mapBody_dev, if_true]
  rfl

/-- R913: the end of a READBLK whose DMA fails. -/
theorem diskDelivered_failed (buf : Block) (tape : HostTape) (hs : s.fatal = none) (hb : s.body sl = .disk d)
    (hdma : ((diskLoaded sl buf tape s).decodeFails (s.reg sl 2) 4096).1 = true) :
    let t := diskDeliver sl d head sect (diskLoaded sl buf tape s)
    Completed s t sl .single (s.regsWith sl 0 codeDmaErr)
        (.disk { d with buf := buf, cache := .invalid, op := none }) [] ∧
      SameOutside s t (s.reg sl 2) 4096 ∧ NoEvent s t ∧ t.net = s.net := by
  have hreg := diskLoaded_reg (s := s) (sl := sl) buf tape 2
  simp only [diskDeliver_failed (diskLoaded_body buf tape hb) (hreg.symm ▸ hdma), hreg]
  obtain ⟨hcompleted, houtside, hevent, hnet, -⟩ := completed_dma (h := .single) tape (setDiskCache .invalid)
    (setDiskBuf buf) (s.reg sl 2) buf codeDmaErr hs hb
  exact ⟨hcompleted, houtside, hevent, hnet⟩

/-- R913: the end of a READBLK whose block reaches memory. -/
theorem diskDelivered_sent (buf : Block) (tape : HostTape) (hs : s.fatal = none) (hb : s.body sl = .disk d)
    (hm : s.mem.wf) (hdma : ((diskLoaded sl buf tape s).decodeFails (s.reg sl 2) 4096).1 = false) :
    let t := diskDeliver sl d head sect (diskLoaded sl buf tape s)
    Completed s t sl .single (s.regsWith sl 0 codeReady)
        (.disk { d with buf := buf, op := none, cache := DiskCache.key d.curCyl head sect }) [] ∧
      HoldsBlock t.mem (s.reg sl 2) buf ∧ SameOutside s t (s.reg sl 2) 4096 ∧ NoEvent s t ∧ t.net = s.net ∧
      t.tape = ((diskLoaded sl buf tape s).decodeFails (s.reg sl 2) 4096).2.tape := by
  have hreg := diskLoaded_reg (s := s) (sl := sl) buf tape 2
  simp only [diskDeliver_sent (diskLoaded_body buf tape hb) (hreg.symm ▸ hdma), hreg]
  obtain ⟨hcompleted, houtside, hevent, hnet, htape⟩ := completed_dma (h := .single) tape
    (setDiskCache (DiskCache.key d.curCyl head sect)) (setDiskBuf buf) (s.reg sl 2) buf codeReady hs hb
  refine ⟨hcompleted, ?_, houtside, hevent, hnet, htape.trans (State.dmaToMem_tape buf hdma)⟩
  rw [State.finish_mem, State.mapBody_mem]
  exact State.dmaToMem_holdsBlock buf hm hdma

/-- Settles O28: by whether the disk works, whether the sector is in the buffer, and the DMA. -/
theorem diskReadCompletion : Obligations.DiskReadCompletion := by
  intro s sl d head sect hit fire n hs hb ho hm _ t off io base buf dma
  have ht : t = completeDiskRead sl d head sect hit s := (dispatch_disk fire n hb).trans (completeDisk_read ho)
  have hbase : base.cfg = s.cfg := by
    cases hit with
    | true => rfl
    | false => exact (congrArg State.cfg s.drawIo_tape :)
  obtain ⟨hfailed, htape⟩ := State.decodeFails_congr (s := base) (t := diskLoaded sl buf base.tape s) hbase.symm rfl
    (s.reg sl 2) 4096
  have hdelivered (hw : s.working sl = true) (hload : hit = true ∨ io.1 = false ∧ off + 4096 ≤ d.image.size) :
      t = diskDeliver sl d head sect (diskLoaded sl buf base.tape s) :=
    ht.trans (completeDiskRead_loaded hs hb hw hload)
  clear_value t
  refine ⟨fun hw => ?broken, fun hw hhit hio => ?unread, fun hw hload hdma => ?failed, fun hw hload hdma => ?sent⟩
  case broken =>
    rw [ht, completeDiskRead_broken hw]
    exact completed_quiet s.tape _ _ hs hb
  case unread =>
    subst hhit
    rw [ht, completeDiskRead_unread hw hio]
    rfl
  case failed =>
    rw [hdelivered hw hload]
    exact diskDelivered_failed buf base.tape hs hb (hfailed.trans hdma)
  case sent =>
    rw [hdelivered hw hload, ← htape]
    exact diskDelivered_sent buf base.tape hs hb hm (hfailed.trans hdma)

/-! WRITEBLK (R911, R915). -/

theorem completeDiskWrite_broken (hw : s.working sl = false) :
    completeDiskWrite sl d head sect s =
      (s.mapBody sl (setDiskCache .invalid)).finish sl .single codeDWritErr := by
  simp [completeDiskWrite, hw]

/-- A failed write is fatal and stores nothing (R919, log 23). -/
theorem completeDiskWrite_unwritten (hw : s.working sl = true) (hio : s.drawIo.1 = true) :
    ∃ tape, completeDiskWrite sl d head sect s = State.stop .imageWriteFailed { s with tape := tape } := by
  obtain ⟨hstate, hnone, -⟩ := s.fileWrite_spec d.image (d.offBytes d.curCyl.toNat head.toNat sect.toNat) d.buf
  refine ⟨(s.fileWrite d.image (d.offBytes d.curCyl.toNat head.toNat sect.toNat) d.buf).2.tape, ?_⟩
  simp only [completeDiskWrite, hw, if_true, hnone hio]
  rw [← hstate]

/-- The disk after a WRITEBLK, with its new image. -/
theorem completeDiskWrite_written (hw : s.working sl = true) (hio : s.drawIo.1 = false) :
    ∃ gap tape, completeDiskWrite sl d head sect s =
      (State.mapBody { s with tape := tape } sl (onDisk fun x => { x with
        image := d.image.putBlock s.cfg.imageByteOrder (d.offBytes d.curCyl.toNat head.toNat sect.toNat) d.buf gap
        cache := DiskCache.key x.curCyl head sect })).finish sl .single codeReady := by
  obtain ⟨hstate, -, hsome⟩ := s.fileWrite_spec d.image (d.offBytes d.curCyl.toNat head.toNat sect.toNat) d.buf
  obtain ⟨gap, hput⟩ := hsome hio
  refine ⟨gap, (s.fileWrite d.image (d.offBytes d.curCyl.toNat head.toNat sect.toNat) d.buf).2.tape, ?_⟩
  simp only [completeDiskWrite, hw, if_true, hput]
  rw [← hstate]

/-- Settles O29: by whether the disk works and the file can be written. -/
theorem diskWriteCompletion : Obligations.DiskWriteCompletion := by
  intro s sl d head sect fire n hs hb ho hwf hbuf t off
  have ht : t = completeDiskWrite sl d head sect s := (dispatch_disk fire n hb).trans (completeDisk_write ho)
  clear_value t
  rw [ht]
  refine ⟨fun hw => ?broken, fun hw hio => ?unwritten, fun hw hio => ?written⟩
  case broken =>
    rw [completeDiskWrite_broken hw]
    exact completed_quiet s.tape _ _ hs hb
  case unwritten =>
    obtain ⟨tape, hstopped⟩ := completeDiskWrite_unwritten (d := d) (head := head) (sect := sect) hw hio
    rw [hstopped]
    exact ⟨rfl, rfl, fun _ => rfl⟩
  case written =>
    obtain ⟨gap, tape, hwritten⟩ := completeDiskWrite_written (d := d) (head := head) (sect := sect) hw hio
    rw [hwritten]
    obtain ⟨hcompleted, hquiet⟩ := completed_quiet (h := .single) tape (onDisk fun x => { x with
      image := d.image.putBlock s.cfg.imageByteOrder off d.buf gap
      cache := DiskCache.key x.curCyl head sect }) codeReady hs hb
    exact ⟨_, File.blockAt_putBlock hwf _ _ _ _ hbuf, fun k hk => File.putBlock_outside d.image _ _ _ _ k hk,
      File.putBlock_size d.image _ _ _ _, hcompleted, hquiet.memory, hquiet.event, hquiet.net⟩

/-! What a hit delivers (R902, R913, R1008). -/

theorem diskDeliver_mem (y : Disk) (head sect : BitVec 8) (hb : s.body sl = .disk d) :
    (diskDeliver sl y head sect s).mem = (s.dmaToMem (s.reg sl 2) d.buf).2.mem := by
  simp only [diskDeliver, hb, diskBuf]
  split <;> rw [State.finish_mem, State.mapBody_mem]

theorem flashDeliver_mem {f : Flash} (blk : BitVec 24) (hb : s.body sl = .flash f) :
    (flashDeliver sl blk s).mem = (s.dmaToMem (s.reg sl 2) f.buf).2.mem := by
  simp only [flashDeliver, hb, flashBuf]
  split <;> rw [State.finish_mem, State.mapBody_mem]

theorem completeDisk_hit (hs : s.fatal = none) (hw : s.working sl = true) (ho : d.op = some (.read head sect true)) :
    completeDisk sl d s = diskDeliver sl d head sect s := by
  simp [completeDisk, ho, completeDiskRead, hw, State.andThen_running hs]

theorem completeFlash_hit {f : Flash} {blk : BitVec 24} (hs : s.fatal = none) (hw : s.working sl = true)
    (ho : f.op = some (.read blk true)) : completeFlash sl f s = flashDeliver sl blk s := by
  simp [completeFlash, ho, completeFlashRead, hw, State.andThen_running hs]

/-- The buffer of a disk with a hit in progress is the sector of the image: the heads being over a cylinder of the disk,
the key of the hit is valid. -/
theorem CacheAt.buf_of_diskHit (hc : CacheAt s sl) (hb : s.body sl = .disk d) (hheads : d.HeadsForm)
    (ho : d.op = some (.read head sect true)) : d.buf = d.sector s.cfg.imageByteOrder head sect := by
  have hcache : (DeviceBody.disk d).CacheForm s.cfg.imageByteOrder := hb ▸ hc.cache
  have hhit : d.hit head sect = true := (show (DeviceBody.disk d).HitForm from hb ▸ hc.hit) head sect ho
  obtain ⟨hhead, hsect⟩ := DiskCache.key_toNat d.curCyl head sect
  have holds := hcache (hheads.valid_of_hit hhit)
  rw [beq_iff_eq.1 hhit, Disk.Holds, hhead, hsect] at holds
  exact holds

theorem CacheAt.buf_of_flashHit {f : Flash} {blk : BitVec 24} (hc : CacheAt s sl) (hb : s.body sl = .flash f)
    (ho : f.op = some (.read blk true)) : f.buf = f.block s.cfg.imageByteOrder blk := by
  have hcache : (DeviceBody.flash f).CacheForm s.cfg.imageByteOrder := hb ▸ hc.cache
  have hhit : f.hit blk = true := (show (DeviceBody.flash f).HitForm from hb ▸ hc.hit) blk ho
  have holds := hcache (Flash.valid_of_hit hhit)
  rw [beq_iff_eq.1 hhit, Flash.Holds, BitVec.toNat_setWidth_of_le (by decide)] at holds
  exact holds

/-- Settles O47: a hit sends the buffer, which is what the cache names. -/
theorem hitDeliversTheImage : Obligations.HitDeliversTheImage := by
  intro s sl fire n hs hw hm hcache hdisk hdma t
  have hc := cacheOk_iff.1 hcache sl
  refine ⟨fun d head sect hb ho => ?disk, fun f blk hb ho => ?flash⟩
  case disk =>
    have ht : t = diskDeliver sl d head sect s := (dispatch_disk fire n hb).trans (completeDisk_hit hs hw ho)
    rw [ht, diskDeliver_mem d head sect hb, hc.buf_of_diskHit hb (hdisk sl d hb) ho]
    exact State.dmaToMem_holdsBlock _ hm hdma
  case flash =>
    have ht : t = flashDeliver sl blk s := (dispatch_flash fire n hb).trans (completeFlash_hit hs hw ho)
    rw [ht, flashDeliver_mem blk hb, hc.buf_of_flashHit hb ho]
    exact State.dmaToMem_holdsBlock _ hm hdma

end Sys2Proof.Machine
end

section
/-! PROOFS. The flash: what its commands do when accepted, and what its completions leave. -/

namespace Sys2Proof.Machine

variable {s : State} {sl : Slot} {f : Flash} {blk : BitVec 24} {w : Word} {delta : Nat}
  {run : State → State}

/-! The commands of an idle flash (R1003, R1005). -/

/-- A command of an idle flash that starts an operation, in time (R512). -/
theorem flash_started {op : FlashOp} (hi : Idle s sl .single (.flash f))
    (hrun : run (s.setReg sl (cmdIdx .single) w) =
      (s.setReg sl (cmdIdx .single) w).beginOp sl .single (startFlash op) delta) (hd : InTime s delta) :
    ∃ t, s.accept .flash sl .single w run = .next t ∧
      Started s t sl .single w codeBusy (.flash { f with op := some op }) false delta :=
  accepted_begin id (startFlash op) (by rw [State.mapBody_id]; exact hrun) hi rfl rfl hd

/-- Settles O30: RESET starts an operation with the cache invalid, ACK acknowledges. -/
theorem flashResetAndAckAccepted : Obligations.FlashResetAndAckAccepted := by
  intro s sl ign f hi
  refine ⟨fun hd => ?reset, ?ack⟩
  case reset => exact accepted_begin (run := flashResetAccept sl) (setFlashCache maxU32) _ rfl hi rfl rfl hd
  case ack => exact accepted_ack (run := fun s => s.ackCmd sl .single) rfl hi rfl

/-! READBLK (R1002, R1006, R1007). -/

theorem flashReadAccept_outside (hb : s.body sl = .flash f) (ho : f.blocks ≤ blk.toNat) :
    flashReadAccept sl blk s = (s.mapBody sl (setFlashCache maxU32)).failNow sl .single codeFReadErr := by
  simp only [flashReadAccept, hb, if_pos ho]

/-- R1006: a READBLK in range starts a read, of the cached block or of another. -/
theorem flashReadAccept_inside (hb : s.body sl = .flash f) (ho : blk.toNat < f.blocks) :
    flashReadAccept sl blk s = s.beginOp sl .single (startFlash (.read blk (f.hit blk)))
      ((if f.hit blk then 0 else f.readTicks s.cfg) + s.cfg.dmaTicks) := by
  simp only [flashReadAccept, hb, if_neg (Nat.not_le.2 ho)]
  cases f.hit blk with
  | true => simp
  | false => rfl

/-- Settles O31: by the range and the cache. -/
theorem flashReadAccepted : Obligations.FlashReadAccepted := by
  intro s sl blk f hi miss
  have hb := hi.stored_body (wordP 2#8 blk)
  have inside (ho : blk.toNat < f.blocks) := flashReadAccept_inside hb ho
  refine ⟨fun ho => ?outside, fun ho hc hd => ?hit, fun ho hc hd => ?miss⟩
  case outside => exact accepted_fail _ (flashReadAccept_outside hb ho) hi rfl rfl
  case hit =>
    rw [show f.hit blk = true from beq_iff_eq.2 hc, if_pos rfl, Nat.zero_add] at inside
    exact flash_started hi (inside ho) hd
  case miss =>
    rw [show f.hit blk = false from beq_false_of_ne hc] at inside
    exact flash_started hi (inside ho) hd

/-! WRITEBLK (R1009). -/

/-- A change `fill` of the body by the block of a DMA from memory, after a change `clear` of it: what is left differs
from the state before both in the body and in the tape, and the port's answer and the block are that state's (R602). -/
theorem State.fillFromMem_spec (s : State) (sl : Slot) (clear : DeviceBody → DeviceBody)
    (fill : Block → DeviceBody → DeviceBody) (a : Word) :
    let r := (s.mapBody sl clear).dmaFromMem a
    r.1 = (s.decodeFails a 4096).1 ∧ r.2.1.length = 1024 ∧
      r.2.2.mapBody sl (fill r.2.1) = { s.mapBody sl (fill r.2.1 ∘ clear) with tape := r.2.2.tape } ∧
      ((s.decodeFails a 4096).1 = false →
        r.2.1 = s.mem.block a ∧ r.2.2.tape = (s.decodeFails a 4096).2.tape) := by
  intro r
  obtain ⟨hfailed, htape⟩ := State.decodeFails_congr (s := s) (t := s.mapBody sl clear) rfl rfl a 4096
  obtain ⟨hanswer, hlength, hstate, hread⟩ := (s.mapBody sl clear).dmaFromMem_spec a
  rw [hfailed] at hanswer hread
  rw [htape] at hread
  refine ⟨hanswer, hlength, ?_, hread⟩
  rw [← State.mapBody_mapBody]
  exact congrArg (fun u : State => u.mapBody sl (fill r.2.1)) hstate

theorem flashWriteAccept_outside (hb : s.body sl = .flash f) (ho : f.blocks ≤ blk.toNat) :
    flashWriteAccept sl blk s = (s.mapBody sl (setFlashCache maxU32)).failNow sl .single codeFWritErr := by
  simp only [flashWriteAccept, hb, if_pos ho]

/-- The state in which a WRITEBLK has filled the buffer of a flash with `buf`, its cache invalid (R1009). -/
def flashFilled (sl : Slot) (buf : Block) (tape : HostTape) (s : State) : State :=
  { s.mapBody sl (setFlashBuf buf ∘ setFlashCache maxU32) with tape := tape }

/-- R1009: what a WRITEBLK in range does, by whether the DMA fails; on success the buffer is memory's block. -/
theorem flashWriteAccept_inside (hb : s.body sl = .flash f) (ho : blk.toNat < f.blocks) :
    ∃ buf tape, buf.length = 1024 ∧
      ((s.decodeFails (s.reg sl 2) 4096).1 = true →
        flashWriteAccept sl blk s = (flashFilled sl buf tape s).failNow sl .single codeDmaErr) ∧
      ((s.decodeFails (s.reg sl 2) 4096).1 = false →
        flashWriteAccept sl blk s =
          (flashFilled sl buf tape s).beginOp sl .single (startFlash (.write blk)) (f.writeTicks s.cfg) ∧
        buf = s.mem.block (s.reg sl 2) ∧ tape = (s.decodeFails (s.reg sl 2) 4096).2.tape) := by
  have hreg : (s.mapBody sl (setFlashCache maxU32)).reg sl 2 = s.reg sl 2 := by
    simp only [State.reg, State.mapBody_dev, if_true]
  obtain ⟨hanswer, hlength, hfill, hread⟩ := s.fillFromMem_spec sl (setFlashCache maxU32) setFlashBuf (s.reg sl 2)
  refine ⟨_, _, hlength, fun hf => ?failed, fun hf => ⟨?begun, hread hf⟩⟩ <;>
    simp only [flashWriteAccept, hb, if_neg (Nat.not_le.2 ho), hreg, hanswer, hf, hfill, flashFilled, if_true,
      Bool.false_eq_true, if_false]

/-- Settles O32: by the range and the DMA. -/
theorem flashWriteAccepted : Obligations.FlashWriteAccepted := by
  intro s sl blk f hi w delta failed
  have hb := hi.stored_body w
  have hdata : (s.setReg sl (cmdIdx .single) w).reg sl 2 = s.reg sl 2 := State.setReg_cmd_data0 ..
  obtain ⟨hfailed, htape⟩ :=
    State.decodeFails_congr (s := s) (t := s.setReg sl (cmdIdx .single) w) rfl rfl (s.reg sl 2) 4096
  have inside (ho : blk.toNat < f.blocks) := flashWriteAccept_inside hb ho
  rw [hdata, hfailed, htape] at inside
  refine ⟨fun ho => ?outside, fun ho hf => ?dmaFailed, fun ho hf hd => ?begun⟩
  case outside => exact accepted_fail _ (flashWriteAccept_outside hb ho) hi rfl rfl
  case dmaFailed =>
    obtain ⟨buf, tape, -, hrun, -⟩ := inside ho
    obtain ⟨t, ht, haccepted, -, hevent⟩ := accepted_fail_tape tape _ (hrun hf) hi rfl rfl
    exact ⟨t, buf, ht, haccepted, hevent⟩
  case begun =>
    obtain ⟨buf, tape, hlength, -, hrun⟩ := inside ho
    obtain ⟨hrun, hblock, hdrawn⟩ := hrun hf
    obtain ⟨t, ht, haccepted, htape', hevent⟩ := accepted_begin_tape tape _ _ hrun hi rfl rfl hd
    exact ⟨t, buf, ht, haccepted, hevent, htape'.trans hdrawn, hlength, hblock ▸ s.mem.block_holds _⟩

/-! The completions of RESET and READBLK (R1004, R1008). -/

theorem completeFlash_reset (ho : f.op = some .reset) : completeFlash sl f s = s.finish sl .single codeReady := by
  simp only [completeFlash, ho]

theorem completeFlash_read {hit : Bool} (ho : f.op = some (.read blk hit)) :
    completeFlash sl f s = completeFlashRead sl f blk hit s := by
  simp only [completeFlash, ho]

theorem completeFlash_write (ho : f.op = some (.write blk)) :
    completeFlash sl f s = completeFlashWrite sl f blk s := by
  simp only [completeFlash, ho]

theorem completeFlashRead_broken {hit : Bool} (hw : s.working sl = false) :
    completeFlashRead sl f blk hit s = (s.mapBody sl (setFlashCache maxU32)).finish sl .single codeFReadErr := by
  simp [completeFlashRead, hw]

/-- A miss whose block cannot be read (R1011, R1016, log 23). -/
theorem completeFlashRead_unread (hw : s.working sl = true)
    (hio : s.drawIo.1 = true ∨ f.image.size < f.offBytes blk + 4096) :
    completeFlashRead sl f blk false s = s.drawIo.2.stop .imageReadFailed := by
  obtain ⟨hdrawn, hnone, -⟩ := s.fileRead_cases f.image (f.offBytes blk)
  simp [completeFlashRead, hw, flashLoad, hnone hio, hdrawn]

/-- The state in which a flash has a block in its buffer, after host answers were drawn. -/
def flashLoaded (sl : Slot) (buf : Block) (tape : HostTape) (s : State) : State :=
  State.mapBody { s with tape := tape } sl (setFlashBuf buf)

theorem flashLoaded_body (buf : Block) (tape : HostTape) (hb : s.body sl = .flash f) :
    (flashLoaded sl buf tape s).body sl = .flash { f with buf := buf } :=
  State.mapBody_flash (s := { s with tape := tape }) hb _

theorem flashLoaded_reg (buf : Block) (tape : HostTape) (i : Fin 4) :
    (flashLoaded sl buf tape s).reg sl i = s.reg sl i := by
  simp only [flashLoaded, State.reg, State.mapBody_dev, if_true]
  rfl

/-- A change of a body that leaves it leaves the state. -/
theorem State.mapBody_fixed {g : DeviceBody → DeviceBody} (hg : g (s.body sl) = s.body sl) : s.mapBody sl g = s :=
  (congrArg (fun b => s.setDev sl { s.dev sl with body := b }) hg).trans (State.setDev_dev s sl)

/-- A hit has its block in the buffer. -/
theorem flashLoaded_hit (hb : s.body sl = .flash f) : flashLoaded sl f.buf s.tape s = s :=
  State.mapBody_fixed (by rw [hb]; rfl)

theorem flashLoad_read (hio : s.drawIo.1 = false) (hsize : f.offBytes blk + 4096 ≤ f.image.size) :
    flashLoad sl f blk s = flashLoaded sl (f.block s.cfg.imageByteOrder blk) s.drawIo.2.tape s := by
  obtain ⟨hdrawn, -, hsome⟩ := s.fileRead_cases f.image (f.offBytes blk)
  simp only [flashLoad, hsome hio hsize, hdrawn]
  rw [flashLoaded, ← s.drawIo_tape, Flash.block]

/-- A read that reaches the DMA has the block in the buffer: a hit has had it, a miss has read it (R1008). -/
theorem completeFlashRead_loaded {hit : Bool} (hs : s.fatal = none) (hb : s.body sl = .flash f)
    (hw : s.working sl = true)
    (hload : hit = true ∨ s.drawIo.1 = false ∧ f.offBytes blk + 4096 ≤ f.image.size) :
    completeFlashRead sl f blk hit s =
      flashDeliver sl blk (flashLoaded sl (if hit then f.buf else f.block s.cfg.imageByteOrder blk)
        (if hit then s else s.drawIo.2).tape s) := by
  cases hit with
  | true => simp [completeFlashRead, hw, flashLoaded_hit hb, State.andThen_running hs]
  | false =>
    obtain ⟨hio, hsize⟩ := hload.resolve_left Bool.false_ne_true
    simp only [completeFlashRead, hw, if_true, Bool.false_eq_true, if_false, flashLoad_read hio hsize]
    exact State.andThen_running (by exact hs) _

/-- R1008: the end of a READBLK, by what the memory port answers. -/
theorem flashDeliver_loaded (buf : Block) (tape : HostTape) (hb : s.body sl = .flash f) :
    let r := (flashLoaded sl buf tape s).dmaToMem (s.reg sl 2) buf
    flashDeliver sl blk (flashLoaded sl buf tape s) =
      if ((flashLoaded sl buf tape s).decodeFails (s.reg sl 2) 4096).1 then
        (r.2.mapBody sl (setFlashCache maxU32)).finish sl .single codeDmaErr
      else (r.2.mapBody sl (setFlashCache (blk.setWidth 32))).finish sl .single codeReady := by
  rw [← ((flashLoaded sl buf tape s).dmaToMem_spec (s.reg sl 2) buf).1]
  simp only [flashDeliver, flashLoaded_body buf tape hb, flashBuf, flashLoaded_reg]

/-- R1008: the end of a READBLK whose DMA fails. -/
theorem flashDelivered_failed (buf : Block) (tape : HostTape) (hs : s.fatal = none) (hb : s.body sl = .flash f)
    (hdma : ((flashLoaded sl buf tape s).decodeFails (s.reg sl 2) 4096).1 = true) :
    let t := flashDeliver sl blk (flashLoaded sl buf tape s)
    Completed s t sl .single (s.regsWith sl 0 codeDmaErr)
        (.flash { f with buf := buf, cacheBlk := maxU32, op := none }) [] ∧
      SameOutside s t (s.reg sl 2) 4096 ∧ NoEvent s t ∧ t.net = s.net := by
  simp only [flashDeliver_loaded buf tape hb, hdma, if_true]
  obtain ⟨hcompleted, houtside, hevent, hnet, -⟩ := completed_dma (h := .single) tape (setFlashCache maxU32)
    (setFlashBuf buf) (s.reg sl 2) buf codeDmaErr hs hb
  exact ⟨hcompleted, houtside, hevent, hnet⟩

/-- R1008: the end of a READBLK whose block reaches memory. -/
theorem flashDelivered_sent (buf : Block) (tape : HostTape) (hs : s.fatal = none) (hb : s.body sl = .flash f)
    (hm : s.mem.wf) (hdma : ((flashLoaded sl buf tape s).decodeFails (s.reg sl 2) 4096).1 = false) :
    let t := flashDeliver sl blk (flashLoaded sl buf tape s)
    Completed s t sl .single (s.regsWith sl 0 codeReady)
        (.flash { f with buf := buf, cacheBlk := blk.setWidth 32, op := none }) [] ∧
      HoldsBlock t.mem (s.reg sl 2) buf ∧ SameOutside s t (s.reg sl 2) 4096 ∧ NoEvent s t ∧ t.net = s.net ∧
      t.tape = ((flashLoaded sl buf tape s).decodeFails (s.reg sl 2) 4096).2.tape := by
  simp only [flashDeliver_loaded buf tape hb, hdma, Bool.false_eq_true, if_false]
  obtain ⟨hcompleted, houtside, hevent, hnet, htape⟩ := completed_dma (h := .single) tape
    (setFlashCache (blk.setWidth 32)) (setFlashBuf buf) (s.reg sl 2) buf codeReady hs hb
  refine ⟨hcompleted, ?_, houtside, hevent, hnet, htape.trans (State.dmaToMem_tape buf hdma)⟩
  rw [State.finish_mem, State.mapBody_mem]
  exact State.dmaToMem_holdsBlock buf hm hdma

/-- Settles O33: by the operation, whether the flash works, whether the block is in the buffer, and the DMA. -/
theorem flashResetAndReadCompletions : Obligations.FlashResetAndReadCompletions := by
  intro s sl f fire n hs hb hm _ t
  have ht : t = completeFlash sl f s := dispatch_flash fire n hb
  refine ⟨fun ho => ?reset, ?read⟩
  case reset =>
    rw [ht, completeFlash_reset ho]
    exact completed_unchanged _ hs hb
  case read =>
    intro blk hit ho off io base buf dma
    have hbase : base.cfg = s.cfg := by
      cases hit with
      | true => rfl
      | false => exact (congrArg State.cfg s.drawIo_tape :)
    obtain ⟨hfailed, htape⟩ := State.decodeFails_congr (s := base) (t := flashLoaded sl buf base.tape s) hbase.symm rfl
      (s.reg sl 2) 4096
    have hread : t = completeFlashRead sl f blk hit s := ht.trans (completeFlash_read ho)
    have hdelivered (hw : s.working sl = true) (hload : hit = true ∨ io.1 = false ∧ off + 4096 ≤ f.image.size) :
        t = flashDeliver sl blk (flashLoaded sl buf base.tape s) :=
      hread.trans (completeFlashRead_loaded hs hb hw hload)
    clear_value t
    refine ⟨fun hw => ?broken, fun hw hhit hio => ?unread, fun hw hload hdma => ?failed, fun hw hload hdma => ?sent⟩
    case broken =>
      rw [hread, completeFlashRead_broken hw]
      exact completed_quiet s.tape _ _ hs hb
    case unread =>
      subst hhit
      rw [hread, completeFlashRead_unread hw hio]
      rfl
    case failed =>
      rw [hdelivered hw hload]
      exact flashDelivered_failed buf base.tape hs hb (hfailed.trans hdma)
    case sent =>
      rw [hdelivered hw hload, ← htape]
      exact flashDelivered_sent buf base.tape hs hb hm (hfailed.trans hdma)

/-! The completion of WRITEBLK (R1010, R1011). -/

theorem completeFlashWrite_broken (hw : s.working sl = false) :
    completeFlashWrite sl f blk s = (s.mapBody sl (setFlashCache maxU32)).finish sl .single codeFWritErr := by
  simp [completeFlashWrite, hw]

/-- A failed write is fatal and stores nothing (R1016, log 23). -/
theorem completeFlashWrite_unwritten (hw : s.working sl = true) (hio : s.drawIo.1 = true) :
    ∃ tape, completeFlashWrite sl f blk s = State.stop .imageWriteFailed { s with tape := tape } := by
  obtain ⟨hstate, hnone, -⟩ := s.fileWrite_spec f.image (f.offBytes blk) f.buf
  refine ⟨(s.fileWrite f.image (f.offBytes blk) f.buf).2.tape, ?_⟩
  simp only [completeFlashWrite, hw, if_true, hnone hio]
  rw [← hstate]

/-- A write that succeeds gives the flash the image with its buffer at the block's place (R1010, log 8). -/
theorem completeFlashWrite_written (hw : s.working sl = true) (hio : s.drawIo.1 = false) :
    ∃ gap tape, completeFlashWrite sl f blk s =
      (State.mapBody { s with tape := tape } sl (onFlash fun x => { x with
        image := f.image.putBlock s.cfg.imageByteOrder (f.offBytes blk) f.buf gap
        cacheBlk := blk.setWidth 32 })).finish sl .single codeReady := by
  obtain ⟨hstate, -, hsome⟩ := s.fileWrite_spec f.image (f.offBytes blk) f.buf
  obtain ⟨gap, hput⟩ := hsome hio
  refine ⟨gap, (s.fileWrite f.image (f.offBytes blk) f.buf).2.tape, ?_⟩
  simp only [completeFlashWrite, hw, if_true, hput]
  rw [← hstate]

/-- Settles O34: by whether the flash works and the file can be written. -/
theorem flashWriteCompletion : Obligations.FlashWriteCompletion := by
  intro s sl f blk fire n hs hb ho hwf hbuf t off
  have ht : t = completeFlashWrite sl f blk s := (dispatch_flash fire n hb).trans (completeFlash_write ho)
  clear_value t
  rw [ht]
  refine ⟨fun hw => ?broken, fun hw hio => ?unwritten, fun hw hio => ?written⟩
  case broken =>
    rw [completeFlashWrite_broken hw]
    exact completed_quiet s.tape _ _ hs hb
  case unwritten =>
    obtain ⟨tape, hstopped⟩ := completeFlashWrite_unwritten (f := f) (blk := blk) hw hio
    rw [hstopped]
    exact ⟨rfl, rfl, fun _ => rfl⟩
  case written =>
    obtain ⟨gap, tape, hwritten⟩ := completeFlashWrite_written (f := f) (blk := blk) hw hio
    rw [hwritten]
    obtain ⟨hcompleted, hquiet⟩ := completed_quiet (h := .single) tape (onFlash fun x => { x with
      image := f.image.putBlock s.cfg.imageByteOrder off f.buf gap
      cacheBlk := blk.setWidth 32 }) codeReady hs hb
    exact ⟨_, File.blockAt_putBlock hwf _ _ _ _ hbuf, fun k hk => File.putBlock_outside f.image _ _ _ _ k hk,
      File.putBlock_size f.image _ _ _ _, hcompleted, hquiet.memory, hquiet.event, hquiet.net⟩

end Sys2Proof.Machine
end

section
/-! PROOFS. The ethernet device: what its commands do when accepted, what its completions leave, and what the poll
does. -/

namespace Sys2Proof.Machine

variable {s t u : State} {sl : Slot} {e : Eth} {w : Word} {body : DeviceBody} {tape : HostTape} {h : Sub}

/-! The timed commands (R1103, R1106, R1108, R1110, R1112). -/

/-- A command that starts an operation of an idle ethernet device for a number of microseconds, in time (R512). -/
theorem eth_started (o : EthOp) (micros : Config → Nat) (w : Word) (hi : Idle s sl .single (.eth e))
    (hd : InTime s (micros s.cfg * s.cfg.clockRate)) :
    ∃ t, (s.accept .eth sl .single w fun s =>
        s.beginOp sl .single (startEth o) (micros s.cfg * s.cfg.clockRate)) = .next t ∧
      Started s t sl .single w ((s.reg sl 0 &&& 0x80#32) ||| codeBusy) (.eth { e with op := some o }) false
        (micros s.cfg * s.cfg.clockRate) :=
  accepted_begin id (startEth o) (by rw [State.mapBody_id]; rfl) hi rfl rfl hd

/-- Settles O35: the five commands differ in the operation they record and in its latency. -/
theorem ethernetTimedCommandsAccepted : Obligations.EthernetTimedCommandsAccepted := fun _ _ _ _ hi =>
  ⟨eth_started .reset Config.ethResetTime _ hi, eth_started .readConf Config.ethReadConfTime _ hi,
    eth_started .readNet Config.ethReadNetTime _ hi, eth_started .writeNet Config.ethWriteNetTime _ hi,
    eth_started .configure Config.ethConfigureTime _ hi⟩

/-! Arming the poll after other changes (R1120). -/

/-- The ethernet device with its poll armed if it is in interrupt mode. -/
def Eth.withPoll (c : Config) (e : Eth) : Eth := { e with pollArmed := e.pollArmed || e.polls c }

/-- Arming the poll touches its slot and the queue only. -/
theorem armPoll_kept (hb : s.body sl = .eth e) (hs : s.fatal = none) (hd : InTime s (pollTicks s.cfg)) :
    (armPoll sl s).pend = s.pend ∧ (armPoll sl s).trace = s.trace ∧ (armPoll sl s).returned = s.returned ∧
      (armPoll sl s).fatal = none ∧ (armPoll sl s).mem = s.mem ∧ (armPoll sl s).net = s.net ∧
      (armPoll sl s).tape = s.tape := by
  obtain ⟨-, hrest, -⟩ := armPoll_spec hb hs hd
  have kept {α : Type} (g : State → α) :
      g { armPoll sl s with slots := s.slots, queue := s.queue, seq := s.seq } = g s := congrArg g hrest
  exact ⟨kept State.pend, kept State.trace, kept State.returned, (kept State.fatal).trans hs, kept State.mem,
    kept State.net, kept State.tape⟩

theorem armPoll_onlySlot (s : State) (sl : Slot) : OnlySlot sl s (armPoll sl s) := local_armPoll.others

/-- A poll armed in a state with the clock and the queue of another is armed in that one's terms. -/
theorem Armed.of_noEvent (ha : Armed u t sl e) (hcfg : u.cfg = s.cfg) (htod : u.tod = s.tod) (hev : NoEvent s u) :
    Armed s t sl e := by
  obtain ⟨hqueue, hseq⟩ := hev
  rw [Armed, OneEvent, NoEvent] at ha ⊢
  rwa [hcfg, htod, hqueue, hseq] at ha

/-- In interrupt mode with no poll armed, arming schedules one (R1120). -/
theorem Armed.oneEvent (ha : Armed s t sl e) (hp : e.polls s.cfg = true) (hn : e.pollArmed = false) :
    OneEvent s t sl .poll (pollTicks s.cfg) := by
  rwa [Armed, hp, hn, if_pos (by decide)] at ha

/-- An accepted command that ends by arming the poll. -/
theorem Accepted.armPoll {status : Word} {bit : Bool} (ha : Accepted s u sl h w status (.eth e) bit)
    (hd : InTime s (pollTicks s.cfg)) :
    Accepted s (armPoll sl u) sl h w status (.eth (e.withPoll s.cfg)) bit ∧ (armPoll sl u).tape = u.tape ∧
      (NoEvent s u → Armed s (armPoll sl u) sl e) := by
  have hb : u.body sl = .eth e := congrArg Device.body ha.dev
  have hcfg := ha.others.cfg
  have hd' : InTime u (pollTicks u.cfg) := by rwa [InTime, ha.others.tod, hcfg]
  obtain ⟨hdev, -, harmed⟩ := armPoll_spec hb ha.running hd'
  obtain ⟨hpend, htrace, hreturned, hfatal, hmem, hnet, htape⟩ := armPoll_kept hb ha.running hd'
  refine ⟨⟨?_, ?_, htrace.trans ha.trace, hfatal, ha.others.trans (armPoll_onlySlot u sl), ?_, hnet.trans ha.net,
    hreturned.trans ha.returned⟩, htape, harmed.of_noEvent hcfg ha.others.tod⟩
  · rw [hdev, if_pos rfl, ha.dev, hcfg]
    rfl
  · rw [State.pendBit_congr sl hpend, ha.bit]
  · intro a
    rw [hmem, ha.memory]

/-- A completion that ends by arming the poll. -/
theorem Completed.armPoll {regs : Vector Word 4} {signals : List Signal}
    (hc : Completed s u sl h regs (.eth e) signals) (hd : InTime s (pollTicks s.cfg)) :
    Completed s (armPoll sl u) sl h regs (.eth (e.withPoll s.cfg)) signals ∧ (armPoll sl u).mem = u.mem ∧
      (armPoll sl u).net = u.net ∧ (armPoll sl u).tape = u.tape ∧ (NoEvent s u → Armed s (armPoll sl u) sl e) := by
  have hb : u.body sl = .eth e := congrArg Device.body hc.dev
  have hcfg := hc.others.cfg
  have hd' : InTime u (pollTicks u.cfg) := by rwa [InTime, hc.others.tod, hcfg]
  obtain ⟨hdev, -, harmed⟩ := armPoll_spec hb hc.running hd'
  obtain ⟨hpend, htrace, hreturned, hfatal, hmem, hnet, htape⟩ := armPoll_kept hb hc.running hd'
  refine ⟨⟨?_, ?_, htrace.trans hc.trace, hreturned.trans hc.returned, hfatal,
    hc.others.trans (armPoll_onlySlot u sl)⟩, hmem, hnet, htape, harmed.of_noEvent hcfg hc.others.tod⟩
  · rw [hdev, if_pos rfl, hc.dev, hcfg]
    rfl
  · rw [State.pendBit_congr sl hpend, hc.bit]

/-! ACK (R1105). -/

/-- What ACK leaves before it arms the poll: the status word written whole, the request acknowledged. -/
theorem eth_acknowledged (w : Word) (hi : Idle s sl .single (.eth e)) :
    let u := ((s.setReg sl (cmdIdx .single) w).irqAck sl).putStatus sl .single codeReady
    Accepted s u sl .single w codeReady (.eth e) false ∧ u.tape = s.tape ∧ NoEvent s u := by
  have hb : (s.dev sl).body = .eth e := hi.body
  intro u
  have hdev (x : Slot) : u.dev x =
      if x = sl then
        { regs := putReg (putReg (s.dev sl).regs (cmdIdx .single) w) (statusIdx .single) codeReady,
          working := (s.dev sl).working, body := .eth e }
      else s.dev x := by
    simp only [u, State.putStatus_dev, State.irqAck_dev, State.setReg_dev, putReg, if_true, hb]
    split <;> rfl
  have hbit (x : Slot) : u.pendBit x = (!decide (x = sl) && s.pendBit x) := by
    simp only [u, State.putStatus_pendBit, State.irqAck_pendBit, State.setReg_pendBit]
  refine ⟨⟨?_, ?_, rfl, hi.running, ⟨fun x hx => ?_, fun x hx => ?_, rfl, rfl, rfl, rfl⟩, fun _ => rfl, rfl, rfl⟩, rfl,
    rfl, rfl⟩
  · exact (hdev sl).trans (if_pos rfl)
  · simp [hbit]
  · exact (hdev x).trans (if_neg hx)
  · simp [hbit, hx]

/-- Settles O36: ACK acknowledges with the status word written whole, then arms the poll. -/
theorem ethernetAckAccepted : Obligations.EthernetAckAccepted := by
  intro s sl ign e hi hd
  obtain ⟨hacked, htape, hevent⟩ := eth_acknowledged (encode (.ethAck sl ign)) hi
  obtain ⟨haccepted, htape', harmed⟩ := hacked.armPoll hd
  have hk : s.kind sl = some .eth := congrArg DeviceBody.kind hi.body
  exact ⟨_, State.accept_idle hi.running hk hi.idle _ (ethAckAccept sl), haccepted, htape'.trans htape, harmed hevent⟩

/-! Completions. -/

theorem dispatch_eth (fire : Time) (n : Nat) (hb : s.body sl = .eth e) :
    dispatch (completion fire n sl) s = completeEth sl e s := by
  simp [dispatch, completion, hb]

/-- A change of an ethernet device writes its body. -/
theorem State.mapBody_eth (hb : s.body sl = .eth e) (g : Eth → Eth) :
    s.mapBody sl (onEth g) = s.setDev sl { s.dev sl with body := .eth (g e) } := by
  have hb' : (s.dev sl).body = .eth e := hb
  simp only [State.mapBody, hb', onEth]

/-- A state in which an ethernet completion is about to finish: it may have written memory, called the interface, drawn
answers and written its slot. -/
def ethWorked (sl : Slot) (regs : Vector Word 4) (e : Eth) (mem : Memory) (net : List NetCall) (tape : HostTape)
    (s : State) : State :=
  State.setDev { s with mem := mem, net := net, tape := tape } sl
    { regs := regs, working := (s.dev sl).working, body := .eth e }

/-- Writing another register keeps the status. -/
theorem putReg_status {regs : Vector Word 4} {i : Fin 4} {v : Word} (hi : i ≠ 0) : (putReg regs i v)[0] = regs[0] :=
  Vector.getElem_set_ne _ _ fun hv => hi (Fin.ext hv)

/-- What an ethernet completion leaves: READPENDING is kept (R513, R514). -/
theorem eth_finished {regs : Vector Word 4} {mem : Memory} {net : List NetCall} (hs : s.fatal = none)
    (hstatus : regs[0] = s.reg sl 0) (ht : t = (ethWorked sl regs e mem net tape s).finish sl .single w) :
    Completed s t sl .single (putReg regs 0 ((s.reg sl 0 &&& 0x80#32) ||| w)) (.eth { e with op := none }) [] ∧
      NoEvent s t ∧ t.mem = mem ∧ t.net = net ∧ t.tape = tape := by
  subst ht
  rw [← hstatus]
  have hdev (x : Slot) : (ethWorked sl regs e mem net tape s).dev x =
      if x = sl then { regs := regs, working := (s.dev sl).working, body := .eth e } else s.dev x :=
    State.dev_setDev ..
  have hcompleted := completed_finish (h := .single) (u := ethWorked sl regs e mem net tape s) (w := w)
    ((hdev sl).trans (if_pos rfl)) (fun x hx => (hdev x).trans (if_neg hx)) rfl (List.append_nil s.trace).symm hs
    rfl rfl rfl rfl
  exact ⟨hcompleted, by simp [NoEvent, ethWorked], by simp [ethWorked], by simp [ethWorked], by simp [ethWorked]⟩

/-- A completion that leaves its slot to its end. -/
theorem ethWorked_slot (hb : s.body sl = .eth e) (mem : Memory) (net : List NetCall) (tape : HostTape) :
    ethWorked sl (s.dev sl).regs e mem net tape s = { s with mem := mem, net := net, tape := tape } := by
  have hb' : (s.dev sl).body = .eth e := hb
  rw [ethWorked, ← hb']
  exact State.setDev_dev { s with mem := mem, net := net, tape := tape } sl

/-- A change of the device before its completion ends. -/
theorem ethWorked_mapBody (regs : Vector Word 4) (mem : Memory) (net : List NetCall) (tape : HostTape) (g : Eth → Eth) :
    (ethWorked sl regs e mem net tape s).mapBody sl (onEth g) = ethWorked sl regs (g e) mem net tape s := by
  simp only [State.mapBody, ethWorked, State.dev_setDev_same, State.setDev_setDev, onEth]

theorem ethWorked_reg (regs : Vector Word 4) (mem : Memory) (net : List NetCall) (tape : HostTape) (i : Fin 4) :
    (ethWorked sl regs e mem net tape s).reg sl i = regs[i] := by
  simp only [State.reg, ethWorked, State.dev_setDev_same]

/-- A status word written whole, the request raised and index 0 reported, after the body was changed by `f` and host
answers were drawn (R1104, R1118). -/
theorem eth_wholeStatus (tape : HostTape) (f : DeviceBody → DeviceBody) (w : Word) (hs : s.fatal = none)
    (hb : s.body sl = body) :
    let t := (((State.mapBody { s with tape := tape } sl f).putStatus sl .single w).irqRaise sl).report 0
    Completed s t sl .single (s.regsWith sl 0 w) (f body) [] ∧ Quiet s t tape := by
  have hb' : (s.dev sl).body = body := hb
  intro t
  have hdev (x : Slot) : t.dev x =
      if x = sl then { regs := s.regsWith sl 0 w, working := (s.dev sl).working, body := f body } else s.dev x := by
    simp only [t, State.report_dev, State.irqRaise_dev, State.putStatus_dev, State.mapBody_dev, tape_dev, if_true, hb']
    split <;> rfl
  have hbit (x : Slot) : t.pendBit x = (decide (x = sl) || s.pendBit x) := by
    simp only [t, State.report_pendBit, State.irqRaise_pendBit, State.putStatus_pendBit, State.mapBody_pendBit,
      tape_pendBit]
  refine ⟨⟨(hdev sl).trans (if_pos rfl), ?_, ?_, rfl, hs, ⟨fun x hx => (hdev x).trans (if_neg hx), fun x hx => ?_, rfl,
    rfl, rfl, rfl⟩⟩, fun _ => rfl, ⟨rfl, rfl⟩, rfl, rfl⟩
  · simp [hbit]
  · rw [List.append_nil]
    rfl
  · simp [hbit, hx]

theorem State.report_schedule (s : State) (sl : Slot) (i : Fin 4) (k : EventKind) (delta : Nat) :
    (s.report i).schedule sl k delta = (s.schedule sl k delta).report i := by
  unfold State.schedule
  split
  · next hd => exact (if_pos hd).symm ▸ rfl
  · next hd => exact (if_neg hd).symm ▸ rfl

/-- Arming the poll and reporting an index may be done in either order. -/
theorem armPoll_report (i : Fin 4) (hb : s.body sl = .eth e) (hs : s.fatal = none) (hd : InTime s (pollTicks s.cfg)) :
    (armPoll sl s).andThen (fun s => s.report i) = armPoll sl (s.report i) := by
  have hb' : (s.report i).body sl = .eth e := hb
  obtain ⟨-, -, -, hfatal, -⟩ := armPoll_kept hb hs hd
  rw [State.andThen_running hfatal]
  unfold armPoll
  rw [hb, hb', State.report_cfg]
  by_cases hp : (e.polls s.cfg && !e.pollArmed) = true
  · simp only [hp, if_true]
    rw [State.report_schedule, State.schedule_inTime sl .poll hd, State.andThen_running (by exact hs),
      State.andThen_running (by exact hs)]
    rfl
  · simp only [hp, Bool.false_eq_true, if_false]

/-! RESET (R1104). -/

theorem completeEth_reset (ho : e.op = some .reset) : completeEth sl e s = completeEthReset sl s := by
  simp only [completeEth, ho]

theorem State.putStatus_mapBody (s : State) (sl : Slot) (h : Sub) (w : Word) (f : DeviceBody → DeviceBody) :
    (s.putStatus sl h w).mapBody sl f = (s.mapBody sl f).putStatus sl h w :=
  congrArg (fun u : State => u.emit (.statusChanged sl)) (State.setReg_mapBody s sl w (statusIdx h) f)

/-- RESET empties the packet buffer and is over (R1104). -/
def ethCleared : DeviceBody → DeviceBody := clearOp .single ∘ onEth fun e => { e with pktbuf := [] }

/-- RESET ends with the status word written whole, and then the poll is armed (R1104, R1120). -/
theorem completeEthReset_eq (hs : s.fatal = none) (hb : s.body sl = .eth e) (hd : InTime s (pollTicks s.cfg)) :
    completeEthReset sl s =
      armPoll sl ((((s.mapBody sl ethCleared).putStatus sl .single codeReady).irqRaise sl).report 0) := by
  obtain ⟨hwritten, -⟩ := eth_wholeStatus s.tape ethCleared codeReady hs hb
  simp only [completeEthReset]
  rw [State.putStatus_mapBody, State.mapBody_mapBody]
  exact armPoll_report 0 (congrArg Device.body hwritten.dev) hs hd

/-- Settles O37: the status word is written whole, and then the poll is armed. -/
theorem ethernetResetCompletion : Obligations.EthernetResetCompletion := by
  intro s sl e fire n hs hb ho hd t
  have ht : t = _ := (dispatch_eth fire n hb).trans ((completeEth_reset ho).trans (completeEthReset_eq hs hb hd))
  clear_value t
  obtain ⟨hwritten, hquiet⟩ := eth_wholeStatus s.tape ethCleared codeReady hs hb
  obtain ⟨hcompleted, hmem, hnet, htape, harmed⟩ := hwritten.armPoll hd
  rw [ht]
  exact ⟨hcompleted, fun a => by rw [hmem]; exact hquiet.memory a, hnet.trans hquiet.net, htape.trans hquiet.tape,
    harmed hquiet.event⟩

/-! READCONF (R1107). -/

/-- READCONF writes both data registers before it ends (R1107). -/
theorem completeReadConf_eq (hb : s.body sl = .eth e) :
    completeReadConf sl e s =
      (ethWorked sl (putReg (putReg (s.dev sl).regs 2 (confData0 e.mode e.mac)) 3 (confData1 e.mac)) e s.mem s.net
        s.tape s).finish sl .single codeReady := by
  have hb' : (s.dev sl).body = .eth e := hb
  simp only [completeReadConf, State.setReg, State.setDev_setDev, State.dev_setDev_same, hb']
  rfl

/-- A mode without SETMAC leaves the bits of DATA0 above the mode 0 (R1107). -/
theorem confData0_high {mode : Byte} (mac : Mac) (hm : mode.getLsbD 7 = false) :
    (confData0 mode mac).extractLsb' 23 9 = 0#9 := by
  obtain ⟨m0, m1, -, -, -, -⟩ := mac
  simp only [confData0]
  have hbit : mode[7] = false := hm
  refine BitVec.eq_of_getLsbD_eq fun i hi => ?_
  interval_cases i <;> simp [hbit]

theorem completeEth_readConf (ho : e.op = some .readConf) : completeEth sl e s = completeReadConf sl e s := by
  simp only [completeEth, ho]

/-- Settles O38: the two data registers are written, and the device finishes with READY. -/
theorem ethernetReadConfCompletion : Obligations.EthernetReadConfCompletion := by
  intro s sl e fire n hs hb ho t d0 d1
  have ht : t = _ := (dispatch_eth fire n hb).trans ((completeEth_readConf ho).trans (completeReadConf_eq hb))
  obtain ⟨hcompleted, hevent, hmem, hnet, htape⟩ := eth_finished hs (by
    rw [putReg_status (by decide), putReg_status (by decide)]
    rfl) ht
  exact ⟨hcompleted, ⟨fun a => by rw [hmem], hevent, hnet, htape⟩, confData0_high e.mac⟩

/-! CONFIGURE (R1109). -/

theorem completeEth_configure (ho : e.op = some .configure) : completeEth sl e s = completeConfigure sl e s := by
  simp only [completeEth, ho]

/-- SETMAC is bit 23 of DATA0 (R318). -/
theorem setsMac_configMode (d0 : Word) : setsMac (configMode d0) = d0.getLsbD 23 := by
  simp [setsMac, configMode]

/-- The ethernet device with the mode, and the MAC if SETMAC asks for it, of the data registers (R1109). -/
def Eth.configured (d0 d1 : Word) (e : Eth) : Eth :=
  { e with mode := configMode d0 &&& 0x7F#8, mac := if setsMac (configMode d0) then configMac d0 d1 else e.mac }

theorem completeConfigure_eq (hb : s.body sl = .eth e) :
    let e' := e.configured (s.reg sl 2) (s.reg sl 3)
    completeConfigure sl e s =
      armPoll sl ((ethWorked sl (s.dev sl).regs e' s.mem (s.net ++ [.configure sl e'.mode e'.mac]) s.tape s).finish sl
        .single codeReady) := by
  simp only [completeConfigure]
  rw [State.mapBody_eth hb]
  rfl

/-- Settles O39: the device is configured and finishes, and then the poll is armed for the new mode. -/
theorem ethernetConfigureCompletion : Obligations.EthernetConfigureCompletion := by
  intro s sl e fire n hs hb ho hd t d0 d1 mode mac e'
  have ht : t = _ := (dispatch_eth fire n hb).trans ((completeEth_configure ho).trans (completeConfigure_eq hb))
  have he : { e.configured d0 d1 with op := none } = e' := by
    simp only [Eth.configured, setsMac_configMode]
    rfl
  have hcall : (e.configured d0 d1).mode = mode ∧ (e.configured d0 d1).mac = mac :=
    ⟨congrArg Eth.mode he, congrArg Eth.mac he⟩
  obtain ⟨hfinished, hevent, hmem, hnet, htape⟩ := eth_finished (sl := sl) (regs := (s.dev sl).regs)
    (e := e.configured d0 d1) (mem := s.mem) (net := s.net ++ [.configure sl (e.configured d0 d1).mode
      (e.configured d0 d1).mac]) (tape := s.tape) (w := codeReady) hs rfl rfl
  rw [he] at hfinished
  obtain ⟨hcompleted, hmem', hnet', htape', harmed⟩ := hfinished.armPoll hd
  clear_value t
  rw [ht]
  refine ⟨hcompleted, fun a => ?_, (hnet'.trans hnet).trans ?_, htape'.trans htape, harmed hevent⟩
  · rw [hmem', hmem]
  · rw [hcall.1, hcall.2]

/-! WRITENET (R1111). -/

theorem completeEth_writeNet (ho : e.op = some .writeNet) : completeEth sl e s = completeWriteNet sl s := by
  simp only [completeEth, ho]

theorem completeWriteNet_broken (h : s.working sl = false ∨ s.cfg.ethMaxPacket < (s.reg sl 3).toNat) :
    completeWriteNet sl s = s.finish sl .single codeDWritErr :=
  if_pos (by simpa using h)

/-- The interface's answer does not depend on the calls made to it before. -/
theorem State.callNet_drawSent (s : State) (c : NetCall) :
    (s.callNet c).drawSent = (s.drawSent.1, s.drawSent.2.callNet c) := by
  unfold State.drawSent
  rw [State.callNet_tape]
  split <;> rfl

/-- Two changes of the tape are one. -/
theorem State.tape_trans (ht : t = { s with tape := t.tape }) (hu : u = { t with tape := u.tape }) :
    u = { s with tape := u.tape } :=
  hu.trans (congrArg (fun v : State => { v with tape := u.tape }) ht)

section WriteNet

variable (hb : s.body sl = .eth e) (hw : s.working sl = true) (hlen : (s.reg sl 3).toNat ≤ s.cfg.ethMaxPacket)

include hb hw hlen

/-- A WRITENET whose DMA fails sends nothing. -/
theorem completeWriteNet_failed (hdma : (s.decodeFails (s.reg sl 2) (s.reg sl 3).toNat).1 = true) :
    ∃ tape, completeWriteNet sl s =
      (ethWorked sl (s.dev sl).regs e s.mem s.net tape s).finish sl .single codeDmaErr := by
  obtain ⟨hanswer, hstate, -⟩ := s.dmaFromMemN_spec (s.reg sl 2) (s.reg sl 3).toNat
  refine ⟨(s.dmaFromMemN (s.reg sl 2) (s.reg sl 3).toNat).2.2.tape, ?_⟩
  simp only [completeWriteNet, hw, Nat.not_lt.2 hlen, hanswer, hdma, if_true]
  rw [ethWorked_slot hb, ← hstate]
  simp

/-- A WRITENET whose DMA succeeds sends the bytes of memory, and ends by how many the interface took. -/
theorem completeWriteNet_sent (hdma : (s.decodeFails (s.reg sl 2) (s.reg sl 3).toNat).1 = false) :
    let q := (s.decodeFails (s.reg sl 2) (s.reg sl 3).toNat).2.drawSent
    completeWriteNet sl s =
      (ethWorked sl (s.dev sl).regs e s.mem
        (s.net ++ [.send sl (s.mem.readBytes (s.reg sl 2) (s.reg sl 3).toNat)]) q.2.tape s).finish sl .single
        (if q.1 = (s.reg sl 3).toNat then codeReady else codeDWritErr) := by
  intro q
  obtain ⟨hanswer, -, hread⟩ := s.dmaFromMemN_spec (s.reg sl 2) (s.reg sl 3).toNat
  obtain ⟨hbytes, hstate⟩ := hread hdma
  have hq : q.2 = { s with tape := q.2.tape } :=
    State.tape_trans (s.decodeFails_tape (s.reg sl 2) (s.reg sl 3).toNat) (State.drawSent_tape _)
  have hcalled (c : NetCall) : q.2.callNet c = ethWorked sl (s.dev sl).regs e s.mem (s.net ++ [c]) q.2.tape s := by
    rw [ethWorked_slot hb]
    exact congrArg (State.callNet · c) hq
  rw [← hcalled]
  simp only [completeWriteNet, hw, Nat.not_lt.2 hlen, hanswer, hdma, hbytes, hstate, State.callNet_drawSent,
    Bool.not_true, decide_false, Bool.or_false, Bool.false_eq_true, if_false]
  split <;> rfl

end WriteNet

/-- Settles O41: by whether the device works and the length is legal, the DMA, and how much the interface took. -/
theorem ethernetWriteNetCompletion : Obligations.EthernetWriteNetCompletion := by
  intro s sl e fire n hs hb ho t len dma ends
  have ht : t = completeWriteNet sl s := (dispatch_eth fire n hb).trans (completeEth_writeNet ho)
  clear_value t
  refine ⟨fun h => ?broken, fun hw hlen hdma => ?failed, fun hw hlen hdma => ?sent⟩
  case broken =>
    rw [completeWriteNet_broken h] at ht
    subst ht
    exact completed_unchanged _ hs hb
  case failed =>
    obtain ⟨tape, hrun⟩ := completeWriteNet_failed hb hw hlen hdma
    obtain ⟨hcompleted, hevent, hmem, hnet, -⟩ := eth_finished hs rfl (ht.trans hrun)
    exact ⟨hcompleted, fun a => by rw [hmem], hevent, hnet⟩
  case sent =>
    obtain ⟨hcompleted, hevent, hmem, hnet, htape⟩ :=
      eth_finished hs rfl (ht.trans (completeWriteNet_sent hb hw hlen hdma))
    refine ⟨s.mem.readBytes (s.reg sl 2) len, s.mem.readBytes_length _ _, s.mem.readBytes_holds _ _, hnet,
      fun hall => ?_, fun hshort => ?_, fun a => by rw [hmem], hevent, htape⟩
    · rwa [if_pos hall] at hcompleted
    · rwa [if_neg hshort] at hcompleted

/-! READNET (R1113). -/

theorem completeEth_readNet (ho : e.op = some .readNet) : completeEth sl e s = completeReadNet sl s := by
  simp only [completeEth, ho]

theorem completeReadNet_broken (hw : s.working sl = false) :
    completeReadNet sl s = s.finish sl .single codeDReadErr := by
  simp [completeReadNet, hw]

/-- The registers of the device with DATA1 the length the interface has given, in two's complement. -/
def lengthRegs (s : State) (sl : Slot) : Vector Word 4 := s.regsWith sl 3 (BitVec.ofInt 32 s.drawRecv.1.len)

/-- The length stored in DATA1 (R1113). -/
theorem drawRecv_setReg (hb : s.body sl = .eth e) :
    s.drawRecv.2.setReg sl 3 (BitVec.ofInt 32 s.drawRecv.1.len) =
      ethWorked sl (lengthRegs s sl) e s.mem s.net s.drawRecv.2.tape s := by
  have hb' : (s.dev sl).body = .eth e := hb
  refine (congrArg (fun u : State => u.setReg sl 3 (BitVec.ofInt 32 s.drawRecv.1.len)) s.drawRecv_tape).trans ?_
  rw [ethWorked, ← hb']
  rfl

/-- Bytes taken from a buffer are held in memory as far as the buffer goes (R603, log 9). -/
theorem Memory.writeBytes_holdsBuffer {m : Memory} (hm : m.wf) (a : Word) (draw : Nat) (bytes : List Byte) {n : Nat}
    (hn : n ≤ 2 ^ 32) : HoldsBytes (m.writeBytes a (bufferBytes draw bytes n)) a (bytes.take n) := by
  intro k hk
  obtain ⟨hkn, hkb⟩ : k < n ∧ k < bytes.length := by simpa using hk
  rw [Memory.writeBytes_holds hm a _ (by simpa using hn) k (by simpa using hkn), bufferBytes_getElem draw hkn hkb,
    List.getElem_take]

section ReadNet

variable (hb : s.body sl = .eth e) (hw : s.working sl = true)

include hb hw

/-- No packet, or an error of the interface. -/
theorem completeReadNet_none (hlen : s.drawRecv.1.len ≤ 0) :
    completeReadNet sl s = (ethWorked sl (lengthRegs s sl) e s.mem s.net s.drawRecv.2.tape s).finish sl .single
      (if s.drawRecv.1.len = 0 then codeReady else codeDReadErr) := by
  simp only [completeReadNet, hw, if_true, drawRecv_setReg hb]
  by_cases hzero : s.drawRecv.1.len = 0
  · rw [if_pos hzero, if_pos hzero]
  · rw [if_neg hzero, if_neg hzero, if_pos (by omega)]

/-- A packet goes to the buffer and, as many bytes as its length says, to memory: on success the buffer's, those past
its end free (log 9). -/
theorem completeReadNet_packet (hlen : 0 < s.drawRecv.1.len) :
    let got := s.drawRecv
    let n := got.1.len.toNat
    let dma := got.2.decodeFails (s.reg sl 2) n
    ∃ stored tape, stored.length = n ∧
      (dma.1 = false → (∃ draw, stored = bufferBytes draw got.1.bytes n) ∧
        (n ≤ got.1.bytes.length → tape = dma.2.tape)) ∧
      completeReadNet sl s = (ethWorked sl (lengthRegs s sl) { e with pktbuf := got.1.bytes }
        (s.mem.writeBytes (s.reg sl 2) stored) s.net tape s).finish sl .single
        (if dma.1 then codeDmaErr else codeReady) := by
  intro got n dma
  obtain ⟨u, hu⟩ : ∃ u, u = ethWorked sl (lengthRegs s sl) { e with pktbuf := got.1.bytes } s.mem s.net got.2.tape s :=
    ⟨_, rfl⟩
  have hworked : (s.drawRecv.2.setReg sl 3 (BitVec.ofInt 32 s.drawRecv.1.len)).mapBody sl
      (onEth fun e => { e with pktbuf := s.drawRecv.1.bytes }) = u := by
    rw [hu, drawRecv_setReg hb, ethWorked_mapBody]
  have hdata0 : u.reg sl 2 = s.reg sl 2 := by
    rw [hu, ethWorked_reg]
    exact Vector.getElem_set_ne (i := 3) (j := 2) (by decide) (by decide) (by decide)
  have hcfg : u.cfg = got.2.cfg := hu ▸ (congrArg State.cfg s.drawRecv_tape).symm
  obtain ⟨hfails, htape⟩ := State.decodeFails_congr (s := got.2) (t := u) hcfg (hu ▸ rfl) (s.reg sl 2) n
  obtain ⟨hanswer, stored, hlength, hsent, hstate⟩ := u.dmaToMemN_spec (s.reg sl 2) got.1.bytes n
  have hrun : completeReadNet sl s = (u.dmaToMemN (s.reg sl 2) got.1.bytes n).2.finish sl .single
      (if dma.1 then codeDmaErr else codeReady) := by
    rw [← hanswer.trans hfails]
    simp only [completeReadNet, hw, if_true, if_neg hlen.ne', if_neg hlen.le.not_gt, hworked, hdata0]
    split <;> rfl
  refine ⟨stored, (u.dmaToMemN (s.reg sl 2) got.1.bytes n).2.tape, hlength, fun hdma => ?_, ?_⟩
  · obtain ⟨hstored, hdrawn⟩ := hsent (hfails.trans hdma)
    exact ⟨⟨_, hstored⟩, fun h => (hdrawn h).trans htape⟩
  · rw [hrun, hstate, hu]
    rfl

end ReadNet

/-- Settles O42: by whether the device works, the length the interface gives, and the DMA. -/
theorem ethernetReadNetCompletion : Obligations.EthernetReadNetCompletion := by
  intro s sl e fire n hs hb ho hm t got len dma ends
  have ht : t = completeReadNet sl s := (dispatch_eth fire n hb).trans (completeEth_readNet ho)
  have hstatus : (lengthRegs s sl)[0] = s.reg sl 0 := putReg_status (by decide)
  clear_value t
  have nothing (hw : s.working sl = true) (hlen : len ≤ 0) :
      ends (if len = 0 then codeReady else codeDReadErr) e.pktbuf ∧ Quiet s t got.2.tape := by
    obtain ⟨hcompleted, hevent, hmem, hnet, htape⟩ :=
      eth_finished hs hstatus (ht.trans (completeReadNet_none hb hw hlen))
    exact ⟨hcompleted, fun a => by rw [hmem], hevent, hnet, htape⟩
  refine ⟨fun hw => ?broken, fun hw hzero => ?empty, fun hw hneg => ?error, fun hw hpos hdma => ?failed,
    fun hw hpos hdma => ?received⟩
  case broken =>
    rw [completeReadNet_broken hw] at ht
    subst ht
    exact completed_unchanged _ hs hb
  case empty =>
    have hend := nothing hw hzero.le
    rwa [if_pos hzero] at hend
  case error =>
    have hend := nothing hw hneg.le
    rwa [if_neg hneg.ne] at hend
  case failed =>
    obtain ⟨stored, tape, hlength, -, hrun⟩ := completeReadNet_packet hb hw hpos
    obtain ⟨hcompleted, hevent, hmem, hnet, -⟩ := eth_finished hs hstatus (ht.trans hrun)
    rw [if_pos hdma] at hcompleted
    refine ⟨hcompleted, fun x hx => ?_, hevent, hnet⟩
    rw [hmem, Memory.writeBytes_outside _ _ _ _ (hlength ▸ hx)]
  case received =>
    obtain ⟨stored, tape, hlength, hsent, hrun⟩ := completeReadNet_packet hb hw hpos
    obtain ⟨⟨draw, hstored⟩, htape⟩ := hsent hdma
    obtain ⟨hcompleted, hevent, hmem, hnet, htape'⟩ := eth_finished hs hstatus (ht.trans hrun)
    rw [if_neg (Bool.eq_false_iff.1 hdma)] at hcompleted
    refine ⟨hcompleted, fun hfits k hk => ?_, fun x hx => ?_, hevent, hnet,
      fun hall => htape'.trans (htape (Int.toNat_le.2 hall))⟩
    · rw [hmem, hstored]
      exact Memory.writeBytes_holdsBuffer hm _ _ _ (Int.toNat_le.2 hfits) k hk
    · rw [hmem, Memory.writeBytes_outside _ _ _ _ (hlength ▸ hx)]

/-! The poll (R1118, R1119, R1120). -/

theorem dispatch_poll (fire : Time) (n : Nat) (hb : s.body sl = .eth e) :
    dispatch { fire := fire, seq := n, target := sl, kind := .poll } s = pollEth sl e s := by
  simp only [dispatch, hb]

theorem Eth.polls_eq_true (c : Config) (e : Eth) : e.polls c = true ↔ e.mode &&& c.ethModeInterrupt ≠ 0#8 := bne_iff_ne

theorem Eth.polls_eq_false (c : Config) (e : Eth) : e.polls c = false ↔ e.mode &&& c.ethModeInterrupt = 0#8 :=
  bne_eq_false_iff_eq

/-- The state in which a poll has been served: no poll is armed, and host answers may have been drawn. -/
def ethPolled (sl : Slot) (tape : HostTape) (s : State) : State :=
  State.mapBody { s with tape := tape } sl (setPollArmed false)

theorem ethPolled_dev (tape : HostTape) (hb : s.body sl = .eth e) (x : Slot) :
    (ethPolled sl tape s).dev x =
      if x = sl then { s.dev sl with body := .eth { e with pollArmed := false } } else s.dev x := by
  have hb' : (s.dev sl).body = .eth e := hb
  rw [ethPolled, State.mapBody_dev]
  simp only [tape_dev, hb', setPollArmed, onEth]

theorem pollEth_off (hp : e.polls s.cfg = false) : pollEth sl e s = (ethPolled sl s.tape s).report 0 := by
  simp only [pollEth, hp, Bool.not_false, if_true]
  rfl

theorem pollEth_engaged (hp : e.polls s.cfg = true) (h : e.op ≠ none ∨ (s.reg sl 0).getLsbD 7 = true) :
    pollEth sl e s = (armPoll sl (ethPolled sl s.tape s)).andThen fun s => s.report 0 := by
  have hengaged : (e.op.isSome || readPending (s.reg sl 0)) = true := by
    simpa [Option.isSome_iff_ne_none, readPending] using h
  simp only [pollEth, hp, hengaged, Bool.not_true, Bool.false_eq_true, if_true, if_false]
  rfl

/-- The interface's answer depends on no slot. -/
theorem State.mapBody_drawWaiting (s : State) (sl : Slot) (f : DeviceBody → DeviceBody) :
    (s.mapBody sl f).drawWaiting = (s.drawWaiting.1, s.drawWaiting.2.mapBody sl f) := by
  unfold State.drawWaiting
  rw [State.mapBody_tape]
  split <;> rfl

/-- A poll that could latch asks the interface (R1118). -/
theorem pollEth_asks (hp : e.polls s.cfg = true) (ho : e.op = none) (hr : (s.reg sl 0).getLsbD 7 = false) :
    pollEth sl e s =
      if s.drawWaiting.1 then (latchPending sl (ethPolled sl s.drawWaiting.2.tape s)).report 0
      else (armPoll sl (ethPolled sl s.drawWaiting.2.tape s)).andThen fun s => s.report 0 := by
  have hdrawn : s.drawWaiting.2.mapBody sl (setPollArmed false) = ethPolled sl s.drawWaiting.2.tape s :=
    congrArg (fun u : State => u.mapBody sl (setPollArmed false)) s.drawWaiting_tape
  simp only [pollEth, hp, ho, readPending, hr, State.mapBody_drawWaiting, hdrawn, Option.isSome_none, Bool.or_self,
    Bool.not_true, Bool.false_eq_true, if_false]

/-- A poll that only schedules the next one (R1118, R1119). -/
theorem poll_rescheduled (tape : HostTape) (hs : s.fatal = none) (hb : s.body sl = .eth e) (hp : e.polls s.cfg = true)
    (hd : InTime s (pollTicks s.cfg)) :
    let t := (armPoll sl (ethPolled sl tape s)).andThen fun s => s.report 0
    t.dev sl = { s.dev sl with body := .eth { e with pollArmed := true } } ∧
      OneEvent s t sl .poll (pollTicks s.cfg) ∧ t.pend = s.pend ∧ t.trace = s.trace ∧ t.returned = some 0 ∧
      t.fatal = none ∧ OnlySlot sl s t ∧ SameMemory s t ∧ t.net = s.net ∧ t.tape = tape := by
  have hdev := ethPolled_dev tape hb
  have hbody : (ethPolled sl tape s).body sl = .eth { e with pollArmed := false } :=
    congrArg Device.body ((hdev sl).trans (if_pos rfl))
  obtain ⟨hdev', -, harmed⟩ := armPoll_spec hbody hs hd
  obtain ⟨hpend, htrace, -, hfatal, hmem, hnet, htape⟩ := armPoll_kept hbody hs hd
  have honly : OnlySlot sl s (ethPolled sl tape s) :=
    ⟨fun x hx => (hdev x).trans (if_neg hx), fun _ _ => rfl, rfl, rfl, rfl, rfl⟩
  have honly' := honly.trans (armPoll_onlySlot _ _)
  rw [State.andThen_running hfatal]
  refine ⟨?_, ?_, hpend, htrace, rfl, hfatal,
    ⟨honly'.dev, honly'.pend, honly'.cfg, honly'.tod, honly'.script, honly'.reply⟩, fun a => ?_, hnet, htape⟩
  · refine (hdev' sl).trans ((if_pos rfl).trans ?_)
    rw [hdev, if_pos rfl]
    simp only [Bool.false_or]
    exact congrArg (fun v => ({ s.dev sl with body := .eth { e with pollArmed := v } } : Device)) hp
  · exact (harmed.of_noEvent rfl rfl ⟨rfl, rfl⟩).oneEvent hp rfl
  · exact congrArg (fun m : Memory => m.read a) hmem

/-- Settles O43: by whether the device polls, whether it is engaged, and what the interface answers. -/
theorem ethernetPoll : Obligations.EthernetPoll := by
  intro s sl e fire n hs hb hd t again
  have ht : t = pollEth sl e s := dispatch_poll fire n hb
  have rescheduled {tape : HostTape} (hmode : e.mode &&& s.cfg.ethModeInterrupt ≠ 0#8)
      (hrun : t = (armPoll sl (ethPolled sl tape s)).andThen fun s => s.report 0) : again tape := by
    have h := poll_rescheduled tape hs hb ((Eth.polls_eq_true _ _).2 hmode) hd
    rw [← hrun] at h
    exact h
  clear_value t
  refine ⟨fun hmode => ?off, fun hmode hengaged => ?engaged, fun hmode ho hr =>
    ⟨fun hwait => ?none, fun hwait => ?some⟩⟩
  case off =>
    have hdev := ethPolled_dev s.tape hb
    rw [pollEth_off ((Eth.polls_eq_false _ _).2 hmode)] at ht
    subst ht
    exact ⟨(hdev sl).trans (if_pos rfl), ⟨rfl, rfl⟩, rfl, rfl, rfl, hs,
      ⟨fun x hx => (hdev x).trans (if_neg hx), fun _ _ => rfl, rfl, rfl, rfl, rfl⟩, fun _ => rfl, rfl, rfl⟩
  case engaged => exact rescheduled hmode (ht.trans (pollEth_engaged ((Eth.polls_eq_true _ _).2 hmode) hengaged))
  case none =>
    exact rescheduled hmode ((ht.trans (pollEth_asks ((Eth.polls_eq_true _ _).2 hmode) ho hr)).trans
      (if_neg (Bool.eq_false_iff.1 hwait)))
  case some =>
    have hrun := (ht.trans (pollEth_asks ((Eth.polls_eq_true _ _).2 hmode) ho hr)).trans (if_pos hwait)
    have hlatched := eth_wholeStatus s.drawWaiting.2.tape (setPollArmed false) (s.reg sl 0 ||| 0x80#32) hs hb
    have hreg : (ethPolled sl s.drawWaiting.2.tape s).reg sl 0 = s.reg sl 0 := by
      rw [State.reg_eq, ethPolled_dev _ hb, if_pos rfl]
      rfl
    rw [latchPending, hreg] at hrun
    rw [hrun]
    exact hlatched

end Sys2Proof.Machine
end

section
/-! PROOFS. Refusals, and interrupt requests: which requests a state refuses, and what a raise and an acknowledge do to
the pending bits. -/

namespace Sys2Proof.Machine

variable {s : State} {sl : Slot}

/-! Refusals (R1220, R202, R206). -/

/-- After a fatal error every command is refused (R1220). -/
theorem exec_fatal {r : FatalReason} (hf : s.fatal = some r) (i : Instr) : exec i s = .refused (.fatalState r) := by
  obtain ⟨run, hrun⟩ := exec_accepts i
  rw [hrun, State.accept, hf]

theorem accessRefusal_narrow {off : BitVec 4} {w : Width} (hw : w ≠ .word) : accessRefusal off w = some .narrowAccess :=
  if_pos hw

theorem accessRefusal_unaligned {off : BitVec 4} (ho : off.extractLsb' 0 2 ≠ 0#2) :
    accessRefusal off .word = some .unalignedAccess := by
  simp [accessRefusal, ho]

theorem serve_load_refused {off : BitVec 4} {w : Width} {r : Refusal} (ha : accessRefusal off w = some r) :
    serve (.load sl off w) s = .refused r := by
  simp [serve, doLoad, ha]

theorem serve_store_refused {off : BitVec 4} {w : Width} {v : Word} {r : Refusal} (ha : accessRefusal off w = some r) :
    serve (.store sl off w v) s = .refused r := by
  simp [serve, doStore, ha]

theorem serve_work_null {b : Bool} (hk : s.kind sl = none) : serve (.work sl b) s = .refused .workOnNull := by
  simp [serve, doWork, hk]

/-- Settles O10: a fatal state has no step; else the request at the head of the script names its refusal. -/
theorem refusedRequests : Obligations.RefusedRequests := by
  intro s rest
  refine ⟨fun r hf => ⟨by simp [step, hf], exec_fatal hf⟩, fun hf => ?running⟩
  have refused {q : Request} {r : Refusal} (hq : serve q (s.taken rest) = .refused r) (hs : s.script = q :: rest) :
      step s = .refused r := (step_serve hf hs).trans hq
  exact ⟨fun sl off w hs hw => refused (serve_load_refused (accessRefusal_narrow hw)) hs,
    fun sl off w v hs hw => refused (serve_store_refused (accessRefusal_narrow hw)) hs,
    fun sl off hs ho => refused (serve_load_refused (accessRefusal_unaligned ho)) hs,
    fun sl off v hs ho => refused (serve_store_refused (accessRefusal_unaligned ho)) hs,
    fun v => refused rfl, fun l v => refused rfl, fun sl b hs hk => refused (serve_work_null hk) hs⟩

/-! Requests (R1201, R1202, R1203, R814). -/

theorem State.setPend_setPend (s : State) (l : Line) (b b' : Byte) : (s.setPend l b).setPend l b' = s.setPend l b' := by
  simp [State.setPend]

/-- The bitmap of a line after it was replaced. -/
theorem State.setPend_pend_same (s : State) (l : Line) (b : Byte) : (s.setPend l b).pend[l.idx] = b := by
  simp [State.setPend]

theorem State.irqRaise_irqRaise (s : State) (sl : Slot) : (s.irqRaise sl).irqRaise sl = s.irqRaise sl := by
  simp only [State.irqRaise, State.setPend_pend_same, State.setPend_setPend, BitVec.or_assoc, BitVec.or_self]

theorem State.irqAck_irqAck (s : State) (sl : Slot) : (s.irqAck sl).irqAck sl = s.irqAck sl := by
  simp only [State.irqAck, State.setPend_pend_same, State.setPend_setPend, BitVec.and_assoc, BitVec.and_self]

/-- A line is asserted iff a device of it has a pending request (R1203). -/
theorem State.lineBit_iff (s : State) (l : Line) :
    s.lineBit l = true ↔ ∃ d, s.pendBit { line := l, dev := d } = true := by
  rw [State.lineBit, bne_iff_ne]
  constructor
  · intro hne
    by_contra hnone
    refine hne (BitVec.eq_of_getLsbD_eq fun i hi => ?_)
    rw [BitVec.getLsbD_zero]
    exact Bool.eq_false_iff.2 fun hbit => hnone ⟨⟨i, hi⟩, hbit⟩
  · rintro ⟨d, hd⟩ hzero
    simp [State.pendBit, hzero] at hd

/-- Settles O44: a raise and an acknowledge are writes of one bit of one bitmap, and on a terminal also of one flag. -/
theorem interruptRaiseAndAcknowledge : Obligations.InterruptRaiseAndAcknowledge := by
  intro s sl
  refine ⟨?raised, ?acked, fun x hx => ⟨?raisedOther, ?ackedOther⟩, s.irqRaise_irqRaise sl, s.irqAck_irqAck sl, rfl,
    rfl, s.lineBit_iff, fun x h hb _ => ?terminal⟩
  case raised => simp [State.irqRaise_pendBit]
  case acked => simp [State.irqAck_pendBit]
  case raisedOther => simp [State.irqRaise_pendBit, hx]
  case ackedOther => simp [State.irqAck_pendBit, hx]
  case terminal =>
    have hb' : (s.dev sl).body = .terminal x := hb
    refine ⟨?_, ?_, ?_, ?_, fun y hy => ⟨?_, ?_, ?_, ?_⟩⟩
    · rw [State.body_eq, State.raiseIrq_dev, if_pos rfl, hb']
      rfl
    · simp [State.raiseIrq_pendBit]
    · rw [State.body_eq, State.ackIrq_dev, if_pos rfl, hb']
      rfl
    · rw [State.ackIrq_pendBit, if_pos rfl, hb', otherPending_setIpend]
    · simp [State.raiseIrq_pendBit, hy]
    · rw [State.ackIrq_pendBit, if_neg hy]
    · rw [State.raiseIrq_dev, if_neg hy]
    · rw [State.ackIrq_dev, if_neg hy]

end Sys2Proof.Machine
end

section
/-! PROOFS. The image parsers of construction: which images they refuse, and the device they make of the others. -/

namespace Sys2Proof.Machine

variable {c : Config} {f : File} {s : State} {sl : Slot} {d : Device}

/-! Image headers (R1303, R1305, R1307). -/

/-- The geometry word of a disk is a sum: its three fields do not overlap (R317). -/
theorem geometryWord_eq {cyls heads sects : Nat} (hc : cyls < 2 ^ 16) (hh : heads < 2 ^ 8) (hs : sects < 2 ^ 8) :
    geometryWord cyls heads sects = BitVec.ofNat 32 (cyls * 2 ^ 16 + heads * 2 ^ 8 + sects) := by
  have hlow : heads * 2 ^ 8 + sects = heads <<< 8 ||| sects := by
    rw [← Nat.shiftLeft_add_eq_or_of_lt hs, Nat.shiftLeft_eq]
  have hall : cyls * 2 ^ 16 + (heads * 2 ^ 8 + sects) = cyls <<< 16 ||| (heads * 2 ^ 8 + sects) := by
    rw [← Nat.shiftLeft_add_eq_or_of_lt (by omega), Nat.shiftLeft_eq]
  have hcyls : cyls % 2 ^ 32 = cyls := Nat.mod_eq_of_lt (by omega)
  have hheads : heads % 2 ^ 32 = heads := Nat.mod_eq_of_lt (by omega)
  apply BitVec.eq_of_toNat_eq
  rw [Nat.add_assoc, hall, hlow, ← Nat.or_assoc]
  simp only [geometryWord, BitVec.toNat_or, BitVec.toNat_shiftLeft, BitVec.toNat_ofNat, Nat.or_mod_two_pow, hcyls,
    hheads]

/-- The number a header word holds (R1303). -/
def headerNat (c : Config) (f : File) (k : Nat) : Nat := (headerWord c f k).toNat

/-- The parameters of a disk image are within their bounds (T1, R1305). -/
def DiskBounds (c : Config) (f : File) : Prop :=
  1 ≤ headerNat c f 1 ∧ headerNat c f 1 ≤ c.maxCyl ∧ 1 ≤ headerNat c f 2 ∧ headerNat c f 2 ≤ c.maxHead ∧
    1 ≤ headerNat c f 3 ∧ headerNat c f 3 ≤ c.maxSect ∧ c.minDataS ≤ headerNat c f 6 ∧ headerNat c f 6 ≤ c.maxDataS

/-- The parameters of a flash image are within their bounds (T1, R1305). -/
def FlashBounds (c : Config) (f : File) : Prop := 1 ≤ headerNat c f 1 ∧ headerNat c f 1 ≤ c.maxBlocks

theorem parseDisk_badMagic (h : f.size < 28 ∨ headerWord c f 0 ≠ c.diskFileId) : parseDisk c f = .error .badMagic :=
  if_pos (by simpa using h)

section DiskHeader

variable (hsize : 28 ≤ f.size) (hmagic : headerWord c f 0 = c.diskFileId)

include hsize hmagic

theorem parseDisk_ok (hb : DiskBounds c f) :
    parseDisk c f =
      .ok (.freshDisk (headerNat c f 1) (headerNat c f 2) (headerNat c f 3) (headerNat c f 4) (headerNat c f 5)
        (headerNat c f 6) 7 f) :=
  (if_neg (by simp [hmagic, hsize])).trans (if_pos (by simpa [DiskBounds, headerNat, and_assoc] using hb))

theorem parseDisk_badParams (hb : ¬ DiskBounds c f) : parseDisk c f = .error .badParams :=
  (if_neg (by simp [hmagic, hsize])).trans (if_neg (by simpa [DiskBounds, headerNat, and_assoc] using hb))

end DiskHeader

theorem parseFlash_badMagic (h : f.size < 12 ∨ headerWord c f 0 ≠ c.flashFileId) : parseFlash c f = .error .badMagic :=
  if_pos (by simpa using h)

section FlashHeader

variable (hsize : 12 ≤ f.size) (hmagic : headerWord c f 0 = c.flashFileId)

include hsize hmagic

theorem parseFlash_ok (hb : FlashBounds c f) :
    parseFlash c f =
      .ok (.freshFlash (headerNat c f 1) (headerNat c f 2)
        (if 16 ≤ f.size ∧ headerWord c f 3 = c.coreFileId then 4 else 3) f) := by
  refine (if_neg (by simp [hmagic, hsize])).trans ((if_pos (by simpa [FlashBounds, headerNat] using hb)).trans ?_)
  simp [headerNat, Config.flashSkipCoreFileId]

theorem parseFlash_badParams (hb : ¬ FlashBounds c f) : parseFlash c f = .error .badParams :=
  (if_neg (by simp [hmagic, hsize])).trans (if_neg (by simpa [FlashBounds, headerNat] using hb))

end FlashHeader

/-- Settles O48: by the magic word and the size, then by the bounds of the parameters. -/
theorem imageHeaderParsing : Obligations.ImageHeaderParsing := by
  intro c f hc p
  have hgeo : c.maxCyl ≤ 65535 ∧ c.maxHead ≤ 255 ∧ c.maxSect ≤ 255 := by
    simp only [Config.wf, Config.geometryOk, Bool.and_eq_true, decide_eq_true_eq] at hc
    omega
  refine ⟨parseDisk_badMagic, fun hsize hmagic => ⟨fun hb => ?disk, parseDisk_badParams hsize hmagic⟩,
    parseFlash_badMagic, fun hsize hmagic => ⟨fun hb => ?flash, parseFlash_badParams hsize hmagic⟩⟩
  case disk =>
    refine ⟨_, _, parseDisk_ok hsize hmagic hb, rfl, rfl, ?_, rfl, rfl, rfl, rfl, rfl, rfl, rfl, rfl, rfl, rfl, rfl⟩
    have hgeometry : geometryWord (p 1) (p 2) (p 3) = BitVec.ofNat 32 (p 1 * 2 ^ 16 + p 2 * 2 ^ 8 + p 3) :=
      geometryWord_eq (by omega) (by omega) (by omega)
    rw [← hgeometry]
    rfl
  case flash =>
    exact ⟨_, _, parseFlash_ok hsize hmagic hb, rfl, rfl, rfl, rfl, rfl, rfl, rfl, rfl, rfl⟩

end Sys2Proof.Machine
end

section
/-! PROOFS. Construction: every slot is built or the first that cannot be built is fatal, and the initial polls are
scheduled in slot order. -/

namespace Sys2Proof.Machine

variable {s t : State} {c : Config} {scs : Vector SlotConfig 40} {tape : HostTape} {sl x : Slot} {d : Device}

/-! The slots (R1301, R1304). -/

theorem instantiate_ok (hs : s.fatal = none) (hb : buildSlot s.cfg sl scs[sl.idx] = .ok d) :
    instantiate scs s sl = s.setDev sl d := by
  rw [instantiate, State.andThen_running hs, hb]

theorem instantiate_error {r : FatalReason} (hs : s.fatal = none) (hb : buildSlot s.cfg sl scs[sl.idx] = .error r) :
    instantiate scs s sl = s.stop r := by
  rw [instantiate, State.andThen_running hs, hb]

/-- After a fatal error no slot is built (R1304). -/
theorem foldl_instantiate_stopped {r : FatalReason} (l : List Slot) (hs : s.fatal = some r) :
    l.foldl (instantiate scs) s = s := by
  induction l with
  | nil => rfl
  | cons sl l ih => rw [List.foldl_cons, instantiate, State.andThen_stopped hs, ih]

/-- A slot that cannot be built is fatal, with the reason of the first such slot (R1304). -/
theorem foldl_instantiate_error {r : FatalReason} (hs : s.fatal = none) {l : List Slot} (hl : sl ∈ l)
    (hb : buildSlot s.cfg sl scs[sl.idx] = .error r) :
    ∃ x r', buildSlot s.cfg x scs[x.idx] = .error r' ∧ (l.foldl (instantiate scs) s).fatal = some r' := by
  induction l generalizing s with
  | nil => exact absurd hl List.not_mem_nil
  | cons y l ih =>
    rw [List.foldl_cons]
    cases hy : buildSlot s.cfg y scs[y.idx] with
    | error r' =>
      rw [instantiate_error hs hy, foldl_instantiate_stopped l (r := r') rfl]
      exact ⟨y, r', hy, rfl⟩
    | ok d =>
      have hne : sl ≠ y := fun e => by
        subst e
        exact nomatch hb.symm.trans hy
      rw [instantiate_ok hs hy]
      exact ih (s := s.setDev y d) hs ((List.mem_cons.1 hl).resolve_left hne) hb

/-- Slots that can all be built hold their devices (R1301). -/
theorem foldl_instantiate_ok (hs : s.fatal = none) (hall : ∀ sl, ∃ d, buildSlot s.cfg sl scs[sl.idx] = .ok d)
    (l : List Slot) :
    { l.foldl (instantiate scs) s with slots := s.slots } = s ∧
      ∀ x d, buildSlot s.cfg x scs[x.idx] = .ok d → x ∈ l ∨ s.dev x = d → (l.foldl (instantiate scs) s).dev x = d := by
  induction l generalizing s with
  | nil => exact ⟨rfl, fun x d _ h => h.resolve_left List.not_mem_nil⟩
  | cons y l ih =>
    obtain ⟨b, hy⟩ := hall y
    rw [List.foldl_cons, instantiate_ok hs hy]
    obtain ⟨hrest, hdev⟩ := ih (s := s.setDev y b) hs hall
    refine ⟨congrArg (fun u : State => { u with slots := s.slots }) hrest, fun x d hx h => hdev x d hx ?_⟩
    rw [State.dev_setDev]
    by_cases hxy : x = y
    · subst hxy
      rw [if_pos rfl]
      exact .inr (Except.ok.inj (hy.symm.trans hx))
    · rw [if_neg hxy]
      exact h.imp_left fun hm => (List.mem_cons.1 hm).resolve_left hxy

theorem parseDisk_armed {f : File} (h : parseDisk c f = .ok d) : d.body.armed = false := by
  simp only [parseDisk] at h
  split at h
  · exact nomatch h
  · split at h
    · injection h with h
      exact h ▸ rfl
    · exact nomatch h

theorem parseFlash_armed {f : File} (h : parseFlash c f = .ok d) : d.body.armed = false := by
  simp only [parseFlash] at h
  split at h
  · exact nomatch h
  · split at h
    · injection h with h
      exact h ▸ rfl
    · exact nomatch h

/-- A freshly built device has no poll armed. -/
theorem buildSlot_armed {sc : SlotConfig} (h : buildSlot c sl sc = .ok d) : d.body.armed = false := by
  unfold buildSlot at h
  split at h
  · unfold openDevice at h
    split at h
    · obtain ⟨-, -, rfl⟩ := opened_map h
      rfl
    · obtain ⟨-, -, rfl⟩ := opened_map h
      rfl
    · obtain ⟨f, -, hparsed⟩ := opened_bind h
      exact parseDisk_armed hparsed
    · obtain ⟨f, -, hparsed⟩ := opened_bind h
      exact parseFlash_armed hparsed
    · obtain ⟨-, -, rfl⟩ := opened_map h
      rfl
  · injection h with h
    exact h ▸ rfl

/-! The initial polls (R1306). -/

/-- Nothing but slots has been built and events scheduled since the first state of construction (R1300). -/
def BlankBut (c : Config) (tape : HostTape) (s : State) : Prop :=
  { s with slots := (blankState c tape).slots, queue := [], seq := 0 } = blankState c tape

theorem BlankBut.fields (h : BlankBut c tape s) :
    s.fatal = none ∧ s.tod = 0#64 ∧ s.trace = [] ∧ s.cfg = c ∧ ∀ sl, s.pendBit sl = false := by
  have kept {α : Type} (g : State → α) :
      g { s with slots := (blankState c tape).slots, queue := [], seq := 0 } = g (blankState c tape) := congrArg g h
  exact ⟨kept State.fatal, kept State.tod, kept State.trace, kept State.cfg, fun sl =>
    (kept (State.pendBit · sl)).trans ((blankState_constructed c tape).pend sl)⟩

theorem BlankBut.of_rest (h : BlankBut c tape s)
    (ht : { t with slots := s.slots, queue := s.queue, seq := s.seq } = s) :
    BlankBut c tape t := by
  rw [BlankBut, ← ht] at h
  exact h

theorem BlankBut.of_slots (h : { s with slots := (blankState c tape).slots } = blankState c tape) :
    BlankBut c tape s := by
  have hrest := congrArg (fun u : State => { u with queue := [], seq := 0 }) h
  exact hrest

/-- The device with its poll armed if it is in interrupt mode (R1120). -/
def Device.polled (c : Config) (d : Device) : Device :=
  { d with body := onEth (Eth.withPoll c) d.body }

/-- A device of another type has no poll (R1120). -/
theorem Device.polled_other (hk : d.body.kind ≠ some .eth) : d.polled c = d := by
  obtain ⟨regs, working, body⟩ := d
  cases body with
  | eth e => exact absurd rfl hk
  | null | printer _ | terminal _ | disk _ | flash _ => rfl

/-- What arming the poll of any slot leaves, in time (R1120). -/
theorem armPoll_any (hs : s.fatal = none) (hd : InTime s (pollTicks s.cfg)) :
    (∀ x, (armPoll sl s).dev x = if x = sl then (s.dev sl).polled s.cfg else s.dev x) ∧
      { armPoll sl s with slots := s.slots, queue := s.queue, seq := s.seq } = s ∧
      (NoEvent s (armPoll sl s) ∨ OneEvent s (armPoll sl s) sl .poll (pollTicks s.cfg)) := by
  cases hb : s.body sl with
  | eth e =>
    have hb' : (s.dev sl).body = .eth e := hb
    obtain ⟨hdev, hrest, harmed⟩ := armPoll_spec hb hs hd
    refine ⟨fun x => ?_, hrest, ?_⟩
    · rw [hdev, Device.polled, hb']
      rfl
    · rw [Armed] at harmed
      split at harmed
      · exact .inr harmed
      · exact .inl harmed
  | null | printer _ | terminal _ | disk _ | flash _ =>
    have hsame : armPoll sl s = s := by simp only [armPoll, hb]
    have hpolled : (s.dev sl).polled s.cfg = s.dev sl :=
      Device.polled_other (by rw [← State.body_eq, hb]; exact nofun)
    rw [hsame, hpolled]
    refine ⟨fun x => ?_, rfl, .inl ⟨rfl, rfl⟩⟩
    split
    · next hx => rw [hx]
    · rfl

/-- The event of an initial poll, with its number (R1306). -/
def initialPoll (c : Config) (n : Nat) (sl : Slot) : Event :=
  { fire := BitVec.ofNat 64 (pollTicks c), seq := n, target := sl, kind := .poll }

/-- The initial polls scheduled so far, in slot order, and nothing else but slots built (R1306). -/
structure InitialPolls (c : Config) (tape : HostTape) (s : State) : Prop where
  blank : BlankBut c tape s
  counted : PollWith [] s
  events : ∀ e ∈ s.queue, e = initialPoll c e.seq e.target ∧ e.seq < s.seq
  order : s.queue.Pairwise fun a b => a.seq < b.seq ∧ a.target.idx.val < b.target.idx.val
  numbers : s.seq = s.queue.length

/-- An event no earlier than any other goes to the end of the queue (R402). -/
theorem insertEvent_last {e : Event} {q : List Event} (h : ∀ x ∈ q, e.before x = false) :
    insertEvent e q = q ++ [e] := by
  induction q with
  | nil => rfl
  | cons x q ih =>
    rw [insertEvent, h x List.mem_cons_self, if_neg Bool.false_ne_true,
      ih fun y hy => h y (List.mem_cons_of_mem _ hy)]
    rfl

theorem initialPoll_before (n m : Nat) (sl x : Slot) (h : m < n) :
    (initialPoll c n sl).before (initialPoll c m x) = false := by
  simp [Event.before, initialPoll, h.not_gt]

/-- One slot more is polled; its event, if any, is the last. -/
theorem InitialPolls.armPoll (hi : InitialPolls c tape s) (hd : pollTicks c < 2 ^ 64)
    (hlast : ∀ e ∈ s.queue, e.target.idx.val < sl.idx.val) :
    InitialPolls c tape (armPoll sl s) ∧ (∀ e ∈ (armPoll sl s).queue, e ∈ s.queue ∨ e.target = sl) ∧
      ∀ x, (armPoll sl s).dev x = if x = sl then (s.dev sl).polled c else s.dev x := by
  obtain ⟨hs, htod, -, hcfg, -⟩ := hi.blank.fields
  have hticks : s.tod.toNat + pollTicks s.cfg = pollTicks c := by
    rw [htod, hcfg]
    exact Nat.zero_add _
  obtain ⟨hdev, hrest, hevent⟩ := armPoll_any (sl := sl) hs (show _ < _ from hticks ▸ hd)
  have hblank : BlankBut c tape (Machine.armPoll sl s) :=
    hi.blank.of_rest hrest
  have hcounted : PollWith [] (Machine.armPoll sl s) := (effect_armPoll hs).poll hblank.fields.1 hi.counted
  rw [hcfg] at hdev
  rcases hevent with ⟨hqueue, hseq⟩ | ⟨hqueue, hseq⟩
  · refine ⟨⟨hblank, hcounted, ?_, ?_, ?_⟩, ?_, hdev⟩
    · rw [hqueue, hseq]
      exact hi.events
    · rw [hqueue]
      exact hi.order
    · rw [hqueue, hseq]
      exact hi.numbers
    · rw [hqueue]
      exact fun e he => .inl he
  · have happended : (Machine.armPoll sl s).queue = s.queue ++ [initialPoll c s.seq sl] := by
      rw [hqueue, hticks]
      refine insertEvent_last fun e he => ?_
      obtain ⟨hform, hold⟩ := hi.events e he
      rw [hform]
      exact initialPoll_before _ _ _ _ hold
    refine ⟨⟨hblank, hcounted, fun e he => ?_, ?_, ?_⟩, fun e he => ?_, hdev⟩
    · rw [hseq]
      rcases List.mem_append.1 (happended ▸ he) with he | he
      · exact ⟨(hi.events e he).1, Nat.lt_succ_of_lt (hi.events e he).2⟩
      · rw [List.mem_singleton.1 he]
        exact ⟨rfl, Nat.lt_succ_self _⟩
    · rw [happended]
      refine List.pairwise_append.2 ⟨hi.order, List.pairwise_singleton _ _, fun a ha b hb => ?_⟩
      rw [List.mem_singleton.1 hb]
      exact ⟨(hi.events a ha).2, hlast a ha⟩
    · rw [happended, hseq, hi.numbers, List.length_append]
      rfl
    · rcases List.mem_append.1 (happended ▸ he) with he | he
      · exact .inl he
      · exact .inr (congrArg Event.target (List.mem_singleton.1 he))

/-- The slots of a list in increasing order are polled (R1306). -/
theorem foldl_armPoll (hd : pollTicks c < 2 ^ 64) {l : List Slot} (hl : l.Pairwise fun a b => a.idx.val < b.idx.val)
    (hi : InitialPolls c tape s) (hlast : ∀ e ∈ s.queue, ∀ x ∈ l, e.target.idx.val < x.idx.val) :
    let t := l.foldl (fun s sl => s.andThen (armPoll sl)) s
    InitialPolls c tape t ∧ ∀ x, t.dev x = if x ∈ l then (s.dev x).polled c else s.dev x := by
  induction l generalizing s with
  | nil => exact ⟨hi, fun x => (if_neg List.not_mem_nil).symm⟩
  | cons y l ih =>
    obtain ⟨hy, hl⟩ := List.pairwise_cons.1 hl
    obtain ⟨hi', hqueue, hdev⟩ := hi.armPoll hd fun e he => hlast e he y List.mem_cons_self
    obtain ⟨hpolls, hdevs⟩ := ih hl hi' fun e he x hx => by
      rcases hqueue e he with he | he
      · exact hlast e he x (List.mem_cons_of_mem _ hx)
      · rw [he]
        exact hy x hx
    simp only [List.foldl_cons, State.andThen_running hi.blank.fields.1]
    refine ⟨hpolls, fun x => ?_⟩
    rw [hdevs, hdev]
    by_cases hxy : x = y
    · subst hxy
      have hout : x ∉ l := fun hx => Nat.lt_irrefl _ (hy x hx)
      simp [hout]
    · simp [hxy]

/-- The slots are listed in increasing order (R1306). -/
theorem allSlots_increasing : allSlots.Pairwise fun a b => a.idx.val < b.idx.val := by
  decide

/-- With every slot built, no poll is scheduled yet (R1301). -/
theorem initialPolls_built (hall : ∀ sl, ∃ d, buildSlot c sl scs[sl.idx] = .ok d) :
    let u := allSlots.foldl (instantiate scs) (blankState c tape)
    InitialPolls c tape u ∧ u.queue = [] ∧ ∀ x d, buildSlot c x scs[x.idx] = .ok d → u.dev x = d := by
  obtain ⟨hrest, hdev⟩ := foldl_instantiate_ok (s := blankState c tape) rfl hall allSlots
  intro u
  have hslots (x : Slot) (d : Device) (hx : buildSlot c x scs[x.idx] = .ok d) : u.dev x = d :=
    hdev x d hx (.inl (mem_allSlots x))
  have hqueue : u.queue = [] := (congrArg State.queue hrest :)
  have hseq : u.seq = 0 := (congrArg State.seq hrest :)
  refine ⟨⟨BlankBut.of_slots hrest, fun x => ?_, ?_, ?_, ?_⟩, hqueue, hslots⟩
  · obtain ⟨d, hx⟩ := hall x
    rw [State.body_eq, hslots x d hx, buildSlot_armed hx, hqueue]
    rfl
  · simp [hqueue]
  · simp [hqueue]
  · rw [hqueue, hseq, List.length_nil]

/-- Settles O50: a slot that cannot be built is fatal; else the slots are built, and then polled in order. -/
theorem constructedState : Obligations.ConstructedState := by
  intro c scs tape s
  refine ⟨fun hall hticks => ?built, fun sl r hb => ?failed⟩
  case failed =>
    obtain ⟨x, r', hx, hfatal⟩ := foldl_instantiate_error (s := blankState c tape) rfl (mem_allSlots sl) hb
    exact ⟨x, r', hx, (congrArg State.fatal (State.andThen_stopped hfatal _)).trans hfatal⟩
  case built =>
    obtain ⟨hbuilt, hempty, hslots⟩ := initialPolls_built (tape := tape) hall
    obtain ⟨hpolls, hdevs⟩ := foldl_armPoll hticks allSlots_increasing hbuilt (by simp [hempty])
    rw [← State.andThen_running hbuilt.blank.fields.1 fun s => allSlots.foldl (fun s sl => s.andThen (armPoll sl)) s]
      at hpolls hdevs
    have hdev (x : Slot) (d : Device) (hx : buildSlot c x scs[x.idx] = .ok d) : s.dev x = d.polled c := by
      rw [← hslots x d hx]
      exact (hdevs x).trans (if_pos (mem_allSlots x))
    obtain ⟨hfatal, htod, htrace, hcfg, hpend⟩ := hpolls.blank.fields
    refine ⟨hfatal, htod, htrace, hcfg, hpend, fun x d hx => ⟨?_, ?_, fun e he => ?_, fun hk => ?_⟩, hpolls.counted,
      fun e he => ?_, hpolls.order, hpolls.numbers⟩
    · rw [hdev x d hx]
      rfl
    · rw [State.working_eq, hdev x d hx]
      rfl
    · have harmed : e.pollArmed = false := by
        have h := buildSlot_armed hx
        rwa [he] at h
      rw [State.body_eq, hdev x d hx, Device.polled, he, onEth, Eth.withPoll, harmed, Bool.false_or]
    · rw [State.body_eq, hdev x d hx, Device.polled_other hk]
    · rw [(hpolls.events e he).1]
      exact ⟨rfl, (BitVec.toNat_ofNat _ _).trans (Nat.mod_eq_of_lt hticks)⟩

end Sys2Proof.Machine
end
